-- ==== Sys2Proof/Word.lean ====
section
/-! DEFINITION. The word types of the Oroyrik and their plainest arithmetic (00_scope R1-R4). -/

namespace Sys2Proof

/-- A byte of memory. -/
abbrev Byte := BitVec 8

/-- A 64-bit register, address or control word. -/
abbrev Word := BitVec 64

/-- A 128-byte row as one number: byte k is bits [8k+7:8k] (R3). -/
abbrev Row := BitVec 1024

/-- A 512-bit record: record bit k is bit k mod 8 of byte k / 8 (R129). -/
abbrev RecWord := BitVec 512

/-- A register number field of a control word. -/
abbrev Reg := BitVec 6

/-- The four sequencers with their codes of R126: 0 = C, 1 = L, 2 = X, 3 = S. -/
inductive Seqr where
  | c | l | x | s
deriving DecidableEq, Repr

/-- The sequencer code of R126. -/
def Seqr.code : Seqr → Nat
  | .c => 0
  | .l => 1
  | .x => 2
  | .s => 3

/-- The sequencer of a code of R126. -/
def Seqr.ofCode : Nat → Option Seqr
  | 0 => some .c
  | 1 => some .l
  | 2 => some .x
  | 3 => some .s
  | _ => none

/-- An operand slot named by a fault record (R356). -/
inductive Slot where
  | none | d | a | b | m | q
deriving DecidableEq, Repr

/-- The SLOT byte of a fault record (R356). -/
def Slot.code : Slot → Nat
  | .none => 0
  | .d => 1
  | .a => 2
  | .b => 3
  | .m => 4
  | .q => 5

/-- The little-endian number of a list of bytes (R3). -/
def leNat : List Byte → Nat
  | [] => 0
  | b :: bs => b.toNat + 256 * leNat bs

/-- The n lowest bytes of a number, lowest first (R3). -/
def leBytes : Nat → Nat → List Byte
  | 0, _ => []
  | n + 1, v => BitVec.ofNat 8 v :: leBytes n (v / 256)

/-- Bits [lo+w-1:lo] of a number (R2). -/
def bitsOf (v lo w : Nat) : Nat := (v >>> lo) % 2 ^ w

/-- `v` with its bits [lo+w-1:lo] replaced by the low w bits of `x`. -/
def setBits (v lo w x : Nat) : Nat :=
  v - (bitsOf v lo w <<< lo) + ((x % 2 ^ w) <<< lo)

/-- Two's complement value of the low w bits of a number. -/
def signedOf (w v : Nat) : Int :=
  let u := v % 2 ^ w
  if 2 * u ≥ 2 ^ w ∧ w ≠ 0 then (u : Int) - (2 ^ w : Nat) else u

/-- ⌈a / b⌉ on naturals. -/
def ceilDiv (a b : Nat) : Nat := (a + b - 1) / b

end Sys2Proof
end

