-- ==== Sys2Proof/Config.lean ====
section
/-! DEFINITION. What the part fixes (counts, depths, versions) and the free values: values the manual leaves
open, as constants without a body, so that nothing can be proved of them. -/

namespace Sys2Proof.Config

/-- Tiles of the device (R16). -/
def tiles : Nat := 512
/-- Compute dies (R13). -/
def dies : Nat := 4
/-- Populated bytes of a slice: 6 MiB (R18). -/
def sliceBytes : Nat := 0x600000
/-- First HBM physical address that does not exist (R110). -/
def hbmLimit : Nat := 2 ^ 39
/-- The numeric behaviour version the Oroyrik honours (R67, R354). -/
def nbv : Nat := 1
/-- Depth of a token FIFO (R28). -/
def tokenDepth : Nat := 32
/-- Depth of dq.lx and dq.xs (R27). -/
def dqDepth : Nat := 16
/-- Depth of bq.lx (R27). -/
def bqDepth : Nat := 32
/-- Depth of rq.lx (R27). -/
def rqDepth : Nat := 64
/-- Depth of the merge slot's FIFO MS (R204). -/
def msDepth : Nat := 8
/-- Entries of the loop stack (R209). -/
def loopDepth : Nat := 4
/-- Records the race checker tracks (R349). -/
def raceDepth : Nat := 64
/-- Live sets the device holds (R84). -/
def maxSets : Nat := 4096
/-- Sets one strand may belong to (R84). -/
def maxStrandSets : Nat := 4
/-- Tensor slots of the planner, TIDs 1 to this (R309). -/
def maxTensors : Nat := 16383
/-- Plan slots of the planner (R309). -/
def maxPlans : Nat := 4096
/-- Bytes of one strand context in a Cocoon image, as the worked dump of 26_faults_debug_notes shows (log entry 10). -/
def contextBytes : Nat := 1703920

/-- FREE VALUE (log entry 9): the arena size, in 64 KiB units, that the planner's code needs for a tree and a choice,
given as numbers (R325 gives no formula). -/
opaque arenaUnits : List Nat → Nat

/-- FREE VALUE (log entry 9): byte i of what the planner writes into an arena at a draw (R326): its code is its own. -/
opaque arenaByte : Nat → Nat → Byte

/-- FREE VALUE (log entry 9): whether ASKIP removes key tile j for query tile i, where its estimates allow it: by what tells
runs apart, the operator's canonical position and the three operands' elements (R318, R329). -/
opaque removed : Nat → Nat → List (List Nat) → Nat → Nat → Bool

/-- FREE VALUE (log entry 9): the FP32 estimate of a query row over a key tile that SCOUT comes to where the planner's code has first
to bring Q or K into a form that SCOUT reads: by what tells runs apart, the operator's canonical position and the three operands'
elements (R285, R286, R318). -/
opaque estimate : Nat → Nat → List (List Nat) → Nat → Nat → BitVec 32

/-- FREE VALUE (log entry 9): query rows of a block of AHAWK, less one, by the operator's position and extents (R297, R319). -/
opaque queryBlock : List Nat → Nat

/-- FREE VALUE (log entry 9): MP of the HGATHERs of AHAWK, by the operator's position and extents (R297, R319). -/
opaque secondProbe : List Nat → Bool

/-- FREE VALUE (log entry 9): the place, by which the links of a stage's keys reach the owner of the chain array, of the
link of a key, by the keys' elements alone (R319, R303, R335). -/
opaque linkTurn : List Nat → Nat → Nat

/-- FREE VALUE (log entry 9): the value bits of a TOPK entry that names a CB2 weight, which has no encoding of its own, by
the weight and its index (R238, R318). -/
opaque topkBits : Nat → Nat → Nat

/-- FREE VALUE (log entry 9): where, from CADDR on, a row of the compressed copy begins: by the format, VL, whether it is in
2:4 layout and the row length; whether it holds index bits; and the row or row group (R311 gives the parts, not their
places). -/
opaque copyPlace : List Nat → Bool → Nat → Nat

/-- FREE VALUE (log entry 9): the number of strands of a stage the planner launches (R330 gives only its bounds). -/
opaque stageStrands : Nat → Nat

/-- FREE VALUE (log entry 9): the words of the packet the planner stores for a stage, but for those R330 fixes. -/
opaque stagePacketWord : Nat → Nat → Nat

/-- FREE VALUE (log entry 9): the node index in the stochastic key of an intermediate product of a chain that is the
value of no node of the tree, by the chain's top and the product's canonical position (R318 gives keys of nodes). -/
opaque chainKeyNode : Nat → Nat → Nat

/-- FREE VALUE (log entry 9): a byte the planner could not read while it applied a sample (R313). -/
opaque unreadByte : Nat → Byte

/-- FREE VALUE (log entry 9): fields of the fault record of a strand of a plan stage, whose code is the planner's. -/
opaque stageFaultWord : Nat → Nat → Nat

/-- FREE VALUE (log entry 9): what a trace sample shows of a strand of a plan stage, by draw and item (R379). -/
opaque stageSample : Nat → Nat → Nat

/-- FREE VALUE (log entry 10): LEN, in units of 16 bytes, of a record of a Cocoon image whose body the manual does not lay
out, by its place in the image (R377). -/
opaque cocoonUnits : Nat → Nat

/-- FREE VALUE (log entry 10): REMAIN of a record of a Cocoon image that holds what is on its way, by its place (R377). -/
opaque cocoonRemain : Nat → Nat

/-- FREE VALUE (log entry 17): the attribute of page i when SATTRBASE names an image outside HBM (R96, R110). -/
opaque openAttr : Nat → BitVec 2

/-- FREE VALUE (log entry 16): QUEUE, PKT and SEQNO of a fault record behind which no packet and no strand stands, and
SEQ and SEQNO of a KILLED record (R356 and R357 give none). -/
opaque recordField : Nat → Nat

/-- FREE VALUE (log entry 12): a value of a transcendental function that the bounded search for its correct
rounding did not separate from a rounding boundary. -/
opaque unresolvedRounding : Nat → Nat → Nat

/-- FREE VALUE (log entry 14): the element whose access failed, among those of an operation. -/
opaque failedElement : Nat → Nat

/-- FREE VALUE (log entry 15): cycles a requester waited for a bank (R380). -/
opaque bankWaits : Nat → Nat

end Sys2Proof.Config
end

