-- ==== Sys2Proof/Machine/Cells.lean ====
section
/-! DEFINITION. Finite maps as lists of key and value with strictly rising keys: one form for each map, so that equal
maps are equal data. `PMap` holds what is present; `Cells` are read with a default and never list it. -/

namespace Sys2Proof.Machine

/-- A finite map: keys strictly rising. -/
abbrev PMap (α : Type) := List (Nat × α)

/-- The value at a key. -/
def PMap.find? {α : Type} : PMap α → Nat → Option α
  | [], _ => none
  | (j, v) :: r, k => if j = k then some v else PMap.find? r k

/-- The map with a value placed at a key. -/
def PMap.insert {α : Type} : PMap α → Nat → α → PMap α
  | [], k, v => [(k, v)]
  | (j, w) :: r, k, v =>
    if k < j then (k, v) :: (j, w) :: r
    else if k = j then (k, v) :: r
    else (j, w) :: PMap.insert r k v

/-- The map without a key. -/
def PMap.erase {α : Type} : PMap α → Nat → PMap α
  | [], _ => []
  | (j, w) :: r, k => if j = k then PMap.erase r k else (j, w) :: PMap.erase r k

/-- The map with the value at a key changed, if there is one. -/
def PMap.modify {α : Type} (m : PMap α) (k : Nat) (f : α → α) : PMap α :=
  match m.find? k with
  | some v => m.insert k (f v)
  | none => m

/-- Keys are strictly rising, and all lie above `lo`. -/
def PMap.risingFrom {α : Type} : Nat → PMap α → Bool
  | _, [] => true
  | lo, (j, _) :: r => lo ≤ j && PMap.risingFrom (j + 1) r

/-- The one form of a map. -/
def PMap.wf {α : Type} (m : PMap α) : Bool := PMap.risingFrom 0 m

/-- The value of a cell, the default where none is listed. -/
def cellGet {α : Type} (d : α) (m : PMap α) (k : Nat) : α := (m.find? k).getD d

/-- The cells with a value written: writing the default removes the entry. -/
def cellSet {α : Type} [DecidableEq α] (d : α) (m : PMap α) (k : Nat) (v : α) : PMap α :=
  if v = d then m.erase k else m.insert k v

/-- The one form of cells: keys strictly rising and no entry equal to the default. -/
def cellsWf {α : Type} [DecidableEq α] (d : α) (m : PMap α) : Bool :=
  PMap.wf m && m.all (fun p => p.2 ≠ d)

end Sys2Proof.Machine
end

