-- ==== Sys2Proof/Syntax.lean ====
section
/-! DEFINITION. The steps of the part as syntax: one constructor for each row of the opcode table. Control words carry
the fields of R124 and R127, records the fields of R131 to R133, and the steps that are no words carry what the
event brings from outside. -/

namespace Sys2Proof

/-- An operand field of a record (R133). -/
structure Opd where
  base : BitVec 6
  off : BitVec 34
  s3 : BitVec 20
  s2 : BitVec 20
  s1 : BitVec 20
  s0 : BitVec 20
deriving DecidableEq, Repr, Inhabited

/-- The operand of kind 0: all zero (R134). -/
def Opd.zero : Opd := ⟨0, 0, 0, 0, 0, 0⟩

/-- Every field of a record but its opcode (R131, R132). -/
structure Rec where
  eng : BitVec 4
  fmt : BitVec 4
  push : BitVec 4
  pop : BitVec 4
  pred : BitVec 16
  stg : BitVec 8
  msk : BitVec 4
  dk : BitVec 2
  ak : BitVec 2
  bk : BitVec 2
  su : BitVec 1
  fn : BitVec 5
  t3 : BitVec 16
  t2 : BitVec 16
  t1 : BitVec 16
  t0 : BitVec 16
  d : Opd
  a : Opd
  b : Opd
  moda : BitVec 12
  modb : BitVec 12
deriving DecidableEq, Repr, Inhabited

/-- How an access or an engine operation fared below the instruction set (R342, R364). -/
inductive Health where
  /-- without error -/
  | clean
  /-- an ECC-uncorrectable read whose retry succeeded: SOFT_ECC -/
  | softEcc
  /-- a link CRC error whose resend succeeded: LINK_RETRY -/
  | linkRetry
  /-- an ECC-uncorrectable read that failed its retry: MEM_LASTING -/
  | memLasting
  /-- a link CRC error that failed its resend: LINK_LASTING -/
  | linkLasting
  /-- a deterministic access that missed its declared cycle: TIMING -/
  | timing
deriving DecidableEq, Repr

/-- The part whose training and test a PART_READY ends (R390). -/
inductive Part where
  | die (d : BitVec 2)
  | planner
  | hbm (s : BitVec 3)
  | link (l : BitVec 1)
  /-- a peer port trains: with the partner's DEVTIME and the measured delay (R395) -/
  | peer (p : BitVec 3) (devtime delay : Word)
deriving DecidableEq, Repr

/-- The answer to a request the device sent to the host or a peer (R108, R357). -/
inductive FarStatus where
  | success
  | error
deriving DecidableEq, Repr

/-- The 64-bit AtomicOps of PCI Express (R385, R388). -/
inductive HostAtomic where
  | fetchAdd
  | swap
  | cas
deriving DecidableEq, Repr

/-- What an access arriving from a peer port does (R393). -/
inductive PeerOp where
  /-- reads a row -/
  | read
  /-- writes the bytes whose bit of the mask is 1 -/
  | write (row : Row) (mask : BitVec 128)
  /-- an integer atomic of R107 by its kind 0 ADD, 1 MIN, 2 MAX, 3 MINU, 4 MAXU, 5 XCHG, 6 CAS, 7 FADD32, 8 FADD16 -/
  | atomic (kind : BitVec 4) (v expected : Word)
deriving DecidableEq, Repr

/-- What a host read reaches: the register slot at an offset of BAR0, or memory at an offset of BAR2 (R386, R388). -/
inductive BarPlace where
  | reg (off : Nat)
  | mem (off : Nat)
deriving DecidableEq, Repr

/-- Whose request comes through the host's window, and over which link (R386). -/
structure Via where
  link : BitVec 1
  fn : BitVec 4
deriving DecidableEq, Repr

/-- How the writes of a dump fare: the record of which one met an error, by its number from 1, if any, and whether the
header can be written (R378, R382). -/
structure DumpFate where
  fail : Option Nat
  header : Bool
deriving DecidableEq, Repr

/-- One constructor for each row of spec/opcode_table.json. -/
inductive Instr where
  -- three-register words, form F3 (R158)
  | add (xd xa xb : Reg)
  | sub (xd xa xb : Reg)
  | adds (xd xa xb : Reg)
  | subs (xd xa xb : Reg)
  | mul (xd xa xb : Reg)
  | mulh (xd xa xb : Reg)
  | mulhu (xd xa xb : Reg)
  | div (xd xa xb : Reg)
  | divu (xd xa xb : Reg)
  | rem (xd xa xb : Reg)
  | remu (xd xa xb : Reg)
  | and (xd xa xb : Reg)
  | or (xd xa xb : Reg)
  | xor (xd xa xb : Reg)
  | sll (xd xa xb : Reg)
  | srl (xd xa xb : Reg)
  | sra (xd xa xb : Reg)
  | min (xd xa xb : Reg)
  | max (xd xa xb : Reg)
  | minu (xd xa xb : Reg)
  | maxu (xd xa xb : Reg)
  | slt (xd xa xb : Reg)
  | sltu (xd xa xb : Reg)
  -- immediate words, form FI (R160)
  | addi (xd xa : Reg) (imm : BitVec 32)
  | andi (xd xa : Reg) (imm : BitVec 32)
  | ori (xd xa : Reg) (imm : BitVec 32)
  | xori (xd xa : Reg) (imm : BitVec 32)
  | slli (xd xa : Reg) (sh : BitVec 6)
  | srli (xd xa : Reg) (sh : BitVec 6)
  | srai (xd xa : Reg) (sh : BitVec 6)
  | slti (xd xa : Reg) (imm : BitVec 32)
  | movi (xd : Reg) (imm : BitVec 32)
  | movhi (xd xa : Reg) (imm : BitVec 32)
  -- windows, base registers, stage predicates (R161, R162)
  | cvta (xd xa : Reg) (win : BitVec 2)
  | isap (xd xa : Reg) (win : BitVec 2)
  | movb (bn : BitVec 5) (xa : Reg)
  | movxb (xd : Reg) (bn : BitVec 5)
  | pset (sn : BitVec 3) (xa : Reg)
  | pget (xd : Reg) (sn : BitVec 3)
  -- branches, form FB, and JR (R163, R164)
  | beq (xa xb : Reg) (off : BitVec 38)
  | bne (xa xb : Reg) (off : BitVec 38)
  | blt (xa xb : Reg) (off : BitVec 38)
  | bge (xa xb : Reg) (off : BitVec 38)
  | bltu (xa xb : Reg) (off : BitVec 38)
  | bgeu (xa xb : Reg) (off : BitVec 38)
  | jmp (off : BitVec 38)
  | call (xd : Reg) (off : BitVec 38)
  | jr (xd xa : Reg)
  -- loads, stores and atomics, form FM (R165, R166); FENCE (R167)
  | ld (xd xa : Reg) (scope : BitVec 3) (ord : BitVec 2) (off : BitVec 33)
  | st (xb xa : Reg) (scope : BitVec 3) (ord : BitVec 2) (off : BitVec 33)
  | aadd (xd xa xb : Reg) (scope : BitVec 3) (ord : BitVec 2) (off : BitVec 33)
  | amin (xd xa xb : Reg) (scope : BitVec 3) (ord : BitVec 2) (off : BitVec 33)
  | amax (xd xa xb : Reg) (scope : BitVec 3) (ord : BitVec 2) (off : BitVec 33)
  | aminu (xd xa xb : Reg) (scope : BitVec 3) (ord : BitVec 2) (off : BitVec 33)
  | amaxu (xd xa xb : Reg) (scope : BitVec 3) (ord : BitVec 2) (off : BitVec 33)
  | axchg (xd xa xb : Reg) (scope : BitVec 3) (ord : BitVec 2) (off : BitVec 33)
  | acas (xd xa xb : Reg) (scope : BitVec 3) (ord : BitVec 2) (off : BitVec 33)
  | afadd32 (xd xa xb : Reg) (scope : BitVec 3) (ord : BitVec 2) (off : BitVec 33)
  | afadd16 (xd xa xb : Reg) (scope : BitVec 3) (ord : BitVec 2) (off : BitVec 33)
  /-- the owner performs the k-th of the atomics on their way (R107) -/
  | atomicPerform (k : Nat)
  | fence (scope : BitVec 3) (kind : BitVec 2)
  -- sets (R168, R169)
  | join (xa : Reg) (imm : BitVec 16)
  | leave (xa : Reg) (imm : BitVec 16)
  | sbar (xa : Reg) (imm : BitVec 16)
  /-- the home command processor applies the k-th of the set requests on their way (R85, R402) -/
  | setRequestApply (k : Nat)
  /-- the k-th of the answers on their way reaches its strand (R402) -/
  | setAnswerArrival (k : Nat)
  -- timelines and tokens (R170 to R173)
  | tlwait (xa : Reg) (ctr : BitVec 4)
  | tlread (xd : Reg) (ctr : BitVec 4) (cmp : BitVec 1)
  | drain (ch : BitVec 2)
  /-- push on the FIFO from C to the sequencer of this code, 1 to 3 -/
  | qpush (dst : BitVec 2)
  /-- pop from the FIFO from the sequencer of this code, 1 to 3, to C -/
  | qpop (src : BitVec 2)
  -- configuration registers and codebooks (R174, R177)
  | csrr (xd : Reg) (csr : BitVec 16)
  | csrw (xd xa : Reg) (csr : BitVec 16)
  | csrs (xd xa : Reg) (csr : BitVec 16)
  | csrc (xd xa : Reg) (csr : BitVec 16)
  | cbld (cb : BitVec 2) (xa : Reg) (imm : BitVec 32)
  -- launch, probe, quiesce, traps, end (R178 to R184)
  | launch (xd xa xc : Reg)
  | probe (xd xa xc : Reg) (w : BitVec 1)
  | quiesce
  | trap (imm : BitVec 32)
  | tret
  | nop
  | endC
  -- planner words (R312, R316, R326, R327)
  | tregReg (xd xa : Reg)
  | tregUpd (xd xa : Reg)
  | tregRst (xd xa : Reg)
  | tregDel (xd xa : Reg)
  | plan (xd xa xc : Reg) (hints : BitVec 4) (n : BitVec 16)
  | phint (xd xa : Reg) (hints : BitVec 4)
  | ppinOn (xa : Reg)
  | ppinOff (xa : Reg)
  | prun (xd xa xc : Reg)
  | prel (xa : Reg)
  | statrd (xd xa xc : Reg)
  | pfpr (xd xa : Reg) (sel : BitVec 3)
  /-- the break that follows a stage of the run of this tl.mon number (R331, R332) -/
  | planBreak (run : Nat)
  /-- the planner applies the statistics sample at its head (R309, R314) -/
  | atlasSampleApply
  -- records (R141)
  | copy (r : Rec)
  | copyf (r : Rec)
  | rld (r : Rec)
  | rst (r : Rec)
  | tld (r : Rec)
  | kld (r : Rec)
  | gather (r : Rec)
  | scatter (r : Rec)
  | rmerge (r : Rec)
  | bqpush (r : Rec)
  | rqld (r : Rec)
  | loop (r : Rec)
  | loopq (r : Rec)
  | endl (r : Rec)
  | rot (r : Rec)
  | drainRec (r : Rec)
  | tlwaitRec (r : Rec)
  | sync (r : Rec)
  | endRec (r : Rec)
  | brq (r : Rec)
  /-- the outcome a run-ahead episode of this tile waits for is popped and the episode settled (R275) -/
  | runaheadResolution (tile : Nat)
  | vadd (r : Rec)
  | vsub (r : Rec)
  | vmul (r : Rec)
  | vfma (r : Rec)
  | vdiv (r : Rec)
  | vmin (r : Rec)
  | vmax (r : Rec)
  | vabs (r : Rec)
  | vneg (r : Rec)
  | vexp (r : Rec)
  | vlog (r : Rec)
  | vrcp (r : Rec)
  | vrsq (r : Rec)
  | vtanh (r : Rec)
  | vsigm (r : Rec)
  | vcmp (r : Rec)
  | vsel (r : Rec)
  | vcvt (r : Rec)
  | vrsum (r : Rec)
  | vrmax (r : Rec)
  | vrmin (r : Rec)
  | vscan (r : Rec)
  | vtopk (r : Rec)
  | vdrop (r : Rec)
  | vand (r : Rec)
  | vor (r : Rec)
  | vxor (r : Rec)
  | vnot (r : Rec)
  | vshl (r : Rec)
  | vshr (r : Rec)
  | vband (r : Rec)
  | vpopc (r : Rec)
  | visect (r : Rec)
  | vclmul (r : Rec)
  | vcomp (r : Rec)
  | vexpand (r : Rec)
  | vcopy (r : Rec)
  | vfill (r : Rec)
  | viota (r : Rec)
  | vsqrt (r : Rec)
  | mma (r : Rec)
  | mmanm (r : Rec)
  | mmacb (r : Rec)
  | mmag (r : Rec)
  | mmak (r : Rec)
  | azero (r : Rec)
  | awrq (r : Rec)
  | awrm (r : Rec)
  | awrt (r : Rec)
  | tlds (r : Rec)
  | tsts (r : Rec)
  | tqld (r : Rec)
  | tstq (r : Rec)
  | scommit (r : Rec)
  | sdiscard (r : Rec)
  | mnest (r : Rec)
  | scout (r : Rec)
  | thresh (r : Rec)
  | sreset (r : Rec)
  | hcfg (r : Rec)
  | hcfgRet (r : Rec)
  | hproj (r : Rec)
  | hreset (r : Rec)
  | kstore (r : Rec)
  | hgather (r : Rec)
  | hcount (r : Rec)
  /-- the owner applies the k-th of the links on their way (R296) -/
  | hawkmothLink (k : Nat)
  /-- the owner performs the next chain read of the HGATHER of this tile (R298) -/
  | chainRead (tile : Nat)
  /-- the oldest finished operation of an engine of the running strand completes (R104) -/
  | engineOperationComplete (tile : Nat) (eng : Nat) (health : Health)
  /-- a record retires and pushes its tokens (R122, R137) -/
  | recordRetire (tile : Nat) (q : Seqr) (seqno : Nat)
  /-- a stalled word or record of a sequencer is tried again (R28) -/
  | stallRelease (tile : Nat) (q : Seqr)
  /-- a fetched row arrives at a sequencer (R401) -/
  | instructionFetchReturn (tile : Nat) (q : Seqr) (va : Word)
  /-- die 0's command processor draws a queue (R73) -/
  | lotteryDraw
  | armAck (gang : BitVec 32) (port : BitVec 3)
  | gangDecision (launch : Nat)
  | dropMsg (gang : BitVec 32)
  | strandBind (die : BitVec 2)
  | deterministicLaunchStart (launch : Nat)
  | strandEnd (tile : Nat)
  | launchPark (launch : Nat)
  | parkedResume (launch : Nat)
  | quantumExpiry (tile : Nat)
  | swapreq (v : BitVec 32)
  | swap (tile : Nat)
  | watchdog (tile : Nat)
  | impreciseFaultDelivery (tile : Nat)
  | ivctlGo (v : BitVec 32)
  | quiesceTimeout (tile : Nat)
  /-- PRQACK written over a link through a function's window, at its own slot or at the physical function's (R117, R386,
  R389) -/
  | prqack (via : Via) (own : Bool) (v : Word)
  | killStrand (v : BitVec 32)
  | killLaunch (v : BitVec 32)
  | killDone
  | breakpointResume
  | chrysalisStopRequest
  | chrysalisStop
  | chrysalisResume
  | cocoonDump
  /-- the dump ends (R378, R382) -/
  | cocoonDumpEnd (fate : DumpFate)
  | traceSample
  | bcmClear (tile : Nat) (v : BitVec 32)
  | qctlWrite (n : BitVec 8) (v : BitVec 32)
  | qbaseWrite (n : BitVec 8) (v : Word)
  | pwrctlWrite (v : BitVec 32)
  /-- a host write of the BAR0 slot at this offset of function fn, over a link (R386, R389) -/
  | registerWrite (link : BitVec 1) (fn : BitVec 4) (off : Nat) (v : Word)
  /-- a host read of n bytes at a place in the windows of function fn, over a link (R386, R388, R389) -/
  | hostRead (link : BitVec 1) (fn : BitVec 4) (place : BarPlace) (n : Nat)
  | hostWrite (link : BitVec 1) (fn : BitVec 4) (off : Nat) (bytes : List Byte)
  | hostAtomicop (link : BitVec 1) (fn : BitVec 4) (op : HostAtomic) (off : Nat) (v expected : Word)
  | peerAccess (port : BitVec 3) (va : Word) (op : PeerOp)
  /-- a port trains: the partner's DEVTIME and the measured delay (R395) -/
  | peerPortTrain (port : BitVec 3) (devtime delay : Word)
  | peerPortDown (port : BitVec 3)
  | reset
  /-- a part sets its READY bit; failed: the tiles of the die that failed their test (R390, R392) -/
  | partReady (part : Part) (failed : BitVec 128)
  /-- the power controller lowers or raises the clock by the hottest junction of the compute dies, of the HBM stacks and of
  the rest of the module, and by the average power (R397, R398) -/
  | powerThrottle (dies hbm rest : BitVec 8) (power : BitVec 12)
  | thermalShutdown
  /-- the planner applies the request at its head (R309) -/
  | plannerRequestApply
  /-- the answer to a request to the host or a peer (R108, R357) -/
  | hostCompletion (id : Nat) (status : FarStatus) (data : Row)
  | coolantEnvelopeChange (outside : Bool)
deriving DecidableEq, Repr

end Sys2Proof
end

