-- ==== Sys2Proof/Machine/State.lean ====
section
/-! DEFINITION. The state of the module as plain data: strand contexts, tiles, memory, command processors, planner, the
requests on their way, and what the model adds to say which agent moves next. -/

namespace Sys2Proof.Machine

/-- Codes of a fault record (R357). -/
inductive Code where
  | illegalOp | format | shape | scaleAxis | race | address | xlate | mode | atomic | launch | nbv
  | setLimit | setMember | unhandledTrap | compactOvf | denseFallback | planInvalid | gangLost
  | quiesceTimeout | timing | watchdog | memLasting | linkLasting | hostAbort | peerDown | killed
  | softEcc | linkRetry | killDone | break | stopped | dumped
deriving DecidableEq, Repr

/-- A fault as raised: its code, the operand slot and the element index it names (R356). -/
structure Raise where
  code : Code
  slot : Slot
  index : Nat
deriving DecidableEq, Repr

/-- An entry of a TLB (R113, R343): the page's first address, its size, its leaf entry, and the entry's number in its TLB, 0 for
what a walk has just found. -/
structure TlbEntry where
  page : Nat
  big : Bool
  leaf : Word
  num : Nat
deriving DecidableEq, Repr

/-- A tile register: tag, 128 rows of 256 bytes, and the scale store (R24, R25, R49; log entry 13). -/
structure TileReg where
  tag : BitVec 4
  rows : PMap (BitVec 2048)
  scale : PMap Byte
deriving DecidableEq, Repr

/-- An accumulator or shadow accumulator: element (m, n) at key 128·m + n (R250). -/
structure AccReg where
  tag : BitVec 4
  el : PMap (BitVec 96)
deriving DecidableEq, Repr

/-- A mask register (R24). -/
structure MaskReg where
  tag : BitVec 4
  bits : BitVec 65536
deriving DecidableEq, Repr

/-- An entry of a loop stack (R209). -/
structure LoopEntry where
  body : Word
  last : Word
  remaining : BitVec 32
deriving DecidableEq, Repr

/-- What a decoded record of a sequencer waits for before the next record is decoded (R208, R212, R273). -/
inductive Wait where
  /-- it is tried again: LOOPQ or BRQ on an empty queue, or a record that only PRED holds -/
  | again
  /-- DRAIN: the captured issue value of a channel (R105) -/
  | drain (ch : Nat) (v : Nat)
  /-- TLWAIT record: the counter and the value read at decode (R212) -/
  | tl (ctr : Nat) (v : Nat)
  /-- SYNC: the captured issue value of each counter (R212) -/
  | sync (vs : List Nat)
deriving DecidableEq, Repr

/-- What a record that waits read once, when it was decoded: whether its stage predicate holds, and the base values of
D, A and B (R140). -/
structure AtDecode where
  run : Bool
  bd : Word
  ba : Word
  bb : Word
deriving DecidableEq, Repr

/-- A record sequencer L, X or S. -/
structure RSeq where
  pc : Word
  seqno : Nat
  ended : Bool
  loops : List LoopEntry
  rotb : BitVec 4
  kc : BitVec 32
  /-- the record at pc has made its token pops and waits -/
  wait : Option Wait
  /-- what it read at decode; zero while nothing waits -/
  read : AtDecode
  /-- rows fetched ahead: row address and content (R401) -/
  window : List (Nat × Row)
deriving DecidableEq, Repr

/-- What LAUNCH has read before it claims a slot (R178): the queue's base address and size, and the packet. -/
structure Posting where
  base : Nat
  size : Nat
  packet : BitVec 512
deriving DecidableEq, Repr

/-- What the word at C's pc waits for (R154, R157). -/
inductive CWait where
  | idle
  /-- TLWAIT, QPUSH, QPOP, or PROBE at its start, found its condition unmet; nothing is kept -/
  | stalled
  /-- TLWAIT on `tl.mon` found the value not completed; nothing is kept (R157, R346) -/
  | monWait (v : Nat)
  /-- a load or atomic whose answer comes from outside or from the owner; the number names the request -/
  | answer (id : Nat)
  /-- DRAIN: the captured issue value -/
  | drain (v : Nat)
  /-- SBAR: the set, captured issue values, whether the arrival has been sent, and whether the barrier is known complete
  (R169) -/
  | sbar (id : Nat) (vs : List Nat) (sent fin : Bool)
  /-- JOIN or LEAVE: the request has been sent (R168) -/
  | setReq
  /-- LAUNCH: slot w is claimed and must become free (R178) -/
  | launch (p : Posting) (w : Nat)
  /-- LAUNCH: the claim on a host or peer page awaits its answer -/
  | claim (id : Nat) (p : Posting)
  /-- LAUNCH: the read index on a host or peer page awaits its answer -/
  | readIndex (id : Nat) (p : Posting) (w : Nat)
  /-- LAUNCH: the packet row on a host or peer page awaits its answer -/
  | packet (id : Nat)
  /-- LAUNCH: the packet has been read -/
  | gotPacket (packet : BitVec 512)
  /-- LAUNCH: the queue's base and size have been taken too, nothing is claimed yet -/
  | post (p : Posting)
  /-- LAUNCH: slot w is free, the packet is to be stored -/
  | store (p : Posting) (w : Nat)
  /-- CBLD: the register, rows loaded so far, and the request that awaits its answer -/
  | cbld (n : Nat) (rows : List Row) (id : Option Nat)
  /-- PROBE: bytes confirmed up to here, and the page request posted there, if any (R116) -/
  | probe (p : Nat) (tag : Option Nat)
  /-- PROBE: the page here has no translation, and its request is still to be posted (R116, R117) -/
  | ask (p : Nat)
  /-- a planner word whose request has been sent (R310) -/
  | planner
  /-- QUIESCE in its stall (R119) -/
  | quiesce
deriving DecidableEq, Repr

/-- The control sequencer C. -/
structure CSeq where
  pc : Word
  seqno : Nat
  ended : Bool
  wait : CWait
  /-- kept state of a word interrupted by a delivered fault (R157, R359) -/
  kept : CWait
  /-- rows fetched ahead: row address and content (R401) -/
  window : List (Nat × Row)
  /-- targets of the branches decoded and not taken since C last went elsewhere, along which it fetches too (R155) -/
  targets : List Word
deriving DecidableEq, Repr

/-- What the race checker tracks of an operand (R349). -/
inductive FootItem where
  /-- rows lo to hi of the shared window, in shared-window addresses -/
  | rows (lo hi : Nat)
  /-- every row of the populated slices of n tiles from a tile on (R18, R349) -/
  | slices (tile n : Nat)
  | tile (n : Nat)
  | acc (n : Nat)
  | mask (n : Nat)
  | book (n : Nat)
deriving DecidableEq, Repr

/-- One item of a footprint: the operand's slot, the item, and whether it is written. -/
structure Foot where
  slot : Slot
  item : FootItem
  write : Bool
deriving DecidableEq, Repr

/-- How far a record has come. -/
inductive Phase where
  /-- decoded, its channel or feeder has not accepted it -/
  | held
  /-- accepted by its engine: its number is taken, no issue is made (R32) -/
  | accepted
  /-- issued: what it captures at its issue is captured and the race checker tracks it; its own checks come next -/
  | starting
  /-- issues are being made -/
  | running
  /-- every issue made -/
  | done
  /-- complete (R104) -/
  | complete
deriving DecidableEq, Repr

/-- A row of a host page (port none) or of a peer page that a record has read: where it lies there, and its content. -/
structure FarRow where
  port : Option Nat
  addr : Nat
  row : Row
deriving DecidableEq, Repr

/-- Progress of an HGATHER (R297 to R299), or of an HRESET (R303). -/
structure HGather where
  /-- buckets to be read, each with the lowest query row that probes it; HRESET's rows still to be written -/
  todo : List (Nat × Nat)
  /-- distinct buckets of the block -/
  probes : Nat
  /-- tokens read so far -/
  tokens : List Nat
  /-- the lowest query row whose probe read an overflowed bucket -/
  overflow : Option Nat
  /-- entries of PAD, read once as the record starts (R297) -/
  pad : Nat
deriving DecidableEq, Repr

/-- A record decoded and not retired, or retired and not complete. -/
structure Op where
  q : Seqr
  seqno : Nat
  pc : Word
  ins : Instr
  /-- the base values read at decode for D, A and B (R140) -/
  bd : Word
  ba : Word
  bb : Word
  /-- the engine's number, 0 where it takes none (R32) -/
  num : Nat
  phase : Phase
  /-- retired (R104, R122) -/
  retired : Bool
  /-- no issue and no number: the predicate failed or a trip count is 0 (R139), or its sequencer carried it out (R208) -/
  empty : Bool
  /-- the next issue -/
  n : Nat
  /-- rows popped for the next issue -/
  buf : List Row
  /-- entries waiting to be pushed -/
  out : List Row
  /-- rows of host and peer pages that have arrived for the issue under way -/
  fetched : List FarRow
  /-- requests to host and peers that await their answers -/
  waiting : List Nat
  /-- TSHAPE registers captured at issue (R26) -/
  shapes : Vector (BitVec 32) 16
  /-- the layout row (R196) -/
  layout : Option Row
  /-- SRSEED and SRCTR captured at issue (R55, R56) -/
  seed : Word
  ctr : Nat
  foot : List Foot
  /-- the schedule cycle of its latest issue (R384) -/
  cycle : Nat
  /-- run-ahead: the accumulator redirected to its shadow (R274) -/
  redirect : Bool
  /-- run-ahead: the accumulator is copied into its shadow first (R274) -/
  copies : Bool
  /-- HGATHER's or HRESET's progress -/
  hg : Option HGather
  /-- a fault found after the writes of its issue, or held on a run-ahead path -/
  late : Option Raise
deriving DecidableEq, Repr

/-- A run-ahead episode of X (R274). -/
structure Episode where
  /-- the BRQ -/
  pc : Word
  seqno : Nat
  r : Rec
  /-- accumulators redirected so far -/
  redirected : List Nat
  /-- records decoded on the path -/
  count : Nat
  /-- the sequencers from whose FIFOs they have popped tokens, once for each pop -/
  popped : List Nat
  /-- the held fault of lowest sequence number, with that number -/
  fault : Option (Raise × Nat)
  /-- once the outcome is popped: whether the prediction was correct, and the path not taken in decode -/
  outcome : Option (Bool × Word)
deriving DecidableEq, Repr

/-- A timeline counter (R32). -/
structure Timeline where
  issue : Nat
  completion : Nat
  /-- numbers above the completion value that have completed -/
  early : List Nat
deriving DecidableEq, Repr

/-- A data queue (R27): its rows and how many bits of the head widening pops have delivered (R58, R59). -/
structure DataQueue where
  rows : List Row
  bits : Nat
deriving DecidableEq, Repr

/-- A Hawkmoth head context (R289). -/
structure Head where
  fbvec : Word
  dim : Nat
  bexp : Nat
  np : Nat
  dthresh : Nat
  limit : Nat
  nnodes : Nat
  /-- owner tile and slice offset of HBASE -/
  tile : Nat
  off : Nat
  /-- element e of hyperplane j at key 128·j + e -/
  proj : PMap (BitVec 16)
  cv : Bool
  pv : Bool
  fbcnt : BitVec 32
  fbidx : BitVec 32
  fbwhy : Nat
deriving DecidableEq, Repr

/-- An ordering that a wait, SYNC or DRAIN of a sequencer made (R349): its records numbered `since` or above come after record
n of sequencer e. -/
structure Ordering where
  q : Seqr
  since : Nat
  e : Seqr
  n : Nat
deriving DecidableEq, Repr

/-- A strand's context and its binding (R21, R24, R62, R361). -/
structure Strand where
  /-- the model's own name of the strand -/
  uid : Nat
  launch : Nat
  index : Nat
  queue : Nat
  pkt : Nat
  fn : Nat
  det : Bool
  nbv : BitVec 16
  wdlimit : Nat
  /-- bound but not yet started: gang and deterministic launches (R77, R81) -/
  started : Bool
  x : Vector Word 64
  b : Vector Word 32
  s : BitVec 8
  t : Vector TileReg 16
  /-- acc0 to acc3, then sacc0 to sacc3 -/
  acc : Vector AccReg 8
  k : Vector MaskReg 16
  cb : Vector (BitVec 8192) 4
  tshape : Vector (BitVec 32) 16
  dqfmtlx : BitVec 32
  dqfmtxs : BitVec 32
  srseed : Word
  srctr : BitVec 32
  dqsnlx : BitVec 32
  dqsnxs : BitVec 32
  tvec : Word
  tepc : Word
  tcause : Word
  act : Bool
  intr : Bool
  /-- Monarch cost registers 0x0500 to 0x053F (R322) -/
  cost : Vector Word 64
  /-- tokens: FIFO x → y at index 4·x + y (R27) -/
  tokens : Vector Nat 16
  dqlx : DataQueue
  dqxs : DataQueue
  bq : List (BitVec 16)
  rq : List (BitVec 32)
  ms : List Row
  wlo : Row
  whi : Row
  wn : Nat
  /-- ch0 to ch3, me, ve, ga, sk, hm (R32) -/
  tl : Vector Timeline 9
  c : CSeq
  l : RSeq
  xs : RSeq
  ss : RSeq
  lqprev : BitVec 32
  episode : Option Episode
  /-- who lost the last contest on each channel, none before the first (R23) -/
  contest : Vector (Option Seqr) 4
  ops : List Op
  /-- orderings that waits made toward records that are not retired (R349) -/
  ordered : List Ordering
  rmax : Vector (BitVec 32) 128
  margin : BitVec 32
  heads : Vector Head 4
  hfact : Bool
  hfret : Word
  hfdep : Nat
  /-- C, ch0 to ch3, gather, matrix, record fetch; most recently used first (R113) -/
  tlb : Vector (List TlbEntry) 8
  /-- for each TLB, the pages that the current record of its stream has touched (R113, R343) -/
  pages : Vector (List Nat) 8
  scyc : Nat
  wdcount : Nat
  quantum : Nat
  /-- sets at which an arrival is still to be answered whose SBAR was abandoned in a handler (R183) -/
  lateBars : List Nat
  /-- imprecise faults that await C's next boundary, each with the sequence number it names (R359) -/
  pendingFaults : List (Raise × Nat)
deriving DecidableEq, Repr

/-- What a tile holds beside its strand slots. -/
structure Tile where
  /-- BCM[r][b] at key 32·r + b (R380) -/
  bcm : PMap (BitVec 32)
  bcctl : BitVec 32
  /-- the replica of the SRAM attribute table, page i at key i (R96) -/
  attr : PMap (BitVec 2)
  /-- a swap is in progress, by quantum (false) or SWAPREQ (true) (R362) -/
  swap : Option Bool
  /-- the slots are exchanging: the strand in the running slot does not run yet (R362, R383) -/
  exchanging : Bool
deriving DecidableEq, Repr

/-- State of a gang launch (R81, R82). -/
inductive Gang where
  | none
  | armed
  | committed
  | lost
deriving DecidableEq, Repr

/-- An accepted launch (R66, R76, R79). -/
structure Launch where
  /-- the name of strand 0; strand i is named uid0 + i -/
  uid0 : Nat
  queue : Nat
  pkt : Nat
  fn : Nat
  packet : BitVec 512
  header : BitVec 512
  /-- groups of the placement map in map order: first, last, die (R76) -/
  groups : List (Nat × Nat × Nat)
  /-- next strand index to look at on each die -/
  next : Vector Nat 4
  /-- strands bound so far -/
  bound : Nat
  /-- strands ended so far -/
  ended : Nat
  started : Bool
  /-- the status it would store now: 1, 3 after a fault, 4 after a kill (R79) -/
  status : Nat
  killed : Bool
  gang : Gang
  ackSent : Bool
  desync : Bool
  parked : Bool
  /-- its schedule cycle, in deterministic mode (R344) -/
  scyc : Nat
  /-- the tl.mon number of the plan run this launch is a stage of (R330) -/
  stage : Option Nat
  /-- the plan run's issuing launch (R346) -/
  issuer : Option Nat
deriving DecidableEq, Repr

/-- A pending barrier of a set: the members it counts and those that have arrived (R85). -/
structure Barrier where
  counted : List Nat
  arrived : List Nat
deriving DecidableEq, Repr

/-- A set (R83, R85): members, and pending barriers, the oldest first. -/
structure SetEntry where
  members : List Nat
  barriers : List Barrier
deriving DecidableEq, Repr

/-- What a strand asks of a set's home (R168, R169). -/
inductive SetOp where
  | join
  | leave
  | arrive
deriving DecidableEq, Repr

/-- A request on its way to the home die (R402). -/
structure SetReq where
  uid : Nat
  fn : Nat
  id : Nat
  op : SetOp
deriving DecidableEq, Repr

/-- An answer on its way to a strand (R402). -/
structure SetAns where
  uid : Nat
  id : Nat
  op : SetOp
  fault : Bool
deriving DecidableEq, Repr

/-- What an atomic does (R107). -/
inductive AtomKind where
  | add | min | max | minu | maxu | xchg | cas | fadd32 | fadd16
deriving DecidableEq, Repr

/-- What a record says beyond the fault itself (R356). -/
structure Where where
  fn : Nat
  seq : Nat
  seqno : Nat
  queue : Nat
  tile : Nat
  pkt : Nat
  scyc : Nat
deriving DecidableEq, Repr

/-- An atomic of C on its way to its owner (R107). -/
structure AtomReq where
  id : Nat
  uid : Nat
  kind : AtomKind
  /-- the cell: a key of memory -/
  addr : Nat
  v : Word
  expected : Word
  xd : Reg
  /-- whose it is and in which schedule cycle it left, as a record says it (R356, R384) -/
  who : Where
deriving DecidableEq, Repr

/-- A Hawkmoth link on its way (R295, R296). -/
structure LinkReq where
  uid : Nat
  seqno : Nat
  /-- the key's number in its KSTORE -/
  index : Nat
  /-- memory key of HBASE -/
  base : Nat
  bexp : Nat
  limit : Nat
  nnodes : Nat
  bucket : Nat
  token : Nat
  /-- whose it is and the schedule cycle of the issue that sent it, as a record says it (R356, R384) -/
  who : Where
deriving DecidableEq, Repr

/-- Who waits for an answer from the host or a peer. -/
inductive FarFor where
  /-- C's load: the register and which 8 bytes -/
  | load (xd : Reg) (addr : Nat)
  /-- C's atomic -/
  | atom (xd : Reg) (kind : AtomKind) (addr : Nat)
  /-- a word of C that keeps the row in its own wait -/
  | word (addr : Nat)
  /-- a record's read of a row -/
  | row (q : Seqr) (seqno : Nat) (addr : Nat) (slot : Slot) (index : Nat)
  /-- a row of a sequencer's words or records -/
  | fetch (q : Seqr) (va : Nat)
  /-- a command processor's or the planner's read of a row (R71, R76, R80, R317, R358) -/
  | proc
  /-- the planner's claim of a slot for the run of this number (R332) -/
  | claim (run : Nat)
deriving DecidableEq, Repr

/-- A request outstanding at the host or a peer (R108, R115, R393). A read of a host page that is wider than 8 bytes is
several requests (R94), and each names the first of them, under whose number the requester waits. -/
structure FarReq where
  id : Nat
  lead : Nat
  uid : Nat
  /-- the peer port, none for the host -/
  port : Option Nat
  addr : Nat
  use : FarFor
deriving DecidableEq, Repr

/-- Eight bytes of a host row that have arrived while others of the row are on their way (R94). -/
structure FarPart where
  lead : Nat
  addr : Nat
  word : Word
deriving DecidableEq, Repr

/-- A row of host or peer memory that a command processor has read, none where the read was answered with an error. -/
structure ProcRow where
  port : Option Nat
  addr : Nat
  row : Option Row
deriving DecidableEq, Repr

/-- The two rings a device writes records to (R358, R379). -/
inductive RingKind where
  | fault
  | trace
deriving DecidableEq, Repr

/-- A record on its way to a ring. -/
structure RingRec where
  kind : RingKind
  fn : Nat
  bytes : List Byte
deriving DecidableEq, Repr

/-- A status that waits to be stored at its SIGNAL address (R79, R391). -/
structure StatusReq where
  fn : Nat
  queue : Nat
  pkt : Nat
  signal : Nat
  status : Nat
deriving DecidableEq, Repr

/-- A page request outstanding (R117). -/
structure PageReq where
  fn : Nat
  tag : Nat
  uid : Nat
  answer : Option Bool
deriving DecidableEq, Repr

/-- A registered tensor (R311, R314): the descriptor's fields and the statistics. -/
structure Tensor where
  live : Bool
  fn : Nat
  base : Nat
  blkaddr : Nat
  caddr : Nat
  pitch : Nat
  dims : List Nat
  fmt : Nat
  vl : Nat
  cbaddr : Nat
  serial : Nat
  gen : Nat
  nsamp : Nat
  nz : Nat
  nelem : Nat
  c24 : Nat
  c48 : Nat
  amin : BitVec 96
  amax : BitVec 96
  hist : PMap Nat
deriving DecidableEq, Repr

/-- A request on its way to the planner (R309). -/
inductive PlanReq where
  /-- a planner word of the strand -/
  | word (uid : Nat) (i : Instr)
  /-- a statistics sample of a record: its strand's function, queue and packet, the row's address as formed, its content (R313) -/
  | sample (uid : Nat) (q : Seqr) (seqno : Nat) (fn queue pkt : Nat) (addr : Nat) (row : Row)
deriving DecidableEq, Repr

/-- What is on its way between two parts of the device, or between it and the host or a peer, as a Cocoon image lists it
(R377). -/
inductive Flight where
  | atom (a : AtomReq)
  | link (k : LinkReq)
  | setReq (r : SetReq)
  | setAns (a : SetAns)
  | far (f : FarReq)
  /-- a request of the host or a peer that is held -/
  | outer (i : Instr)
deriving DecidableEq, Repr

/-- The body of a record of a Cocoon image (R377): what it holds; only for a bank-conflict matrix does the manual lay out the
bytes (R380, R381; log entry 10). -/
inductive ImageBody where
  /-- TYPE 1: the context, whose items R361 lists -/
  | context (st : Strand)
  /-- TYPE 2, 3, 6 and 7 -/
  | flight (f : Flight)
  /-- TYPE 4: LSEED, whether a draw is in progress, the held packet and its queue, the set tables -/
  | processor (lseed : Word) (draw : Bool) (held : Option (Nat × BitVec 512)) (sets : PMap SetEntry)
  /-- TYPE 5 -/
  | request (r : PlanReq)
  /-- TYPE 8 -/
  | matrix (bytes : List Byte)
deriving DecidableEq, Repr

/-- A message the device sends on a host link or a peer port. -/
inductive Msg where
  /-- a read of n bytes at an address: 8 aligned bytes of the host (R94), a row of a peer (R393) -/
  | read (id : Nat) (port : Option Nat) (addr n : Nat)
  /-- bytes written at an address, in order -/
  | write (id : Nat) (port : Option Nat) (addr : Nat) (bytes : List Byte)
  | atomic (id : Nat) (port : Option Nat) (kind : AtomKind) (addr : Nat) (v expected : Word)
  /-- 1 added to the 32-bit block count at an address, saturating, as one row operation at its owner (R314) -/
  | count (id : Nat) (port : Option Nat) (addr : Nat)
  | armAck (port : Nat) (gang : Nat)
  | drop (port : Nat) (gang : Nat)
  /-- the beacon sent when a port trains: the device's own DEVTIME (R395) -/
  | beacon (port : Nat) (devtime : Word)
  /-- the completion of a host read -/
  | readDone (bytes : List Byte)
  /-- the completion of a host AtomicOp: the old value -/
  | atomicDone (old : Word)
  /-- Unsupported Request (R386, R387) -/
  | unsupported
  /-- Completer Abort (R374) -/
  | abort
  /-- the answer to a peer's access; none for an error status -/
  | peerDone (port : Nat) (row : Option Row)
  /-- a record of a Cocoon image at an address: REMAIN, LEN, UNIT, TYPE and the body (R377) -/
  | imageRecord (addr remain len unit type : Nat) (body : ImageBody)
deriving DecidableEq, Repr

/-- A node of an AOF tree (R317). -/
structure Node where
  kind : Nat
  fmt : Nat
  rnd : Nat
  flags : Nat
  ins : List Nat
  param0 : Nat
  param1 : Nat
  dest : Nat
deriving DecidableEq, Repr

/-- An operator of a chosen plan in canonical order (R321, R324, R329). -/
structure POp where
  /-- the node whose value it forms; the chain's top for a product that is no node's value -/
  node : Nat
  /-- whether it forms a node's own value -/
  own : Bool
  kind : Nat
  fmt : Nat
  rnd : Nat
  tmpl : Nat
  /-- operand codes of R329 -/
  code : List Nat
  /-- rows and row length of the value -/
  rows : Nat
  cols : Nat
  /-- TOPK leaves out NaN, by its node or by a hint, as it is applied (R318, R329) -/
  xnan : Bool
deriving DecidableEq, Repr

/-- What the planner records of a tensor at PLAN (R331). -/
structure Recorded where
  tid : Nat
  serial : Nat
  dims : List Nat
  fmt : Nat
deriving DecidableEq, Repr

/-- A plan (R325, R328, R331). -/
structure Plan where
  /-- the tile of the strand that planned it -/
  tile : Nat
  nodes : List Node
  root : Nat
  /-- the hints as last given: a PHINT on a running plan waits for the next break (R327) -/
  hints : Nat
  arena : Nat
  arenaLen : Nat
  nbv : Nat
  det : Bool
  /-- the cost registers as captured (R322) -/
  cost : Vector Word 64
  ops : List POp
  /-- how many operators are done at the end of each stage (R330) -/
  stages : List Nat
  /-- values that are written to tensors: the stage, the operand code and the TID of the tensor (R318, R330) -/
  dests : List (Nat × Nat × Nat)
  total : Nat
  fp : Nat
  recorded : List Recorded
  pinned : Bool
  released : Bool
  lastStatus : Nat
  lastReplanned : Bool
  lastFp : Nat
  replans : Nat
  ended : Nat
deriving DecidableEq, Repr

/-- A plan slot (R325). -/
structure PlanSlot where
  gen : Nat
  fn : Nat
  plan : Option Plan
deriving DecidableEq, Repr

/-- How far a plan run has come (R330, R332). -/
inductive RunPhase where
  /-- an earlier run of the same handle has not ended -/
  | queued
  /-- its next stage is to be launched, no slot is claimed -/
  | claim
  /-- the claim on a host or peer page awaits its answer; the queue's base address and size were taken before it (R178) -/
  | asked (id base size : Nat)
  /-- the slot of index w is claimed, the packet is to be stored once it is free -/
  | store (base size w : Nat)
  /-- the stage's packet is stored in this slot, and its strands go to these dies (R76) -/
  | sent (w : Nat) (packet : BitVec 512) (groups : List (Nat × Nat × Nat))
  /-- another packet was read in that slot: the stage's is lost (R70) -/
  | lost
  /-- the stage is the launch of this number -/
  | staged (lid : Nat)
deriving DecidableEq, Repr

/-- A plan run (R332 to R334). -/
structure Run where
  num : Nat
  slot : Nat
  queue : Nat
  fn : Nat
  uid : Nat
  launch : Nat
  pseqno : Nat
  det : Bool
  nbv : Nat
  seed : Word
  phase : RunPhase
  /-- stages that have ended -/
  stage : Nat
  /-- the tensors that the plan names as its last break patched them into the remaining stages (R331) -/
  tensors : PMap Tensor
  /-- element encodings of the values formed, in row-major order, by operator position -/
  values : PMap (List Nat)
  replanned : Bool
  /-- the issuing strand was killed -/
  killed : Bool
deriving DecidableEq, Repr

/-- The planner (R309, R337). -/
structure Planner where
  tensors : PMap Tensor
  plans : PMap PlanSlot
  monIssue : Nat
  monCompletion : Nat
  monEarly : List Nat
  reqs : List PlanReq
  runs : List Run
deriving DecidableEq, Repr

/-- Registers and tables of the command processors and the module. -/
structure Device where
  qbase : PMap Word
  qctl : PMap (BitVec 32)
  lseed : Word
  quantum : BitVec 32
  devtime : Word
  ivaddr : Word
  ivlen : Word
  /-- IVCTL but for GO, which reads 1 while an acknowledgement is missing -/
  ivctl : BitVec 32
  sattrbase : Word
  ivlimit : BitVec 32
  /-- slots that have not acknowledged the request in progress, each with its age in ticks (R119, R120) -/
  ivpending : PMap Nat
  /-- range of the request in progress: first byte and length -/
  ivfrom : Nat
  ivsize : Nat
  ptbase : Vector Word 16
  prqbase : Vector Word 16
  fltbase : Vector Word 16
  trcbase : Vector Word 16
  hwin : Vector Word 16
  trcctl : BitVec 32
  swapreq : BitVec 32
  killctl : BitVec 32
  killpkt : Word
  /-- strands a kill in progress has ended: uid, queue, pkt, tile, schedule cycle, function -/
  killing : List (Nat × Nat × Nat × Nat × Nat × Nat)
  /-- launches a kill in progress has ended -/
  killedLaunches : List Nat
  bpaddr : Vector Word 4
  bpcfg : Vector (BitVec 32) 4
  bpstat : BitVec 32
  /-- CHRYCTL but for STOP, which reads 1 while stopped -/
  chryctl : BitVec 32
  stopPending : Bool
  stopped : Bool
  /-- DEVTIME at the stop edge (R377) -/
  stopTime : Word
  cocbase : Word
  coclen : Word
  cocctl : BitVec 32
  ready : BitVec 32
  tilefail : BitVec 512
  linkmap : BitVec 32
  peerfn : BitVec 32
  pwrctl : BitVec 32
  devstat : BitVec 32
  shutdown : Bool
  launches : PMap Launch
  /-- sets: key function·65536 + identifier -/
  sets : PMap SetEntry
  setReqs : List SetReq
  setAnswers : List SetAns
  atoms : List AtomReq
  links : List LinkReq
  far : List FarReq
  parts : List FarPart
  procRows : List ProcRow
  ringQueue : List RingRec
  /-- statuses held for an HBM stack that is not trained -/
  statuses : List StatusReq
  /-- requests of the host and of peers held for an HBM stack that is not trained or by a stop, in the order of their
  arrival (R388, R391, R374) -/
  outer : List Instr
  pageReqs : List PageReq
  /-- ARM-ACKs held: gang and port (R81) -/
  armAcks : List (Nat × Nat)
  /-- the packet that a breakpoint holds, with its queue: it is accepted without another test (R372) -/
  held : Option (Nat × BitVec 512)
  /-- the draw in progress: the queue it fell to, with the read index and the packet it read there, while rows that the
  acceptance needs have not come (R72, R73) -/
  drawing : Option (Nat × Nat × BitVec 512)
  /-- next names: strands, requests, launches, page-request tags -/
  nextUid : Nat
  nextId : Nat
  nextLaunch : Nat
  nextTag : Nat
deriving DecidableEq, Repr

/-- One move of an agent, as the agenda lists them (log entry 1). -/
inductive Move where
  /-- a sequencer of the strand that runs on a tile executes its next word or record; the health says how the
  accesses it makes fare (R364) -/
  | seq (tile : Nat) (q : Seqr) (health : Health)
  /-- sequencers of the strand that runs on a tile execute their next words and records in one cycle, each of them one at
  most (R162, R208) -/
  | cycle (tile : Nat) (qs : List (Seqr × Health))
  | event (i : Instr)
  /-- how the next access fares that a later move makes (R342, R364) -/
  | fare (health : Health)
  /-- arithmetic-clock cycles and reference-clock ticks pass -/
  | clock (cycles ticks : Nat)
deriving DecidableEq, Repr

/-- A cycle in which several sequencers of one strand execute: the strand as the cycle began, and the numbers of the entries of its
record-fetch TLB used in the cycle, whose uses tie (R29, R171, R176, R343). -/
structure SharedCycle where
  strand : Strand
  uses : List Nat
deriving DecidableEq, Repr

/-- The whole state. -/
structure State where
  /-- HBM at its physical addresses and the slices at their shared-window addresses -/
  mem : List Host.Cell
  /-- strands by slot: key 2·tile for the running slot, 2·tile + 1 for the resident one -/
  strands : PMap Strand
  tiles : PMap Tile
  dev : Device
  planner : Planner
  agenda : List Move
  turn : Nat
  curTile : Nat
  curSeq : Seqr
  /-- the cycle that the turn under way shares with others, if it shares one -/
  cycle : Option SharedCycle
  /-- how the next access fares; without error once an access has taken it (R364) -/
  health : Health
  /-- counter from which free values are drawn -/
  nfree : Nat
  outbox : List Msg
  /-- records of faults and events formed, newest first: the log's function and the 64 bytes -/
  records : List (Nat × BitVec 512)
deriving DecidableEq, Repr

/-- Reasons a run stops with a fault. The manual's own faults are no stops: they are taken. -/
inductive Fault where
  /-- the module has stopped its clocks at 105 °C and nothing moves until a power cycle (R397); raised by every step;
  safe -/
  | shutdown
deriving DecidableEq, Repr

/-- Reasons a step has no meaning. -/
inductive Refusal where
  /-- no meaning yet for the mnemonic; raised by an arm of exec; safe -/
  | notModelled (mnemonic : String)
  /-- a word or record is executed where no strand runs or its sequencer cannot execute it; raised by words and
  records outside a fetch; safe: no such execution exists on the device -/
  | noSuchExecution
deriving DecidableEq, Repr

/-- The zero contents of a tile register. -/
def TileReg.start : TileReg := ⟨0, [], []⟩
/-- The contents of an accumulator when a strand starts: +0, untagged (R38). -/
def AccReg.start : AccReg := ⟨0, []⟩
/-- The contents of kn when a strand starts (R24, R38). -/
def MaskReg.start : MaskReg := ⟨0, 0⟩
/-- k0: all ones, tag 15 (R24, R38). -/
def MaskReg.ones : MaskReg := ⟨15, BitVec.allOnes 65536⟩
/-- A head context when a strand starts (R289). -/
def Head.start : Head := ⟨0, 0, 0, 0, 0, 0, 0, 0, 0, [], false, false, 0, 0, 0⟩
/-- A counter when a strand starts (R32). -/
def Timeline.start : Timeline := ⟨0, 0, []⟩
/-- What a sequencer holds at decode while no record waits. -/
def AtDecode.none : AtDecode := ⟨false, 0, 0, 0⟩
/-- A record sequencer that starts at an address; ended if its stream is absent (R63). -/
def RSeq.start (pc : Word) (ended : Bool) : RSeq := ⟨pc, 0, ended, [], 0, 0, .none, AtDecode.none, []⟩
/-- C at the start of a strand. -/
def CSeq.start (pc : Word) (ended : Bool) : CSeq := ⟨pc, 0, ended, .idle, .idle, [], []⟩

/-- The Monarch cost registers at reset (R322): CMAC 1, CBYTE 4, CFIX 2048, SCALE 65,536 for each template. -/
def costReset : Vector Word 64 :=
  ⟨#[1, 4, 2048, 65536, 1, 4, 2048, 65536, 1, 4, 2048, 65536, 1, 4, 2048, 65536,
     1, 4, 2048, 65536, 1, 4, 2048, 65536, 1, 4, 2048, 65536, 1, 4, 2048, 65536,
     1, 4, 2048, 65536, 1, 4, 2048, 65536, 1, 4, 2048, 65536, 1, 4, 2048, 65536,
     1, 4, 2048, 65536, 1, 4, 2048, 65536, 1, 4, 2048, 65536, 1, 4, 2048, 65536], rfl⟩

/-- A strand's context with everything at its start value (R63), before the packet's values are put in. -/
def Strand.blank : Strand where
  uid := 0
  launch := 0
  index := 0
  queue := 0
  pkt := 0
  fn := 0
  det := false
  nbv := 1
  wdlimit := 0
  started := true
  x := Vector.replicate 64 0
  b := Vector.replicate 32 0
  s := 0
  t := Vector.replicate 16 TileReg.start
  acc := Vector.replicate 8 AccReg.start
  k := (Vector.replicate 16 MaskReg.start).set 0 MaskReg.ones
  cb := Vector.replicate 4 0
  tshape := Vector.replicate 16 0
  dqfmtlx := 0
  dqfmtxs := 0
  srseed := 0
  srctr := 0
  dqsnlx := 0
  dqsnxs := 0
  tvec := 0
  tepc := 0
  tcause := 0
  act := false
  intr := false
  cost := costReset
  tokens := Vector.replicate 16 0
  dqlx := ⟨[], 0⟩
  dqxs := ⟨[], 0⟩
  bq := []
  rq := []
  ms := []
  wlo := 0
  whi := 0
  wn := 0
  tl := Vector.replicate 9 Timeline.start
  c := CSeq.start 0 true
  l := RSeq.start 0 true
  xs := RSeq.start 0 true
  ss := RSeq.start 0 true
  lqprev := 0
  episode := none
  contest := Vector.replicate 4 none
  ops := []
  ordered := []
  rmax := Vector.replicate 128 0xFF800000
  margin := 0
  heads := Vector.replicate 4 Head.start
  hfact := false
  hfret := 0
  hfdep := 0
  tlb := Vector.replicate 8 []
  pages := Vector.replicate 8 []
  scyc := 0
  wdcount := 0
  quantum := 0
  lateBars := []
  pendingFaults := []

/-- A tile at reset: BCM and BCCTL 0, every replica entry SO (R96, R380). -/
def Tile.reset : Tile := ⟨[], 0, [], none, false⟩

/-- The planner at reset (R337). -/
def Planner.reset : Planner := ⟨[], [], 0, 0, [], [], []⟩

/-- The command processors and the module at reset. -/
def Device.reset : Device where
  qbase := []
  qctl := []
  lseed := 1
  quantum := 100000
  devtime := 0
  ivaddr := 0
  ivlen := 0
  ivctl := 0
  sattrbase := 0
  ivlimit := 1000000
  ivpending := []
  ivfrom := 0
  ivsize := 0
  ptbase := Vector.replicate 16 0
  prqbase := Vector.replicate 16 0
  fltbase := Vector.replicate 16 0
  trcbase := Vector.replicate 16 0
  hwin := Vector.replicate 16 0
  trcctl := 0
  swapreq := 0
  killctl := 0
  killpkt := 0
  killing := []
  killedLaunches := []
  bpaddr := Vector.replicate 4 0
  bpcfg := Vector.replicate 4 0
  bpstat := 0
  chryctl := 0
  stopPending := false
  stopped := false
  stopTime := 0
  cocbase := 0
  coclen := 0
  cocctl := 0
  ready := 0
  tilefail := 0
  linkmap := 0
  peerfn := 0
  pwrctl := 2400
  devstat := 0
  shutdown := false
  launches := []
  sets := []
  setReqs := []
  setAnswers := []
  atoms := []
  links := []
  far := []
  parts := []
  procRows := []
  ringQueue := []
  statuses := []
  outer := []
  pageReqs := []
  armAcks := []
  held := none
  drawing := none
  nextUid := 1
  nextId := 1
  nextLaunch := 1
  nextTag := 0

/-- The module right after reset. -/
def State.reset : State where
  mem := []
  strands := []
  tiles := []
  dev := Device.reset
  planner := Planner.reset
  agenda := []
  turn := 0
  curTile := 0
  curSeq := .c
  cycle := none
  health := .clean
  nfree := 0
  outbox := []
  records := []

end Sys2Proof.Machine
end

