-- ==== Sys2Proof/Machine/Mem.lean ====
section
/-! DEFINITION. Memory and addresses: rows and their bytes (R92, R93), the address windows (R88 to R91), the five-level
walk (R110 to R112), the TLBs (R113), and the resolution of an access to its target with every fault it can raise. -/

namespace Sys2Proof.Machine

/-- The one form of memory: addresses strictly rising and no entry equal to what an unlisted byte reads as. -/
def Memory.wf (m : List Host.Cell) : Bool := cellsWf (0 : Byte) m

/-- What a byte reads as: 0 where nothing has written it (log entry 4). -/
def readByte (m : List Host.Cell) (a : Nat) : Byte := cellGet (0 : Byte) m a

/-- Memory with one byte written. -/
def writeByte (m : List Host.Cell) (a : Nat) (v : Byte) : List Host.Cell := cellSet (0 : Byte) m a v

/-- The n bytes from an address. -/
def readBytes (m : List Host.Cell) (a : Nat) : Nat → List Byte
  | 0 => []
  | n + 1 => readByte m a :: readBytes m (a + 1) n

/-- Memory with bytes written from an address. -/
def writeBytes (m : List Host.Cell) (a : Nat) : List Byte → List Host.Cell
  | [] => m
  | v :: vs => writeBytes (writeByte m a v) (a + 1) vs

/-- The n-byte little-endian number at an address (R3). -/
def readNat (m : List Host.Cell) (a n : Nat) : Nat := leNat (readBytes m a n)

/-- Memory with an n-byte little-endian number written. -/
def writeNat (m : List Host.Cell) (a n v : Nat) : List Host.Cell := writeBytes m a (leBytes n v)

/-- The address of the row that holds an address: bits [6:0] are ignored (R92). -/
def rowOf (a : Nat) : Nat := a / 128 * 128

/-- The row that holds an address. -/
def readRow (m : List Host.Cell) (a : Nat) : Row := BitVec.ofNat 1024 (readNat m (rowOf a) 128)

/-- Memory with the row that holds an address written whole. -/
def writeRow (m : List Host.Cell) (a : Nat) (r : Row) : List Host.Cell := writeNat m (rowOf a) 128 r.toNat

/-- The n bytes of a row from byte o. -/
def rowNat (r : Row) (o n : Nat) : Nat := bitsOf r.toNat (8 * o) (8 * n)

/-- The bytes of a row. -/
def rowBytes (r : Row) : List Byte := leBytes 128 r.toNat

/-- The row of a list of bytes, its tail zero. -/
def bytesRow (bs : List Byte) : Row := BitVec.ofNat 1024 (leNat (bs.take 128))

/-! ### Windows -/

/-- First address of the shared window (R88). -/
def sharedBase : Nat := 0xFE00000000000000

/-- Where memory holds a slice's byte: its shared-window address. -/
def sliceKey (tile off : Nat) : Nat := sharedBase + tile * 2 ^ 23 + off

/-- An address decoded by R91: its window code, tile and offset; for window 3 the offset is the address. -/
structure Place where
  win : Nat
  tile : Nat
  off : Nat
deriving DecidableEq, Repr

/-- Decode of R91 for the tile T that issues the access. -/
def decodeAddr (t a : Nat) : Option Place :=
  if a / 2 ^ 56 = 0 then some ⟨3, 0, a⟩
  else if a / 2 ^ 23 = 0xFC00000000000000 / 2 ^ 23 then some ⟨0, t, a % 2 ^ 23⟩
  else if a / 2 ^ 27 = 0xFD00000000000000 / 2 ^ 27 then some ⟨1, t / 16 * 16 + bitsOf a 23 4, a % 2 ^ 23⟩
  else if a / 2 ^ 32 = 0xFE000000 then some ⟨2, bitsOf a 23 9, a % 2 ^ 23⟩
  else none

/-- ISAP of R91. -/
def isap (t a w : Nat) : Bool :=
  match decodeAddr t a with
  | some d => d.win = w && (w = 3 || d.off < Config.sliceBytes)
  | none => false

/-- CVTA of R91 for w from 0 to 2. -/
def cvta (t a w : Nat) : Nat :=
  match decodeAddr t a with
  | some d =>
    if d.win = 3 then 0
    else if w = 0 then (if d.tile = t then 0xFC00000000000000 + d.off else 0)
    else if w = 1 then
      (if d.tile / 16 = t / 16 then 0xFD00000000000000 + d.tile % 16 * 2 ^ 23 + d.off else 0)
    else sliceKey d.tile d.off
  | none => 0

/-! ### Translation -/

/-- Whether a leaf entry gives a valid translation at a level (R112, R113). -/
def leafOk (e : Word) (level : Nat) : Bool :=
  let attr := bitsOf e.toNat 62 2
  let tgt := bitsOf e.toNat 60 2
  let port := bitsOf e.toNat 57 3
  let addr := bitsOf e.toNat 8 48 * 256
  attr != 3 && tgt != 3 && bitsOf e.toNat 56 1 == 0 && bitsOf e.toNat 3 5 == 0
    && (tgt == 2 || port == 0)
    && (if level = 3 then bitsOf e.toNat 8 13 == 0 else bitsOf e.toNat 8 8 == 0)
    && (tgt != 0 || addr < Config.hbmLimit)

/-- Whether a non-leaf entry leads to a next table (R112). -/
def tableOk (e : Word) : Bool :=
  bitsOf e.toNat 56 1 == 0 && bitsOf e.toNat 3 5 == 0 && bitsOf e.toNat 60 2 == 0
    && bitsOf e.toNat 57 3 == 0 && bitsOf e.toNat 8 48 * 256 < Config.hbmLimit

/-- The index bits of a level (R111). -/
def walkIndex (va level : Nat) : Nat :=
  match level with
  | 0 => bitsOf va 48 8
  | 1 => bitsOf va 39 9
  | 2 => bitsOf va 30 9
  | 3 => bitsOf va 21 9
  | _ => bitsOf va 16 5

/-- What a walk finds. -/
inductive Walk where
  | found (e : TlbEntry)
  | nothing
  /-- an HBM stack it must read is not trained: the read is held (R391) -/
  | held
deriving DecidableEq, Repr

/-- The stack of an HBM physical address (R110). -/
def stackOf (pa : Nat) : Nat := bitsOf pa 36 3

/-- Whether an HBM stack is trained (R390). -/
def stackReady (ready : BitVec 32) (pa : Nat) : Bool := ready.getLsbD (5 + stackOf pa)

/-- The walk from a level: `fuel` levels remain (R111). A root table that begins or reaches beyond the HBM, which R110 and
R112 leave open for PTBASE, is read from what memory holds at that key (DESIGN CHOICE, log entry 47). -/
def walkFrom (m : List Host.Cell) (ready : BitVec 32) (va : Nat) : Nat → Nat → Nat → Walk
  | 0, _, _ => .nothing
  | fuel + 1, level, table =>
    let at_ := table + 8 * walkIndex va level
    if !stackReady ready at_ then .held
    else
      let e : Word := BitVec.ofNat 64 (readNat m at_ 8)
      if !e.getLsbD 0 then .nothing
      else if e.getLsbD 1 then
        if (level = 3 || level = 4) && leafOk e level then
          .found ⟨if level = 3 then va / 2 ^ 21 * 2 ^ 21 else va / 2 ^ 16 * 2 ^ 16, level = 3, e, 0⟩
        else .nothing
      else if level = 4 then .nothing
      else if tableOk e then walkFrom m ready va fuel (level + 1) (bitsOf e.toNat 8 48 * 256)
      else .nothing

/-- The walk of a global virtual address from a root table; page 0 is never mapped (R112). -/
def walk (m : List Host.Cell) (ready : BitVec 32) (root : Word) (va : Nat) : Walk :=
  if va < 2 ^ 16 then .nothing else walkFrom m ready va 5 0 root.toNat

/-- Whether a TLB entry translates an address: the 2 MiB leaf over page 0 does not serve page 0 (R112). -/
def TlbEntry.covers (e : TlbEntry) (va : Nat) : Bool :=
  2 ^ 16 ≤ va && (if e.big then va / 2 ^ 21 * 2 ^ 21 == e.page else va / 2 ^ 16 * 2 ^ 16 == e.page)

/-- Where a leaf entry sends an address. -/
inductive Target where
  /-- a key of memory -/
  | cell (key : Nat)
  /-- a host bus address (port none) or an address in a peer's space -/
  | far (port : Option Nat) (addr : Nat)
deriving DecidableEq, Repr

/-- The offset of an address in its page. -/
def TlbEntry.offset (e : TlbEntry) (va : Nat) : Nat := if e.big then va % 2 ^ 21 else va % 2 ^ 16

/-- The target of an address under an entry (R112). -/
def TlbEntry.target (e : TlbEntry) (va : Nat) : Target :=
  let base := bitsOf e.leaf.toNat 8 48 * 256
  let a := base + e.offset va
  match bitsOf e.leaf.toNat 60 2 with
  | 0 => .cell a
  | 1 => .far none a
  | _ => .far (some (bitsOf e.leaf.toNat 57 3)) a

/-- ATTR of an entry (R112). -/
def TlbEntry.attr (e : TlbEntry) : BitVec 2 := BitVec.ofNat 2 (bitsOf e.leaf.toNat 62 2)

/-- The first address after an entry's page. -/
def TlbEntry.after (e : TlbEntry) : Nat := e.page + (if e.big then 2 ^ 21 else 2 ^ 16)

/-- Bit W of an entry (R112). -/
def TlbEntry.writable (e : TlbEntry) : Bool := e.leaf.getLsbD 2

/-- The entries of the TLB of index i: C 128, streams 16, record fetch 32 (R113). -/
def tlbSize (i : Nat) : Nat := if i = 0 then 128 else if i = 7 then 32 else 16

/-- Whether two entries are of one page. -/
def TlbEntry.same (e f : TlbEntry) : Bool := e.page == f.page && e.big == f.big

/-- The lowest entry number that none of these entries has. -/
def freeNumber (l : List TlbEntry) : Nat :=
  ((List.range (l.length + 1)).find? (fun n => l.all (fun f => f.num ≠ n))).getD 0

/-- The number of an entry used in a TLB, `kept` being the others that stay: its own where it is held, else that of the entry it
replaces or the lowest one empty (R343). -/
def tlbNumber (l kept : List TlbEntry) (e : TlbEntry) : Nat :=
  match l.find? e.same with
  | some f => f.num
  | none => freeNumber kept

/-- A TLB, the most recently used entry first, with an entry used now: the least recently used entry leaves a full TLB. `ties` are
the numbers of the entries that were used in the same cycle: among those the lowest number counts as least recently used (R343). -/
def tlbTouch (i : Nat) (ties : List Nat) (l : List TlbEntry) (e : TlbEntry) : List TlbEntry :=
  let kept := (l.filter (fun f => !e.same f)).take (tlbSize i - 1)
  let n := tlbNumber l kept e
  let before (f : TlbEntry) : Bool := ties.contains f.num && n < f.num
  kept.takeWhile before ++ { e with num := n } :: kept.dropWhile before

/-- Why an access or an issue does not go on. -/
inductive Stop where
  | raise (r : Raise)
  /-- held until an HBM stack is trained (R391) -/
  | hold
  /-- needs a row of the host or a peer that has not arrived -/
  | far (port : Option Nat) (addr : Nat) (slot : Slot) (index : Nat)
deriving DecidableEq, Repr

/-- The outcome of an access or an issue. -/
abbrev Res (α : Type) := Except Stop α

/-- A fault. -/
def raiseAt {α : Type} (c : Code) (sl : Slot) (i : Nat) : Res α := .error (.raise ⟨c, sl, i⟩)

/-- Whether a tile failed its bring-up test (R392). -/
def Device.failed (d : Device) (tile : Nat) : Bool := d.tilefail.getLsbD tile

/-- A state with the strand at a slot key changed. -/
def State.setStrand (s : State) (key : Nat) (st : Strand) : State :=
  { s with strands := s.strands.insert key st }

/-- A state with the memory replaced. -/
def State.setMem (s : State) (m : List Host.Cell) : State := { s with mem := m }

/-- A state with the device registers replaced. -/
def State.setDev (s : State) (d : Device) : State := { s with dev := d }

/-- A state with the planner replaced. -/
def State.setPlanner (s : State) (p : Planner) : State := { s with planner := p }

/-- A tile's own state. -/
def State.tile (s : State) (t : Nat) : Tile := cellGet Tile.reset s.tiles t

/-- A state with a tile's own state replaced. -/
def State.setTile (s : State) (t : Nat) (v : Tile) : State :=
  { s with tiles := cellSet Tile.reset s.tiles t v }

/-- A state with a message sent. -/
def State.send (s : State) (m : Msg) : State := { s with outbox := s.outbox ++ [m] }

/-- A strand with the entry e used in its TLB i, in one cycle with the uses of other entries. -/
def Strand.touchWith (st : Strand) (i : Nat) (ties : List Nat) (e : TlbEntry) : Strand :=
  if h : i < 8 then { st with tlb := st.tlb.set i (tlbTouch i ties st.tlb[i] e) } else st

/-- A strand with the entry e used in its TLB i. -/
def Strand.touch (st : Strand) (i : Nat) (e : TlbEntry) : Strand := st.touchWith i [] e

/-- The translation of a global address for a strand through its TLB i: a hit, or a walk (R113). -/
def translate (s : State) (st : Strand) (i : Nat) (va : Nat) : Walk :=
  match (if h : i < 8 then st.tlb[i].find? (fun e => e.covers va) else none) with
  | some e => .found e
  | none =>
    if h : st.fn < 16 then walk s.mem s.dev.ready s.dev.ptbase[st.fn] va else .nothing

/-- The translation of an address that a stream's record has yet to reach, fetched ahead into TLB i; nothing where it is
there already, the walk finds none, or the address is no global one (R113). -/
def fetchNext (s : State) (st : Strand) (i va : Nat) : Strand :=
  if h : i < 8 ∧ st.fn < 16 then
    if 2 ^ 56 ≤ va || st.tlb[i].any (fun f => f.covers va) then st
    else match walk s.mem s.dev.ready s.dev.ptbase[st.fn] va with
      | .found f => st.touch i f
      | _ => st
  else st

/-- The pages that the current record of TLB i's stream has touched (R343). -/
def Strand.pagesAt (st : Strand) (i : Nat) : List Nat := if h : i < 8 then st.pages[i] else []

/-- A strand that uses the entry e of its TLB i: the pages that the stream's record has touched are kept (R343); C's TLB and
that of the record fetches are no streams. -/
def touchPage (st : Strand) (i : Nat) (e : TlbEntry) : Strand :=
  let st1 := st.touch i e
  if h : 0 < i ∧ i < 7 then
    if st1.pages[i].contains e.page then st1 else { st1 with pages := st1.pages.set i (st1.pages[i] ++ [e.page]) }
  else st1

/-- The strand of a slot uses the entry e of its TLB i. Where L, X and S share a cycle, their uses of the record-fetch TLB tie
(R343). -/
def State.usePage (s : State) (key : Nat) (st : Strand) (i : Nat) (e : TlbEntry) : State :=
  match i, s.cycle with
  | 7, some c =>
    let st1 := st.touchWith 7 c.uses e
    { s.setStrand key st1 with
      cycle := some { c with uses := c.uses ++ ((st1.tlb[7].find? e.same).map (·.num)).toList } }
  | _, _ => s.setStrand key (touchPage st i e)

/-- The attribute that the issuing tile's replica gives the page of an SRAM byte, by its key (R96). -/
def sramAttr (s : State) (tile k : Nat) : BitVec 2 := cellGet (0 : BitVec 2) (s.tile tile).attr ((k - sharedBase) / 2 ^ 16)

/-- The target of an access at a full 64-bit address by a strand in slot key, with the faults of R88, R90, R109, R114,
R165, R191 and R393 named at a slot and index. `tlb` is the requester's TLB, none where it may not use global addresses
(R90). -/
def resolve (s : State) (key : Nat) (tlb : Option Nat) (va : Nat) (write : Bool) (sl : Slot) (ix : Nat) :
    Res (Target × State) :=
  match s.strands.find? key with
  | none => .error .hold
  | some st =>
    match decodeAddr (key / 2) va with
    | none => raiseAt .address sl ix
    | some p =>
      if p.win ≠ 3 then
        if p.off ≥ Config.sliceBytes || (p.win ≠ 0 && s.dev.failed p.tile) then raiseAt .address sl ix
        else .ok (.cell (sliceKey p.tile p.off), s)
      else
        match tlb with
        | none => raiseAt .address sl ix
        | some i =>
          match translate s st i va with
          | .held => .error .hold
          | .nothing => raiseAt .xlate sl ix
          | .found e =>
            if write && !e.writable then raiseAt .xlate sl ix
            else
              let s' := s.usePage key st i e
              match e.target va with
              | .cell k => if stackReady s.dev.ready k then .ok (.cell k, s') else .error .hold
              | .far port a =>
                if st.det then raiseAt .mode sl ix
                else match port with
                  | none => .ok (.far none a, s')
                  | some p =>
                    if s.dev.ready.getLsbD (15 + p) then .ok (.far (some p) a, s')
                    else raiseAt .peerDown sl ix

/-- The row at a place of a host or peer page, among those that have arrived. -/
def farRow (l : List FarRow) (port : Option Nat) (a : Nat) : Option Row :=
  (l.find? (fun p => p.port = port && p.addr = rowOf a)).map (·.row)

/-- One row read by a strand (R92). A row of the host or a peer must have arrived. -/
def readRowAt (s : State) (key : Nat) (tlb : Option Nat) (va : Nat) (sl : Slot) (ix : Nat)
    (fetched : List FarRow) : Res (Row × State) :=
  match resolve s key tlb va false sl ix with
  | .error e => .error e
  | .ok (.cell k, s') => .ok (readRow s.mem k, s')
  | .ok (.far port a, s') =>
    match farRow fetched port a with
    | some r => .ok (r, s')
    | none => .error (.far port (rowOf a) sl ix)

/-- The eight-byte pieces of a row write on a host page (R94). -/
def hostPieces (a : Nat) (bs : List Byte) : Nat → List (Nat × List Byte)
  | 0 => []
  | n + 1 => (a, bs.take 8) :: hostPieces (a + 8) (bs.drop 8) n

/-- A request number drawn. -/
def State.drawId (s : State) : Nat × State :=
  (s.dev.nextId, s.setDev { s.dev with nextId := s.dev.nextId + 1 })

/-- The accesses of a read: eight aligned bytes each on a host page (R94), one at a peer (R393). -/
def readPieces (port : Option Nat) (a n : Nat) : List (Nat × Nat) :=
  match port with
  | none => (List.range (n / 8)).map (fun i => (a + 8 * i, 8))
  | some _ => [(a, n)]

/-- The accesses of a read sent, each under a number of its own and all under the first. -/
def askPieces (lead uid : Nat) (port : Option Nat) (use : FarFor) : List (Nat × Nat) → State → State
  | [], s => s
  | (a, n) :: r, s =>
    let (id, s1) := s.drawId
    askPieces lead uid port use r
      ((s1.setDev { s1.dev with far := s1.dev.far ++ [⟨id, lead, uid, port, a, use⟩] }).send (.read id port a n))

/-- A read of n bytes asked of the host or a peer: the number under which its answer comes, and the state. -/
def askRead (s : State) (uid : Nat) (port : Option Nat) (a n : Nat) (use : FarFor) : Nat × State :=
  (s.dev.nextId, askPieces s.dev.nextId uid port use (readPieces port a n) s)

/-- Messages for pieces of a write, one after another. -/
def sendPieces (s : State) (port : Option Nat) : List (Nat × List Byte) → State
  | [] => s
  | (a, bs) :: r =>
    let (id, s1) := s.drawId
    sendPieces (s1.send (.write id port a bs)) port r

/-- A write of the bytes from an address, all in one row, at its target: in memory, or as messages to the host, eight
aligned bytes each (R94), or to a peer. -/
def writeTarget (s : State) (t : Target) (o : Nat) (bs : List Byte) : State :=
  match t with
  | .cell k => s.setMem (writeBytes s.mem (rowOf k + o) bs)
  | .far none a =>
    if bs.length ≤ 8 then sendPieces s none [(rowOf a + o, bs)]
    else sendPieces s none (hostPieces (rowOf a + o) bs ((bs.length + 7) / 8))
  | .far (some p) a => sendPieces s (some p) [(rowOf a + o, bs)]

/-- One row write by a strand: the bytes given, from byte o of the row (R92). It is visible to every sequencer at once, also where its
record has retired and not completed (R122 permits the others to see old rows for a while; DESIGN CHOICE, log entry 5). -/
def writeRowAt (s : State) (key : Nat) (tlb : Option Nat) (va : Nat) (sl : Slot) (ix : Nat) (o : Nat)
    (bs : List Byte) : Res State :=
  match resolve s key tlb va true sl ix with
  | .error e => .error e
  | .ok (t, s') => .ok (writeTarget s' t o bs)

/-- The target of an address in a function's space for a command processor, which has no TLB (R80, R358, R387). -/
def procTarget (s : State) (fn : Nat) (va : Nat) (write : Bool) : Res Target :=
  if va ≥ 2 ^ 56 then raiseAt .address .none 0
  else
    match (if h : fn < 16 then walk s.mem s.dev.ready s.dev.ptbase[fn] va else .nothing) with
    | .held => .error .hold
    | .nothing => raiseAt .address .none 0
    | .found e =>
      if write && !e.writable then raiseAt .address .none 0
      else match e.target va with
        | .cell k => if stackReady s.dev.ready k then .ok (.cell k) else .error .hold
        | t => .ok t

/-- A row read by a command processor: at once in device memory; in host or peer memory once it has been asked for and
has come, `far` until then. The inner none is a read answered with an error. -/
def procRow (s : State) (fn : Nat) (va : Nat) : Res (Option Row) :=
  match procTarget s fn va false with
  | .error e => .error e
  | .ok (.cell k) => .ok (some (readRow s.mem k))
  | .ok (.far port a) =>
    match s.dev.procRows.find? (fun p => p.port = port ∧ p.addr = rowOf a) with
    | some p => .ok p.row
    | none => .error (.far port (rowOf a) .none 0)

/-- A command processor's request for a row of the host or a peer, unless it is already on its way. -/
def procAsk (s : State) (port : Option Nat) (a : Nat) : State :=
  if s.dev.far.any (fun f => f.use = .proc ∧ f.port = port ∧ f.addr = a) then s
  else (askRead s 0 port a 128 .proc).2

/-- Requests for the rows of host or peer pages among addresses of a function's space. -/
def procAskRows (s : State) (fn : Nat) : List Nat → State
  | [] => s
  | va :: r =>
    match procRow s fn va with
    | .error (.far port a _ _) => procAskRows (procAsk s port a) fn r
    | _ => procAskRows s fn r

/-- The rows of host and peer memory are read again for the next use. -/
def State.forgetRows (s : State) : State := s.setDev { s.dev with procRows := [] }

/-- A write by a command processor; none where it finds no valid, writable translation. -/
def procWrite (s : State) (fn : Nat) (va : Nat) (bs : List Byte) : Res State :=
  match procTarget s fn va true with
  | .error e => .error e
  | .ok t => .ok (writeTarget s t (va % 128) bs)

end Sys2Proof.Machine
end

