-- ==== Sys2Proof/Machine/Ops.lean ====
section
/-! DEFINITION. The named operations over strands and the device: registers, sequencer advance, timeline counters, fault
records and their rings, taking and returning from an exception, sets, the end of a strand and of a launch. -/

namespace Sys2Proof.Machine

/-- An outcome of a step of this machine. -/
abbrev Out := Host.Outcome State Fault Refusal

/-! ### Slots and strands -/

/-- The running slot of a tile. -/
def runKey (tile : Nat) : Nat := 2 * tile

/-- The slot key of a strand by its own name. -/
def findUid (s : State) (uid : Nat) : Option (Nat × Strand) :=
  List.find? (fun p : Nat × Strand => decide (p.2.uid = uid)) s.strands

/-- Register r of C: x0 reads as zero (R24). -/
def Strand.rx (st : Strand) (r : Reg) : Word := if r = 0 then 0 else st.x[r.toNat]

/-- Register r of C written: a write to x0 is discarded (R24). -/
def Strand.wx (st : Strand) (r : Reg) (v : Word) : Strand :=
  if r = 0 then st else { st with x := st.x.set r.toNat v }

/-- Base register n. -/
def Strand.rb (st : Strand) (n : Nat) : Word := if h : n < 32 then st.b[n] else 0

/-- Base register n written. -/
def Strand.wb (st : Strand) (n : Nat) (v : Word) : Strand :=
  if h : n < 32 then { st with b := st.b.set n v } else st

/-- A record sequencer of a strand. -/
def Strand.rseq (st : Strand) : Seqr → RSeq
  | .c => RSeq.start 0 true
  | .l => st.l
  | .x => st.xs
  | .s => st.ss

/-- A record sequencer of a strand replaced. -/
def Strand.setRseq (st : Strand) (q : Seqr) (r : RSeq) : Strand :=
  match q with
  | .c => st
  | .l => { st with l := r }
  | .x => { st with xs := r }
  | .s => { st with ss := r }

/-- C replaced. -/
def Strand.setC (st : Strand) (c : CSeq) : Strand := { st with c := c }

/-- The rows along the targets of branches that C has not taken, 32 words or two rows along each (R155, R401; log entry 61). -/
def targetRows (ts : List Word) : List Nat := ts.flatMap (fun t => [rowOf t.toNat, rowOf t.toNat + 128])

/-- Rows fetched ahead that still lie ahead of a sequential advance, or are among others to be kept (R155, R401). -/
def windowAfter (pc : Word) (limit : Nat) (others : List Nat) (w : List (Nat × Row)) : List (Nat × Row) :=
  w.filter (fun p => (rowOf pc.toNat ≤ p.1 && p.1 ≤ rowOf pc.toNat + 128 * limit) || others.contains p.1)

/-- C goes on to the next word (R123): its number is taken and its wait ends. -/
def CSeq.next (c : CSeq) : CSeq :=
  { c with pc := c.pc + 8, seqno := c.seqno + 1, wait := .idle, window := windowAfter (c.pc + 8) 2 (targetRows c.targets) c.window }

/-- C goes on past a branch that it does not take: it fetches along the target too (R155). -/
def CSeq.pass (c : CSeq) (target : Word) : CSeq :=
  { c.next with targets := if c.targets.contains target then c.targets else c.targets ++ [target] }

/-- C goes on elsewhere: the rows along the new path are fetched anew (DESIGN CHOICE, log entry 61). -/
def CSeq.jump (c : CSeq) (target : Word) : CSeq :=
  { c with pc := target, seqno := c.seqno + 1, wait := .idle, window := [], targets := [] }

/-- C stays at its word with a wait. -/
def CSeq.stay (c : CSeq) (w : CWait) : CSeq := { c with wait := w }

/-- The strand with C at the next word. -/
def Strand.cNext (st : Strand) : Strand := { st with c := st.c.next }
/-- The strand with C past a branch that it does not take. -/
def Strand.cPass (st : Strand) (t : Word) : Strand := { st with c := st.c.pass t }
/-- The strand with C at another word. -/
def Strand.cJump (st : Strand) (t : Word) : Strand := { st with c := st.c.jump t }
/-- The strand with C waiting at its word. -/
def Strand.cStay (st : Strand) (w : CWait) : Strand := { st with c := st.c.stay w }

/-! ### Timeline counters -/

/-- An operation takes the next number (R32). -/
def Timeline.take (t : Timeline) : Timeline := { t with issue := t.issue + 1 }

/-- The completion value with the finished numbers directly above it taken in. -/
def absorb : Nat → Nat → List Nat → Nat × List Nat
  | 0, c, early => (c, early)
  | fuel + 1, c, early =>
    if early.contains (c + 1) then absorb fuel (c + 1) (early.filter (· ≠ c + 1)) else (c, early)

/-- Operation n has completed: the completion value is the largest n with every number up to it complete (R32). -/
def Timeline.finish (t : Timeline) (n : Nat) : Timeline :=
  let early := n :: t.early
  let (c, e) := absorb early.length t.completion early
  { t with completion := c, early := e }

/-- Counter i of a strand. -/
def Strand.tlAt (st : Strand) (i : Nat) : Timeline := if h : i < 9 then st.tl[i] else Timeline.start

/-- Counter i replaced. -/
def Strand.setTl (st : Strand) (i : Nat) (t : Timeline) : Strand :=
  if h : i < 9 then { st with tl := st.tl.set i t } else st

/-- The issue values of a strand's counters (R169, R212). -/
def Strand.issues (st : Strand) : List Nat := st.tl.toList.map (·.issue)

/-- Whether each counter has completed a value (R169, R212). -/
def Strand.reached (st : Strand) (vs : List Nat) : Bool :=
  (st.tl.toList.zip vs).all (fun p => p.2 ≤ p.1.completion)

/-- Whether completion equals issue on every counter (R116, R119). -/
def Strand.quiet (st : Strand) : Bool := st.tl.toList.all (fun t => t.completion = t.issue)

/-- A strand as the cycle of the turn under way began, if the turn shares one with others (R171, R176). -/
def State.atCycleStart (s : State) (st : Strand) : Strand :=
  match s.cycle with
  | some c => if c.strand.uid = st.uid then c.strand else st
  | none => st

/-- Issue and completion value of counter n, 9 being tl.mon (R126, R32). -/
def counterValue (s : State) (st : Strand) (n : Nat) : Nat × Nat :=
  if n = 9 then (s.planner.monIssue, s.planner.monCompletion)
  else ((st.tlAt n).issue, (st.tlAt n).completion)

/-! ### Fault records -/

/-- The number of a code (R357). -/
def Code.num : Code → Nat
  | .illegalOp => 1 | .format => 2 | .shape => 3 | .scaleAxis => 4 | .race => 5 | .address => 6
  | .xlate => 7 | .mode => 8 | .atomic => 9 | .launch => 10 | .nbv => 11 | .setLimit => 12
  | .setMember => 13 | .unhandledTrap => 14 | .compactOvf => 15 | .denseFallback => 16
  | .planInvalid => 17 | .gangLost => 18 | .quiesceTimeout => 19 | .timing => 20 | .watchdog => 21
  | .memLasting => 22 | .linkLasting => 23 | .hostAbort => 24 | .peerDown => 25 | .killed => 26
  | .softEcc => 27 | .linkRetry => 28 | .killDone => 29 | .break => 30 | .stopped => 31 | .dumped => 32

/-- Whether a code raised by C may be delivered to TVEC: T in column C (R357). -/
def Code.toHandler : Code → Bool
  | .illegalOp | .format | .shape | .race | .address | .mode | .atomic | .launch | .setLimit
  | .setMember | .planInvalid | .gangLost | .hostAbort | .peerDown => true
  | _ => false

/-- FLAGS of a record (R356). -/
structure Flags where
  imprecise : Bool := false
  delivered : Bool := false
  ended : Bool := false
  transient : Bool := false
deriving DecidableEq, Repr

/-- The FLAGS byte. -/
def Flags.byte (f : Flags) : Nat :=
  f.imprecise.toNat + 2 * f.delivered.toNat + 4 * f.ended.toNat + 8 * f.transient.toNat

/-- All ones in 64 bits. -/
def ones64 : Nat := 2 ^ 64 - 1

/-- Where a fault of a strand is found (R356). -/
def Strand.at (st : Strand) (key : Nat) (q : Seqr) (seqno : Nat) : Where where
  fn := st.fn
  seq := q.code
  seqno := seqno
  queue := st.queue
  tile := key / 2
  pkt := st.pkt
  scyc := if st.det then st.scyc else ones64

/-- A field of the next record that the manual gives no value (log entry 16). -/
def openField (s : State) (k : Nat) : Nat := Config.recordField (4 * s.records.length + k)

/-- A record of a command processor or the planner: SEQ 4, TILE 0xFFFF (R356). -/
def procAt (s : State) (fn queue pkt : Nat) : Where where
  fn := fn
  seq := 4
  seqno := openField s 0
  queue := queue
  tile := 0xFFFF
  pkt := pkt
  scyc := ones64

/-- The 64 bytes of a record (R356). -/
def recordBits (r : Raise) (w : Where) (f : Flags) (devtime : Nat) : BitVec 512 :=
  BitVec.ofNat 512
    (r.code.num + 2 ^ 8 * r.slot.code + 2 ^ 16 * w.seq + 2 ^ 24 * f.byte + 2 ^ 32 * (w.tile % 2 ^ 16)
      + 2 ^ 48 * (w.queue % 2 ^ 16) + 2 ^ 64 * (w.seqno % 2 ^ 64) + 2 ^ 128 * (r.index % 2 ^ 64)
      + 2 ^ 192 * devtime + 2 ^ 256 * (w.pkt % 2 ^ 64) + 2 ^ 320 * (w.scyc % 2 ^ 64))

/-- DEVSTAT.LOGERR is set (R358, R398). -/
def State.logErr (s : State) : State :=
  s.setDev { s.dev with devstat := s.dev.devstat ||| BitVec.ofNat 32 (2 ^ 28) }

/-- The ring of a kind: base, stride of its records, number of its records (R358, R379). -/
def ringBase (s : State) (k : RingKind) (fn : Nat) : Nat :=
  if h : fn < 16 then
    match k with
    | .fault => s.dev.fltbase[fn].toNat
    | .trace => s.dev.trcbase[fn].toNat
  else 0

/-- Records a ring holds. -/
def RingKind.size : RingKind → Nat
  | .fault => 256
  | .trace => 1024

/-- Bytes of a ring's record. -/
def RingKind.stride : RingKind → Nat
  | .fault => 64
  | .trace => 32

/-- A write of the log path; a write that finds no valid translation is lost and sets LOGERR; none while it is held for an
HBM stack that is not trained (R391). -/
def ringWrite (s : State) (fn va : Nat) (bs : List Byte) : Option State :=
  match procWrite s fn va bs with
  | .ok s' => some s'
  | .error .hold => none
  | .error _ => some s.logErr

/-- One record written to its ring: the record first and the write index after it, or LOST in a full ring (R358); none
while an index or a write must wait. -/
def ringStore (s : State) (r : RingRec) : Option State :=
  let base := ringBase s r.kind r.fn
  if base = 0 then some s
  else
    match procRow s r.fn base, procRow s r.fn (base + 128) with
    | .ok (some r0), .ok (some r1) =>
      let w := rowNat r0 0 8
      let lost := rowNat r0 8 8
      let s0 := s.forgetRows
      if w = rowNat r1 0 8 + r.kind.size then
        ringWrite s0 r.fn (base + 8) (leBytes 8 (min (lost + 1) ones64))
      else
        match procWrite s0 r.fn (base + 256 + r.kind.stride * (w % r.kind.size)) r.bytes with
        | .error .hold => none
        | .error _ => some s0.logErr
        | .ok s1 => ringWrite s1 r.fn base (leBytes 8 (w + 1))
    | .error .hold, _ => none
    | _, .error .hold => none
    | .error (.far _ _ _ _), _ => none
    | _, .error (.far _ _ _ _) => none
    | _, _ => some s.logErr

/-- Requests for the rows a ring store needs from the host or a peer. -/
def ringAsk (s : State) (r : RingRec) : State :=
  let base := ringBase s r.kind r.fn
  procAskRows s r.fn [base, base + 128]

/-- The event that an access of no strand logs: an error that would last is over after another retry, as in arrival mode, and a
write meets no uncorrectable read (R364; DESIGN CHOICE for the first, log entry 45). -/
def eventOf (h : Health) (write : Bool) : Option Code :=
  match h with
  | .clean | .timing => none
  | .softEcc | .memLasting => if write then none else some .softEcc
  | .linkRetry | .linkLasting => some .linkRetry

/-- The rows of a ring meet the health of the state: the event, with SEQ 4, joins the records on their way to the fault log
(R358, R364; its queue and packet are free values, log entry 16). -/
def ringMeet (s : State) (r : RingRec) : State :=
  if s.health = .clean then s
  else
    let s1 := { s with health := .clean }
    match eventOf s.health false with
    | none => s1
    | some c =>
      let bits := recordBits ⟨c, .none, 0⟩ (procAt s1 r.fn (openField s1 1) (openField s1 2)) { transient := true }
        s1.dev.devtime.toNat
      let s2 := { s1 with records := (r.fn, bits) :: s1.records }
      if ringBase s2 .fault r.fn = 0 then s2
      else s2.setDev { s2.dev with ringQueue := s2.dev.ringQueue ++ [⟨.fault, r.fn, leBytes 64 bits.toNat⟩] }

/-- Records waiting for their rings are written, in order, as far as they can be, their rows meeting the health of the state. -/
def flushRings : Nat → State → State
  | 0, s => s
  | fuel + 1, s =>
    match s.dev.ringQueue with
    | [] => s
    | r :: rest =>
      match ringStore s r with
      | some s' => flushRings fuel (ringMeet (s'.setDev { s'.dev with ringQueue := rest }) r)
      | none => ringAsk s r

/-- Every record that waits for its ring is written, as far as that can be, with the event that the writing may add. -/
def flushAll (s : State) : State := flushRings (s.dev.ringQueue.length + 1) s

/-- A record handed to a ring. -/
def toRing (s : State) (r : RingRec) : State := flushAll (s.setDev { s.dev with ringQueue := s.dev.ringQueue ++ [r] })

/-- A record of a fault or an event is formed and logged; with FSTOP, one with ENDED requests a stop (R356, R358,
R373). -/
def logRecord (s : State) (r : Raise) (w : Where) (f : Flags) : State :=
  let bits := recordBits r w f s.dev.devtime.toNat
  let s1 := { s with records := (w.fn, bits) :: s.records }
  let s2 := if f.ended && s1.dev.chryctl.getLsbD 29 && !s1.dev.stopped
    then s1.setDev { s1.dev with stopPending := true } else s1
  if ringBase s2 .fault w.fn = 0 then s2 else toRing s2 ⟨.fault, w.fn, leBytes 64 bits.toNat⟩

/-- An access that no strand's fault can follow meets the health of the state: the event alone, as found at a place (R364). -/
def eventMeet (s : State) (w : Where) (sl : Slot) (ix : Nat) (write : Bool) : State :=
  if s.health = .clean then s
  else
    let s1 := { s with health := .clean }
    match eventOf s.health write with
    | none => s1
    | some c => logRecord s1 ⟨c, sl, ix⟩ w { transient := true }

/-- An access of a command processor or the planner meets the health of the state: an event with SEQ 4 (R364). -/
def procMeet (s : State) (fn queue pkt : Nat) (write : Bool) : State :=
  eventMeet s (procAt s fn queue pkt) .none 0 write

/-- An access of the host or a peer meets the health of the state: an event with SEQ 4 in the log of the function that it
reaches, its queue and packet free values (R364, R387; log entry 16). -/
def outerMeet (s : State) (fn : Nat) (write : Bool) : State := procMeet s fn (openField s 1) (openField s 2) write

/-- A trace record (R379): function, KIND, SEQ, tile, sequence number, AUX; STAMP is the schedule cycle of a
deterministic strand, otherwise DEVTIME with bit 63 set. -/
def traceRecord (s : State) (fn kind seq tile seqno aux : Nat) (scyc : Option Nat) : State :=
  if s.dev.trcctl.getLsbD 31 && bitsOf s.dev.trcctl.toNat 16 4 = fn && ringBase s .trace fn ≠ 0 then
    let stamp := match scyc with
      | some c => c
      | none => s.dev.devtime.toNat % 2 ^ 63 + 2 ^ 63
    toRing s ⟨.trace, fn, leBytes 32 (kind + 2 ^ 8 * seq + 2 ^ 16 * tile + 2 ^ 64 * (stamp % 2 ^ 64)
      + 2 ^ 128 * (seqno % 2 ^ 64) + 2 ^ 192 * (aux % 2 ^ 64))⟩
  else s

/-- A trace record of a strand. -/
def traceStrand (s : State) (key : Nat) (st : Strand) (kind seq seqno aux : Nat) : State :=
  traceRecord s st.fn kind seq (key / 2) seqno aux (if st.det then some st.scyc else none)

/-! ### Launches -/

/-- Field of a launch packet (R66). -/
def pkStrands (p : BitVec 512) : Nat := bitsOf p.toNat 32 20
/-- The SIGNAL address of a packet. -/
def pkSignal (p : BitVec 512) : Nat := bitsOf p.toNat 192 64
/-- MODE of a packet: true for deterministic. -/
def pkDet (p : BitVec 512) : Bool := p.getLsbD 9
/-- GANG of a packet. -/
def pkGang (p : BitVec 512) : Nat := bitsOf p.toNat 416 32
/-- GPORTS of a packet. -/
def pkPorts (p : BitVec 512) : Nat := bitsOf p.toNat 376 8
/-- DEADLINE of a packet. -/
def pkDeadline (p : BitVec 512) : Nat := bitsOf p.toNat 448 64
/-- INITSET of a packet. -/
def pkInitset (p : BitVec 512) : Nat := bitsOf p.toNat 352 16
/-- KADDR of a packet. -/
def pkKaddr (p : BitVec 512) : Nat := bitsOf p.toNat 64 64

/-- A status is stored to a SIGNAL address, unless it is 0 (R79, R80), and the write meets its health (R364); it waits while
the row's HBM stack, or one the walk reads, is not trained (R391). -/
def storeStatus (s : State) (fn queue pkt signal status : Nat) : State :=
  if signal = 0 then s
  else
    match procWrite s fn signal (leBytes 8 status) with
    | .ok s' => procMeet s' fn queue pkt true
    | .error .hold =>
      s.setDev { s.dev with statuses := s.dev.statuses ++ [⟨fn, queue, pkt, signal, status⟩] }
    | .error _ => (logRecord s ⟨.address, .none, 0⟩ (procAt s fn queue pkt) {}).logErr

/-- Statuses that waited are stored, those that can be now (R391). -/
def flushStatuses (s : State) : State :=
  s.dev.statuses.foldl (fun s r => storeStatus s r.fn r.queue r.pkt r.signal r.status)
    (s.setDev { s.dev with statuses := [] })

/-- A launch is complete: its status is stored and it leaves the table (R79). -/
def completeLaunch (s : State) (lid status : Nat) : State :=
  match s.dev.launches.find? lid with
  | none => s
  | some l =>
    let s1 := s.setDev { s.dev with launches := s.dev.launches.erase lid }
    storeStatus s1 l.fn l.queue l.pkt (pkSignal l.packet) status

/-- A launch with a change. -/
def modLaunch (s : State) (lid : Nat) (f : Launch → Launch) : State :=
  s.setDev { s.dev with launches := s.dev.launches.modify lid f }

/-- A launch whose strands have all ended, and that awaits no kill-complete, is complete (R79, R370). -/
def launchCheck (s : State) (lid : Nat) : State :=
  match s.dev.launches.find? lid with
  | none => s
  | some l =>
    if s.dev.killedLaunches.contains lid || l.stage.isSome then s
    else if l.ended = (if l.killed then l.bound else pkStrands l.packet) then completeLaunch s lid l.status
    else s

/-- DROP carrying a launch's GANG on each port of GPORTS (R81, R82); none is sent on a port that is down then (DESIGN CHOICE, log
entry 52). -/
def sendDrops (s : State) (l : Launch) : Nat → State
  | 0 => s
  | n + 1 =>
    let s' := sendDrops s l n
    if (pkPorts l.packet).testBit n && s'.dev.ready.getLsbD (15 + n) then s'.send (.drop n (pkGang l.packet))
    else s'

/-- An imprecise fault is aimed at every strand of a launch (R82, R359). -/
def faultLaunch (s : State) (lid : Nat) (r : Raise) : State :=
  { s with strands := s.strands.map (fun p =>
      if p.2.launch = lid then (p.1, { p.2 with pendingFaults := p.2.pendingFaults ++ [(r, 0)] }) else p) }

/-- A committed member of a gang is lost: GANG_LOST in each of its strands, and DROP to the partners (R82). A gang raises it
once: what comes after, a second DROP or another port going down, finds it lost already (DESIGN CHOICE, log entry 52). -/
def gangLost (s : State) (lid : Nat) : State :=
  match s.dev.launches.find? lid with
  | some l =>
    if l.gang = .committed then
      let s1 := faultLaunch (modLaunch s lid (fun l => { l with gang := .lost })) lid ⟨.gangLost, .none, 0⟩
      sendDrops s1 l 8
    else s
  | none => s

/-! ### Sets -/

/-- The key of a set (R83). -/
def setKey (fn id : Nat) : Nat := fn * 2 ^ 16 + id

/-- The barriers that are complete are taken out and answered; a barrier left with no counted member vanishes
(R85, R402). -/
def settleBarriers (fn id : Nat) : List Barrier → List Barrier × List SetAns
  | [] => ([], [])
  | b :: r =>
    let (bs, as) := settleBarriers fn id r
    if b.counted.all (fun u => b.arrived.contains u) then
      (bs, b.arrived.map (fun u => ⟨u, id, .arrive, false⟩) ++ as)
    else (b :: bs, as)

/-- A set with its complete barriers settled. -/
def settleSet (s : State) (fn id : Nat) (e : SetEntry) : State :=
  let (bs, as) := settleBarriers fn id e.barriers
  s.setDev { s.dev with
    sets := s.dev.sets.insert (setKey fn id) { e with barriers := bs }
    setAnswers := s.dev.setAnswers ++ as }

/-- A strand leaves a set: it is no longer counted, and its leaving may complete a barrier (R83, R85). -/
def leaveSet (s : State) (fn id uid : Nat) : State :=
  match s.dev.sets.find? (setKey fn id) with
  | none => s
  | some e =>
    if !e.members.contains uid then s
    else
      let ms := e.members.filter (· ≠ uid)
      if ms.isEmpty then s.setDev { s.dev with sets := s.dev.sets.erase (setKey fn id) }
      else settleSet s fn id
        { members := ms
          barriers := (e.barriers.map (fun b =>
            (⟨b.counted.filter (· ≠ uid), b.arrived.filter (· ≠ uid)⟩ : Barrier))) }

/-- How many sets a strand belongs to. -/
def setCount (s : State) (uid : Nat) : Nat := (s.dev.sets.filter (fun p => p.2.members.contains uid)).length

/-- A strand joins a set: membership first, then the limits of R84; the flag is SET_LIMIT (R187). -/
def joinSet (s : State) (fn id uid : Nat) : State × Bool :=
  match s.dev.sets.find? (setKey fn id) with
  | some e =>
    if e.members.contains uid then (s, false)
    else if setCount s uid ≥ Config.maxStrandSets then (s, true)
    else (s.setDev { s.dev with
      sets := s.dev.sets.insert (setKey fn id) { e with members := e.members ++ [uid] } }, false)
  | none =>
    if setCount s uid ≥ Config.maxStrandSets || s.dev.sets.length ≥ Config.maxSets then (s, true)
    else (s.setDev { s.dev with sets := s.dev.sets.insert (setKey fn id) ⟨[uid], []⟩ }, false)

/-- The first barrier that counts a member and lacks its arrival takes it; otherwise a new barrier counts the members
that stand now (R85). -/
def arriveIn (members : List Nat) (uid : Nat) : List Barrier → List Barrier
  | [] => [⟨members, [uid]⟩]
  | b :: r =>
    if b.counted.contains uid && !b.arrived.contains uid then { b with arrived := b.arrived ++ [uid] } :: r
    else b :: arriveIn members uid r

/-- A barrier arrival is applied (R85). -/
def arriveSet (s : State) (fn id uid : Nat) : State :=
  match s.dev.sets.find? (setKey fn id) with
  | none => s
  | some e => settleSet s fn id { e with barriers := arriveIn e.members uid e.barriers }

/-- A strand leaves every set it belongs to (R64, R369). -/
def leaveAll (s : State) (fn uid : Nat) : State :=
  ((s.dev.sets.filter (fun p => p.2.members.contains uid)).map (·.1)).foldl
    (fun s k => leaveSet s fn (k % 2 ^ 16) uid) s

/-! ### Invalidation -/

/-- Whether an invalidation of translations covers a TLB entry (R118). -/
def ivCovers (d : Device) (e : TlbEntry) : Bool :=
  d.ivctl.getLsbD 28 || (e.page < d.ivfrom + d.ivsize && d.ivfrom < e.page + (if e.big then 2 ^ 21 else 2 ^ 16))

/-- Pages of the attribute table that an SATTR request names: all, or those of the range taken as shared-window
addresses (R118). -/
def ivPage (d : Device) (i : Nat) : Bool :=
  d.ivctl.getLsbD 28 ||
    (sharedBase + i * 2 ^ 16 < d.ivfrom + d.ivsize && d.ivfrom < sharedBase + (i + 1) * 2 ^ 16)

/-- The entries of the attribute image at SATTRBASE that are not 0, in page order (R96); free values where the image
would lie outside HBM. -/
def imageCells (s : State) : PMap (BitVec 2) :=
  let base := s.dev.sattrbase.toNat
  if base + 2 ^ 14 > Config.hbmLimit then
    (List.range 65536).filterMap (fun i => if Config.openAttr i = 0 then none else some (i, Config.openAttr i))
  else (s.mem.filter (fun c => base ≤ c.1 && c.1 < base + 2 ^ 14)).flatMap (fun c =>
    (List.range 4).filterMap (fun j =>
      let v := BitVec.ofNat 2 (bitsOf c.2.toNat (2 * j) 2)
      if v = 0 then none else some (4 * (c.1 - base) + j, v)))

/-- Whether the image an SATTR request reads can be read now (R391). -/
def attrReady (d : Device) : Bool := !d.ivctl.getLsbD 29 || stackReady d.ready d.sattrbase.toNat

/-- A tile's replica with the pages of the request reloaded from the image. -/
def reloadAttr (s : State) (tile : Nat) : State :=
  let t := s.tile tile
  s.setTile tile { t with
    attr := (imageCells s).foldl (fun m p => if ivPage s.dev p.1 then PMap.insert m p.1 p.2 else m)
      (t.attr.filter (fun p => !ivPage s.dev p.1)) }

/-- A slot applies the invalidation in progress and acknowledges (R119). The rows of the attribute image that it reads meet
their health (R364), an event of the device as a whole (DESIGN CHOICE, log entries 16 and 45). -/
def ackSlot (s : State) (key : Nat) : State :=
  match s.dev.ivpending.find? key with
  | none => s
  | some _ =>
    let s1 := match s.strands.find? key with
      | some st =>
        if s.dev.ivctl.getLsbD 29 then s
        else if bitsOf s.dev.ivctl.toNat 24 4 = st.fn then
          s.setStrand key { st with tlb := st.tlb.map (fun l => l.filter (fun e => !ivCovers s.dev e)) }
        else s
      | none => s
    let s2 := if s.dev.ivctl.getLsbD 29 && key % 2 = 0 then
        reloadAttr (outerMeet s1 0 false) (key / 2)
      else s1
    s2.setDev { s2.dev with ivpending := s2.dev.ivpending.erase key }

/-- A slot whose strand leaves it acknowledges the request in progress; while the image of an SATTR request cannot be read it
does not (R391), and its wait counts anew for the slot's next strand (DESIGN CHOICE, log entry 53). -/
def ackOrHold (s : State) (key : Nat) : State :=
  if attrReady s.dev then ackSlot s key
  else s.setDev { s.dev with ivpending := s.dev.ivpending.modify key (fun _ => 0) }

/-! ### The end of a strand -/

/-- Why a strand leaves its slot. -/
inductive EndCause where
  | normal
  | fault
  | kill
deriving DecidableEq, Repr

/-- The slots of a tile begin to exchange: no strand of it runs until that is done (R362, R383). -/
def beginExchange (s : State) (tile : Nat) : State := s.setTile tile { s.tile tile with exchanging := true }

/-- A tile's swap is done or given up: GO clears where SWAPREQ names the tile (R362, R363). -/
def swapDone (s : State) (tile : Nat) : State :=
  let s1 := s.setTile tile { s.tile tile with swap := none, exchanging := false }
  if s1.dev.swapreq.getLsbD 31 && bitsOf s1.dev.swapreq.toNat 0 9 = tile then
    s1.setDev { s1.dev with swapreq := s1.dev.swapreq &&& 0x1FF#32 }
  else s1

/-- A swap by quantum that is pending on a tile is pending no longer: one of its two strands has gone (R86); a SWAPREQ that
it absorbed is done with it (R363). One whose exchange has begun goes on. -/
def dropQuantum (s : State) (tile : Nat) : State :=
  if (s.tile tile).swap = some false && !(s.tile tile).exchanging then swapDone s tile else s

/-- The resident strand takes a running slot that has become free, if it is in arrival mode, by an exchange of the slots with no
outgoing strand (R86). A swap that SWAPREQ asked for is done with that exchange (R362; DEDUCED, log entry 19). -/
def promote (s : State) (key : Nat) : State :=
  if key % 2 = 0 then
    match s.strands.find? (key + 1) with
    | some st =>
      if st.det then s
      else beginExchange { s with strands := (s.strands.erase (key + 1)).insert key { st with quantum := 0 } } (key / 2)
    | none => s
  else s

/-- The launch of an ended strand learns of it; a gang member that ends by fault or kill after commit sends DROP, one whose
gang is lost already too (R79, R82). Where one strand ended by a fault and another was killed the status is 4 (DESIGN CHOICE, log
entry 39). -/
def noteEnd (s : State) (lid : Nat) (why : EndCause) : State :=
  match s.dev.launches.find? lid with
  | none => s
  | some l =>
    let status := match why with
      | .normal => l.status
      | .fault => if l.status = 4 then 4 else 3
      | .kill => 4
    let s1 := modLaunch s lid (fun l => { l with ended := l.ended + 1, status := status })
    let s2 := if why ≠ .normal && (l.gang = .committed || l.gang = .lost) then sendDrops s1 l 8 else s1
    launchCheck s2 lid

/-- A strand leaves every set and its slot (R64, R369): its context is discarded, the slot acknowledges an invalidation as far
as it can, and the resident strand may take the slot. -/
def freeStrand (s : State) (key : Nat) (st : Strand) (why : EndCause) : State :=
  let s1 := leaveAll s st.fn st.uid
  let s2 := { s1 with strands := s1.strands.erase key }
  let s3 := ackOrHold s2 key
  let s4 := traceStrand s3 key st 3 0 st.c.seqno 0
  noteEnd (promote (dropQuantum s4 (key / 2)) key) st.launch why

/-- A fault that is not delivered ends the strand by the kill sequence, with its own record (R360, R369). -/
def endByFault (s : State) (key : Nat) (st : Strand) (r : Raise) (q : Seqr) (seqno : Nat) (imprecise : Bool) :
    State :=
  freeStrand (logRecord s r (st.at key q seqno) { imprecise := imprecise, ended := true }) key st .fault

/-! ### Tokens -/

/-- The count of FIFO x → y. -/
def Strand.tokensAt (st : Strand) (x y : Nat) : Nat := if h : 4 * x + y < 16 then st.tokens[4 * x + y] else 0

/-- FIFO x → y with a count. -/
def Strand.setTokens (st : Strand) (x y v : Nat) : Strand :=
  if h : 4 * x + y < 16 then { st with tokens := st.tokens.set (4 * x + y) v } else st

/-- Tokens of FIFO x → y that records of X's open run-ahead path have popped: they stand in it again if the path is dropped
(R275). -/
def Strand.pathPops (st : Strand) (x y : Nat) : Nat :=
  match st.episode with
  | some e => if y = Seqr.x.code then e.popped.count x else 0
  | none => 0

/-- Whether FIFO x → y has room for a token (R28). A token that an open path has popped keeps its room until the path is settled, so
that a FIFO never comes to hold more than 32 (DEDUCED, log entry 34). -/
def Strand.tokenRoom (st : Strand) (x y : Nat) : Bool := st.tokensAt x y + st.pathPops x y < Config.tokenDepth

/-! ### Run-ahead settled as a misprediction -/

/-- Accumulator n: 0 to 3, shadows 4 to 7. -/
def Strand.accAt (st : Strand) (n : Nat) : AccReg := if h : n < 8 then st.acc[n] else AccReg.start
/-- Accumulator n replaced. -/
def Strand.setAcc (st : Strand) (n : Nat) (a : AccReg) : Strand :=
  if h : n < 8 then { st with acc := st.acc.set n a } else st

/-- The shadows of an episode are discarded (R275, R277). -/
def dropShadows (st : Strand) (js : List Nat) : Strand :=
  js.foldl (fun st j => st.setAcc (j + 4) { st.accAt (j + 4) with tag := 0 }) st

/-- An operation of a strand by sequencer and number. -/
def Strand.findOp (st : Strand) (q : Seqr) (n : Nat) : Option Op := st.ops.find? (fun o => o.q = q && o.seqno = n)

/-- The list with an operation replaced. -/
def Strand.putOp (st : Strand) (o : Op) : Strand :=
  { st with ops := st.ops.map (fun e => if e.q = o.q && e.seqno = o.seqno then o else e) }

/-- The list without an operation. -/
def Strand.dropOp (st : Strand) (o : Op) : Strand :=
  { st with ops := st.ops.filter (fun e => !(e.q = o.q && e.seqno = o.seqno)) }

/-- The records of a mispredicted path end without effect: their numbers on tl.me complete and they push nothing
(R275). One that the matrix engine has not accepted has no number yet (R32): it stays, without issues, until its turn to
take one comes. -/
def dropPath (st : Strand) : Strand :=
  (st.ops.filter (fun o => o.redirect)).foldl (fun st o =>
    if o.phase = .held then st.putOp { o with empty := true, retired := true, redirect := false, late := none }
    else if o.phase = .complete || o.num = 0 then st.dropOp o
    else (st.setTl 4 ((st.tlAt 4).finish o.num)).dropOp o) st

/-- The path of an episode undone after a misprediction (R275): its shadows take tag 0, its records end without effect, and the
tokens that they popped stand in their FIFOs again, in the room that was kept for them (DEDUCED, log entry 34). -/
def undoPath (st : Strand) (e : Episode) : Strand :=
  e.popped.foldl (fun st j => st.setTokens j Seqr.x.code (st.tokensAt j Seqr.x.code + 1))
    (dropPath (dropShadows st e.redirected))

/-- An open episode settled as a misprediction, before a swap or as a fault of the strand is taken: its held fault goes,
and X stands at the BRQ, its token pops made (R276). One whose outcome has been popped is settled by that (R275). -/
def abandonEpisode (st : Strand) : Strand :=
  match st.episode with
  | none => st
  | some e =>
    if e.outcome.isSome then st
    else
    let st1 := undoPath st e
    { st1 with
      episode := none
      ops := st1.ops.filter (fun o => !(o.q = .x && o.seqno = e.seqno))
      xs := { st1.xs with pc := e.pc, wait := some .again, read := ⟨true, 0, 0, 0⟩, window := [] } }

/-! ### Errors of accesses -/

/-- The strand at a slot as it stands in a state, given what it was. -/
def State.strandAt (s : State) (key : Nat) (st : Strand) : Strand := (s.strands.find? key).getD st

/-- Whether a strand's launch is desynchronised: no access of it raises TIMING (R347). -/
def desynced (s : State) (st : Strand) : Bool :=
  match s.dev.launches.find? st.launch with
  | some l => l.desync
  | none => false

/-- What the health of an access brings (R342, R364): an event logged, or a fault at a slot and element. A write is not
retried at its owner, so it meets no uncorrectable read. In arrival mode no error lasts: R342 excludes both of its faults
there, and the result is late (log entry 48). -/
def suffer (s : State) (key : Nat) (st : Strand) (q : Seqr) (seqno : Nat) (sl : Slot) (ix : Nat) (write : Bool)
    (h : Health) : State × Option Raise :=
  let event (c : Code) : State := logRecord s ⟨c, sl, ix⟩ (st.at key q seqno) { transient := true }
  match h with
  | .clean => (s, none)
  | .softEcc => (if write then s else event .softEcc, none)
  | .linkRetry => (event .linkRetry, none)
  | .memLasting =>
    if write then (s, none) else if st.det then (s, some ⟨.memLasting, sl, ix⟩) else (event .softEcc, none)
  | .linkLasting => if st.det then (s, some ⟨.linkLasting, sl, ix⟩) else (event .linkRetry, none)
  | .timing => (s, if st.det && !desynced s st then some ⟨.timing, sl, ix⟩ else none)

/-- An access takes what the health of the state says of it; the accesses after it are without error. -/
def meetHealth (s : State) (key : Nat) (st : Strand) (q : Seqr) (seqno : Nat) (sl : Slot) (ix : Nat) (write : Bool) :
    State × Option Raise :=
  if s.health = .clean then (s, none)
  else suffer { s with health := .clean } key st q seqno sl ix write s.health

/-! ### Taking an exception -/

/-- The value of TCAUSE for a device trap (R359): bit 63 is 0. -/
def trapCause (r : Raise) : Word :=
  BitVec.ofNat 64 (r.index % 2 ^ 47 * 2 ^ 16 + r.slot.code * 2 ^ 8 + r.code.num)

/-- C's entry to its handler: TEPC, TCAUSE, ACT and PC (R359, R182). -/
def Strand.enterHandler (st : Strand) (tepc cause : Word) : Strand :=
  { st with tepc := tepc, tcause := cause, act := true, c := { st.c with pc := st.tvec, wait := .idle, window := [], targets := [] } }

/-- Whether a fault of C with this code goes to the handler (R359). -/
def Strand.handles (st : Strand) (c : Code) : Bool := c.toHandler && st.tvec ≠ 0 && !st.act

/-- Taking an exception of C: a precise fault raised by the word at its pc, or TIMING, which is imprecise (R342). It is
delivered to TVEC, with an open episode of X settled first (R276), or ends the strand (R359, R360). -/
def takeFault (s : State) (key : Nat) (st : Strand) (r : Raise) : State :=
  let n := st.c.seqno + 1
  if st.handles r.code then
    let s1 := logRecord s r (st.at key .c n) { delivered := true }
    let st1 := (abandonEpisode st).enterHandler st.c.pc (trapCause r)
    s1.setStrand key { st1 with c := { st1.c with seqno := n } }
  else endByFault s key st r .c n (r.code = .timing)

/-- Whether R157 allows a swap inside the stalled word that this wait belongs to. -/
def CWait.swappable : CWait → Bool
  | .idle | .stalled | .monWait _ | .sbar _ _ _ _ | .launch _ _ => true
  | _ => false

/-- Taking an imprecise fault at C's boundary, or inside a stalled word as at a swap (R359). An imprecise fault of a
context whose C has ended ends the strand (R360). -/
def takeImprecise (s : State) (key : Nat) (st : Strand) (r : Raise) (seqno : Nat) : State :=
  if st.handles r.code && !st.c.ended then
    let s1 := logRecord s r (st.at key .c seqno) { imprecise := true, delivered := true }
    let st1 := (abandonEpisode st).enterHandler st.c.pc (trapCause r)
    if st.c.wait = .idle then s1.setStrand key st1
    else s1.setStrand key { st1 with intr := true, c := { st1.c with kept := st.c.wait } }
  else endByFault s key st r .c seqno true

/-- The kept state of an interrupted word discarded (R183). The barrier of an SBAR whose arrival was sent is answered all
the same, to no word. -/
def Strand.dropKept (st : Strand) : Strand :=
  match st.c.kept with
  | .sbar id _ true false => { st with intr := false, lateBars := st.lateBars ++ [id], c := { st.c with kept := .idle } }
  | _ => { st with intr := false, c := { st.c with kept := .idle } }

/-- TRET's return: the pc from TEPC, ACT cleared, and an interrupted word resumed from its kept point (R183). -/
def Strand.leaveHandler (st : Strand) : Strand :=
  let c := st.c.jump st.tepc
  if st.intr then { st with act := false, intr := false, c := { c with wait := c.kept, kept := .idle } }
  else { st with act := false, c := c }

/-! ### Words of C -/

/-- A word of C of the strand that runs on the current tile: the strand and its slot (R20, R21). -/
def onC (s : State) (f : Nat → Strand → Out) : Out :=
  match s.strands.find? (runKey s.curTile) with
  | some st =>
    if s.curSeq = .c && st.started && !st.c.ended then f (runKey s.curTile) st
    else .refused .noSuchExecution
  | none => .refused .noSuchExecution

/-- A word that changes only its strand. -/
def onStrand (s : State) (f : Strand → Strand) : Out :=
  onC s (fun key st => .next (s.setStrand key (f st)))

/-- A word that completes with a result in xd (R154). -/
def writeBack (s : State) (xd : Reg) (f : Strand → Word) : Out :=
  onStrand s (fun st => (st.wx xd (f st)).cNext)

end Sys2Proof.Machine
end

