-- ==== Sys2Proof/Machine/Alu.lean ====
section
/-! DEFINITION. Integer and address arithmetic of C (R158 to R162). No word here faults. -/

namespace Sys2Proof.Machine

/-- A signed result clamped to 64 bits (R158). -/
def clamp64 (i : Int) : Word :=
  BitVec.ofInt 64 (max (-(2 ^ 63 : Int)) (min (2 ^ 63 - 1) i))

/-- DIV of R159: truncation toward zero. -/
def divWord (a b : Word) : Word := if b = 0 then BitVec.allOnes 64 else BitVec.ofInt 64 (a.toInt.tdiv b.toInt)

/-- REM of R159: the sign of the dividend. -/
def remWord (a b : Word) : Word := if b = 0 then a else BitVec.ofInt 64 (a.toInt.tmod b.toInt)

/-- DIVU of R159. -/
def divuWord (a b : Word) : Word := if b = 0 then BitVec.allOnes 64 else BitVec.ofNat 64 (a.toNat / b.toNat)

/-- REMU of R159. -/
def remuWord (a b : Word) : Word := if b = 0 then a else BitVec.ofNat 64 (a.toNat % b.toNat)

/-- A truth value as a word. -/
def boolWord (c : Bool) : Word := if c then 1 else 0

/-- A three-register word (R158). -/
def alu (xd xa xb : Reg) (f : Word → Word → Word) (s : State) : Out :=
  writeBack s xd (fun st => f (st.rx xa) (st.rx xb))

/-- An immediate word (R160). -/
def aluImm (xd xa : Reg) (f : Word → Word) (s : State) : Out :=
  writeBack s xd (fun st => f (st.rx xa))

/-- ADD (R158). -/
def execAdd (xd xa xb : Reg) (s : State) : Out := alu xd xa xb (fun a b => a + b) s

/-- SUB (R158). -/
def execSub (xd xa xb : Reg) (s : State) : Out := alu xd xa xb (fun a b => a - b) s

/-- ADDS (R158). -/
def execAdds (xd xa xb : Reg) (s : State) : Out := alu xd xa xb (fun a b => clamp64 (a.toInt + b.toInt)) s

/-- SUBS (R158). -/
def execSubs (xd xa xb : Reg) (s : State) : Out := alu xd xa xb (fun a b => clamp64 (a.toInt - b.toInt)) s

/-- MUL (R158). -/
def execMul (xd xa xb : Reg) (s : State) : Out := alu xd xa xb (fun a b => a * b) s

/-- MULH (R158). -/
def execMulh (xd xa xb : Reg) (s : State) : Out := alu xd xa xb (fun a b => BitVec.ofInt 64 (a.toInt * b.toInt / 2 ^ 64)) s

/-- MULHU (R158). -/
def execMulhu (xd xa xb : Reg) (s : State) : Out := alu xd xa xb (fun a b => BitVec.ofNat 64 (a.toNat * b.toNat / 2 ^ 64)) s

/-- DIV (R159). -/
def execDiv (xd xa xb : Reg) (s : State) : Out := alu xd xa xb (fun a b => divWord a b) s

/-- DIVU (R159). -/
def execDivu (xd xa xb : Reg) (s : State) : Out := alu xd xa xb (fun a b => divuWord a b) s

/-- REM (R159). -/
def execRem (xd xa xb : Reg) (s : State) : Out := alu xd xa xb (fun a b => remWord a b) s

/-- REMU (R159). -/
def execRemu (xd xa xb : Reg) (s : State) : Out := alu xd xa xb (fun a b => remuWord a b) s

/-- AND (R158). -/
def execAnd (xd xa xb : Reg) (s : State) : Out := alu xd xa xb (fun a b => a &&& b) s

/-- OR (R158). -/
def execOr (xd xa xb : Reg) (s : State) : Out := alu xd xa xb (fun a b => a ||| b) s

/-- XOR (R158). -/
def execXor (xd xa xb : Reg) (s : State) : Out := alu xd xa xb (fun a b => a ^^^ b) s

/-- SLL (R158). -/
def execSll (xd xa xb : Reg) (s : State) : Out := alu xd xa xb (fun a b => a <<< (b.toNat % 64)) s

/-- SRL (R158). -/
def execSrl (xd xa xb : Reg) (s : State) : Out := alu xd xa xb (fun a b => a >>> (b.toNat % 64)) s

/-- SRA (R158). -/
def execSra (xd xa xb : Reg) (s : State) : Out := alu xd xa xb (fun a b => a.sshiftRight (b.toNat % 64)) s

/-- MIN (R158). -/
def execMin (xd xa xb : Reg) (s : State) : Out := alu xd xa xb (fun a b => if a.slt b then a else b) s

/-- MAX (R158). -/
def execMax (xd xa xb : Reg) (s : State) : Out := alu xd xa xb (fun a b => if a.slt b then b else a) s

/-- MINU (R158). -/
def execMinu (xd xa xb : Reg) (s : State) : Out := alu xd xa xb (fun a b => if a.ult b then a else b) s

/-- MAXU (R158). -/
def execMaxu (xd xa xb : Reg) (s : State) : Out := alu xd xa xb (fun a b => if a.ult b then b else a) s

/-- SLT (R158). -/
def execSlt (xd xa xb : Reg) (s : State) : Out := alu xd xa xb (fun a b => boolWord (a.slt b)) s

/-- SLTU (R158). -/
def execSltu (xd xa xb : Reg) (s : State) : Out := alu xd xa xb (fun a b => boolWord (a.ult b)) s

/-- ADDI (R160). -/
def execAddi (xd xa : Reg) (imm : BitVec 32) (s : State) : Out := aluImm xd xa (fun a => a + imm.signExtend 64) s

/-- ANDI (R160). -/
def execAndi (xd xa : Reg) (imm : BitVec 32) (s : State) : Out := aluImm xd xa (fun a => a &&& imm.signExtend 64) s

/-- ORI (R160). -/
def execOri (xd xa : Reg) (imm : BitVec 32) (s : State) : Out := aluImm xd xa (fun a => a ||| imm.signExtend 64) s

/-- XORI (R160). -/
def execXori (xd xa : Reg) (imm : BitVec 32) (s : State) : Out := aluImm xd xa (fun a => a ^^^ imm.signExtend 64) s

/-- SLLI (R160). -/
def execSlli (xd xa : Reg) (sh : BitVec 6) (s : State) : Out := aluImm xd xa (fun a => a <<< sh.toNat) s

/-- SRLI (R160). -/
def execSrli (xd xa : Reg) (sh : BitVec 6) (s : State) : Out := aluImm xd xa (fun a => a >>> sh.toNat) s

/-- SRAI (R160). -/
def execSrai (xd xa : Reg) (sh : BitVec 6) (s : State) : Out := aluImm xd xa (fun a => a.sshiftRight sh.toNat) s

/-- SLTI (R160). -/
def execSlti (xd xa : Reg) (imm : BitVec 32) (s : State) : Out :=
  aluImm xd xa (fun a => boolWord (a.slt (imm.signExtend 64))) s

/-- MOVI (R160). -/
def execMovi (xd : Reg) (imm : BitVec 32) (s : State) : Out := writeBack s xd (fun _ => imm.signExtend 64)

/-- MOVHI (R160): IMM × 2^32 + xa[31:0]. -/
def execMovhi (xd xa : Reg) (imm : BitVec 32) (s : State) : Out :=
  aluImm xd xa (fun a => imm ++ a.extractLsb' 0 32) s

/-- CVTA (R161, R91). -/
def execCvta (xd xa : Reg) (win : BitVec 2) (s : State) : Out :=
  aluImm xd xa (fun a => BitVec.ofNat 64 (cvta s.curTile a.toNat win.toNat)) s

/-- ISAP (R161, R91). -/
def execIsap (xd xa : Reg) (win : BitVec 2) (s : State) : Out :=
  aluImm xd xa (fun a => boolWord (isap s.curTile a.toNat win.toNat)) s

/-- MOVB (R162). -/
def execMovb (bn : BitVec 5) (xa : Reg) (s : State) : Out :=
  onStrand s (fun st => (st.wb bn.toNat (st.rx xa)).cNext)

/-- MOVXB (R162). -/
def execMovxb (xd : Reg) (bn : BitVec 5) (s : State) : Out := writeBack s xd (fun st => st.rb bn.toNat)

/-- Stage predicate n written. -/
def Strand.setPred (st : Strand) (n : Nat) (v : Bool) : Strand :=
  { st with s := BitVec.ofNat 8 (setBits st.s.toNat n 1 v.toNat) }

/-- PSET (R162). -/
def execPset (sn : BitVec 3) (xa : Reg) (s : State) : Out :=
  onStrand s (fun st => (st.setPred sn.toNat ((st.rx xa).getLsbD 0)).cNext)

/-- PGET (R162). -/
def execPget (xd : Reg) (sn : BitVec 3) (s : State) : Out :=
  writeBack s xd (fun st => boolWord (st.s.getLsbD sn.toNat))

end Sys2Proof.Machine
end

