-- ==== Sys2Proof/Machine/Fields.lean ====
section
/-! DEFINITION. The fields each instruction accepts: the opcode maps of R127 and R141 and the tables of R189, R227,
R258 and R281, with the field rules of R125, R128, R132, R134, R136, R137, R139 and R142. -/

namespace Sys2Proof

/-- Why a decoder refuses an encoding. Every reason raises ILLEGAL_OP (R128, R142). -/
inductive Reject where
  /-- an opcode the maps leave unassigned -/
  | unassigned
  /-- an unused or reserved field of a control word that is not zero (R125) -/
  | unused
  /-- a selector or register number outside its set (R125, R126) -/
  | selector
  /-- an ORD or SCOPE that R99 or R100 forbids -/
  | annotation
  /-- a CSR number outside the map (R128) -/
  | csr
  /-- an engine value the opcode does not list (R22, R141) -/
  | engine
  /-- a sequencer that may not issue the record (R22, R141) -/
  | sequencer
  /-- an FMT outside the record's column (R189, R258, R281) -/
  | format
  /-- a stage selector that breaks R139 -/
  | stage
  /-- a PUSH or POP bit that names the issuing sequencer (R137) -/
  | tokens
  /-- an operand kind the record does not accept (R132) -/
  | kind
  /-- an FN value the record does not define -/
  | function
  /-- a stride unit the record does not accept -/
  | unit
  /-- a trip count outside the record's limits -/
  | trips
  /-- a value of an operand field the record does not accept -/
  | operand (s : Slot)
  /-- a modifier that breaks R136 -/
  | modifier (s : Slot)
  /-- an MSK value the record does not accept -/
  | mask
  /-- a queue code the record does not accept -/
  | queue
  /-- not 8 or 64 bytes of one word or record -/
  | length
deriving DecidableEq, Repr

/-- The slot a fault record names for a refused encoding (R143). -/
def Reject.slot : Reject → Slot
  | .operand s => s
  | .modifier s => s
  | .mask => .m
  | .queue => .q
  | _ => .none

/-- A form an operand slot accepts. -/
inductive Form where
  /-- kind 0, all zero (R134) -/
  | unused
  /-- memory, with the strides S3 S2 S1 S0 that must be zero marked by 1 bits -/
  | mem (zero : BitVec 4)
  /-- a register code from lo to hi, OFF and strides zero -/
  | reg (lo hi : Nat)
  /-- a register code from lo to hi with OFF[15:0], S0 and S1 in use (R264, R287) -/
  | regGrid (lo hi : Nat)
  /-- the queue of this code, OFF and strides zero -/
  | queue (code : Nat)
  /-- the queue of this code with an OFF in use -/
  | queueOff (code : Nat) (ok : Nat → Bool)
  /-- an immediate (R226) -/
  | imm (ok : Opd → Bool)

/-- The operand kind code of a form (R132). -/
def Form.kind : Form → Nat
  | .unused => 0
  | .imm _ => 0
  | .mem _ => 1
  | .reg _ _ => 2
  | .regGrid _ _ => 2
  | .queue _ => 3
  | .queueOff _ _ => 3

/-- Whether every stride of an operand is zero. -/
def Opd.noStrides (o : Opd) : Bool := o.s3 == 0 && o.s2 == 0 && o.s1 == 0 && o.s0 == 0

/-- What an operand field of slot s breaks when it is read in a form. -/
def Form.reject (s : Slot) (o : Opd) : Form → Option Reject
  | .unused => if o = Opd.zero then none else some (.operand s)
  | .mem z =>
    if o.base.toNat < 48
        && (!z.getLsbD 3 || o.s3 == 0) && (!z.getLsbD 2 || o.s2 == 0)
        && (!z.getLsbD 1 || o.s1 == 0) && (!z.getLsbD 0 || o.s0 == 0)
    then none else some (.operand s)
  | .reg lo hi =>
    if lo ≤ o.base.toNat && o.base.toNat ≤ hi && o.off == 0 && o.noStrides then none
    else some (.operand s)
  | .regGrid lo hi =>
    if lo ≤ o.base.toNat && o.base.toNat ≤ hi && o.off.toNat < 2 ^ 16 && o.s3 == 0 && o.s2 == 0
    then none else some (.operand s)
  | .queue code =>
    if o.base.toNat = code then
      if o.off == 0 && o.noStrides then none else some (.operand s)
    else some .queue
  | .queueOff code ok =>
    if o.base.toNat = code then
      if ok o.off.toNat && o.noStrides then none else some (.operand s)
    else some .queue
  | .imm ok => if ok o then none else some (.operand s)

/-- What an operand breaks against the forms its slot accepts: the first form of its kind decides, except that among
several register ranges or queues any may fit. -/
def rejectOpd (s : Slot) (k : BitVec 2) (o : Opd) (fs : List Form) : Option Reject :=
  match fs.filter (fun f => f.kind == k.toNat) with
  | [] => some .kind
  | f :: rest =>
    if (f :: rest).any (fun g => (g.reject s o).isNone) then none else f.reject s o

/-- What a modifier breaks. `count` is the operand's element count for one issue where the record's encoding fixes it
(R136); `used` says whether the operand is one that the record reads elements of. -/
def rejectMod (s : Slot) (used : Bool) (count : Option Nat) (m : BitVec 12) : Option Reject :=
  let cls := bitsOf m.toNat 10 2
  let g := bitsOf m.toNat 6 4
  let d := bitsOf m.toNat 0 6
  if cls = 0 then (if m == 0 then none else some (.modifier s))
  else if !used then some (.modifier s)
  else if d ≥ 2 ^ g then some (.modifier s)
  else match count with
    | some n => if n % 2 ^ g = 0 then none else some (.modifier s)
    | none => none

/-- The first reason of a list. -/
def firstReject : List (Option Reject) → Option Reject
  | [] => none
  | some r :: _ => some r
  | none :: rest => firstReject rest

/-- A reason unless a condition holds. -/
def need (ok : Bool) (r : Reject) : Option Reject := if ok then none else some r

/-- What a record's statement lets its encoding hold. -/
structure RecSpec where
  opc : Nat
  engLo : Nat
  engHi : Nat
  seqs : List Seqr
  fmt : Nat → Bool
  d : List Form
  a : List Form
  b : List Form
  msk : Nat → Bool
  fn : Nat → Bool
  trips : Rec → Bool
  /-- whether a modifier other than none may stand, and the element count of one issue where it is known at decode -/
  mods : Bool
  count : Rec → Option Nat
  /-- STG must be 0 -/
  noStage : Bool
  extra : Rec → Option Reject

/-- Fields of a data-movement or sequencer record (R189): MSK, FMT and modifiers zero. -/
def moveSpec (opc lo hi : Nat) (seqs : List Seqr) (d a b : List Form) (fn : Nat → Bool)
    (trips : Rec → Bool) : RecSpec where
  opc := opc
  engLo := lo
  engHi := hi
  seqs := seqs
  fmt := (· == 0)
  d := d
  a := a
  b := b
  msk := (· == 0)
  fn := fn
  trips := trips
  mods := false
  count := fun _ => none
  noStage := false
  extra := fun _ => none

/-- Fields of a record of X on engine e with modifiers on its operands. -/
def xSpec (opc e : Nat) (d a b : List Form) (msk fn fmt : Nat → Bool) (trips : Rec → Bool) : RecSpec where
  opc := opc
  engLo := e
  engHi := e
  seqs := [.x]
  fmt := fmt
  d := d
  a := a
  b := b
  msk := msk
  fn := fn
  trips := trips
  mods := true
  count := fun _ => none
  noStage := false
  extra := fun _ => none

/-- Any trip counts (R135). -/
def tripsAny : Rec → Bool := fun _ => true
/-- All trip counts 1. -/
def tripsOne (r : Rec) : Bool := r.t3 == 1 && r.t2 == 1 && r.t1 == 1 && r.t0 == 1
/-- T1 to T3 are 1 and T0 lies from lo to hi. -/
def tripsT0 (lo hi : Nat) (r : Rec) : Bool :=
  r.t3 == 1 && r.t2 == 1 && r.t1 == 1 && lo ≤ r.t0.toNat && r.t0.toNat ≤ hi
/-- T2 and T3 are 1 and T0, T1 lie in their ranges. -/
def tripsT01 (lo0 hi0 lo1 hi1 : Nat) (r : Rec) : Bool :=
  r.t3 == 1 && r.t2 == 1 && lo1 ≤ r.t1.toNat && r.t1.toNat ≤ hi1 && lo0 ≤ r.t0.toNat && r.t0.toNat ≤ hi0

/-- The product of the trip counts. -/
def Rec.total (r : Rec) : Nat := r.t3.toNat * r.t2.toNat * r.t1.toNat * r.t0.toNat

/-- The FP32 bits of SRESET's margin: non-negative, no NaN, not −0 (R281). -/
def marginOk (v : Nat) : Bool := v ≤ 0x7F800000

/-- An immediate that uses only OFF, under a condition on it. -/
def offImm (ok : Nat → Bool) : Form :=
  .imm (fun o => o.base == 0 && o.noStrides && ok o.off.toNat)

/-- VCVT's control in place of operand B: DST, RND, SAT (R233). -/
def cvtImm (o : Opd) : Bool :=
  let dst := o.base.toNat / 4
  1 ≤ dst && dst ≤ 9 && o.base.toNat % 4 != 3 && o.off.toNat % 2 ^ 33 == 0 && o.noStrides

/-- VIOTA's start and step in operand A (R246). -/
def iotaImm (o : Opd) : Bool :=
  o.base == 0 && o.off.toNat < 2 ^ 32 && o.s3 == 0 && o.s2 == 0 && o.s1 == 0

/-- The default format of a vector record (R227). -/
def vecDefault : Instr → Nat
  | .vsel _ | .vand _ | .vor _ | .vxor _ | .vnot _ | .vshl _ | .vshr _ | .vclmul _ | .vcomp _
  | .vexpand _ | .vcopy _ | .vfill _ | .viota _ => 9
  | .vband _ | .vpopc _ | .visect _ => 15
  | .vcvt _ | .vdrop _ => 0
  | _ => 1

/-- The format F of a vector record: FMT, or the default when FMT is 0 (R222). -/
def vecF (i : Instr) (r : Rec) : Nat := if r.fmt == 0 then vecDefault i else r.fmt.toNat

/-- Whether a tag names an integer format (R37). -/
def isIntFmt (f : Nat) : Bool := 6 ≤ f && f ≤ 9

/-- The FN of a record marked R, and the DW field of VSCAN: DW 2 and 3 are reserved for an integer F (R224). -/
def dwOk (i : Instr) (r : Rec) : Bool := !(isIntFmt (vecF i r) && r.fn.toNat / 8 ≥ 2)

/-- The FN of a record marked R: RND is not 3 (R224). -/
def fnR (f : Nat) : Bool := f % 4 != 3

/-- The checks that every vector record shares (R220, R221, R223). More than 65,536 elements under a mask name slot M (R143; DESIGN
CHOICE, log entry 6), and A and B that both name `dq.lx` name no slot (R220; DESIGN CHOICE, log entry 6). A register operand with T1, T2 or T3 = 0 is refused too, for
T1 = T2 = T3 = 1 is required, while T0 = 0 makes a record without issues (DEDUCED, log entry 50). -/
def vecExtra (r : Rec) : Option Reject :=
  firstReject [
    need (!(r.dk == 2 || r.ak == 2 || r.bk == 2) || (r.t3 == 1 && r.t2 == 1 && r.t1 == 1)) .trips,
    need (!(r.dk == 2 && r.d.base == 32)) (.operand .d),
    need (!(r.ak == 3 && r.bk == 3)) .kind,
    need (!(r.msk != 0 && r.total > 65536)) .mask]

/-- BIT operands are never queues (R227). -/
def bitNoQueue (r : Rec) : Option Reject :=
  need (!(r.fmt == 15 && (r.dk == 3 || r.ak == 3 || r.bk == 3))) .kind

/-- Fields of a vector record (R227). -/
def vecSpec (opc : Nat) (d a b : List Form) (msk : Bool) (fn : Nat → Bool)
    (extra : Rec → Option Reject) : RecSpec where
  opc := opc
  engLo := 5
  engHi := 5
  seqs := [.x]
  fmt := fun _ => true
  d := d
  a := a
  b := b
  msk := fun m => msk || m == 0
  fn := fn
  trips := tripsAny
  mods := true
  count := fun r => some r.t0.toNat
  noStage := false
  extra := fun r => firstReject [vecExtra r, extra r]

/-- Memory in any strides. -/
def mAny : Form := .mem 0
/-- Memory without strides. -/
def mNone : Form := .mem 15
/-- Memory or a mask register as a BIT operand (R221). -/
def mk : List Form := [mAny, .reg 32 47]
/-- Memory or `dq.lx` as a vector source (R220). -/
def mqA : List Form := [mAny, .queue 0]
/-- Memory or `dq.xs` as a vector destination (R220). -/
def mqD : List Form := [mAny, .queue 1]

/-- Bit i of a number. -/
def bit (v i : Nat) : Bool := v.testBit i

/-- The fields a record accepts (R141, R189, R227, R258, R281); none for what is no record. MODB is accepted on KSTORE, whose B
is an address with no elements to permute, and does nothing there (DESIGN CHOICE, log entry 50). BRQ reads one element of its queue
operand, so that a MODB of segments of one element is accepted (R136; DESIGN CHOICE, log entry 50). A BQPUSH whose last outcome lies
beyond its row names slot D, a VCOMP or VEXPAND with B in memory and MSK slot M (R143, R245; DESIGN CHOICE, log entry 6). -/
def recSpec (i : Instr) : Option RecSpec :=
  let none1 : Rec → Option Reject := fun _ => none
  let l : List Seqr := [.l]
  let lxs : List Seqr := [.l, .x, .s]
  let u : List Form := [.unused]
  let m : List Form := [mAny]
  let stat : Nat → Bool := fun f => f == 0 || f == 16
  let z : Nat → Bool := fun f => f == 0
  let le (n : Nat) : Nat → Bool := fun f => f ≤ n
  let acc : List Form := [.reg 16 23]
  let t : List Form := [.reg 0 15]
  let dw (r : Rec) : Option Reject := need (dwOk i r) .function
  let prodFmt : Nat → Bool := fun f => f == 0 || (2 ≤ f && f ≤ 7) || (11 ≤ f && f ≤ 13)
  let memFmt : Nat → Bool := fun f => (1 ≤ f && f ≤ 9) || (11 ≤ f && f ≤ 13)
  let tileFmt : Nat → Bool := fun f => (1 ≤ f && f ≤ 9) || (11 ≤ f && f ≤ 14)
  let plainFmt : Nat → Bool := fun f => 1 ≤ f && f ≤ 9
  let mskOn : Nat → Bool := fun k => k != 0
  let binV (opc : Nat) : RecSpec := vecSpec opc mqD mqA mqA true fnR dw
  let unV (opc : Nat) : RecSpec := vecSpec opc mqD mqA u true fnR dw
  match i with
  | .copy _ => some (moveSpec 0x01 0 3 [.l, .s] m m u stat tripsAny)
  | .copyf _ => some (moveSpec 0x02 0 3 l m m [mNone] stat tripsAny)
  | .rld _ => some (moveSpec 0x03 0 3 l [.queue 0, .unused] m [mNone, .unused] z tripsAny)
  | .rst _ => some (moveSpec 0x04 0 3 [.s] m [.queue 1] u stat tripsAny)
  | .tld _ => some { moveSpec 0x05 0 3 l t m [mNone, .unused] z tripsAny with fmt := fun _ => true }
  | .kld _ => some { moveSpec 0x06 0 3 l [.reg 33 47] m u z (fun r => r.total ≤ 64) with
      fmt := fun f => f == 0 || f == 15 }
  | .gather _ => some (moveSpec 0x07 6 6 l [mAny, .queue 0] m m (le 1) tripsAny)
  | .scatter _ => some (moveSpec 0x08 0 3 [.s] m [.queue 1] m
      (fun f => f == 0 || f == 1 || f == 16 || f == 17) tripsAny)
  | .rmerge _ => some (moveSpec 0x09 9 9 l [.queueOff 0 (fun o => o < 128)] u u (le 1) tripsAny)
  | .bqpush _ => some { moveSpec 0x0A 9 9 l [.queueOff 2 (fun o => o < 128 && o % 2 == 0)] u u
      (fun _ => true) tripsAny with
      extra := fun r => need (r.d.off.toNat / 2 + r.fn.toNat + 1 ≤ 64) (.operand .d) }
  | .rqld _ => some (moveSpec 0x0B 0 3 l [.queue 3] m u (fun _ => true) tripsAny)
  | .loop _ => some (moveSpec 0x10 9 9 lxs u u u z
      (fun r => r.t3 == 1 && r.t2 == 1 && r.t1 != 0))
  | .loopq _ => some (moveSpec 0x11 9 9 [.x] u [.queue 3] u (le 1)
      (fun r => r.t3 == 1 && r.t2 == 1 && r.t1 != 0 && r.t0 == 1))
  | .endl _ => some { moveSpec 0x12 9 9 lxs [mNone, .unused] [mNone, .unused] [mNone, .unused] z
      tripsOne with noStage := true }
  | .rot _ => some (moveSpec 0x13 9 9 lxs u u u (le 3)
      (fun r => r.t3 == 1 && r.t2 == 1 && r.t1 == 1 && (r.fn == 3 || r.t0 == 1)))
  | .drainRec _ => some (moveSpec 0x14 9 9 lxs u u u (le 3) tripsOne)
  | .tlwaitRec _ => some (moveSpec 0x15 9 9 lxs u [mNone] u (le 9) tripsOne)
  | .sync _ => some (moveSpec 0x16 9 9 lxs u u u z tripsOne)
  | .endRec _ => some { moveSpec 0x17 9 9 lxs u u u z tripsOne with noStage := true }
  | .brq _ => some { xSpec 0x18 9 [offImm (· != 0)] [offImm (fun o => o != 0 && o < 2 ^ 16)]
      [.queue 2] z (le 3) z tripsOne with noStage := true, count := fun _ => some 1 }
  | .vadd _ => some (binV 0x20)
  | .vsub _ => some (binV 0x21)
  | .vmul _ => some (binV 0x22)
  | .vfma _ => some (vecSpec 0x23 m mqA mqA true fnR dw)
  | .vdiv _ => some (binV 0x24)
  | .vmin _ => some (binV 0x25)
  | .vmax _ => some (binV 0x26)
  | .vabs _ => some (unV 0x27)
  | .vneg _ => some (unV 0x28)
  | .vexp _ => some (unV 0x29)
  | .vlog _ => some (unV 0x2A)
  | .vrcp _ => some (unV 0x2B)
  | .vrsq _ => some (unV 0x2C)
  | .vtanh _ => some (unV 0x2D)
  | .vsigm _ => some (unV 0x2E)
  | .vcmp _ => some (vecSpec 0x2F mk mqA mqA true (le 7) none1)
  | .vsel _ => some (vecSpec 0x30 mqD mqA mqA true z bitNoQueue)
  | .vcvt _ => some (vecSpec 0x31 mqD mqA [.imm cvtImm] true z none1)
  | .vrsum _ => some (unV 0x32)
  | .vrmax _ => some (vecSpec 0x33 mqD mqA u true z none1)
  | .vrmin _ => some (vecSpec 0x34 mqD mqA u true z none1)
  | .vscan _ => some (vecSpec 0x35 mqD mqA u true (fun f => f % 4 != 3) dw)
  | .vtopk _ => some (vecSpec 0x36 [.mem 1] mqA u true (le 3)
      (fun r => firstReject [need (!bit r.fn.toNat 1 || r.a.s0 == 16) (.operand .a),
        need (!bit r.fn.toNat 1 || r.su == 0) .unit]))
  | .vdrop _ => some (vecSpec 0x37 mk m u false z none1)
  | .vand _ => some (vecSpec 0x38 mqD mqA mqA true z none1)
  | .vor _ => some (vecSpec 0x39 mqD mqA mqA true z none1)
  | .vxor _ => some (vecSpec 0x3A mqD mqA mqA true z none1)
  | .vnot _ => some (vecSpec 0x3B mqD mqA u true z none1)
  | .vshl _ => some (vecSpec 0x3C mqD mqA mqA true z none1)
  | .vshr _ => some (vecSpec 0x3D mqD mqA mqA true (le 1) none1)
  | .vband _ => some (vecSpec 0x3E mk mk mk false (le 1) none1)
  | .vpopc _ => some (vecSpec 0x3F m mk u false (le 1) none1)
  | .visect _ => some (vecSpec 0x40 [.mem 1] mk mk false z none1)
  | .vclmul _ => some (vecSpec 0x41 mqD mqA mqA true (le 1) none1)
  | .vcomp _ => some (vecSpec 0x42 m mqA [mAny, .unused] true z
      (fun r => need (!(r.bk == 1 && r.msk != 0)) .mask))
  | .vexpand _ => some (vecSpec 0x43 mqD m [mAny, .unused] true (le 1)
      (fun r => need (!(r.bk == 1 && r.msk != 0)) .mask))
  | .vcopy _ => some (vecSpec 0x44 mqD mqA [mAny, .unused] true (le 1)
      (fun r => firstReject [need ((r.bk == 1) == (r.fn == 1)) .kind, bitNoQueue r]))
  | .vfill _ => some (vecSpec 0x45 mqD [offImm (· < 2 ^ 32)] u true z none1)
  | .viota _ => some (vecSpec 0x46 mqD [.imm iotaImm] u true z none1)
  | .vsqrt _ => some (unV 0x47)
  | .mma _ => some (xSpec 0x50 4 acc t t z (le 7) prodFmt tripsOne)
  | .mmanm _ => some (xSpec 0x51 4 acc t t mskOn (le 15) (fun f => f == 0 || (2 ≤ f && f ≤ 7)) tripsOne)
  | .mmacb _ => some (xSpec 0x52 4 acc t t z (le 15) z tripsOne)
  | .mmag _ => some (xSpec 0x53 4 acc m t z (fun _ => true) memFmt (tripsT0 1 128))
  | .mmak _ => some (xSpec 0x54 4 [.regGrid 16 23] t t mskOn (le 15) prodFmt tripsOne)
  | .azero _ => some (xSpec 0x55 4 acc u u z z z tripsOne)
  | .awrq _ => some { xSpec 0x56 4 [.queue 1] acc u z (fun f => f < 16 && f % 4 != 3) plainFmt (tripsT01 1 128 1 128) with count := fun _ => some 128 }
  | .awrm _ => some { xSpec 0x57 4 [.mem 13] acc u z (fun f => f < 16 && f % 4 != 3) plainFmt (tripsT01 1 128 1 128) with count := fun _ => some 128 }
  | .awrt _ => some { xSpec 0x58 4 t acc u z (fun f => f < 16 && f % 4 != 3) plainFmt (tripsT01 1 128 1 128) with count := fun _ => some 128 }
  | .tlds _ => some (xSpec 0x59 4 t m u z z tileFmt tripsAny)
  | .tsts _ => some (xSpec 0x5A 4 m t u z z z tripsAny)
  | .tqld _ => some (xSpec 0x5B 4 t [.queue 0] u z z tileFmt (tripsT0 0 65535))
  | .tstq _ => some (xSpec 0x5C 4 [.queue 1] t u z z z (tripsT0 0 65535))
  | .scommit _ => some (xSpec 0x5D 4 [.reg 20 23] u u z z z tripsOne)
  | .sdiscard _ => some (xSpec 0x5E 4 [.reg 20 23] u u z z z tripsOne)
  | .mnest _ => some (xSpec 0x5F 4 acc m m z (le 15) memFmt tripsAny)
  | .scout _ => some (xSpec 0x60 7 [.mem 12] t t z z (fun f => f == 0 || (2 ≤ f && f ≤ 5))
      (fun r => r.t3 == 1 && r.t2 == 1))
  | .thresh _ => some { xSpec 0x61 7 [.regGrid 33 47] [.mem 12] u z z z (tripsT01 1 128 1 65535) with count := fun r => some r.t1.toNat }
  | .sreset _ => some (xSpec 0x62 7 u [offImm marginOk] u z z z tripsOne)
  | .hcfg _ => some (xSpec 0x63 8 u [mNone] u z (le 3) z tripsOne)
  | .hcfgRet _ => some (xSpec 0x63 8 u u u z (· == 16) z tripsOne)
  | .hproj _ => some (xSpec 0x64 8 u t u z (le 3) z tripsOne)
  | .hreset _ => some (xSpec 0x65 8 u u u z (le 3) z tripsOne)
  | .kstore _ => some (xSpec 0x66 8 [.mem 14] t [mNone] z (le 3) z (tripsT0 1 128))
  | .hgather _ => some (xSpec 0x67 8 [mNone] t [offImm (fun o => o != 0 && o < 2 ^ 16)] z (le 7) z (tripsT0 1 64))
  | .hcount _ => some (xSpec 0x68 8 [mNone] u u z (le 3) z tripsOne)
  | _ => none

/-- The stage selector rule of R139. -/
def stageOk (g : BitVec 8) : Bool :=
  g.toNat % 8 == 0 && (bit g.toNat 7 || g == 0)

/-- What a record breaks when sequencer q decodes it, the header first, then the operands in slot order (R142, R143). -/
def RecSpec.reject (sp : RecSpec) (q : Seqr) (r : Rec) : Option Reject :=
  firstReject [
    need (sp.engLo ≤ r.eng.toNat && r.eng.toNat ≤ sp.engHi) .engine,
    need (sp.seqs.contains q) .sequencer,
    need (sp.fmt r.fmt.toNat) .format,
    need (!r.push.getLsbD q.code && !r.pop.getLsbD q.code) .tokens,
    need (stageOk r.stg && (!sp.noStage || r.stg == 0)) .stage,
    need (sp.fn r.fn.toNat) .function,
    need (sp.trips r) .trips,
    rejectOpd .d r.dk r.d sp.d,
    rejectOpd .a r.ak r.a sp.a,
    rejectOpd .b r.bk r.b sp.b,
    rejectMod .a (sp.mods && r.ak != 0) (sp.count r) r.moda,
    rejectMod .b (sp.mods && r.bk != 0) (sp.count r) r.modb,
    need (sp.msk r.msk.toNat) .mask,
    sp.extra r]

/-- The CSR numbers of the map of R175. -/
def csrListed (n : Nat) : Bool :=
  n ≤ 0x1B || n == 0x20 || n == 0x21 || (0x200 ≤ n && n ≤ 0x3FF) || n == 0x400 || n == 0x401
    || (0x500 ≤ n && n ≤ 0x53F)

/-- The annotation rule of R99 and R100 for an access that may acquire (`acq`), release (`rel`) or both. -/
def annotOk (acq rel : Bool) (scope : BitVec 3) (ord : BitVec 2) : Bool :=
  scope.toNat ≤ 4 &&
  match ord.toNat with
  | 0 => scope == 0
  | 1 => acq
  | 2 => rel
  | _ => acq && rel

/-- What a control word breaks (R125, R128); its fields that the constructor does not hold are zero by construction. -/
def wordReject : Instr → Option Reject
  | .cvta _ _ w => need (w != 3) .selector
  | .ld _ _ sc o _ => need (annotOk true false sc o) .annotation
  | .st _ _ sc o _ => need (annotOk false true sc o) .annotation
  | .aadd _ _ _ sc o _ | .amin _ _ _ sc o _ | .amax _ _ _ sc o _ | .aminu _ _ _ sc o _
  | .amaxu _ _ _ sc o _ | .axchg _ _ _ sc o _ | .acas _ _ _ sc o _ | .afadd32 _ _ _ sc o _
  | .afadd16 _ _ _ sc o _ => need (annotOk true true sc o) .annotation
  | .fence sc k => need (sc.toNat ≤ 4 && k != 0) .annotation
  | .tlwait _ c => need (c.toNat ≤ 9) .selector
  | .tlread _ c _ => need (c.toNat ≤ 9) .selector
  | .qpush d => need (d != 0) .selector
  | .qpop d => need (d != 0) .selector
  | .csrr _ n => need (csrListed n.toNat) .csr
  | .csrw _ _ n => need (csrListed n.toNat) .csr
  | .csrs _ _ n => need (csrListed n.toNat) .csr
  | .csrc _ _ n => need (csrListed n.toNat) .csr
  | .pfpr _ _ sel => need (sel.toNat ≤ 5) .selector
  | _ => none

/-- The record fields of a record. -/
def Instr.rec? : Instr → Option Rec
  | .copy r | .copyf r | .rld r | .rst r | .tld r | .kld r | .gather r | .scatter r | .rmerge r
  | .bqpush r | .rqld r | .loop r | .loopq r | .endl r | .rot r | .drainRec r | .tlwaitRec r | .sync r
  | .endRec r | .brq r | .vadd r | .vsub r | .vmul r | .vfma r | .vdiv r | .vmin r | .vmax r | .vabs r
  | .vneg r | .vexp r | .vlog r | .vrcp r | .vrsq r | .vtanh r | .vsigm r | .vcmp r | .vsel r | .vcvt r
  | .vrsum r | .vrmax r | .vrmin r | .vscan r | .vtopk r | .vdrop r | .vand r | .vor r | .vxor r | .vnot r
  | .vshl r | .vshr r | .vband r | .vpopc r | .visect r | .vclmul r | .vcomp r | .vexpand r | .vcopy r
  | .vfill r | .viota r | .vsqrt r | .mma r | .mmanm r | .mmacb r | .mmag r | .mmak r | .azero r | .awrq r
  | .awrm r | .awrt r | .tlds r | .tsts r | .tqld r | .tstq r | .scommit r | .sdiscard r | .mnest r
  | .scout r | .thresh r | .sreset r | .hcfg r | .hcfgRet r | .hproj r | .hreset r | .kstore r | .hgather r
  | .hcount r => some r
  | _ => none

end Sys2Proof
end

