-- ==== Sys2Proof/Machine/Num.lean ====
section
/-! DEFINITION. Number formats and the one rounding procedure: decoding (R42 to R51), Round and its overflow (R52, R53),
the stochastic stream (R55), conversions between formats (R53, R57, R58), and exact arithmetic on decoded values. -/

namespace Sys2Proof.Machine

/-- A decoded value: NaN, an infinity, or (−1)^neg · m · 2^e. -/
inductive Val where
  | nan
  | inf (neg : Bool)
  | fin (neg : Bool) (m : Nat) (e : Int)
deriving DecidableEq, Repr

/-- An exact dyadic number m · 2^e. -/
structure Dy where
  m : Int
  e : Int
deriving DecidableEq, Repr

/-- Element width of a format in bits (R37): tags 11 to 13 count 8, tag 14 counts 16. -/
def fmtWidth : Nat → Nat
  | 1 | 9 => 32
  | 2 | 3 | 14 => 16
  | 4 | 5 | 6 | 7 | 11 | 12 | 13 => 8
  | 8 => 4
  | 10 => 96
  | 15 => 1
  | _ => 0

/-- The EW code of TSHAPE and of a layout row for an element width (R26). -/
def ewCode : Nat → Nat
  | 4 => 0
  | 8 => 1
  | 16 => 2
  | _ => 3

/-- Whether a tag names a floating-point format (R37). -/
def isFloatFmt (f : Nat) : Bool := (1 ≤ f && f ≤ 5) || f == 10

/-- Whether a tag names an integer format. -/
def isIntegerFmt (f : Nat) : Bool := 6 ≤ f && f ≤ 9

/-- Exponent width, fraction bits and bias of a floating-point format (R42). -/
structure FloatSpec where
  ebits : Nat
  fbits : Nat
  bias : Nat
deriving DecidableEq, Repr

/-- The floating-point formats of R42. -/
def floatSpec : Nat → FloatSpec
  | 1 => ⟨8, 23, 127⟩
  | 2 => ⟨5, 10, 15⟩
  | 3 => ⟨8, 7, 127⟩
  | 4 => ⟨4, 3, 7⟩
  | 5 => ⟨5, 2, 15⟩
  | _ => ⟨15, 79, 16383⟩

/-- Where the exponent field begins: one above the fraction, and above the reserved bit 79 in A96 (R43). -/
def expShift (f : Nat) : Nat := if f = 10 then 80 else (floatSpec f).fbits

/-- The canonical NaN of a format (R44). -/
def canonicalNaN : Nat → Nat
  | 1 => 0x7FC00000
  | 2 => 0x7E00
  | 3 => 0x7FC0
  | 4 => 0x7F
  | 5 => 0x7E
  | _ => 0x7FFF40000000000000000000

/-- The value of an encoding of a floating-point format (R42, R43). -/
def decodeFloat (f bits : Nat) : Val :=
  let sp := floatSpec f
  let neg := bits.testBit (expShift f + sp.ebits)
  let e := bitsOf bits (expShift f) sp.ebits
  let fr := bitsOf bits 0 sp.fbits
  let sub : Int := 1 - (sp.bias : Int) - (sp.fbits : Int)
  if f = 4 then
    if e = 15 && fr = 7 then .nan
    else if e = 0 then .fin neg fr sub
    else .fin neg (8 + fr) (sub + e - 1)
  else if e = 2 ^ sp.ebits - 1 then (if fr = 0 then .inf neg else .nan)
  else if e = 0 then .fin neg fr sub
  else .fin neg (2 ^ sp.fbits + fr) (sub + e - 1)

/-- The integer of an encoding of an integer format (R45). -/
def decodeInteger (f bits : Nat) : Int :=
  if f = 7 then ((bits % 256 : Nat) : Int) else signedOf (fmtWidth f) bits

/-- The value of an integer. -/
def Val.ofInt (i : Int) : Val := .fin (i < 0) i.natAbs 0

/-- The value of an encoding of a format with tag 1 to 10. -/
def decodeVal (f bits : Nat) : Val :=
  if isIntegerFmt f then .ofInt (decodeInteger f bits) else decodeFloat f bits

/-! ### Exact arithmetic -/

/-- The dyadic number of a finite value. -/
def Val.dy : Val → Dy
  | .fin neg m e => ⟨if neg then -(m : Int) else m, e⟩
  | _ => ⟨0, 0⟩

/-- Exact sum. -/
def Dy.add (a b : Dy) : Dy :=
  if a.e ≤ b.e then ⟨a.m + b.m * 2 ^ (b.e - a.e).toNat, a.e⟩
  else ⟨a.m * 2 ^ (a.e - b.e).toNat + b.m, b.e⟩

/-- Exact product. -/
def Dy.mul (a b : Dy) : Dy := ⟨a.m * b.m, a.e + b.e⟩

/-- Exact difference. -/
def Dy.sub (a b : Dy) : Dy := a.add ⟨-b.m, b.e⟩

/-- Exact sum of a list. -/
def Dy.sum : List Dy → Dy
  | [] => ⟨0, 0⟩
  | d :: r => d.add (Dy.sum r)

/-- Exact comparison. -/
def Dy.lt (a b : Dy) : Bool := (a.sub b).m < 0

/-- The sign bit of a value; NaN has none. -/
def Val.neg : Val → Bool
  | .nan => false
  | .inf n => n
  | .fin n _ _ => n

/-- Whether a value is NaN. -/
def Val.isNaN : Val → Bool
  | .nan => true
  | _ => false

/-- Whether a value is an infinity. -/
def Val.isInf : Val → Bool
  | .inf _ => true
  | _ => false

/-- Whether a value is a zero of either sign. -/
def Val.isZero : Val → Bool
  | .fin _ 0 _ => true
  | _ => false

/-- Less-than on values that are no NaN; zeros are equal. -/
def Val.lt : Val → Val → Bool
  | .nan, _ => false
  | _, .nan => false
  | .inf n, .inf k => n && !k
  | .inf n, .fin _ _ _ => n
  | .fin _ _ _, .inf k => !k
  | .fin n m e, .fin k l g => (Val.fin n m e).dy.lt (Val.fin k l g).dy

/-- Equality of values that are no NaN; zeros are equal. -/
def Val.eqv (a b : Val) : Bool := !a.isNaN && !b.isNaN && !a.lt b && !b.lt a

/-- A value of a dyadic number, with the sign its zero takes. -/
def Dy.val (zeroNeg : Bool) (d : Dy) : Val :=
  if d.m = 0 then .fin zeroNeg 0 0 else .fin (d.m < 0) d.m.natAbs d.e

/-! ### Round -/

/-- Rounding modes: to nearest even, toward zero, stochastic with the 16 bits r of R55. -/
inductive RMode where
  | rne
  | rtz
  | stoch (r : Nat)
deriving DecidableEq, Repr

/-- ⌊log2 (num / den)⌋ of a positive ratio. -/
def ratioLog2 (num den : Nat) : Int :=
  let k : Int := (num.log2 : Int) - (den.log2 : Int)
  if (if 0 ≤ k then den * 2 ^ k.toNat ≤ num else den ≤ num * 2 ^ (-k).toNat) then k else k - 1

/-- The rounded magnitude of (num / den) / 2^p as an integer (R52). -/
def roundMag (mode : RMode) (num den : Nat) (p : Int) : Nat :=
  let a := if 0 ≤ p then num else num * 2 ^ (-p).toNat
  let b := if 0 ≤ p then den * 2 ^ p.toNat else den
  let n := a / b
  let rem := a % b
  match mode with
  | .rne => if 2 * rem > b || (2 * rem == b && n % 2 == 1) then n + 1 else n
  | .rtz => n
  | .stoch r => if rem * 65536 / b > r then n + 1 else n

/-- The encoding of ±largest finite of a format. -/
def largestFinite (f : Nat) (neg : Bool) : Nat :=
  let sp := floatSpec f
  let s := if neg then 2 ^ (expShift f + sp.ebits) else 0
  if f = 4 then s + 0x7E
  else s + (2 ^ sp.ebits - 2) * 2 ^ expShift f + (2 ^ sp.fbits - 1)

/-- The encoding of an infinity; NaN in E4M3, which has none (R53). -/
def infinityEnc (f : Nat) (neg : Bool) : Nat :=
  let sp := floatSpec f
  if f = 4 then canonicalNaN 4
  else (if neg then 2 ^ (expShift f + sp.ebits) else 0) + (2 ^ sp.ebits - 1) * 2 ^ expShift f

/-- The encoding of a zero. -/
def zeroEnc (f : Nat) (neg : Bool) : Nat :=
  if neg then 2 ^ (expShift f + (floatSpec f).ebits) else 0

/-- Round of a positive ratio into a floating-point format (R52), with the overflow of R53. -/
def roundRatioF (f : Nat) (mode : RMode) (sat neg : Bool) (num den : Nat) : Nat :=
  let sp := floatSpec f
  let emin : Int := 1 - (sp.bias : Int)
  let e0 := max (ratioLog2 num den) emin
  let n0 := roundMag mode num den (e0 - sp.fbits)
  let full := 2 ^ (sp.fbits + 1)
  let n := if n0 = full then 2 ^ sp.fbits else n0
  let e := if n0 = full then e0 + 1 else e0
  let emax : Int := if f = 4 then 8 else sp.bias
  let tooBig := e > emax || (f = 4 && e = 8 && n > 14)
  let s := zeroEnc f neg
  if tooBig then (if sat || mode = .rtz then largestFinite f neg else infinityEnc f neg)
  else if n < 2 ^ sp.fbits then s + n
  else s + (e + sp.bias).toNat * 2 ^ expShift f + (n - 2 ^ sp.fbits)

/-- The range of an integer format. -/
def intRange (f : Nat) : Int × Int :=
  if f = 7 then (0, 255)
  else (-(2 ^ (fmtWidth f - 1) : Nat), (2 ^ (fmtWidth f - 1) : Nat) - 1)

/-- The integer overflow rule: clamp under SAT, low bits under NSAT (R53). -/
def intEnc (f : Nat) (sat : Bool) (t : Int) : Nat :=
  let c := if sat then max (intRange f).1 (min (intRange f).2 t) else t
  (c % ((2 ^ fmtWidth f : Nat) : Int)).toNat

/-- Round of R52 and R53: a value given as a sign and a positive ratio into a format with tag 1 to 10. -/
def roundRatio (f : Nat) (mode : RMode) (sat neg : Bool) (num den : Nat) : Nat :=
  if isIntegerFmt f then
    let n := roundMag mode num den 0
    intEnc f sat (if neg then -(n : Int) else n)
  else roundRatioF f mode sat neg num den

/-- Round of R52 and R53 on a decoded value. -/
def roundVal (f : Nat) (mode : RMode) (sat : Bool) : Val → Nat
  | .nan => if isIntegerFmt f then 0 else canonicalNaN f
  | .inf neg =>
    if isIntegerFmt f then
      if sat then intEnc f true (if neg then (intRange f).1 else (intRange f).2) else 0
    else if sat then largestFinite f neg else infinityEnc f neg
  | .fin neg 0 _ => if isIntegerFmt f then 0 else zeroEnc f neg
  | .fin neg (m + 1) e =>
    if 0 ≤ e then roundRatio f mode sat neg ((m + 1) * 2 ^ e.toNat) 1
    else roundRatio f mode sat neg (m + 1) (2 ^ (-e).toNat)

/-- Conversions whose target holds every value of the source exactly (R53). -/
def exactConv (src dst : Nat) : Bool :=
  isFloatFmt src && isFloatFmt dst &&
    (src == dst || dst == 10 || (dst == 1 && src != 10)
      || ((src == 4 || src == 5) && (dst == 2 || dst == 3)))

/-- One element converted between formats with tags 1 to 10 (R52, R53, R57). -/
def convertElem (src dst : Nat) (mode : RMode) (sat : Bool) (bits : Nat) : Nat :=
  if isIntegerFmt src && isIntegerFmt dst then intEnc dst sat (decodeInteger src bits)
  else
    match decodeVal src bits with
    | .inf neg => if exactConv src dst then infinityEnc dst neg else roundVal dst mode sat (.inf neg)
    | v => roundVal dst mode sat v

/-! ### Arithmetic on values (R225) -/

/-- −v; NaN stays NaN. -/
def Val.negate : Val → Val
  | .nan => .nan
  | .inf n => .inf (!n)
  | .fin n m e => .fin (!n) m e

/-- |v|. -/
def Val.abs : Val → Val
  | .nan => .nan
  | .inf _ => .inf false
  | .fin _ m e => .fin false m e

/-- The exact sum: ∞ − ∞ is NaN; a zero sum is +0 but for two −0 (R225). -/
def Val.add (a b : Val) : Val :=
  match a, b with
  | .nan, _ => .nan
  | _, .nan => .nan
  | .inf n, .inf k => if n == k then .inf n else .nan
  | .inf n, .fin _ _ _ => .inf n
  | .fin _ _ _, .inf k => .inf k
  | .fin n m e, .fin k l g =>
    ((Val.fin n m e).dy.add (Val.fin k l g).dy).val (m == 0 && l == 0 && n && k)

/-- The exact difference. -/
def Val.sub (a b : Val) : Val := a.add b.negate

/-- The exact product: 0 × ∞ is NaN (R225). -/
def Val.mul (a b : Val) : Val :=
  match a, b with
  | .nan, _ => .nan
  | _, .nan => .nan
  | .inf n, .inf k => .inf (n != k)
  | .inf n, .fin k l _ => if l = 0 then .nan else .inf (n != k)
  | .fin n m _, .inf k => if m = 0 then .nan else .inf (n != k)
  | .fin n m e, .fin k l g => .fin (n != k) (m * l) (e + g)

/-- Less-than with −0 below +0. -/
def Val.below (a b : Val) : Bool := a.lt b || (a.isZero && b.isZero && a.neg && !b.neg)

/-- The smaller of two values, −0 below +0; NaN if either is NaN (R229). -/
def Val.min (a b : Val) : Val := if a.isNaN || b.isNaN then .nan else if b.below a then b else a

/-- The larger of two values. -/
def Val.max (a b : Val) : Val := if a.isNaN || b.isNaN then .nan else if a.below b then b else a

/-- An addition in a format under RNE and NSAT (R107, R234). -/
def addRounded (f a b : Nat) : Nat := roundVal f .rne false ((decodeFloat f a).add (decodeFloat f b))

/-! ### The stochastic stream -/

/-- fmix64 of R55. -/
def fmix64 (k : Word) : Word :=
  let k := k ^^^ (k >>> 33)
  let k := k * 0xFF51AFD7ED558CCD#64
  let k := k ^^^ (k >>> 33)
  let k := k * 0xC4CEB9FE1A85EC53#64
  k ^^^ (k >>> 33)

/-- The value r of R55 under a key. -/
def stochR (key : Word) : Nat := bitsOf (fmix64 key).toNat 48 16

/-- The key of element i of a record (R55). -/
def recordKey (seed : Word) (ctr i : Nat) : Word := seed ^^^ BitVec.ofNat 64 ((ctr * 2 ^ 32) ^^^ i)

/-- The key of the n-th element converted at pops of dq.lx (q = 0) or dq.xs (q = 1) (R55). -/
def queueKey (seed : Word) (q n : Nat) : Word := seed ^^^ BitVec.ofNat 64 (((2 ^ 31 + q) * 2 ^ 32) ^^^ n)

/-- The mode of a 2-bit RND field: 0 nearest even, 1 toward zero, 2 stochastic under a key. -/
def rndMode (rnd : Nat) (key : Word) : RMode :=
  match rnd with
  | 0 => .rne
  | 1 => .rtz
  | _ => .stoch (stochR key)

/-! ### Packed elements -/

/-- Element i of width w of a packed string (R3). -/
def elemAt (v w i : Nat) : Nat := bitsOf v (w * i) w

/-- Elements packed from bit 0 (R3). -/
def packElems (w : Nat) : List Nat → Nat
  | [] => 0
  | v :: r => v % 2 ^ w + 2 ^ w * packElems w r

/-- The first n elements of width w of a packed string. -/
def unpackElems (v w n : Nat) : List Nat := (List.range n).map (elemAt v w)

/-! ### Block-scaled streams -/

/-- Whether a tag is block-scaled (R47). -/
def isBlockFmt (f : Nat) : Bool := 11 ≤ f && f ≤ 14

/-- Element bytes of one unit, and so its scale's place: 32 for the MX formats, 8 for CB2 (R47). -/
def unitBytes (f : Nat) : Nat := if f = 14 then 8 else 32

/-- The value of a block scale as a power of two, none for NaN (R46). -/
def scaleExp (s : Nat) : Option Int := if s = 255 then none else some ((s : Int) - 127)

/-- The decoded value of an MX element byte under its scale (R48). -/
def decodeMx (f byte scale : Nat) : Val :=
  match scaleExp scale with
  | none => .nan
  | some x =>
    let v := if f = 13 then Val.ofInt (signedOf 8 byte) else decodeFloat (if f = 11 then 4 else 5) byte
    match v with
    | .fin n m e => .fin n m (e + x)
    | w => w

/-- The eight weights of a CB2 index under a codebook and a scale (R50, R51). -/
def decodeCb2 (book : BitVec 8192) (index scale : Nat) : List Val :=
  let v := bitsOf index 8 8
  let negs := (List.range 7).map (fun m => index.testBit (m + 1))
  let last := negs.foldl xor false
  (List.range 8).map (fun m =>
    match scaleExp scale with
    | none => .nan
    | some x =>
      let mag := bitsOf book.toNat (32 * v + 4 * m) 4
      let neg := if m = 7 then last else negs.getD m false
      if mag = 0 then .fin false 0 0 else .fin neg mag (x - 1))

/-! ### Rows at queue pops -/

/-- One pushed row converted whole, as R58 packs it: the E converted elements in order. `n0` is the queue's element
counter; the key counts elements from it. -/
def convertElems (src dst rnd : Nat) (sat : Bool) (seed : Word) (q : Nat) : Nat → List Nat → List Nat
  | _, [] => []
  | n, v :: r =>
    convertElem src dst (rndMode rnd (queueKey seed q (n % 2 ^ 32))) sat v
      :: convertElems src dst rnd sat seed q (n + 1) r

/-- Parts in which a pushed row is delivered (R58). -/
def popParts (src snk : Nat) : Nat :=
  if src = snk || src = 0 || snk = 0 then 1
  else if fmtWidth snk ≤ fmtWidth src then 1
  else fmtWidth snk / fmtWidth src

/-- Whether a pair of SRC and SNK calls for a conversion that exists (R57). -/
def convertible (src snk : Nat) : Bool := 1 ≤ src && src ≤ 9 && 1 ≤ snk && snk ≤ 9

/-- Bits of a pushed row that one pop delivers under SRC and SNK (R57, R58). -/
def popBits (src snk : Nat) : Nat := 1024 / popParts src snk

/-- What one pop delivers of a pushed row under SRC, SNK, RND and SAT, and the elements it converts: the elements in
index order after the bits that earlier pops delivered (R30, R58, R59). A pass-through pop delivers the whole row, one that
follows a rewrite of the register in the middle of a widened row too (DESIGN CHOICE, log entry 49). -/
def deliverRow (src snk rnd : Nat) (sat : Bool) (seed : Word) (q ctr bits : Nat) (r : Row) : Row × Nat :=
  if src = snk || src = 0 || snk = 0 then (r, 0)
  else
    let ws := fmtWidth src
    let e := 1024 / ws
    let els := ((unpackElems r.toNat ws e).drop (bits / ws)).take (e / popParts src snk)
    (BitVec.ofNat 1024 (packElems (fmtWidth snk) (convertElems src snk rnd sat seed q ctr els)), els.length)

end Sys2Proof.Machine
end

