-- ==== Sys2Proof/Machine/Operands.lean ====
section
/-! DEFINITION. Operands of records: base registers and addresses (R134, R135), element positions (R217), modifiers
(R136), formats (R39, R40), pops of and pushes to the data queues (R27 to R30, R57 to R59). -/

namespace Sys2Proof.Machine

/-- A state as the result of an issue. -/
abbrev IssueRes := Res (State × Op)

/-- A function that may stop, over a list in order. -/
def resMap {α β : Type} (f : α → Res β) : List α → Res (List β)
  | [] => .ok []
  | a :: r =>
    match f a with
    | .error e => .error e
    | .ok b =>
      match resMap f r with
      | .error e => .error e
      | .ok bs => .ok (b :: bs)

/-- A step over a list in order that threads the state and may stop. -/
def resFold {α σ : Type} (f : σ → α → Res σ) : σ → List α → Res σ
  | s, [] => .ok s
  | s, a :: r =>
    match f s a with
    | .error e => .error e
    | .ok s' => resFold f s' r

/-! ### Addresses -/

/-- The base register that BASE selects under a rotation base (R134). -/
def baseIndex (rotb : BitVec 4) (base : Nat) : Nat := if base < 32 then base else 16 + (base - 32 + rotb.toNat) % 16

/-- The indices of an issue (R135). -/
structure Idx where
  i3 : Nat
  i2 : Nat
  i1 : Nat
  i0 : Nat
deriving DecidableEq, Repr

/-- The indices of issue n: i0 varies fastest (R135). -/
def idxOf (r : Rec) (n : Nat) : Idx where
  i0 := n % r.t0.toNat
  i1 := n / r.t0.toNat % r.t1.toNat
  i2 := n / r.t0.toNat / r.t1.toNat % r.t2.toNat
  i3 := n / r.t0.toNat / r.t1.toNat / r.t2.toNat

/-- The stride unit (R132). -/
def unitOf (r : Rec) : Int := if r.su = 1 then 128 else 1

/-- A sum of an address and a signed distance, modulo 2^64. -/
def addrPlus (a : Nat) (d : Int) : Nat := (((a : Int) + d) % (2 ^ 64 : Nat)).toNat

/-- The distance of an issue's address from the base register, but for level 0 (R135). -/
def outerDist (r : Rec) (o : Opd) (i : Idx) : Int :=
  o.off.toInt + unitOf r * (i.i3 * o.s3.toInt + i.i2 * o.s2.toInt + i.i1 * o.s1.toInt)

/-- The address of R135. -/
def opdAddr (r : Rec) (o : Opd) (b : Word) (i : Idx) : Nat :=
  addrPlus b.toNat (outerDist r o i + unitOf r * (i.i0 * o.s0.toInt))

/-- The operand fields by slot. -/
def opdOf (r : Rec) : Slot → Opd
  | .d => r.d
  | .b => r.b
  | _ => r.a

/-- The operand kinds by slot. -/
def kindOf (r : Rec) : Slot → Nat
  | .d => r.dk.toNat
  | .b => r.bk.toNat
  | _ => r.ak.toNat

/-- The base value read at decode by slot (R140). -/
def Op.base (o : Op) : Slot → Word
  | .d => o.bd
  | .b => o.bb
  | _ => o.ba

/-- The record fields of an operation. -/
def Op.r (o : Op) : Rec := (o.ins.rec?).getD default

/-- The address of a slot's operand at an index. -/
def Op.addr (o : Op) (sl : Slot) (i : Idx) : Nat := opdAddr o.r (opdOf o.r sl) (o.base sl) i

/-- The address of a slot's operand at issue n. -/
def Op.addrAt (o : Op) (sl : Slot) (n : Nat) : Nat := o.addr sl (idxOf o.r n)

/-- Where an element lies: an address, and a bit of its byte for elements narrower than a byte. -/
structure Spot where
  addr : Nat
  bit : Nat
deriving DecidableEq, Repr

/-- The place of the element at position p of an operand, for element width w (R217): the aligned position of its bytes;
for INT4 and BIT, S0 counts elements. -/
def Op.spot (o : Op) (sl : Slot) (i : Idx) (w p : Nat) : Spot :=
  if w < 8 then
    let a := o.addr sl { i with i0 := 0 }
    let bits : Int := (w * p : Nat) * (opdOf o.r sl).s0.toInt
    ⟨addrPlus a (bits / 8), (bits % 8).toNat⟩
  else
    let z := w / 8
    ⟨o.addr sl { i with i0 := p } / z * z, 0⟩

/-! ### Modifiers -/

/-- The source of position j under a modifier (R136). -/
def modSource (m : BitVec 12) (j : Nat) : Nat :=
  let g := 2 ^ bitsOf m.toNat 6 4
  let d := bitsOf m.toNat 0 6
  match bitsOf m.toNat 10 2 with
  | 0 => j
  | 1 => j / g * g + (j % g + d) % g
  | 2 => j / g * g + Nat.xor (j % g) d
  | _ => j / g * g + d

/-- Whether a modifier permutes. -/
def modOn (m : BitVec 12) : Bool := bitsOf m.toNat 10 2 ≠ 0

/-- Whether a count breaks the multiple rule of a modifier (R136). -/
def modBreaks (m : BitVec 12) (count : Nat) : Bool := modOn m && count % 2 ^ bitsOf m.toNat 6 4 ≠ 0

/-! ### Formats and registers -/

/-- The format of a register operand: the override, or the tag; none where R39 or R40 forbids it. -/
def regFormat (tag : BitVec 4) (fmt : BitVec 4) : Option Nat :=
  if fmt = 0 then (if tag = 0 then none else some tag.toNat)
  else if tag = 0 then some fmt.toNat
  else if tag = 10 && fmt ≠ 10 || tag = 15 && fmt ≠ 15 then none
  else if fmtWidth tag.toNat ≠ fmtWidth fmt.toNat then none
  else some fmt.toNat

/-- Tile register n. -/
def Strand.tile (st : Strand) (n : Nat) : TileReg := if h : n < 16 then st.t[n] else TileReg.start
/-- Tile register n replaced. -/
def Strand.setTileReg (st : Strand) (n : Nat) (t : TileReg) : Strand :=
  if h : n < 16 then { st with t := st.t.set n t } else st
/-- Mask register n. -/
def Strand.maskAt (st : Strand) (n : Nat) : MaskReg := if h : n < 16 then st.k[n] else MaskReg.start
/-- Mask register n replaced; k0 discards writes (R24). -/
def Strand.setMask (st : Strand) (n : Nat) (k : MaskReg) : Strand :=
  if h : n < 16 then (if n = 0 then st else { st with k := st.k.set n k }) else st

/-- ROWS of a shape (R26). -/
def shRows (v : BitVec 32) : Nat := bitsOf v.toNat 8 8
/-- WIDTH of a shape. -/
def shWidth (v : BitVec 32) : Nat := bitsOf v.toNat 16 9
/-- EW of a shape. -/
def shEw (v : BitVec 32) : Nat := bitsOf v.toNat 0 2
/-- The shape of tile register n as captured. -/
def Op.shape (o : Op) (n : Nat) : BitVec 32 := if h : n < 16 then o.shapes[n] else 0

/-- Row i of a tile register as a number. -/
def TileReg.rowNat (t : TileReg) (i : Nat) : Nat := (cellGet (0 : BitVec 2048) t.rows i).toNat
/-- Byte i of a scale store. -/
def TileReg.scaleAt (t : TileReg) (i : Nat) : Nat := (cellGet (0 : Byte) t.scale i).toNat
/-- A tile register with row i written. -/
def TileReg.setRow (t : TileReg) (i v : Nat) : TileReg :=
  { t with rows := cellSet (0 : BitVec 2048) t.rows i (BitVec.ofNat 2048 v) }
/-- A tile register with the first `width` bytes of row i written; the bytes beyond keep what they held (log entry 13). -/
def TileReg.setRowBytes (t : TileReg) (width i v : Nat) : TileReg := t.setRow i (setBits (t.rowNat i) 0 (8 * width) v)
/-- A tile register as a load of `total` of its rows finds it: the new tag, the rows it does not load zero, and the scale
bytes beyond the `used` ones zero (R41, R49, R201, R268). -/
def TileReg.prepare (t : TileReg) (f width rows total used : Nat) : TileReg :=
  (List.range (rows - total)).foldl (fun t j => t.setRowBytes width (total + j) 0)
    { t with tag := BitVec.ofNat 4 f, scale := t.scale.filter (fun p => p.1 < used) }
/-- A tile register with scale bytes written from position p. -/
def TileReg.setScales (t : TileReg) (p : Nat) : List Byte → TileReg
  | [] => t
  | b :: bs => TileReg.setScales { t with scale := cellSet (0 : Byte) t.scale p b } (p + 1) bs
/-- Element (m, n) of an accumulator. -/
def AccReg.at (a : AccReg) (m n : Nat) : BitVec 96 := cellGet (0 : BitVec 96) a.el (128 * m + n)

/-! ### Queues -/

/-- A queue of R27 by code: 0 dq.lx, 1 dq.xs, 2 bq.lx, 3 rq.lx; 4 is the merge slot's MS. -/
def queueLen (st : Strand) (q : Nat) : Nat :=
  match q with
  | 0 => st.dqlx.rows.length
  | 1 => st.dqxs.rows.length
  | 2 => st.bq.length
  | 3 => st.rq.length
  | _ => st.ms.length

/-- Its depth. -/
def queueDepth (q : Nat) : Nat :=
  match q with
  | 0 => Config.dqDepth
  | 1 => Config.dqDepth
  | 2 => Config.bqDepth
  | 3 => Config.rqDepth
  | _ => Config.msDepth

/-- An entry pushed; bq.lx and rq.lx take the low bits. -/
def pushEntry (st : Strand) (q : Nat) (r : Row) : Strand :=
  match q with
  | 0 => { st with dqlx := { st.dqlx with rows := st.dqlx.rows ++ [r] } }
  | 1 => { st with dqxs := { st.dqxs with rows := st.dqxs.rows ++ [r] } }
  | 2 => { st with bq := st.bq ++ [r.truncate 16] }
  | 3 => { st with rq := st.rq ++ [r.truncate 32] }
  | _ => { st with ms := st.ms ++ [r] }

/-- SRC, SNK, RND and SAT of a queue's format register (R30). -/
def dqSrc (v : BitVec 32) : Nat := bitsOf v.toNat 0 4
/-- SNK. -/
def dqSnk (v : BitVec 32) : Nat := bitsOf v.toNat 4 4
/-- RND. -/
def dqRnd (v : BitVec 32) : Nat := bitsOf v.toNat 8 2
/-- SAT. -/
def dqSat (v : BitVec 32) : Bool := v.getLsbD 10

/-- A queue with so many more bits of its head delivered: the head stays until its last part (R58). The position is kept
in bits, so that a pop under a register written meanwhile goes on at the next element (R59, log entry 49). -/
def DataQueue.take (q : DataQueue) (bits : Nat) : DataQueue :=
  if q.bits + bits < 1024 then { q with bits := q.bits + bits } else ⟨q.rows.drop 1, 0⟩

/-- One delivered row popped from dq.lx (x = true) or dq.xs, converted under the register as it stands (R30, R58);
FORMAT in slot Q at an index where no conversion is defined (R57). The key of a stochastic pop takes SRSEED as it stands at
the pop, not as the popping record captured it (DESIGN CHOICE, log entry 31). -/
def popDq (st : Strand) (x : Bool) (ix : Nat) : Res (Row × Strand) :=
  let q := if x then st.dqlx else st.dqxs
  let f := if x then st.dqfmtlx else st.dqfmtxs
  let ctr := (if x then st.dqsnlx else st.dqsnxs).toNat
  match q.rows with
  | [] => .error .hold
  | r :: _ =>
    if dqSrc f ≠ dqSnk f && dqSrc f ≠ 0 && dqSnk f ≠ 0 && !convertible (dqSrc f) (dqSnk f) then
      raiseAt .format .q ix
    else
      let (row, cnt) := deliverRow (dqSrc f) (dqSnk f) (dqRnd f) (dqSat f) st.srseed (if x then 0 else 1) ctr
        q.bits r
      let q' := q.take (popBits (dqSrc f) (dqSnk f))
      let n' := BitVec.ofNat 32 (if dqRnd f = 2 then ctr + cnt else ctr)
      .ok (row, if x then { st with dqlx := q', dqsnlx := n' } else { st with dqxs := q', dqsnxs := n' })

/-- Elements of a tile row under a format: E of R252. -/
def rowElems (f width : Nat) : Nat := width * 8 / fmtWidth f

/-- RND of FN (R224, R266). -/
def fnRnd (r : Rec) : Nat := r.fn.toNat % 4
/-- SAT of FN. -/
def fnSat (r : Rec) : Bool := r.fn.getLsbD 2

/-- The mode of element l of a record (R55). -/
def Op.mode (o : Op) (rnd l : Nat) : RMode := rndMode rnd (recordKey o.seed o.ctr l)

/-- Elements packed into rows, the tail of the last row zero (R220, R266). -/
def packRows (w : Nat) (els : List Nat) : List Row :=
  let v := packElems w els
  (List.range (ceilDiv (els.length * w) 1024)).map (fun j => BitVec.ofNat 1024 (bitsOf v (1024 * j) 1024))

/-! ### Memory of the tile's windows -/

/-- The key of memory of a row access without translation: global addresses raise ADDRESS (R90, R219). -/
def sramKey (s : State) (key va : Nat) (write : Bool) (sl : Slot) (ix : Nat) : Res Nat :=
  match resolve s key none va write sl ix with
  | .error e => .error e
  | .ok (.cell k, _) => .ok k
  | .ok (.far _ _, _) => raiseAt .address sl ix

/-- Element bits at a place. -/
def spotRead (m : List Host.Cell) (k bit w : Nat) : Nat :=
  if w < 8 then bitsOf (readByte m k).toNat bit w else readNat m k (w / 8)

/-- Memory with the element bits at a place replaced. -/
def spotWrite (m : List Host.Cell) (k bit w v : Nat) : List Host.Cell :=
  if w < 8 then writeByte m k (BitVec.ofNat 8 (setBits (readByte m k).toNat bit w v)) else writeNat m k (w / 8) v

/-! ### Layout records and fill -/

/-- EW of a layout record (R196). -/
def layEw (l : Row) : Nat := rowNat l 36 1
/-- The element width of a layout record. -/
def layWidth (l : Row) : Nat := 4 * 2 ^ layEw l
/-- Whether a layout record breaks R196. -/
def layBad (l : Row) : Bool := rowNat l 44 84 ≠ 0 || rowNat l 37 3 ≠ 0 || layEw l > 3
/-- A signed 32-bit field of a row. -/
def rowInt (l : Row) (o : Nat) : Int := signedOf 32 (rowNat l o 4)

/-- Whether element p of an issue is in bounds (R197). -/
def inBounds (l : Row) (i : Idx) (p : Nat) : Bool :=
  let col : Int := rowInt l 16 + (i.i0 * rowNat l 32 4 + p : Nat)
  let ok (dim : Nat) (c : Int) : Bool := dim = 0 || (0 ≤ c && c < dim)
  ok (rowNat l 0 4) col && ok (rowNat l 4 4) (rowInt l 20 + i.i1) && ok (rowNat l 8 4) (rowInt l 24 + i.i2)
    && ok (rowNat l 12 4) (rowInt l 28 + i.i3)

/-- Elements of a packed string with those out of bounds replaced by FILL (R197). -/
def fillElems (l : Row) (i : Idx) (n v : Nat) : Nat :=
  let w := layWidth l
  packElems w ((List.range n).map (fun p => if inBounds l i p then elemAt v w p else bitsOf (rowNat l 40 4) 0 w))

/-- Whether any of the n elements of an issue is in bounds. -/
def anyInBounds (l : Row) (i : Idx) (n : Nat) : Bool := (List.range n).any (inBounds l i)

end Sys2Proof.Machine
end

