-- ==== Sys2Proof/Machine/Move.lean ====
section
/-! DEFINITION. Issues of the data movement records (R191 to R207) and of tile loads (R201, R267, R268). -/

namespace Sys2Proof.Machine

/-- The TLB of an engine (R113): channels 1 to 4, gather feeder 5, matrix feeder 6; other engines use none (R90). -/
def engTlb (e : Nat) : Option Nat :=
  if e ≤ 3 then some (e + 1) else if e = 6 then some 5 else if e = 4 then some 6 else none

/-- The TLB of an operation. -/
def Op.tlb (o : Op) : Option Nat := engTlb o.r.eng.toNat

/-- The issue made: the next one follows. -/
def Op.step (o : Op) : Op := { o with n := o.n + 1, buf := [], fetched := [] }

/-- A row's address in the form that statistics samples use: shared-window form for SRAM (R313). -/
def sampleForm (tile va : Nat) : Nat :=
  match decodeAddr tile va with
  | some p => if p.win = 3 then rowOf va else rowOf (sliceKey p.tile p.off)
  | none => rowOf va

/-- A statistics sample of a row written under STAT (R195, R313). -/
def sampleRow (s : State) (key : Nat) (o : Op) (va : Nat) (row : Row) : State :=
  if o.r.fn.getLsbD 4 then
    match s.strands.find? key with
    | some st => s.setPlanner { s.planner with
        reqs := s.planner.reqs ++ [.sample st.uid o.q o.seqno st.fn st.queue st.pkt (sampleForm (key / 2) va) row] }
    | none => s
  else s

/-- A row read by an operation. -/
def Op.read (o : Op) (s : State) (key va : Nat) (sl : Slot) (ix : Nat) : Res (Row × State) :=
  readRowAt s key o.tlb va sl ix o.fetched

/-- n consecutive rows read by an operation. -/
def Op.readRows (o : Op) (key va : Nat) (sl : Slot) (ix : Nat) : Nat → State → Res (List Row × State)
  | 0, s => .ok ([], s)
  | n + 1, s =>
    match o.read s key va sl ix with
    | .error e => .error e
    | .ok (r, s1) =>
      match Op.readRows o key (addrPlus va 128) sl ix n s1 with
      | .error e => .error e
      | .ok (rs, s2) => .ok (r :: rs, s2)

/-- The bytes of rows. -/
def rowsBytes (rs : List Row) : List Byte := rs.flatMap rowBytes

/-- A whole row written by an operation, with its sample. -/
def Op.writeRow (o : Op) (s : State) (key va : Nat) (sl : Slot) (ix : Nat) (r : Row) : Res State :=
  match writeRowAt s key o.tlb va sl ix 0 (rowBytes r) with
  | .error e => .error e
  | .ok s1 => .ok (sampleRow s1 key o va r)

/-- Bytes written from an address over consecutive rows, each row whole or in part. -/
def Op.writeBytes (o : Op) (key va : Nat) (sl : Slot) (ix : Nat) : Nat → State → List Byte → Res State
  | 0, s, _ => .ok s
  | n + 1, s, bs =>
    match writeRowAt s key o.tlb va sl ix 0 (bs.take 128) with
    | .error e => .error e
    | .ok s1 => Op.writeBytes o key (addrPlus va 128) sl ix n s1 (bs.drop 128)

/-! ### Layout -/

/-- The layout row of a record with B of kind 1, read once before the first issue (R196). -/
def readLayout (s : State) (key : Nat) (o : Op) : IssueRes :=
  if o.r.bk = 1 then
    match o.read s key (o.addr .b ⟨0, 0, 0, 0⟩) .b 0 with
    | .error e => .error e
    | .ok (l, s1) => if layBad l then raiseAt .format .b 0 else .ok (s1, { o with layout := some l, fetched := [] })
  else .ok (s, o)

/-- A row at A under the fill of a layout record (R197). -/
def readFilled (s : State) (key : Nat) (o : Op) : Res (Row × State) :=
  let i := idxOf o.r o.n
  match o.layout with
  | none => o.read s key (o.addr .a i) .a o.n
  | some l =>
    let e := 1024 / layWidth l
    if anyInBounds l i e then
      match o.read s key (o.addr .a i) .a o.n with
      | .error x => .error x
      | .ok (r, s1) => .ok (BitVec.ofNat 1024 (fillElems l i e r.toNat), s1)
    else .ok (BitVec.ofNat 1024 (fillElems l i e 0), s)

/-! ### Copies and row streams -/

/-- COPY and COPYF (R198). -/
def copyIssue (s : State) (key : Nat) (o : Op) : IssueRes :=
  match readFilled s key o with
  | .error e => .error e
  | .ok (r, s1) =>
    match o.writeRow s1 key (o.addrAt .d o.n) .d o.n r with
    | .error e => .error e
    | .ok s2 => .ok (s2, o.step)

/-- RLD (R199). -/
def rldIssue (s : State) (key : Nat) (o : Op) : IssueRes :=
  match readFilled s key o with
  | .error e => .error e
  | .ok (r, s1) => .ok (s1, { o.step with out := [r] })

/-- RST (R200). -/
def rstIssue (s : State) (key : Nat) (o : Op) : IssueRes :=
  match o.writeRow s key (o.addrAt .d o.n) .d o.n (o.buf.headD 0) with
  | .error e => .error e
  | .ok s1 => .ok (s1, o.step)

/-! ### Tile loads and stores -/

/-- Bytes of a tile row in memory (R201): WIDTH, with the scales of block-scaled formats. -/
def tileRowBytes (f width : Nat) : Nat :=
  if f = 14 then 9 * width / 8 else if isBlockFmt f then 33 * width / 32 else width

/-- The element bytes and scales of a row's stream (R47, R49). -/
def splitStream (u : Nat) : Nat → List Byte → List Byte × List Byte
  | 0, _ => ([], [])
  | n + 1, bs =>
    let (es, ss) := splitStream u n (bs.drop (u + 1))
    (bs.take u ++ es, bs.getD u 0 :: ss)

/-- The stream of a row's element bytes and scales. -/
def joinStream (u : Nat) : Nat → List Byte → List Byte → List Byte
  | 0, _, _ => []
  | n + 1, es, ss => es.take u ++ [ss.headD 0] ++ joinStream u n (es.drop u) (ss.drop 1)

/-- The elements of a stored row permuted by a modifier (R136). -/
def permuteRow (m : BitVec 12) (w e v : Nat) : Nat :=
  if modOn m then packElems w ((List.range e).map (fun j => elemAt v w (modSource m j))) else v

/-- A tile row put in place from its bytes (R201). -/
def placeRow (t : TileReg) (f width n : Nat) (m : BitVec 12) (bs : List Byte) : TileReg :=
  if isBlockFmt f then
    let u := unitBytes f
    let (es, ss) := splitStream u (width / u) bs
    (t.setRowBytes width n (leNat es)).setScales (n * (width / u)) ss
  else t.setRowBytes width n (permuteRow m (fmtWidth f) (rowElems f width) (leNat (bs.take width)))

/-- The checks of a tile load at issue (R26, R49, R201). -/
def tileLoadCheck (o : Op) (n f : Nat) (rows : Nat) : Res Unit :=
  let sh := o.shape n
  if shRows sh = 0 then raiseAt .shape .d 0
  else if f = 0 || f = 10 || f = 15 then raiseAt .format .d 0
  else if ewCode (fmtWidth f) ≠ shEw sh then raiseAt .format .d 0
  else if isBlockFmt f && shWidth sh % unitBytes f ≠ 0 then raiseAt .format .d 0
  else if isBlockFmt f && o.r.bk = 1 then raiseAt .format .b 0
  else if isBlockFmt f && modOn o.r.moda then raiseAt .scaleAxis .a 0
  else if modBreaks o.r.moda (rowElems f (shWidth sh)) then raiseAt .shape .a 0
  else if rows > shRows sh then raiseAt .shape .d (shRows sh)
  else .ok ()

/-- Scale bytes that `total` rows of a tile of width WIDTH use (R49). -/
def usedScales (f width total : Nat) : Nat := if isBlockFmt f then total * (width / unitBytes f) else 0

/-- Tile register n under a new tag, ready for a load of `total` rows under the shape that the record captured (R41,
R201). -/
def tagTile (s : State) (key : Nat) (st : Strand) (o : Op) (n f total : Nat) : State :=
  let sh := o.shape n
  s.setStrand key (st.setTileReg n
    ((st.tile n).prepare f (shWidth sh) (shRows sh) total (usedScales f (shWidth sh) total)))

/-- TLD and TLDS at issue (R201, R267). -/
def tldStart (s : State) (key : Nat) (st : Strand) (o : Op) (total : Nat) : IssueRes :=
  let f := o.r.fmt.toNat
  let n := o.r.d.base.toNat
  match tileLoadCheck o n f 0 with
  | .error e => .error e
  | .ok _ =>
    match readLayout s key o with
    | .error e => .error e
    | .ok (s1, o1) =>
      match o1.layout with
      | some l =>
        if layEw l ≠ shEw (o.shape n) then raiseAt .format .b 0
        else if total > shRows (o.shape n) then raiseAt .shape .d (shRows (o.shape n))
        else .ok (tagTile s1 key (s1.strandAt key st) o n f total, o1)
      | none =>
        if total > shRows (o.shape n) then raiseAt .shape .d (shRows (o.shape n))
        else .ok (tagTile s1 key (s1.strandAt key st) o n f total, o1)

/-- One tile row of TLD or TLDS (R201). -/
def tldIssue (s : State) (key : Nat) (o : Op) : IssueRes :=
  let f := o.r.fmt.toNat
  let n := o.r.d.base.toNat
  let width := shWidth (o.shape n)
  let i := idxOf o.r o.n
  let e := rowElems f width
  let put (s1 : State) (bs : List Byte) : IssueRes :=
    match s1.strands.find? key with
    | none => .error .hold
    | some st => .ok (s1.setStrand key (st.setTileReg n (placeRow (st.tile n) f width o.n o.r.moda bs)), o.step)
  match o.layout with
  | some l =>
    if !anyInBounds l i e then put s (leBytes width (fillElems l i e 0))
    else
      match o.readRows key (o.addr .a i) .a o.n (ceilDiv (tileRowBytes f width) 128) s with
      | .error x => .error x
      | .ok (rs, s1) => put s1 (leBytes width (fillElems l i e (leNat (rowsBytes rs))))
  | none =>
    match o.readRows key (o.addr .a i) .a o.n (ceilDiv (tileRowBytes f width) 128) s with
    | .error x => .error x
    | .ok (rs, s1) => put s1 (rowsBytes rs)

/-- KLD at issue: the register takes tag 15 and its bits above those loaded are 0 (R202). -/
def kldStart (s : State) (key : Nat) (st : Strand) (o : Op) : IssueRes :=
  .ok (s.setStrand key (st.setMask (o.r.d.base.toNat - 32) ⟨15, 0⟩), o)

/-- One row of KLD (R202). -/
def kldIssue (s : State) (key : Nat) (o : Op) : IssueRes :=
  match o.read s key (o.addrAt .a o.n) .a o.n with
  | .error e => .error e
  | .ok (r, s1) =>
    match s1.strands.find? key with
    | none => .error .hold
    | some st =>
      let n := o.r.d.base.toNat - 32
      let k := st.maskAt n
      .ok (s1.setStrand key (st.setMask n { k with bits := k.bits ||| (r.setWidth 65536 <<< (1024 * o.n)) }), o.step)

/-! ### Gather and scatter -/

/-- The index of an issue in its row; none where all its bits are ones (R203). -/
def rowIndex (iw : Bool) (a : Nat) (r : Row) : Option Nat :=
  let z := if iw then 2 else 4
  let v := rowNat r (a % 128 / z * z) z
  if v = 2 ^ (8 * z) - 1 then none else some v

/-- GATHER (R203). -/
def gatherIssue (s : State) (key : Nat) (o : Op) : IssueRes :=
  let ib := o.addrAt .b o.n
  match o.read s key ib .b o.n with
  | .error e => .error e
  | .ok (ir, s1) =>
    let got : Res (Row × State) :=
      match rowIndex (o.r.fn.getLsbD 0) ib ir with
      | none => .ok (0, s1)
      | some x => o.read s1 key (addrPlus (o.addrAt .a o.n) (128 * x : Nat)) .a o.n
    match got with
    | .error e => .error e
    | .ok (r, s2) =>
      if o.r.dk = 1 then
        match o.writeRow s2 key (o.addrAt .d o.n) .d o.n r with
        | .error e => .error e
        | .ok s3 => .ok (s3, o.step)
      else .ok (s2, { o.step with out := [r] })

/-- SCATTER (R203). -/
def scatterIssue (s : State) (key : Nat) (o : Op) : IssueRes :=
  let ib := o.addrAt .b o.n
  match o.read s key ib .b o.n with
  | .error e => .error e
  | .ok (ir, s1) =>
    match rowIndex (o.r.fn.getLsbD 0) ib ir with
    | none => .ok (s1, o.step)
    | some x =>
      match o.writeRow s1 key (addrPlus (o.addrAt .d o.n) (128 * x : Nat)) .d o.n (o.buf.headD 0) with
      | .error e => .error e
      | .ok s2 => .ok (s2, o.step)

/-! ### The rotate-merge slot -/

/-- RMERGE (R205). -/
def rmergeIssue (s : State) (key : Nat) (st : Strand) (o : Op) : IssueRes :=
  let wn := if o.n = 0 && !o.r.fn.getLsbD 0 then 0 else st.wn
  let lo := st.whi
  let hi := o.buf.headD 0
  let n := min (wn + 1) 2
  let d := o.r.d.off.toNat % 128
  let s1 := s.setStrand key { st with wlo := lo, whi := hi, wn := n }
  .ok (s1, { o.step with
    out := if n = 2 then [BitVec.ofNat 1024 ((lo.toNat + 2 ^ 1024 * hi.toNat) >>> (8 * d))] else [] })

/-- BQPUSH (R206). -/
def bqpushIssue (s : State) (o : Op) : IssueRes :=
  let j0 := o.r.d.off.toNat / 2
  .ok (s, { o.step with
    out := (List.range (o.r.fn.toNat + 1)).map (fun j =>
      BitVec.ofNat 1024 (rowNat (o.buf.headD 0) (2 * (j0 + j)) 2)) })

/-- RQLD (R207). -/
def rqldIssue (s : State) (key : Nat) (o : Op) : IssueRes :=
  let a := o.addrAt .a o.n
  match o.read s key a .a o.n with
  | .error e => .error e
  | .ok (r, s1) =>
    let j0 := a % 128 / 4
    .ok (s1, { o.step with
      out := (List.range (min (j0 + o.r.fn.toNat + 1) 32 - j0)).map (fun j =>
        BitVec.ofNat 1024 (rowNat r (4 * (j0 + j)) 4)) })

end Sys2Proof.Machine
end

