-- ==== Sys2Proof/Machine/Matrix.lean ====
section
/-! DEFINITION. The matrix engine (R250 to R271, R277): products into accumulators, write-outs, tile stores and queue
loads, and the loop nest. -/

namespace Sys2Proof.Machine

/-! ### The K-block rule (R254, R255) -/

/-- The exact sum of values: NaN or opposite infinities give NaN, an exact zero is +0 (R255). -/
def exactSum (l : List Val) : Val :=
  if l.any Val.isNaN then .nan
  else
    let pos := l.any (fun v => v.isInf && !v.neg)
    let neg := l.any (fun v => v.isInf && v.neg)
    if pos && neg then .nan
    else if pos then .inf false
    else if neg then .inf true
    else (Dy.sum (l.map Val.dy)).val false

/-- One rounding into A96 (R254). -/
def round96 (v : Val) : Nat := roundVal 10 .rne false v

/-- The running value after one K-block of products. -/
def kBlock (c : Nat) (ps : List Val) : Nat := round96 (exactSum (decodeFloat 10 c :: ps))

/-- Products of 32 consecutive k from 32·kb below K that are present: `prod k` is none for a removed k. -/
def blockProducts (prod : Nat → Option Val) (kk kb : Nat) : List Val :=
  (List.range (min 32 (kk - 32 * kb))).filterMap (fun j => prod (32 * kb + j))

/-- The K-block rule for one element (R254). -/
def kRule (c : Nat) (prod : Nat → Option Val) (kk : Nat) : Nat :=
  (List.range (ceilDiv kk 32)).foldl (fun c kb => kBlock c (blockProducts prod kk kb)) c

/-- A matrix operand: its value at (row, k), none for a removed k. -/
abbrev MatFn := Nat → Nat → Option Val

/-- A product over M × N × K added to an accumulator, or from zero; `drop` names elements that receive −∞ (R264). -/
def product (a : AccReg) (z : Bool) (fa fb : MatFn) (drop : Nat → Nat → Bool) (m n kk : Nat) : AccReg :=
  let cell (i j : Nat) : BitVec 96 :=
    if drop i j then BitVec.ofNat 96 (infinityEnc 10 true)
    else BitVec.ofNat 96 (kRule (if z then 0 else (a.at i j).toNat)
      (fun k => match fa i k, fb j k with
        | some x, some y => some (x.mul y)
        | _, _ => none) kk)
  { tag := 10
    el := (List.range m).foldl (fun el i =>
      (List.range n).foldl (fun el j => cellSet (0 : BitVec 96) el (128 * i + j) (cell i j)) el) a.el }

/-! ### Tile operands (R252, R253) -/

/-- Element j of a stored row of a tile register read in a format; MX elements under their block's scale, at the byte that R49 gives
the block. Under a WIDTH that is no multiple of 32, R49 gives no byte for the block that stands incomplete at a row's end: the same
expression then names the next row's first (DESIGN CHOICE, log entry 50). -/
def tileElem (t : TileReg) (f width row j : Nat) : Val :=
  if isBlockFmt f then
    decodeMx f (elemAt (t.rowNat row) 8 j) (t.scaleAt (row * (width / 32) + j / 32))
  else decodeVal f (elemAt (t.rowNat row) (fmtWidth f) j)

/-- A tile register as a matrix operand: rows of K, or K rows when transposed, its stored rows permuted (R136, R252). -/
def tileMat (t : TileReg) (f width : Nat) (tr : Bool) (m : BitVec 12) : MatFn := fun i k =>
  if tr then some (tileElem t f width k (modSource m i)) else some (tileElem t f width i (modSource m k))

/-- The classes of R253: formats that pair with each other. -/
def pairClass : Nat → Nat
  | 2 => 1
  | 3 => 2
  | 4 | 5 => 3
  | 6 | 7 => 4
  | 11 | 12 => 5
  | 13 => 6
  | _ => 0

/-- Whether two formats pair (R253). -/
def formatsPair (f g : Nat) : Bool := pairClass f ≠ 0 && pairClass f = pairClass g

/-- Whether B pairs with CB2 weights (R253). -/
def cb2Pair (g : Nat) : Bool := g = 4 || g = 5 || g = 11 || g = 12

/-- What a product's operands come to: formats, widths, and M, N, K. -/
structure Dims where
  fa : Nat
  fb : Nat
  wa : Nat
  wb : Nat
  m : Nat
  n : Nat
  k : Nat

/-- A format an operand takes, or FORMAT in its slot. A tag is shown as soon as its writer has set it, to a record of another
sequencer too that no pop or wait orders after a writer which has retired (R41; DESIGN CHOICE, log entry 5). -/
def opFormat (st : Strand) (o : Op) (sl : Slot) (ok : Nat → Bool) : Res Nat :=
  match regFormat (st.tile (opdOf o.r sl).base.toNat).tag o.r.fmt with
  | none => raiseAt .format sl 0
  | some f => if ok f then .ok f else raiseAt .format sl 0

/-- The checks of R252 in their order; `fac` is how many k an element of A stands for. An operand read as block-scaled under a
WIDTH that is no multiple of its unit raises nothing and has every element of its rows, E of R252 (R49 names a fault for the load
alone; DESIGN CHOICE, log entry 50). -/
def productDims (st : Strand) (o : Op) (okA : Nat → Bool) (pair : Nat → Nat → Bool) (ta tb : Bool) (fac : Nat) :
    Res Dims :=
  let sa := o.shape o.r.a.base.toNat
  let sb := o.shape o.r.b.base.toNat
  if shRows sa = 0 then raiseAt .shape .a 0
  else if shRows sb = 0 then raiseAt .shape .b 0
  else
    match opFormat st o .a okA with
    | .error e => .error e
    | .ok fa =>
      match opFormat st o .b (fun _ => true) with
      | .error e => .error e
      | .ok fb =>
        let ea := rowElems fa (shWidth sa)
        let eb := rowElems fb (shWidth sb)
        let m := if ta then ea else shRows sa
        let ka := if ta then shRows sa else ea * fac
        let n := if tb then eb else shRows sb
        let kb := if tb then shRows sb else eb
        if !pair fa fb then raiseAt .format .b 0
        else if ewCode (fmtWidth fa) ≠ shEw sa then raiseAt .format .a 0
        else if ewCode (fmtWidth fb) ≠ shEw sb then raiseAt .format .b 0
        else if isBlockFmt fa && (ta || modOn o.r.moda) then raiseAt .scaleAxis .a 0
        else if isBlockFmt fb && (tb || modOn o.r.modb) then raiseAt .scaleAxis .b 0
        else if modBreaks o.r.moda ea then raiseAt .shape .a 0
        else if modBreaks o.r.modb eb then raiseAt .shape .b 0
        else if m > 128 then raiseAt .shape .a 0
        else if n > 128 || kb ≠ ka then raiseAt .shape .b 0
        else .ok ⟨fa, fb, shWidth sa, shWidth sb, m, n, ka⟩

/-- The accumulator a record writes: its own, or the shadow of a run-ahead episode (R274). -/
def Op.acc (o : Op) : Nat := o.r.d.base.toNat - 16 + (if o.redirect then 4 else 0)

/-- A product that adds needs an accumulator with tag 10 (R250); the fault names element index 0 (DESIGN CHOICE, log entry 50). -/
def accReady (st : Strand) (o : Op) (z : Bool) : Res Unit :=
  if !z && (st.accAt o.acc).tag ≠ 10 then raiseAt .format .d 0 else .ok ()

/-- An accumulator takes a product. -/
def addProduct (st : Strand) (o : Op) (z : Bool) (fa fb : MatFn) (drop : Nat → Nat → Bool) (m n k : Nat) : Strand :=
  st.setAcc o.acc (product (st.accAt o.acc) z fa fb drop m n k)

/-- Formats of A for plain products (R253). -/
def plainA (f : Nat) : Bool := (2 ≤ f && f ≤ 7) || (11 ≤ f && f ≤ 13)

/-- No element is dropped. -/
def noDrop (_ _ : Nat) : Bool := false

/-- MMA (R260). -/
def mmaIssue (s : State) (key : Nat) (st : Strand) (o : Op) : IssueRes :=
  let fn := o.r.fn
  let z := fn.getLsbD 0
  match productDims st o plainA formatsPair (fn.getLsbD 1) (fn.getLsbD 2) 1 with
  | .error e => .error e
  | .ok d =>
    match accReady st o z with
    | .error e => .error e
    | .ok _ =>
      .ok (s.setStrand key (addProduct st o z
        (tileMat (st.tile o.r.a.base.toNat) d.fa d.wa (fn.getLsbD 1) o.r.moda)
        (tileMat (st.tile o.r.b.base.toNat) d.fb d.wb (fn.getLsbD 2) o.r.modb) noDrop d.m d.n d.k), o.step)

/-- The mask register of slot M must carry tag 15 (R261, R264); the fault names element index 0 (DESIGN CHOICE, log entry 50). -/
def maskReady (st : Strand) (o : Op) : Res (BitVec 65536) :=
  let k := st.maskAt o.r.msk.toNat
  if k.tag ≠ 15 then raiseAt .format .m 0 else .ok k.bits

/-- The indices of a group of MMANM from bit position pos: h of them, lg bits each (R261). -/
def groupIndices (k : BitVec 65536) (pos h lg : Nat) : List Nat :=
  (List.range h).map (fun t => bitsOf (k.extractLsb' (pos + t * lg) lg).toNat 0 lg)

/-- Whether indices ascend strictly. -/
def ascending : List Nat → Bool
  | [] => true
  | [_] => true
  | a :: b :: r => a < b && ascending (b :: r)

/-- The element of A that stands at k of a row: j·h + t where index t of its group is k mod G; none if pruned. -/
def sparseAt (k : BitVec 65536) (pos h lg j r : Nat) : Option Nat :=
  ((groupIndices k pos h lg).findIdx? (· = r)).map (fun t => j * h + t)

/-- MMANM (R261); the faults of M mod V and of K mod G name element index 0 (DESIGN CHOICE, log entry 50). -/
def mmanmIssue (s : State) (key : Nat) (st : Strand) (o : Op) : IssueRes :=
  let fn := o.r.fn
  let z := fn.getLsbD 0
  let g := if fn.getLsbD 1 then 8 else 4
  let h := if fn.getLsbD 1 then 4 else 2
  let lg := if fn.getLsbD 1 then 3 else 2
  let w := if fn.getLsbD 1 then 12 else 4
  let v := if fn.getLsbD 2 then 8 else 4
  match productDims st o (fun f => 2 ≤ f && f ≤ 7) formatsPair false (fn.getLsbD 3) 2 with
  | .error e => .error e
  | .ok d =>
    if d.m % v ≠ 0 then raiseAt .shape .a 0
    else if d.k % g ≠ 0 then raiseAt .shape .b 0
    else
      match maskReady st o with
      | .error e => .error e
      | .ok k =>
        let pos (row j : Nat) : Nat := (row / v * (d.k / g) + j) * w
        let bad := ((List.range (d.m / v)).flatMap (fun rg => (List.range (d.k / g)).map (fun j => pos (rg * v) j))).find?
          (fun p => !ascending (groupIndices k p h lg))
        match bad with
        | some p => raiseAt .format .m p
        | none =>
          match accReady st o z with
          | .error e => .error e
          | .ok _ =>
            let t := st.tile o.r.a.base.toNat
            let fa : MatFn := fun i kk =>
              (sparseAt k (pos i (kk / g)) h lg (kk / g) (kk % g)).map
                (fun e => tileElem t d.fa d.wa i (modSource o.r.moda e))
            .ok (s.setStrand key (addProduct st o z fa
              (tileMat (st.tile o.r.b.base.toNat) d.fb d.wb (fn.getLsbD 3) o.r.modb) noDrop d.m d.n d.k), o.step)

/-- Weight k of row i of CB2 weights (R262), under a scale as in `tileElem` (log entry 50). -/
def cb2At (t : TileReg) (book : BitVec 8192) (width i k : Nat) : Val :=
  let j := k / 8
  (decodeCb2 book (elemAt (t.rowNat i) 16 j) (t.scaleAt (i * (width / 8) + j / 4))).getD (k % 8) .nan

/-- MMACB (R262). -/
def mmacbIssue (s : State) (key : Nat) (st : Strand) (o : Op) : IssueRes :=
  let fn := o.r.fn
  let z := fn.getLsbD 0
  let cb := fn.toNat / 2 % 4
  match productDims st o (· = 14) (fun _ g => cb2Pair g) false (fn.getLsbD 3) 8 with
  | .error e => .error e
  | .ok d =>
    match accReady st o z with
    | .error e => .error e
    | .ok _ =>
      let book := if h : cb < 4 then st.cb[cb] else 0
      .ok (s.setStrand key (addProduct st o z
        (fun i k => some (cb2At (st.tile o.r.a.base.toNat) book d.wa i k))
        (tileMat (st.tile o.r.b.base.toNat) d.fb d.wb (fn.getLsbD 3) o.r.modb) noDrop d.m d.n d.k), o.step)

/-- The tile bit of MMAK at query tile qt and key tile kt (R264). -/
def mmakBit (o : Op) (qt kt : Nat) : Int :=
  (o.r.d.off.toNat % 2 ^ 16 : Nat) + qt * o.r.d.s1.toInt + kt * o.r.d.s0.toInt

/-- A signed element index as a fault record's 64 bits hold it: in two's complement (R264, R287, R356; DESIGN CHOICE, log entry
50). -/
def intIndex (i : Int) : Nat := (i % (2 ^ 64 : Nat)).toNat

/-- MMAK (R264). -/
def mmakIssue (s : State) (key : Nat) (st : Strand) (o : Op) : IssueRes :=
  let fn := o.r.fn
  let z := fn.getLsbD 0
  let ax := fn.getLsbD 3
  match productDims st o plainA formatsPair (fn.getLsbD 1) (fn.getLsbD 2) 1 with
  | .error e => .error e
  | .ok d =>
    match maskReady st o with
    | .error e => .error e
    | .ok k =>
      let bits := (List.range (ceilDiv d.m 64)).flatMap (fun qt =>
        (List.range (ceilDiv (if ax then d.k else d.n) 64)).map (mmakBit o qt))
      match bits.find? (fun b => b < 0 || 65535 < b) with
      | some b => raiseAt .format .m (intIndex b)
      | none =>
        match accReady st o z with
        | .error e => .error e
        | .ok _ =>
          let kept (i x : Nat) : Bool := k.getLsbD (mmakBit o (i / 64) (x / 64)).toNat
          let ta := tileMat (st.tile o.r.a.base.toNat) d.fa d.wa (fn.getLsbD 1) o.r.moda
          let fa : MatFn := if ax then (fun i kk => if kept i kk then ta i kk else none) else ta
          .ok (s.setStrand key (addProduct st o z fa
            (tileMat (st.tile o.r.b.base.toNat) d.fb d.wb (fn.getLsbD 2) o.r.modb)
            (fun i j => !ax && !kept i j) d.m d.n d.k), o.step)

/-! ### MMAG -/

/-- Element j of a gathered or nested row held as its stream bytes. -/
def streamElem (f : Nat) (bs : List Byte) (j : Nat) : Val :=
  if isBlockFmt f then
    let v := leNat bs
    decodeMx f (elemAt v 8 (33 * (j / 32) + j % 32)) (elemAt v 8 (33 * (j / 32) + 32))
  else decodeVal f (elemAt (leNat bs) (fmtWidth f) j)

/-- The checks of MMAG, and its format, N and K (R47, R252, R263). -/
def mmagDims (st : Strand) (o : Op) : Res Dims :=
  let f := o.r.fmt.toNat
  let sb := o.shape o.r.b.base.toNat
  let ni := o.r.fn.toNat % 16
  let si := o.shape ni
  if shRows sb = 0 then raiseAt .shape .b 0
  else if !plainA f then raiseAt .format .a 0
  else
    match opFormat st o .b (fun _ => true) with
    | .error e => .error e
    | .ok fb =>
      let k := rowElems fb (shWidth sb)
      if !formatsPair f fb then raiseAt .format .b 0
      else if ewCode (fmtWidth fb) ≠ shEw sb then raiseAt .format .b 0
      else if isBlockFmt f && k % unitBytes f ≠ 0 then raiseAt .format .a 0
      else if isBlockFmt f && modOn o.r.moda then raiseAt .scaleAxis .a 0
      else if isBlockFmt fb && modOn o.r.modb then raiseAt .scaleAxis .b 0
      else if modBreaks o.r.moda k then raiseAt .shape .a 0
      else if modBreaks o.r.modb k then raiseAt .shape .b 0
      else if shRows sb > 128 then raiseAt .shape .b 0
      else if shRows si = 0 then raiseAt .shape .a 0
      else if (st.tile ni).tag ≠ 9 then raiseAt .format .a 0
      else if o.r.t0.toNat > shRows si * shWidth si / 4 then raiseAt .shape .a 0
      else .ok ⟨f, fb, 0, shWidth sb, o.r.t0.toNat, shRows sb, k⟩

/-- Index element j of MMAG's index register, row-major (R263): a row holds WIDTH / 4 elements, rounded down where a later
TSHAPE has made WIDTH no multiple of 4, so that the last elements may lie beyond ROWS (DESIGN CHOICE, log entry 50). -/
def mmagIndex (st : Strand) (o : Op) (j : Nat) : Nat :=
  let ni := o.r.fn.toNat % 16
  let per := shWidth (o.shape ni) / 4
  elemAt ((st.tile ni).rowNat (j / per)) 32 (j % per)

/-- The rows MMAG gathers, as their stream bytes (R263). -/
def mmagRows (key : Nat) (st : Strand) (o : Op) (f k : Nat) : List Nat → State → Res (List (List Byte) × State)
  | [], s => .ok ([], s)
  | j :: js, s =>
    let len := tileRowBytes f (k * fmtWidth f / 8)
    let x := mmagIndex st o j
    let got : Res (List Byte × State) :=
      if x = 2 ^ 32 - 1 then .ok ([], s)
      else match o.readRows key (o.addr .a ⟨0, 0, 0, x⟩) .a j (ceilDiv len 128) s with
        | .error e => .error e
        | .ok (rs, s1) => .ok ((rowsBytes rs).take len, s1)
    match got with
    | .error e => .error e
    | .ok (bs, s1) =>
      match mmagRows key st o f k js s1 with
      | .error e => .error e
      | .ok (r, s2) => .ok (bs :: r, s2)

/-- MMAG (R263): a row of zeros is all zero elements. -/
def mmagIssue (s : State) (key : Nat) (st : Strand) (o : Op) : IssueRes :=
  let z := o.r.fn.getLsbD 4
  match mmagDims st o with
  | .error e => .error e
  | .ok d =>
    match accReady st o z with
    | .error e => .error e
    | .ok _ =>
      match mmagRows key st o d.fa d.k (List.range d.m) s with
      | .error e => .error e
      | .ok (rows, s1) =>
        let st1 := (s1.strands.find? key).getD st
        let fa : MatFn := fun i k =>
          match rows[i]? with
          | some [] => some (.fin false 0 0)
          | some bs => some (streamElem d.fa bs (modSource o.r.moda k))
          | none => none
        .ok (s1.setStrand key (addProduct st1 o z fa
          (tileMat (st1.tile o.r.b.base.toNat) d.fb d.wb false o.r.modb) noDrop d.m d.n d.k), o.step)

/-! ### Accumulator records -/

/-- AZERO (R265). -/
def azeroIssue (s : State) (key : Nat) (st : Strand) (o : Op) : IssueRes :=
  .ok (s.setStrand key (st.setAcc o.acc ⟨10, []⟩), o.step)

/-- The elements of row m of a write-out, rounded into G (R266). -/
def awrRow (st : Strand) (o : Op) (m : Nat) : List Nat :=
  let a := st.accAt (o.r.a.base.toNat - 16)
  let n := o.r.t0.toNat
  (List.range n).map (fun j =>
    roundVal o.r.fmt.toNat (o.mode (fnRnd o.r) (m * n + j)) (fnSat o.r)
      (decodeFloat 10 (a.at m (modSource o.r.moda j)).toNat))

/-- Accumulator A must carry tag 10; AWRT's D must have room (R266). Both faults name element index 0 (DESIGN CHOICE, log entry
50). -/
def awrStart (st : Strand) (o : Op) : Res Unit :=
  if (st.accAt (o.r.a.base.toNat - 16)).tag ≠ 10 then raiseAt .format .a 0
  else
    match o.ins with
    | .awrt _ =>
      let sh := o.shape o.r.d.base.toNat
      let w := fmtWidth o.r.fmt.toNat
      if shRows sh = 0 || ewCode w ≠ shEw sh || shRows sh < o.r.t1.toNat || shWidth sh * 8 < o.r.t0.toNat * w then
        raiseAt .shape .d 0
      else .ok ()
    | _ => .ok ()

/-- AWRQ, row m (R266). -/
def awrqIssue (s : State) (st : Strand) (o : Op) : IssueRes :=
  .ok (s, { o.step with out := packRows (fmtWidth o.r.fmt.toNat) (awrRow st o o.n) })

/-- AWRM, row m (R266): the bytes beyond the elements stay; a last element narrower than a byte keeps the other half
of its byte. -/
def awrmIssue (s : State) (key : Nat) (st : Strand) (o : Op) : IssueRes :=
  let w := fmtWidth o.r.fmt.toNat
  let els := awrRow st o o.n
  let bits := els.length * w
  let va := o.addr .d ⟨0, 0, o.n, 0⟩
  let v := packElems w els
  let full := leBytes (bits / 8) v
  let rows := ceilDiv (ceilDiv bits 8) 128
  if bits % 8 = 0 then
    match o.writeBytes key (rowOf va) .d o.n rows s full with
    | .error e => .error e
    | .ok s1 => .ok (s1, o.step)
  else
    let last := addrPlus (rowOf va) (bits / 8 : Nat)
    match o.read s key last .d o.n with
    | .error e => .error e
    | .ok (r, s1) =>
      let b := setBits (rowNat r (bits / 8 % 128) 1) 0 (bits % 8) (bitsOf v (bits / 8 * 8) (bits % 8))
      match o.writeBytes key (rowOf va) .d o.n rows s1 (full ++ [BitVec.ofNat 8 b]) with
      | .error e => .error e
      | .ok s2 => .ok (s2, o.step)

/-- AWRT at issue: the tile register is emptied and takes G as its tag (R266). -/
def awrtStart (s : State) (key : Nat) (st : Strand) (o : Op) : IssueRes :=
  .ok (s.setStrand key (st.setTileReg o.r.d.base.toNat ⟨o.r.fmt, [], []⟩), o)

/-- AWRT, row m (R266). -/
def awrtIssue (s : State) (key : Nat) (st : Strand) (o : Op) : IssueRes :=
  let n := o.r.d.base.toNat
  let t := (st.tile n).setRow o.n (packElems (fmtWidth o.r.fmt.toNat) (awrRow st o o.n))
  .ok (s.setStrand key (st.setTileReg n t), o.step)

/-- Whether an operation is a write-out with CLR (R266). -/
def Op.clears (o : Op) : Bool :=
  match o.ins with
  | .awrq r | .awrm r | .awrt r => r.fn.getLsbD 3
  | _ => false

/-- CLR at completion: the rectangle becomes +0 (R266). -/
def clearRect (st : Strand) (o : Op) : Strand :=
  if o.clears then
    let n := o.r.a.base.toNat - 16
    let a := st.accAt n
    st.setAcc n { a with el := a.el.filter (fun p => !(p.1 / 128 < o.r.t1.toNat && p.1 % 128 < o.r.t0.toNat)) }
  else st

/-! ### Tile stores and queue loads -/

/-- The checks of TSTS and TSTQ (R26, R47, R267, R268). A trip count above ROWS names index 0, for which R267 and R268 give none (DESIGN
CHOICE, log entry 50). -/
def tstCheck (st : Strand) (o : Op) (rows : Nat) : Res Unit :=
  let n := o.r.a.base.toNat
  let sh := o.shape n
  let f := (st.tile n).tag.toNat
  if f = 0 then raiseAt .format .a 0
  else if shRows sh = 0 then raiseAt .shape .a 0
  else if isBlockFmt f && shWidth sh % unitBytes f ≠ 0 then raiseAt .format .a 0
  else if isBlockFmt f && modOn o.r.moda then raiseAt .scaleAxis .a 0
  else if modBreaks o.r.moda (rowElems f (shWidth sh)) then raiseAt .shape .a 0
  else if rows > shRows sh then raiseAt .shape .a 0
  else .ok ()

/-- The stream bytes of tile row n of A, its scales put back (R47, R267). -/
def tileRowStream (st : Strand) (o : Op) (n : Nat) : List Byte :=
  let t := st.tile o.r.a.base.toNat
  let f := t.tag.toNat
  let width := shWidth (o.shape o.r.a.base.toNat)
  if isBlockFmt f then
    let u := unitBytes f
    let nb := width / u
    joinStream u nb (leBytes width (t.rowNat n)) ((List.range nb).map (fun b => BitVec.ofNat 8 (t.scaleAt (n * nb + b))))
  else leBytes width (permuteRow o.r.moda (fmtWidth f) (rowElems f width) (t.rowNat n))

/-- Bytes filled up with zeros to whole rows. -/
def padRows (bs : List Byte) : List Byte := bs ++ List.replicate (ceilDiv bs.length 128 * 128 - bs.length) 0

/-- TSTS, tile row n (R267). -/
def tstsIssue (s : State) (key : Nat) (st : Strand) (o : Op) : IssueRes :=
  let bs := tileRowStream st o o.n
  let f := (st.tile o.r.a.base.toNat).tag.toNat
  match o.writeBytes key (rowOf (o.addrAt .d o.n)) .d o.n (ceilDiv bs.length 128) s
      (if isBlockFmt f then padRows bs else bs) with
  | .error e => .error e
  | .ok s1 => .ok (s1, o.step)

/-- TSTQ, tile row n (R268). -/
def tstqIssue (s : State) (st : Strand) (o : Op) : IssueRes :=
  let bs := padRows (tileRowStream st o o.n)
  .ok (s, { o.step with
    out := (List.range (bs.length / 128)).map (fun j => bytesRow (bs.drop (128 * j))) })

/-- TQLD at issue (R201, R268). T0 above ROWS names index 0 (DESIGN CHOICE, log entry 50). -/
def tqldStart (s : State) (key : Nat) (st : Strand) (o : Op) : IssueRes :=
  let f := o.r.fmt.toNat
  let n := o.r.d.base.toNat
  match tileLoadCheck o n f 0 with
  | .error e => .error e
  | .ok _ =>
    if dqSnk st.dqfmtlx ≠ 0 && (dqSnk st.dqfmtlx ≠ f || isBlockFmt f) then raiseAt .format .q 0
    else if o.r.t0.toNat > shRows (o.shape n) then raiseAt .shape .d 0
    else .ok (tagTile s key st o n f o.r.t0.toNat, o)

/-- Rows a tile row of TQLD takes (R268). -/
def tqldNeed (o : Op) : Nat := ceilDiv (tileRowBytes o.r.fmt.toNat (shWidth (o.shape o.r.d.base.toNat))) 128

/-- TQLD, tile row n (R268). -/
def tqldIssue (s : State) (key : Nat) (st : Strand) (o : Op) : IssueRes :=
  let n := o.r.d.base.toNat
  let t := placeRow (st.tile n) o.r.fmt.toNat (shWidth (o.shape n)) o.n o.r.moda (rowsBytes o.buf)
  .ok (s.setStrand key (st.setTileReg n t), o.step)

/-! ### Shadows and the nest -/

/-- SCOMMIT (R277); the fault of an empty shadow names element index 0 (DESIGN CHOICE, log entry 50). -/
def scommitIssue (s : State) (key : Nat) (st : Strand) (o : Op) : IssueRes :=
  let n := o.r.d.base.toNat - 16
  let a := st.accAt n
  if a.tag = 0 then raiseAt .format .d 0
  else .ok (s.setStrand key ((st.setAcc (n - 4) a).setAcc n { a with tag := 0 }), o.step)

/-- SDISCARD (R277). -/
def sdiscardIssue (s : State) (key : Nat) (st : Strand) (o : Op) : IssueRes :=
  let n := o.r.d.base.toNat - 16
  .ok (s.setStrand key (st.setAcc n { st.accAt n with tag := 0 }), o.step)

/-- The rows of a tile image, packed tile rows each of whole memory rows (R269). -/
def nestRows (key : Nat) (o : Op) (sl : Slot) (va len : Nat) : List Nat → State → Res (List (List Byte) × State)
  | [], s => .ok ([], s)
  | r :: rs, s =>
    match o.readRows key (addrPlus va (r * (ceilDiv len 128 * 128) : Nat)) sl r (ceilDiv len 128) s with
    | .error e => .error e
    | .ok (rows, s1) =>
      match nestRows key o sl va len rs s1 with
      | .error e => .error e
      | .ok (more, s2) => .ok ((rowsBytes rows).take len :: more, s2)

/-- A tile register loaded from an image (R269). MODA and MODB permute each row as it is loaded, so that the pair holds permuted
tiles and the product has no modifier (DESIGN CHOICE, log entry 50). -/
def nestLoad (s : State) (key : Nat) (o : Op) (sl : Slot) (n : Nat) (m : BitVec 12) : Res State :=
  let f := o.r.fmt.toNat
  let sh := o.shape n
  if shRows sh = 0 then raiseAt .shape sl 0
  else if ewCode (fmtWidth f) ≠ shEw sh then raiseAt .format sl 0
  else if isBlockFmt f && shWidth sh % unitBytes f ≠ 0 then raiseAt .format sl 0
  else if isBlockFmt f && modOn m then raiseAt .scaleAxis sl 0
  else if modBreaks m (rowElems f (shWidth sh)) then raiseAt .shape sl 0
  else
    match nestRows key o sl (o.addrAt sl o.n) (tileRowBytes f (shWidth sh)) (List.range (shRows sh)) s with
    | .error e => .error e
    | .ok (rows, s1) =>
      match s1.strands.find? key with
      | none => .error .hold
      | some st =>
        let t := rows.zipIdx.foldl (fun t p => placeRow t f (shWidth sh) p.2 m p.1)
          ((st.tile n).prepare f (shWidth sh) (shRows sh) (shRows sh) (usedScales f (shWidth sh) (shRows sh)))
        .ok (s1.setStrand key (st.setTileReg n t))

/-- One step of MNEST: two tile loads and a product (R269). -/
def mnestIssue (s : State) (key : Nat) (o : Op) : IssueRes :=
  let p := o.r.fn.toNat / 2 * 2
  let z := o.r.fn.getLsbD 0 && o.n = 0
  match nestLoad s key o .a p o.r.moda with
  | .error e => .error e
  | .ok s1 =>
    match nestLoad s1 key o .b (p + 1) o.r.modb with
    | .error e => .error e
    | .ok s2 =>
      match s2.strands.find? key with
      | none => .error .hold
      | some st =>
        let f := o.r.fmt.toNat
        let sa := o.shape p
        let sb := o.shape (p + 1)
        let k := rowElems f (shWidth sa)
        if !plainA f then raiseAt .format .a 0
        else if shRows sa > 128 then raiseAt .shape .a 0
        else if shRows sb > 128 || rowElems f (shWidth sb) ≠ k then raiseAt .shape .b 0
        else
          match accReady st o z with
          | .error e => .error e
          | .ok _ =>
            .ok (s2.setStrand key (addProduct st o z (tileMat (st.tile p) f (shWidth sa) false 0)
              (tileMat (st.tile (p + 1)) f (shWidth sb) false 0) noDrop (shRows sa) (shRows sb) k), o.step)

end Sys2Proof.Machine
end

