-- ==== Sys2Proof/Machine/Attn.lean ====
section
/-! DEFINITION. Skipper (R283 to R288) and Hawkmoth (R289 to R301): scouting, thresholds, signatures, links and chain
reads at the owner, gathering and the dense fallback. -/

namespace Sys2Proof.Machine

/-! ### Skipper -/

/-- The leading power of an E4M3 byte (R286). -/
def lead (y : Nat) : Dy :=
  let e3 := bitsOf y 4 3
  if e3 = 0 then ⟨0, 0⟩ else ⟨if y.testBit 7 then -1 else 1, 2 * (e3 : Int) - 7⟩

/-- An element's E4M3 scout byte; none for NaN (R286). -/
def scoutByte (v : Val) : Option Nat :=
  let y := roundVal 4 .rne true v
  if (decodeFloat 4 y).isNaN then none else some y

/-- The scout score of two rows: NaN or the exact sum (R286). -/
def scoutScore (q k : List (Option Nat)) : Val :=
  if q.any Option.isNone || k.any Option.isNone then .nan
  else (Dy.sum ((q.zip k).map (fun p => match p.1, p.2 with
    | some a, some b => (lead a).mul (lead b)
    | _, _ => ⟨0, 0⟩))).val false

/-- The largest of values, NaN if any is NaN. -/
def maxVal : List Val → Val
  | [] => .inf true
  | v :: r => r.foldl Val.max v

/-- est of a query row and the rows of a key tile (R286). -/
def tileEstimate (q : List (Option Nat)) (keys : List (List (Option Nat))) : Nat :=
  roundVal 1 .rne false (maxVal (keys.map (scoutScore q)))

/-- What SCOUT works on. -/
structure Scout where
  fa : Nat
  fb : Nat
  wa : Nat
  wb : Nat
  m : Nat
  n : Nat
  k : Nat

/-- The checks of SCOUT in their order (R285, R136). -/
def scoutDims (st : Strand) (o : Op) : Res Scout :=
  let ok (f : Nat) : Bool := 2 ≤ f && f ≤ 5
  let sa := o.shape o.r.a.base.toNat
  let sb := o.shape o.r.b.base.toNat
  if shRows sa = 0 then raiseAt .shape .a 0
  else if shRows sb = 0 then raiseAt .shape .b 0
  else
    match opFormat st o .a ok with
    | .error e => .error e
    | .ok fa =>
      match opFormat st o .b ok with
      | .error e => .error e
      | .ok fb =>
        let k := rowElems fa (shWidth sa)
        if rowElems fb (shWidth sb) ≠ k then raiseAt .shape .b 0
        else if modBreaks o.r.moda k then raiseAt .shape .a 0
        else if modBreaks o.r.modb k then raiseAt .shape .b 0
        else if o.r.t0.toNat ≠ shRows sa || o.r.t1.toNat ≠ ceilDiv (shRows sb) 64 then raiseAt .shape .d 0
        else .ok ⟨fa, fb, shWidth sa, shWidth sb, shRows sa, shRows sb, k⟩

/-- The place of est(m, kt) in an operand (R286). -/
def estPlace (o : Op) (sl : Slot) (m kt : Nat) : Nat := o.addr sl ⟨0, 0, kt, m⟩ / 4 * 4

/-- SCOUT (R286): one issue, so that none of its estimates stands where a write of one faults (DESIGN CHOICE, log entry 11). -/
def scoutIssue (s : State) (key : Nat) (st : Strand) (o : Op) : IssueRes :=
  match scoutDims st o with
  | .error e => .error e
  | .ok d =>
    let row (t : TileReg) (f w : Nat) (m : BitVec 12) (i : Nat) : List (Option Nat) :=
      (List.range d.k).map (fun k => scoutByte (tileElem t f w i (modSource m k)))
    let ta := st.tile o.r.a.base.toNat
    let tb := st.tile o.r.b.base.toNat
    let kt1 := o.r.t1.toNat
    let est (m kt : Nat) : Nat :=
      tileEstimate (row ta d.fa d.wa o.r.moda m)
        ((List.range (min 64 (d.n - 64 * kt))).map (fun j => row tb d.fb d.wb o.r.modb (64 * kt + j)))
    match resFold (fun (s : State) (p : Nat × Nat) =>
        match sramKey s key (estPlace o .d p.1 p.2) true .d (p.1 * kt1 + p.2) with
        | .error e => .error e
        | .ok k => .ok (s.setMem (writeNat s.mem k 4 (est p.1 p.2)))) s
        ((List.range d.m).flatMap (fun m => (List.range kt1).map (fun kt => (m, kt)))) with
    | .error e => .error e
    | .ok s1 => .ok (s1, o.step)

/-- RMAX of a row. -/
def rmaxAt (st : Strand) (m : Nat) : Nat := if h : m < 128 then st.rmax[m].toNat else 0

/-- The bit of THRESH for a query tile and a key tile (R287). -/
def threshBit (o : Op) (qt kt : Nat) : Int :=
  (o.r.d.off.toNat % 2 ^ 16 : Nat) + qt * o.r.d.s1.toInt + kt * o.r.d.s0.toInt

/-- Whether an FP32 encoding is +∞. -/
def isPosInf32 (v : Nat) : Bool := decodeFloat 1 v == .inf false

/-- RMAX of a row once its estimates have been seen: the largest that is not NaN (R287). -/
def rowTop (rmax : Val) (est : List Val) : Val := est.foldl (fun r e => if e.isNaN then r else r.max e) rmax

/-- lim of a row (R287). -/
def skipLimit (margin : Nat) (top : Val) : Val := decodeFloat 1 (roundVal 1 .rne false (top.sub (decodeFloat 1 margin)))

/-- Whether the estimate of a row keeps its tile, under the row's lim (R287). -/
def keepsTile (margin : Nat) (lim e : Val) : Bool := e.isNaN || isPosInf32 margin || (!lim.isNaN && !e.lt lim)

/-- THRESH with its estimates read: row m is a list of FP32 encodings. -/
def threshApply (st : Strand) (o : Op) (est : List (List Nat)) : Strand :=
  let t0 := o.r.t0.toNat
  let kts := List.range o.r.t1.toNat
  let n := o.r.d.base.toNat - 32
  let k0 := st.maskAt n
  let bits0 : BitVec 65536 := if k0.tag = 0 then 0 else k0.bits
  let r (m : Nat) : Val := rowTop (decodeFloat 1 (rmaxAt st m)) ((est.getD m []).map (decodeFloat 1))
  let keep (qt kt : Nat) : Bool := (List.range t0).any (fun m => m / 64 = qt &&
    keepsTile st.margin.toNat (skipLimit st.margin.toNat (r m)) (decodeFloat 1 ((est.getD m []).getD kt 0)))
  let pairs := (List.range (ceilDiv t0 64)).flatMap (fun qt => kts.map (fun kt => (qt, kt)))
  let bits := pairs.foldl (fun b p =>
    let i := (threshBit o p.1 p.2).toNat
    if keep p.1 p.2 then b ||| BitVec.twoPow 65536 i else b &&& ~~~(BitVec.twoPow 65536 i)) bits0
  let rmax := (List.range t0).foldl (fun (v : Vector (BitVec 32) 128) m =>
    if h : m < 128 then v.set m (BitVec.ofNat 32 (roundVal 1 .rne false (r m))) else v) st.rmax
  ({ st with rmax := rmax } : Strand).setMask n ⟨15, bits⟩

/-- THRESH (R287). MODA permutes the T1 estimates of each query row, which the model takes as the stored row of R136
(DESIGN CHOICE, log entry 50). -/
def threshIssue (s : State) (key : Nat) (st : Strand) (o : Op) : IssueRes :=
  let t0 := o.r.t0.toNat
  let t1 := o.r.t1.toNat
  let tag := (st.maskAt (o.r.d.base.toNat - 32)).tag
  if tag ≠ 0 && tag ≠ 15 then raiseAt .format .d 0
  else
    match ((List.range (ceilDiv t0 64)).flatMap (fun qt => (List.range t1).map (threshBit o qt))).find?
        (fun b => b < 0 || 65535 < b) with
    | some b => raiseAt .format .d (intIndex b)
    | none =>
      match resMap (fun m => resMap (fun kt =>
          match sramKey s key (estPlace o .a m kt) false .a (m * t1 + kt) with
          | .error e => .error e
          | .ok k => .ok (readNat s.mem k 4)) (List.range t1)) (List.range t0) with
      | .error e => .error e
      | .ok est =>
        let look (m : Nat) : List Nat := let row := est.getD m []
          (List.range t1).map (fun kt => row.getD (modSource o.r.moda kt) 0)
        .ok (s.setStrand key (threshApply st o ((List.range t0).map look)), o.step)

/-- SRESET (R284). -/
def sresetIssue (s : State) (key : Nat) (st : Strand) (o : Op) : IssueRes :=
  .ok (s.setStrand key { st with
    rmax := Vector.replicate 128 0xFF800000
    margin := BitVec.ofNat 32 o.r.a.off.toNat }, o.step)

/-! ### Hawkmoth: heads and signatures -/

/-- The head a record names. -/
def Op.head (o : Op) : Nat := o.r.fn.toNat % 4

/-- A head context of a strand. -/
def Strand.head (st : Strand) (h : Nat) : Head := if q : h < 4 then st.heads[h] else Head.start

/-- A head context replaced. -/
def Strand.setHead (st : Strand) (h : Nat) (v : Head) : Strand :=
  if q : h < 4 then { st with heads := st.heads.set h v } else st

/-- Rows of a chain array (R291). -/
def chainRows (bexp nnodes : Nat) : Nat := 1 + ceilDiv (2 ^ bexp) 4 + ceilDiv nnodes 4

/-- The memory key of a head's chain array. -/
def Head.key (h : Head) : Nat := sliceKey h.tile h.off

/-- The memory key of bucket head i of a chain array. -/
def bucketKey (base i : Nat) : Nat := base + 128 * (1 + i / 4) + 32 * (i % 4)

/-- The memory key of node n, whatever n is (DESIGN CHOICE beyond the pool, log entry 59). -/
def nodeKey (base bexp n : Nat) : Nat := base + 128 * (1 + ceilDiv (2 ^ bexp) 4) + 32 * n

/-- The head fields of a descriptor row that R290 accepts, for a tile. -/
def headFields (d : Device) (tile : Nat) (row : Row) : Option Head :=
  let fbvec := rowNat row 24 8
  let dim := rowNat row 18 1
  let bexp := rowNat row 17 1
  let np := rowNat row 16 1
  let dth := rowNat row 14 2
  let limit := rowNat row 12 2
  let nnodes := rowNat row 8 4
  let hbase := rowNat row 0 8
  let ranges := rowNat row 32 96 = 0 && rowNat row 19 5 = 0 && fbvec % 64 = 0 && 1 ≤ dim && dim ≤ 128
    && 4 ≤ np && np ≤ 12 && 1 ≤ bexp && bexp ≤ np && 1 ≤ dth && dth ≤ 4096 && 1 ≤ limit && hbase % 128 = 0
  match decodeAddr tile hbase with
  | none => none
  | some p =>
    if !ranges || p.win = 3 || p.off + 128 * chainRows bexp nnodes > Config.sliceBytes
        || (p.win ≠ 0 && d.failed p.tile) then none
    else some { Head.start with
      fbvec := BitVec.ofNat 64 fbvec, dim := dim, bexp := bexp, np := np, dthresh := dth, limit := limit
      nnodes := nnodes, tile := p.tile, off := p.off }

/-- HCFG with RET = 0 (R290). MODA has no elements to permute in a descriptor row and is ignored (DESIGN CHOICE, log
entry 50). -/
def hcfgIssue (s : State) (key : Nat) (st : Strand) (o : Op) : IssueRes :=
  match sramKey s key (rowOf (o.addrAt .a 0)) false .a 0 with
  | .error e => .error e
  | .ok k =>
    match headFields s.dev (key / 2) (readRow s.mem k) with
    | none => raiseAt .format .a 0
    | some f =>
      let h := st.head o.head
      .ok (s.setStrand key (st.setHead o.head { h with
        fbvec := f.fbvec, dim := f.dim, bexp := f.bexp, np := f.np, dthresh := f.dthresh, limit := f.limit
        nnodes := f.nnodes, tile := f.tile, off := f.off, cv := true, pv := false }), o.step)

/-- A tile register A that must hold rows of DIM elements (R292, R295, R297). -/
def attnTile (st : Strand) (o : Op) (dim rows : Nat) (ok : Nat → Bool) : Res Nat :=
  let n := o.r.a.base.toNat
  let sh := o.shape n
  let f := (st.tile n).tag.toNat
  if shRows sh = 0 then raiseAt .shape .a 0
  else if !ok f then raiseAt .format .a 0
  else if shWidth sh ≠ 2 * dim || shRows sh < rows then raiseAt .shape .a 0
  else if modBreaks o.r.moda dim then raiseAt .shape .a 0
  else .ok f

/-- Element e of row i of tile register A, its rows permuted (R136). -/
def attnBits (st : Strand) (o : Op) (i e : Nat) : Nat :=
  elemAt ((st.tile o.r.a.base.toNat).rowNat i) 16 (modSource o.r.moda e)

/-- HPROJ (R292). -/
def hprojIssue (s : State) (key : Nat) (st : Strand) (o : Op) : IssueRes :=
  let h := st.head o.head
  if !h.cv then raiseAt .format .a 0
  else
    match attnTile st o h.dim h.np (· = 3) with
    | .error e => .error e
    | .ok _ =>
      let proj := (List.range h.np).foldl (fun p j => (List.range h.dim).foldl (fun p e =>
        cellSet (0 : BitVec 16) p (128 * j + e) (BitVec.ofNat 16 (attnBits st o j e))) p) h.proj
      .ok (s.setStrand key (st.setHead o.head { h with proj := proj, pv := true }), o.step)

/-- A hyperplane's inner product with a row (R294). -/
def planeDot (h : Head) (x : List Val) (j : Nat) : Val :=
  exactSum ((x.zipIdx).map (fun p =>
    (decodeFloat 3 (cellGet (0 : BitVec 16) h.proj (128 * j + p.2)).toNat).mul p.1))

/-- Bit j of a signature (R294). -/
def signBit (d : Val) : Bool :=
  match d with
  | .inf n => n
  | .fin n m _ => n && m ≠ 0
  | .nan => false

/-- The bucket of a row (R294). -/
def bucketOf (h : Head) (x : List Val) : Nat :=
  ((List.range h.np).foldl (fun v j => v + (signBit (planeDot h x j)).toNat * 2 ^ j) 0) % 2 ^ h.bexp

/-- |d| for the choice of the flipped bit; NaN and infinities count as +∞ (R297). -/
def nearness : Val → Val
  | .fin _ m e => .fin false m e
  | _ => .inf false

/-- The bit of the second probe (R297). -/
def flipBit (h : Head) (x : List Val) : Nat :=
  ((List.range h.bexp).foldl (fun (best : Nat × Val) j =>
    let d := nearness (planeDot h x j)
    if d.lt best.2 then (j, d) else best) (0, nearness (planeDot h x 0))).1

/-- The decoded row i of tile register A. -/
def attnRow (st : Strand) (o : Op) (f dim i : Nat) : List Val :=
  (List.range dim).map (fun e => decodeFloat f (attnBits st o i e))

/-! ### HRESET, links and chain reads at the owner -/

/-- Four bytes of all ones. -/
def none32 : Nat := 2 ^ 32 - 1

/-- A reset bucket head as a number (R293). -/
def emptyBucket : Nat := leNat (leBytes 4 0 ++ (List.range 6).flatMap (fun _ => leBytes 4 none32) ++ leBytes 4 0)

/-- HRESET at issue: the control row and every bucket row are to be written, each in a step of its own (R293, R303). -/
def hresetStart (s : State) (st : Strand) (o : Op) : IssueRes :=
  let h := st.head o.head
  if !h.cv then raiseAt .format .a 0
  else
    let rows := (List.range (1 + ceilDiv (2 ^ h.bexp) 4)).map (fun r => (r, 0))
    .ok (s, { o with hg := some ⟨rows, rows.length, [], none, 0⟩ })

/-- Row r of a chain array as HRESET writes it: the control row, then the bucket rows (R293). -/
def resetRow (bexp nnodes : Nat) : Nat → Nat
  | 0 => nnodes * 2 ^ 32
  | r + 1 =>
    let bucket (i : Nat) : Nat := if i < 2 ^ bexp then emptyBucket else 0
    bucket (4 * r) + 2 ^ 256 * bucket (4 * r + 1) + 2 ^ 512 * bucket (4 * r + 2) + 2 ^ 768 * bucket (4 * r + 3)

/-- HRESET writes its next row; links and chain reads may come between two rows (R293, R303). -/
def hresetIssue (s : State) (key : Nat) (st : Strand) (o : Op) : IssueRes :=
  let h := st.head o.head
  match o.hg with
  | none => .error .hold
  | some g =>
    match g.todo with
    | [] => .ok (s, { o.step with hg := none })
    | (r, _) :: rest =>
      match sramKey s key h.key true .a 0 with
      | .error e => .error e
      | .ok base => .ok (s.setMem (writeNat s.mem (base + 128 * r) 128 (resetRow h.bexp h.nnodes r)),
          if rest.isEmpty then { o.step with hg := none } else { o with hg := some { g with todo := rest } })

/-- A link refused: OVF and NOVF (R296). -/
def refuseLink (m : List Host.Cell) (base bk cnt : Nat) : List Host.Cell :=
  let m1 := writeNat m bk 4 (setBits cnt 31 1 1)
  writeNat m1 (base + 12) 4 ((readNat m (base + 12) 4 + 1) % 2 ^ 32)

/-- A link accepted: CNT and NLINK (R296). -/
def countLink (m : List Host.Cell) (base bk k : Nat) : List Host.Cell :=
  writeNat (writeNat m bk 4 (k + 1)) (base + 8) 4 ((readNat m (base + 8) 4 + 1) % 2 ^ 32)

/-- A link applied by the owner (R296). Where the array's rows name a node beyond the pool or the slice, because no HRESET has
been made, rows of one are mixed in, or heads of different B share the array, the key that the index gives is read and written
(R296, R303, R308; DESIGN CHOICE, log entry 59). -/
def applyLink (m : List Host.Cell) (q : LinkReq) : List Host.Cell :=
  let bk := bucketKey q.base q.bucket
  let w := readNat m bk 4
  let k := w % 2 ^ 31
  if w ≥ 2 ^ 31 || k ≥ q.limit then refuseLink m q.base bk w
  else if k < 4 then countLink (writeNat m (bk + 4 + 4 * k) 4 q.token) q.base bk k
  else
    let nfree := readNat m q.base 4
    if (k - 4) % 7 = 0 then
      if nfree ≥ q.nnodes then refuseLink m q.base bk w
      else
        let nk := nodeKey q.base q.bexp nfree
        let m1 := writeNat (writeNat m q.base 4 (nfree + 1)) (nk + 28) 4 none32
        let m2 := if k = 4 then writeNat m1 (bk + 20) 4 nfree
          else writeNat m1 (nodeKey q.base q.bexp (readNat m1 (bk + 24) 4) + 28) 4 nfree
        let m3 := writeNat m2 (bk + 24) 4 nfree
        countLink (writeNat m3 nk 4 q.token) q.base bk k
    else
      let nk := nodeKey q.base q.bexp (readNat m (bk + 24) 4)
      countLink (writeNat m (nk + 4 * ((k - 4) % 7)) 4 q.token) q.base bk k

/-- Tokens of a chain of nodes: `left` of them, 7 a node; an index beyond the pool is followed all the same (DESIGN CHOICE, log
entry 59). -/
def chainNodes (m : List Host.Cell) (base bexp : Nat) : Nat → Nat → Nat → List Nat
  | 0, _, _ => []
  | fuel + 1, n, left =>
    if left = 0 then []
    else
      let nk := nodeKey base bexp n
      (List.range (min left 7)).map (fun i => readNat m (nk + 4 * i) 4)
        ++ chainNodes m base bexp fuel (readNat m (nk + 28) 4) (left - min left 7)

/-- A chain read: the OVF bit and the linked tokens of a bucket (R298). -/
def chainRead (m : List Host.Cell) (base bexp bucket : Nat) : Bool × List Nat :=
  let bk := bucketKey base bucket
  let w := readNat m bk 4
  let k := w % 2 ^ 31
  (w ≥ 2 ^ 31, (List.range (min k 4)).map (fun i => readNat m (bk + 4 + 4 * i) 4)
    ++ chainNodes m base bexp (k / 7 + 1) (readNat m (bk + 20) 4) (k - 4))

/-! ### KSTORE -/

/-- The head must be configured and its projection loaded (R289). -/
def headReady (h : Head) : Bool := h.cv && h.pv

/-- KSTORE, key n (R295): the write, then the link. Of a record that faults in a later issue every link of an earlier one is sent
(DESIGN CHOICE, log entry 11). -/
def kstoreIssue (s : State) (key : Nat) (st : Strand) (o : Op) : IssueRes :=
  let h := st.head o.head
  if !headReady h then raiseAt .format .a 0
  else
    match attnTile st o h.dim o.r.t0.toNat (fun f => f = 2 || f = 3) with
    | .error e => .error e
    | .ok f =>
      let t := ((o.addr .b ⟨0, 0, 0, 0⟩) % 2 ^ 32 + o.n) % 2 ^ 32
      if t = none32 then raiseAt .format .b o.n
      else
        let v := packElems 16 ((List.range h.dim).map (attnBits st o o.n))
        let bs := leBytes (2 * h.dim) v
        match o.writeBytes key (rowOf (o.addrAt .d o.n)) .d o.n (ceilDiv bs.length 128) s bs with
        | .error e => .error e
        | .ok s1 =>
          let link : LinkReq := ⟨st.uid, o.seqno, o.n, h.key, h.bexp, h.limit, h.nnodes,
            bucketOf h (attnRow st o f h.dim o.n), t, st.at key .x o.seqno⟩
          .ok (s1.setDev { s1.dev with links := s1.dev.links ++ [link] }, o.step)

/-! ### HGATHER -/

/-- The probes of a query block: distinct buckets with the lowest row that probes each, in order of row (R297). -/
def probesOf (h : Head) (mp : Bool) (rows : List (List Val)) : List (Nat × Nat) :=
  (rows.zipIdx).foldl (fun acc p =>
    let b := bucketOf h p.1
    let bs := if mp then [b, Nat.xor b (2 ^ flipBit h p.1)] else [b]
    bs.foldl (fun acc x => if acc.any (fun q => q.1 = x) then acc else acc ++ [(x, p.2)]) acc) []

/-- The checks of HGATHER, its probes, and PAD, which it reads here (R289, R297); an ADDRESS of the header row names index 0 (DESIGN
CHOICE, log entry 50). The chain reads of the probes leave now, and this is their issue cycle (R384; log entry 14). -/
def hgatherStart (s : State) (key : Nat) (st : Strand) (o : Op) : IssueRes :=
  let h := st.head o.head
  if !headReady h then raiseAt .format .a 0
  else
    match attnTile st o h.dim o.r.t0.toNat (fun f => f = 2 || f = 3) with
    | .error e => .error e
    | .ok f =>
      match sramKey s key (rowOf (o.addrAt .d 0)) false .d 0 with
      | .error e => .error e
      | .ok k =>
        let pad := rowNat (readRow s.mem k) 4 4
        if pad > h.dthresh then raiseAt .format .d 0
        else
          let ps := probesOf h (o.r.fn.getLsbD 2) ((List.range o.r.t0.toNat).map (attnRow st o f h.dim))
          .ok (s, { o with hg := some ⟨ps, ps.length, [], none, pad⟩, cycle := st.scyc })

/-- The lower of a row and one seen before. -/
def lowest (a : Nat) : Option Nat → Option Nat
  | none => some a
  | some b => some (min a b)

/-- One chain read of an HGATHER (R298). -/
def hgatherRead (m : List Host.Cell) (h : Head) (g : HGather) : HGather :=
  match g.todo with
  | [] => g
  | (b, row) :: rest =>
    let (ovf, toks) := chainRead m h.key h.bexp b
    { g with todo := rest
             tokens := g.tokens ++ toks
             overflow := if ovf then lowest row g.overflow else g.overflow }

/-- A token put into a rising list once. -/
def tokenInsert (a : Nat) : List Nat → List Nat
  | [] => [a]
  | b :: r => if a < b then a :: b :: r else if a = b then b :: r else b :: tokenInsert a r

/-- STATUS, COUNT and the token set of an HGATHER whose reads are made (R297, R298). -/
def hgatherStatus (h : Head) (g : HGather) : Nat × List Nat :=
  let ts := g.tokens.foldl (fun acc t => tokenInsert t acc) []
  (if g.overflow.isSome then 1 else if ts.length > h.dthresh then 2 else 0, ts)

/-- The fault of an HGATHER that ends with a status, COUNT among its values (R299). -/
def fallbackOf (g : HGather) (status count : Nat) : Option Raise :=
  match status with
  | 0 => none
  | 1 => some ⟨.denseFallback, .a, g.overflow.getD 0⟩
  | _ => some ⟨.denseFallback, .d, count⟩

/-- HGATHER's writes once every bucket is read (R297). -/
def hgatherIssue (s : State) (key : Nat) (st : Strand) (o : Op) : IssueRes :=
  match o.hg with
  | none => .error .hold
  | some g =>
    if g.todo ≠ [] then .error .hold
    else
      let h := st.head o.head
      let (status, ts) := hgatherStatus h g
      let hdr := rowOf (o.addrAt .d 0)
      match sramKey s key hdr true .d 0 with
      | .error e => .error e
      | .ok k =>
        let m := writeNat (writeNat (writeNat s.mem k 4 ts.length) (k + 8) 4 status) (k + 12) 4 g.probes
        let list := if status = 0 then ts ++ List.replicate (g.pad - ts.length) none32 else []
        match resFold (fun (s : State) (p : Nat × Nat) =>
            match sramKey s key (addrPlus hdr (128 + 4 * p.2 : Nat)) true .d p.2 with
            | .error e => .error e
            | .ok k => .ok (s.setMem (writeNat s.mem k 4 p.1))) (s.setMem m) list.zipIdx with
        | .error e => .error e
        | .ok s1 =>
          .ok (s1, { o.step with late := fallbackOf g status ts.length })

/-- The counts of a dense fallback in its head (R299). -/
def noteFallback (st : Strand) (o : Op) (r : Raise) : Strand :=
  let h := st.head o.head
  st.setHead o.head { h with
    fbcnt := h.fbcnt + 1
    fbidx := BitVec.ofNat 32 r.index
    fbwhy := if r.slot = .a then 1 else 2 }

/-- The signed displacement of HGATHER's resume address. -/
def resumeAt (o : Op) : Word := o.pc + 64 * (BitVec.ofNat 16 o.r.b.off.toNat).signExtend 64

/-- HCOUNT (R301). -/
def hcountIssue (s : State) (key : Nat) (st : Strand) (o : Op) : IssueRes :=
  let h := st.head o.head
  if !h.cv then raiseAt .format .a 0
  else
    match sramKey s key h.key false .a 0, sramKey s key (rowOf (o.addrAt .d 0)) true .d 0 with
    | .ok c, .ok k =>
      let v := readNat s.mem c 16 + 2 ^ 128 * h.fbcnt.toNat + 2 ^ 160 * h.fbidx.toNat + 2 ^ 192 * h.fbwhy
        + 2 ^ 200 * st.hfact.toNat + 2 ^ 256 * st.hfret.toNat
      .ok (s.setMem (writeNat s.mem k 128 v), o.step)
    | .error e, _ => .error e
    | _, .error e => .error e

end Sys2Proof.Machine
end

