-- ==== Sys2Proof/Machine/Branch.lean ====
section
/-! DEFINITION. Branches, calls and JR (R163, R164). -/

namespace Sys2Proof.Machine

/-- The target of a branch at pc (R163): the offset counts words. -/
def branchTarget (pc : Word) (off : BitVec 38) : Word := pc + (off.signExtend 64) * 8

/-- A conditional branch (R163); C fetches along its target whether it is taken or not (R155). -/
def branch (xa xb : Reg) (off : BitVec 38) (taken : Word → Word → Bool) (s : State) : Out :=
  onStrand s (fun st =>
    let t := branchTarget st.c.pc off
    if taken (st.rx xa) (st.rx xb) then st.cJump t else st.cPass t)

/-- BEQ (R163). -/
def execBeq (xa xb : Reg) (off : BitVec 38) (s : State) : Out := branch xa xb off (fun a b => a == b) s

/-- BNE (R163). -/
def execBne (xa xb : Reg) (off : BitVec 38) (s : State) : Out := branch xa xb off (fun a b => a != b) s

/-- BLT (R163). -/
def execBlt (xa xb : Reg) (off : BitVec 38) (s : State) : Out := branch xa xb off (fun a b => a.slt b) s

/-- BGE (R163). -/
def execBge (xa xb : Reg) (off : BitVec 38) (s : State) : Out := branch xa xb off (fun a b => !a.slt b) s

/-- BLTU (R163). -/
def execBltu (xa xb : Reg) (off : BitVec 38) (s : State) : Out := branch xa xb off (fun a b => a.ult b) s

/-- BGEU (R163). -/
def execBgeu (xa xb : Reg) (off : BitVec 38) (s : State) : Out := branch xa xb off (fun a b => !a.ult b) s

/-- JMP (R163). -/
def execJmp (off : BitVec 38) (s : State) : Out :=
  onStrand s (fun st => st.cJump (branchTarget st.c.pc off))

/-- CALL (R163): the link is written first. -/
def execCall (xd : Reg) (off : BitVec 38) (s : State) : Out :=
  onStrand s (fun st => (st.wx xd (st.c.pc + 8)).cJump (branchTarget st.c.pc off))

/-- JR (R164): the target is the value before the link is written, bits [2:0] cleared. -/
def execJr (xd xa : Reg) (s : State) : Out :=
  onStrand s (fun st => (st.wx xd (st.c.pc + 8)).cJump (st.rx xa &&& ~~~7#64))

end Sys2Proof.Machine
end

