-- ==== Sys2Proof/Machine/CMem.lean ====
section
/-! DEFINITION. Memory words of C: loads and stores (R165), atomics and their performance at the owner (R107, R108,
R166), FENCE (R103, R167), CBLD (R177). Every access is performed at its owner in the step that makes it (log entry 5),
but for atomics, and for host and peer pages, whose answers come later. -/

namespace Sys2Proof.Machine

/-- The address of a scalar access: xa plus the offset (R165). -/
def scalarAddr (st : Strand) (xa : Reg) (off : BitVec 33) : Nat := (st.rx xa + off.signExtend 64).toNat

/-- The key of the 8 bytes that address bits [6:3] select in the row (R93). -/
def word8 (a : Nat) : Nat := a / 8 * 8

/-- A stop of C's word: a fault is taken, a held access keeps the word where it is. -/
def cStop (s : State) (key : Nat) (st : Strand) (e : Stop) : Out :=
  match e with
  | .raise r => .next (takeFault s key st r)
  | _ => .next s

/-- A read of C from the host or a peer, and C waiting for its answer. -/
def cAskRead (s : State) (key : Nat) (st : Strand) (port : Option Nat) (addr n : Nat) (use : FarFor)
    (w : Nat → CWait) : State :=
  let (id, s1) := askRead s st.uid port addr n use
  s1.setStrand key (st.cStay (w id))

/-- An atomic of C at the host or a peer, and C waiting for its answer. -/
def cAskAtom (s : State) (key : Nat) (st : Strand) (port : Option Nat) (addr : Nat) (k : AtomKind) (v expected : Word)
    (use : FarFor) (w : Nat → CWait) : State :=
  let (id, s1) := s.drawId
  let s2 := s1.setDev { s1.dev with far := s1.dev.far ++ [⟨id, id, st.uid, port, addr, use⟩] }
  (s2.setStrand key (st.cStay (w id))).send (.atomic id port k addr v expected)

/-- An access of C's word, slot A, meets its health: the word goes on, or takes the fault (R342, R364). -/
def cMeet (s : State) (key : Nat) (st : Strand) (write : Bool) (go : State → Out) : Out :=
  match meetHealth s key st .c (st.c.seqno + 1) .a 0 write with
  | (s1, some r) => .next (takeFault s1 key st r)
  | (s1, none) => go s1

/-- What a load asks for: its 8 bytes of the host (R94), the row of a peer (R393). -/
def loadSpan (port : Option Nat) (a : Nat) : Nat × Nat := if port.isNone then (word8 a, 8) else (rowOf a, 128)

/-- Whether C is in the middle of a word whose answer has yet to come. -/
def CWait.pending : CWait → Bool
  | .answer _ | .setReq | .planner => true
  | _ => false

/-- LD (R165). -/
def execLd (xd xa : Reg) (_scope : BitVec 3) (_ord : BitVec 2) (off : BitVec 33) (s : State) : Out :=
  onC s fun key st =>
    if st.c.wait.pending then .next s
    else
      match resolve s key (some 0) (scalarAddr st xa off) false .a 0 with
      | .error e => cStop s key st e
      | .ok (t, s1) =>
        let st1 := s1.strandAt key st
        cMeet s1 key st1 false fun s2 => .next (match t with
          | .cell k => s2.setStrand key (st1.wx xd (BitVec.ofNat 64 (readNat s2.mem (word8 k) 8))).cNext
          | .far port a => cAskRead s2 key st1 port (loadSpan port a).1 (loadSpan port a).2 (.load xd a) .answer)

/-- ST (R165). -/
def execSt (xb xa : Reg) (_scope : BitVec 3) (_ord : BitVec 2) (off : BitVec 33) (s : State) : Out :=
  onC s fun key st =>
    match resolve s key (some 0) (scalarAddr st xa off) true .a 0 with
    | .error e => cStop s key st e
    | .ok (t, s1) =>
      let st1 := s1.strandAt key st
      cMeet s1 key st1 true fun s2 =>
        let s3 := s2.setStrand key st1.cNext
        .next (match t with
        | .cell k => s3.setMem (writeNat s3.mem (word8 k) 8 (st1.rx xb).toNat)
        | .far port a => sendPieces s3 port [(word8 a, leBytes 8 (st1.rx xb).toNat)])

/-! ### Atomics -/

/-- Bytes of an atomic's operand (R107). -/
def AtomKind.bytes : AtomKind → Nat
  | .fadd32 => 4
  | .fadd16 => 2
  | _ => 8

/-- The new value of an atomic, on the operand's width (R107). -/
def AtomKind.apply (k : AtomKind) (old v expected : Nat) : Nat :=
  match k with
  | .add => (old + v) % 2 ^ 64
  | .min => if signedOf 64 v < signedOf 64 old then v else old
  | .max => if signedOf 64 old < signedOf 64 v then v else old
  | .minu => Nat.min old v
  | .maxu => Nat.max old v
  | .xchg => v
  | .cas => if old = expected then v else old
  | .fadd32 => addRounded 1 old (v % 2 ^ 32)
  | .fadd16 => addRounded 3 old (v % 2 ^ 16)

/-- The operand of an atomic at an address: bits [6:3], [6:2] or [6:1] select it (R107). -/
def AtomKind.place (k : AtomKind) (a : Nat) : Nat := a / k.bytes * k.bytes

/-- An atomic performed at the owner as one row operation: the old value and the memory after it (R107). -/
def atomicMem (m : List Host.Cell) (k : AtomKind) (a v expected : Nat) : Nat × List Host.Cell :=
  let old := readNat m (k.place a) k.bytes
  (old, writeNat m (k.place a) k.bytes (k.apply old v expected))

/-- Atomics that PCI Express carries to host pages (R108). -/
def AtomKind.onHost : AtomKind → Bool
  | .add | .xchg | .cas => true
  | _ => false

/-- An atomic word (R166): the operation leaves for its owner and C waits for the old value. -/
def atomicWord (k : AtomKind) (xd xa xb : Reg) (off : BitVec 33) (s : State) : Out :=
  onC s fun key st =>
    if st.c.wait.pending then .next s
    else
      match resolve s key (some 0) (scalarAddr st xa off) true .a 0 with
      | .error e => cStop s key st e
      | .ok (.cell a, s1) =>
        let st1 := s1.strandAt key st
        let (id, s2) := s1.drawId
        let s3 := s2.setDev { s2.dev with
          atoms := s2.dev.atoms ++ [⟨id, st.uid, k, a, st.rx xb, st.rx xd, xd, st.at key .c (st.c.seqno + 1)⟩] }
        .next (s3.setStrand key (st1.cStay (.answer id)))
      | .ok (.far port a, s1) =>
        let st1 := s1.strandAt key st
        if port.isNone && !k.onHost then .next (takeFault s1 key st1 ⟨.atomic, .a, 0⟩)
        else cMeet s1 key st1 true fun s2 => .next
          (cAskAtom s2 key st1 port (k.place a) k (st.rx xb) (st.rx xd) (.atom xd k a) .answer)

/-- AADD (R166). -/
def execAadd (xd xa xb : Reg) (_scope : BitVec 3) (_ord : BitVec 2) (off : BitVec 33) (s : State) : Out :=
  atomicWord .add xd xa xb off s
/-- AMIN (R166). -/
def execAmin (xd xa xb : Reg) (_scope : BitVec 3) (_ord : BitVec 2) (off : BitVec 33) (s : State) : Out :=
  atomicWord .min xd xa xb off s
/-- AMAX (R166). -/
def execAmax (xd xa xb : Reg) (_scope : BitVec 3) (_ord : BitVec 2) (off : BitVec 33) (s : State) : Out :=
  atomicWord .max xd xa xb off s
/-- AMINU (R166). -/
def execAminu (xd xa xb : Reg) (_scope : BitVec 3) (_ord : BitVec 2) (off : BitVec 33) (s : State) : Out :=
  atomicWord .minu xd xa xb off s
/-- AMAXU (R166). -/
def execAmaxu (xd xa xb : Reg) (_scope : BitVec 3) (_ord : BitVec 2) (off : BitVec 33) (s : State) : Out :=
  atomicWord .maxu xd xa xb off s
/-- AXCHG (R166). -/
def execAxchg (xd xa xb : Reg) (_scope : BitVec 3) (_ord : BitVec 2) (off : BitVec 33) (s : State) : Out :=
  atomicWord .xchg xd xa xb off s
/-- ACAS (R166): the expected value is xd before the word. -/
def execAcas (xd xa xb : Reg) (_scope : BitVec 3) (_ord : BitVec 2) (off : BitVec 33) (s : State) : Out :=
  atomicWord .cas xd xa xb off s
/-- AFADD32 (R166). -/
def execAfadd32 (xd xa xb : Reg) (_scope : BitVec 3) (_ord : BitVec 2) (off : BitVec 33) (s : State) : Out :=
  atomicWord .fadd32 xd xa xb off s
/-- AFADD16 (R166). -/
def execAfadd16 (xd xa xb : Reg) (_scope : BitVec 3) (_ord : BitVec 2) (off : BitVec 33) (s : State) : Out :=
  atomicWord .fadd16 xd xa xb off s

/-- The answer to a word of C that waits for request `id`: xd takes the value and C goes on; a strand that has gone
discards it (R369). -/
def answerWord (s : State) (uid id : Nat) (xd : Reg) (v : Word) : State :=
  match findUid s uid with
  | some (key, st) =>
    if st.c.wait = .answer id then s.setStrand key ((st.wx xd v).cNext) else s
  | none => s

/-- The health of an atomic as its owner performs it, for the word that waits for it (R342, R364); an event names the cycle
in which the atomic left (R384). One whose strand has gone is performed all the same, and of its error the event remains (R369; log
entry 45). -/
def atomHealth (s : State) (a : AtomReq) : State × Option (Nat × Strand × Raise) :=
  match findUid s a.uid with
  | none => (eventMeet s a.who .a 0 false, none)
  | some (key, st) =>
    match meetHealth s key { st with scyc := a.who.scyc } .c (st.c.seqno + 1) .a 0 false with
    | (s1, some r) => (s1, some (key, st, r))
    | (s1, none) => (s1, none)

/-- ATOMIC_PERFORM (R107): the owner performs the k-th atomic on its way and answers its strand; one whose error lasts
does nothing and faults its word. -/
def execAtomicPerform (k : Nat) (s : State) : Out :=
  match s.dev.atoms[k]? with
  | none => .next s
  | some a =>
    match atomHealth (s.setDev { s.dev with atoms := s.dev.atoms.eraseIdx k }) a with
    | (s1, some (key, st, r)) => .next (takeFault s1 key st r)
    | (s1, none) =>
      let (old, m) := atomicMem s1.mem a.kind a.addr a.v.toNat a.expected.toNat
      .next (answerWord (s1.setMem m) a.uid a.id a.xd (BitVec.ofNat 64 old))

/-- FENCE (R103, R167): every earlier access of C has been performed when the next word starts (log entry 5), so the
fence completes at once. -/
def execFence (_scope : BitVec 3) (_kind : BitVec 2) (s : State) : Out := onStrand s (fun st => st.cNext)

/-! ### Codebooks -/

/-- The bits of a codebook register from its eight rows, and the rows of one (R177). -/
def bookOf : List Row → Nat
  | [] => 0
  | r :: rs => r.toNat + 2 ^ 1024 * bookOf rs

/-- Whether a record of X that names cbn has issued and not retired (R177). -/
def bookInUse (st : Strand) (n : Nat) : Bool :=
  st.ops.any (fun o => !o.retired && o.foot.any (fun f => f.item = .book n))

/-- The rows of a codebook read one after another from the row at index `rows.length`; stops where one cannot be read
yet, or where its error lasts. -/
def bookRows (key a : Nat) (st : Strand) : Nat → State → List Row → State × List Row × Option Stop
  | 0, s, rows => (s, rows, none)
  | fuel + 1, s, rows =>
    match readRowAt s key (some 0) ((a + 128 * rows.length) % 2 ^ 64) .a 0 [] with
    | .ok (r, s') =>
      match meetHealth s' key st .c (st.c.seqno + 1) .a 0 false with
      | (s2, some bad) => (s2, rows, some (.raise bad))
      | (s2, none) => bookRows key a st fuel s2 (rows ++ [r])
    | .error e => (s, rows, some e)

/-- CBLD (R177). The word is in progress from one turn to a later one, so that a record of X may find its codebook being
loaded (R262); the rows are then read in order, each read of the host or a peer meeting its health as it is sent (R364). -/
def execCbld (cb : BitVec 2) (xa : Reg) (imm : BitVec 32) (s : State) : Out :=
  onC s fun key st =>
    let a := (st.rx xa + imm.signExtend 64).toNat
    let go (rows : List Row) : Out :=
      let (s1, rs, e) := bookRows key a st (8 - rows.length) s rows
      let st1 := s1.strandAt key st
      match e with
      | none =>
        .next (s1.setStrand key
          ({ st1 with cb := st1.cb.set cb.toNat (BitVec.ofNat 8192 (bookOf rs)) } : Strand).cNext)
      | some (.raise r) => .next (takeFault s1 key st1 r)
      | some .hold => .next (s1.setStrand key (st1.cStay (.cbld cb.toNat rs none)))
      | some (.far port addr _ _) =>
        cMeet s1 key st1 false fun s2 => .next
          (cAskRead s2 key st1 port addr 128 (.word addr) (fun id => .cbld cb.toNat rs (some id)))
    match st.c.wait with
    | .cbld _ _ (some _) => .next s
    | .cbld _ rows none => go rows
    | _ =>
      if bookInUse st cb.toNat then .next (takeFault s key st ⟨.race, .d, 0⟩)
      else .next (s.setStrand key (st.cStay (.cbld cb.toNat [] none)))

end Sys2Proof.Machine
end

