-- ==== Sys2Proof/Machine/Atlas.lean ====
section
/-! DEFINITION. The Atlas tables: tensor descriptors (R311), the statistics samples (R313, R314), and the reads and
writes of the planner. -/

namespace Sys2Proof.Machine

/-! ### What the planner reads and writes -/

/-- Why a request of the planner does not succeed: a status word, or a stop of an access. -/
inductive PStop where
  /-- code and size field of R325 -/
  | status (code size : Nat)
  | stop (e : Stop)

/-- The outcome of a part of a planner request. -/
abbrev PRes (α : Type) := Except PStop α

/-- A status. -/
def pStatus {α : Type} (code : Nat) : PRes α := .error (.status code 0)

/-- The outcome of an access as that of a request. -/
def liftRes {α : Type} : Res α → PRes α
  | .ok a => .ok a
  | .error e => .error (.stop e)

/-- Where the planner's accesses go, by address and whether they write. -/
abbrev Aim := Nat → Bool → Res Target

/-- The accesses of a planner word: checked as C's loads and stores, slot A for reads and D for writes (R312, R316,
R317). -/
def wordAim (s : State) (key : Nat) : Aim := fun va write =>
  match resolve s key (some 0) va write (if write then .d else .a) 0 with
  | .ok (t, _) => .ok t
  | .error e => .error e

/-- The accesses of the planner on behalf of a function, for a tile whose windows count (R309, R330). -/
def fnAim (s : State) (fn tile : Nat) (det : Bool) : Aim := fun va write =>
  let sl : Slot := if write then .d else .a
  match decodeAddr tile va with
  | none => raiseAt .address sl 0
  | some p =>
    if p.win ≠ 3 then
      if p.off ≥ Config.sliceBytes || s.dev.failed p.tile then raiseAt .address sl 0
      else .ok (.cell (sliceKey p.tile p.off))
    else
      match procTarget s fn va write with
      | .error (.raise _) => raiseAt .xlate sl 0
      | .error e => .error e
      | .ok (.cell k) => if stackReady s.dev.ready k then .ok (.cell k) else .error .hold
      | .ok (.far port a) =>
        if det then raiseAt .mode sl 0
        else match port with
          | none => .ok (.far none a)
          | some q => if s.dev.ready.getLsbD (15 + q) then .ok (.far (some q) a) else raiseAt .peerDown sl 0

/-- The n bytes from an address, row by row; a row of the host or a peer must have arrived. -/
def aimRead (s : State) (aim : Aim) : Nat → Nat → Nat → Res (List Byte)
  | 0, _, _ => .ok []
  | fuel + 1, a, n =>
    if n = 0 then .ok []
    else
      let m := min n (128 - a % 128)
      let rest := aimRead s aim fuel ((a + m) % 2 ^ 64) (n - m)
      match aim a false with
      | .error e => .error e
      | .ok (.cell k) =>
        match rest with
        | .error e => .error e
        | .ok bs => .ok (readBytes s.mem k m ++ bs)
      | .ok (.far port b) =>
        match s.dev.procRows.find? (fun p => p.port = port ∧ p.addr = rowOf b) with
        | none => .error (.far port (rowOf b) .a 0)
        | some p =>
          match p.row, rest with
          | none, _ => raiseAt .hostAbort .a 0
          | some _, .error e => .error e
          | some r, .ok bs => .ok (((rowBytes r).drop (b % 128)).take m ++ bs)

/-- The n bytes from an address. -/
def planRead (s : State) (aim : Aim) (a n : Nat) : Res (List Byte) := aimRead s aim (n / 128 + 2) a n

/-- Bytes written from an address, row by row: what was written, and the fault that stopped it. -/
def aimWrite (aim : State → Aim) : Nat → State → Nat → List Byte → State × Option Stop
  | 0, s, _, _ => (s, none)
  | fuel + 1, s, a, bs =>
    if bs.isEmpty then (s, none)
    else
      let m := 128 - a % 128
      match aim s a true with
      | .error e => (s, some e)
      | .ok t => aimWrite aim fuel (writeTarget s t (a % 128) (bs.take m)) ((a + m) % 2 ^ 64) (bs.drop m)

/-- Bytes written from an address. -/
def planWrite (s : State) (aim : State → Aim) (a : Nat) (bs : List Byte) : State × Option Stop :=
  aimWrite aim (bs.length / 128 + 2) s a bs

/-! ### Tensors -/

/-- Bytes [lo, lo + n) of a list as a number. -/
def numAt (bs : List Byte) (lo n : Nat) : Nat := leNat ((bs.drop lo).take n)

/-- Row length C of a tensor (R311). -/
def Tensor.cols (t : Tensor) : Nat := t.dims.getLastD 0

/-- Row count of a tensor (R311). -/
def Tensor.rows (t : Tensor) : Nat := t.dims.dropLast.foldl (· * ·) 1

/-- Stored length of a row of C elements (R311). -/
def storedLen (f c : Nat) : Nat :=
  if 11 ≤ f && f ≤ 13 then 33 * ceilDiv c 32
  else if f = 14 then 9 * c / 32
  else ceilDiv (c * fmtWidth f) 8

/-- Statistics of a new generation (R312): counts 0, MIN +∞ and MAX −∞ in A96. -/
def Tensor.fresh (t : Tensor) : Tensor :=
  { t with nsamp := 0, nz := 0, nelem := 0, c24 := 0, c48 := 0, hist := []
           amin := BitVec.ofNat 96 (infinityEnc 10 false), amax := BitVec.ofNat 96 (infinityEnc 10 true) }

/-- A tensor slot that has held none (R337). -/
def Tensor.free : Tensor :=
  { live := false, fn := 0, base := 0, blkaddr := 0, caddr := 0, pitch := 0, dims := [], fmt := 0, vl := 0
    cbaddr := 0, serial := 0, gen := 0, nsamp := 0, nz := 0, nelem := 0, c24 := 0, c48 := 0
    amin := 0, amax := 0, hist := [] }

/-- The fields of a descriptor, with SERIAL and GEN ignored; none where a field is out of range (R311, R312). An extent of 0 below
RANK counts as out of range (DESIGN CHOICE, log entry 27). -/
def descOf (bs : List Byte) : Option Tensor :=
  let rank := numAt bs 48 1
  let f := numAt bs 49 1
  let dims := (List.range 4).map (fun i => numAt bs (32 + 4 * i) 4)
  let cb := numAt bs 64 8
  let t := { Tensor.free with
    base := numAt bs 0 8, blkaddr := numAt bs 8 8, caddr := numAt bs 16 8, pitch := numAt bs 24 8
    dims := dims.take rank, fmt := f, vl := numAt bs 50 1, cbaddr := cb }
  let ok := 1 ≤ rank && rank ≤ 4 && ((1 ≤ f && f ≤ 9) || (11 ≤ f && f ≤ 14)) && t.vl ≤ 1
    && numAt bs 51 1 = 0 && numAt bs 72 56 = 0 && t.base % 128 = 0
    && (dims.take rank).all (· ≠ 0) && (dims.drop rank).all (· = 0)
    && (if f = 14 then cb ≠ 0 && cb % 128 = 0 && t.cols % 32 = 0 else cb = 0)
    && t.pitch % 128 = 0 && storedLen f t.cols ≤ t.pitch
  if ok then some t else none

/-- The tensor of a TID, if it names one of the function. -/
def tensorOf (p : Planner) (fn tid : Nat) : Option Tensor :=
  match p.tensors.find? tid with
  | some t => if t.live && t.fn = fn then some t else none
  | none => none

/-- The planner with a tensor slot replaced. -/
def setTensor (s : State) (tid : Nat) (t : Tensor) : State :=
  s.setPlanner { s.planner with tensors := s.planner.tensors.insert tid t }

/-- The lowest free tensor slot. -/
def freeTensor (p : Planner) : Option Nat :=
  ((List.range Config.maxTensors).map (· + 1)).find? (fun tid => match p.tensors.find? tid with
    | some t => !t.live
    | none => true)

/-- The descriptor row of an entry (R311, R315). -/
def descBytes (tid : Nat) (t : Tensor) : List Byte :=
  leBytes 8 t.base ++ leBytes 8 t.blkaddr ++ leBytes 8 t.caddr ++ leBytes 8 t.pitch
    ++ (List.range 4).flatMap (fun i => leBytes 4 (t.dims.getD i 0))
    ++ leBytes 1 t.dims.length ++ leBytes 1 t.fmt ++ leBytes 1 t.vl ++ leBytes 1 0
    ++ leBytes 4 tid ++ leBytes 4 t.serial ++ leBytes 4 t.gen ++ leBytes 8 t.cbaddr ++ leBytes 56 0

/-- The 512 bytes of an entry (R315). -/
def entryBytes (tid : Nat) (t : Tensor) : List Byte :=
  descBytes tid t
    ++ leBytes 8 t.nsamp ++ leBytes 8 t.nz ++ leBytes 8 t.nelem ++ leBytes 8 t.c24 ++ leBytes 8 t.c48
    ++ leBytes 12 t.amin.toNat ++ leBytes 12 t.amax.toNat ++ leBytes 64 0
    ++ (List.range 64).flatMap (fun b => leBytes 4 (cellGet 0 t.hist b))

/-! ### Samples -/

/-- The tensor a sample belongs to: the lowest TID whose stored row bytes hold the address; with it, the row and the
offset in the row (R313). -/
def sampleTensor (fn addr : Nat) : PMap Tensor → Option (Nat × Tensor × Nat × Nat)
  | [] => none
  | (tid, t) :: rest =>
    let r := (addr - t.base) / t.pitch
    let o := (addr - t.base) % t.pitch
    if t.live && t.fn = fn && t.base ≤ addr && r < t.rows && o < storedLen t.fmt t.cols then some (tid, t, r, o)
    else sampleTensor fn addr rest

/-- A byte of the tensor row as a sample knows it: from the written row, or as the planner reads it now; one that it
cannot read is a free value (R313). -/
def sampleByte (s : State) (aim : Aim) (row : Row) (base o p : Nat) : Res Byte :=
  if o ≤ p && p < o + 128 then .ok (BitVec.ofNat 8 (rowNat row (p - o) 1))
  else
    match planRead s aim ((base + p) % 2 ^ 64) 1 with
    | .ok bs => .ok (bs.headD 0)
    | .error (.raise _) => .ok (Config.unreadByte (base + p))
    | .error e => .error e

/-- The elements counted in a sample: column and decoded value, in ascending column (R313). -/
def sampleElems (s : State) (aim : Aim) (t : Tensor) (row : Row) (base o : Nat) : Res (List (Nat × Val)) :=
  let f := t.fmt
  let c := t.cols
  if f ≤ 9 then
    let w := fmtWidth f
    let first := 8 * o / w
    .ok ((List.range (min c (8 * (o + 128) / w) - first)).map (fun i =>
      (first + i, decodeVal f (elemAt row.toNat w i))))
  else if f ≤ 13 then
    let cols := (List.range c).filter (fun j =>
      let p := 33 * (j / 32) + j % 32
      o ≤ p && p < o + 128)
    resMap (fun j =>
      match sampleByte s aim row base o (33 * (j / 32) + j % 32), sampleByte s aim row base o (33 * (j / 32) + 32) with
      | .ok b, .ok x => .ok (j, decodeMx f b.toNat x.toNat)
      | .error e, _ => .error e
      | _, .error e => .error e) cols
  else
    let book : Res (List Byte) := match planRead s aim t.cbaddr 1024 with
      | .error (.raise _) => .ok ((List.range 1024).map (fun i => Config.unreadByte (t.cbaddr + i)))
      | r => r
    match book with
    | .error e => .error e
    | .ok bk =>
      let ixs := (List.range (c / 8)).filter (fun q =>
        let p := 9 * (q / 4) + 2 * (q % 4)
        o ≤ p && p < o + 128)
      match resMap (fun q =>
          let p := 9 * (q / 4) + 2 * (q % 4)
          match sampleByte s aim row base o p, sampleByte s aim row base o (p + 1),
              sampleByte s aim row base o (9 * (q / 4) + 8) with
          | .ok lo, .ok hi, .ok x =>
            .ok (((List.range 8).zip (decodeCb2 (BitVec.ofNat 8192 (leNat bk)) (leNat [lo, hi]) x.toNat)).map
              (fun e => (8 * q + e.1, e.2)))
          | .error e, _, _ => .error e
          | _, .error e, _ => .error e
          | _, _, .error e => .error e) ixs with
      | .error e => .error e
      | .ok ls => .ok ls.flatten

/-- A count one higher, saturated at n bits (R314). -/
def bump (n v k : Nat) : Nat := min (v + k) (2 ^ n - 1)

/-- The histogram bin of a value (R314). -/
def histBin (v : Val) : Nat :=
  match v with
  | .nan => 63
  | .inf _ => 63
  | .fin _ m e => if m = 0 then 0 else (min (max ((m.log2 : Int) + e + 32) 1) 62).toNat

/-- Whether a value counts as nonzero: NaN does (R314). -/
def counts (v : Val) : Bool := !v.isZero

/-- One counted element (R314). -/
def countElem (t : Tensor) (v : Val) : Tensor :=
  let b := histBin v
  let t1 := { t with nelem := bump 64 t.nelem 1
                     nz := if counts v then bump 64 t.nz 1 else t.nz
                     hist := cellSet 0 t.hist b (bump 32 (cellGet 0 t.hist b) 1) }
  if v.isNaN then t1
  else { t1 with
    amin := if v.below (decodeFloat 10 t.amin.toNat) then BitVec.ofNat 96 (roundVal 10 .rne false v) else t.amin
    amax := if (decodeFloat 10 t.amax.toNat).below v then BitVec.ofNat 96 (roundVal 10 .rne false v) else t.amax }

/-- Groups of g columns that lie in a sample and hold at most h nonzeros (R314). -/
def compliant (els : List (Nat × Val)) (g h : Nat) : Nat :=
  ((List.range (((els.getLast?.map (·.1)).getD 0) / g + 1)).filter (fun j =>
    let grp := els.filter (fun e => e.1 / g = j)
    grp.length = g && (grp.filter (fun e => counts e.2)).length ≤ h)).length

/-- One block-count update, a row operation at the owner of the row, saturating: in device memory it is performed here, and on
a peer or host page it leaves for the owner there, whose answer nobody awaits (R314; log entry 9). -/
def countAt (s : State) (t : Target) : State :=
  match t with
  | .cell k => s.setMem (writeNat s.mem k 4 (bump 32 (readNat s.mem k 4) 1))
  | .far port a =>
    let (id, s1) := s.drawId
    s1.send (.count id port a)

/-- The block counts of a sample (R314); an update that finds no translation is not made (log entry 9). -/
def countBlocks (s : State) (aim : State → Aim) (t : Tensor) (r : Nat) (els : List (Nat × Val)) : Res State :=
  if t.blkaddr = 0 then .ok s
  else resFold (fun (s : State) (e : Nat × Val) =>
    match aim s (t.blkaddr + 4 * ((r * t.cols + e.1) / 4096)) true with
    | .ok c => .ok (countAt s c)
    | .error (.raise _) => .ok s
    | .error e => .error e) s (els.filter (fun e => counts e.2))

/-- A sample applied (R313, R314): a row in no tensor of the function is discarded (R195). What else is read of the tensor is read
through the windows of tile 0 (DESIGN CHOICE, log entry 9). -/
def applySample (s : State) (fn addr : Nat) (row : Row) : Res State :=
  match sampleTensor fn addr s.planner.tensors with
  | none => .ok s
  | some (tid, t, r, o) =>
    let aim (s : State) : Aim := fnAim s fn 0 false
    match sampleElems s (aim s) t row (t.base + r * t.pitch) o with
    | .error e => .error e
    | .ok els =>
      let t1 := els.foldl (fun t e => countElem t e.2) t
      let t2 := { t1 with
        c24 := bump 64 t1.c24 (compliant els 4 2), c48 := bump 64 t1.c48 (compliant els 8 4)
        nsamp := bump 64 t1.nsamp 1 }
      match countBlocks s aim t r els with
      | .error e => .error e
      | .ok s1 => .ok (setTensor s1 tid t2)

end Sys2Proof.Machine
end

