-- ==== Sys2Proof/Machine/CSync.lean ====
section
/-! DEFINITION. Synchronisation words of C: sets (R83 to R85, R168, R169, R402), timeline counters (R170 to R172) and
tokens (R173). -/

namespace Sys2Proof.Machine

/-- The set identifier of a word (R168). -/
def setId (st : Strand) (xa : Reg) (imm : BitVec 16) : Nat := ((st.rx xa).toNat + imm.toNat) % 2 ^ 16

/-- A request to a set's home (R402). -/
def sendSet (s : State) (st : Strand) (id : Nat) (op : SetOp) : State :=
  s.setDev { s.dev with setReqs := s.dev.setReqs ++ [⟨st.uid, st.fn, id, op⟩] }

/-- JOIN and LEAVE (R168): the request leaves and C waits for the answer; identifier 0 is illegal at execution. -/
def setWord (op : SetOp) (xa : Reg) (imm : BitVec 16) (s : State) : Out :=
  onC s fun key st =>
    if st.c.wait = .setReq then .next s
    else if setId st xa imm = 0 then .next (takeFault s key st ⟨.illegalOp, .a, 0⟩)
    else .next ((sendSet s st (setId st xa imm) op).setStrand key (st.cStay .setReq))

/-- JOIN (R168). -/
def execJoin (xa : Reg) (imm : BitVec 16) (s : State) : Out := setWord .join xa imm s

/-- LEAVE (R168). -/
def execLeave (xa : Reg) (imm : BitVec 16) (s : State) : Out := setWord .leave xa imm s

/-- Whether a strand is a member of a set. -/
def isMember (s : State) (st : Strand) (id : Nat) : Bool :=
  match s.dev.sets.find? (setKey st.fn id) with
  | some e => e.members.contains st.uid
  | none => false

/-- SBAR in its stall (R169): the arrival is sent once every captured number has completed; the word completes when the
barrier does. -/
def sbarGo (s : State) (key : Nat) (st : Strand) (id : Nat) (vs : List Nat) (sent fin : Bool) : State :=
  if fin then s.setStrand key st.cNext
  else if sent then s
  else if st.reached vs then (sendSet s st id .arrive).setStrand key (st.cStay (.sbar id vs true false))
  else s.setStrand key (st.cStay (.sbar id vs false false))

/-- SBAR (R169). One that resumes after a handler goes on with the set it read when it was first executed, whatever the
handler wrote to xa (R157, R183; DESIGN CHOICE, log entry 56). -/
def execSbar (xa : Reg) (imm : BitVec 16) (s : State) : Out :=
  onC s fun key st =>
    let id := setId st xa imm
    match st.c.wait with
    | .sbar i vs sent fin => .next (sbarGo s key st i vs sent fin)
    | _ =>
      if id = 0 then .next (takeFault s key st ⟨.illegalOp, .a, 0⟩)
      else if !isMember s st id then .next (takeFault s key st ⟨.setMember, .a, 0⟩)
      else .next (sbarGo s key st id st.issues false false)

/-- SET_REQUEST_APPLY (R85, R402): the home command processor applies the k-th request on its way; a JOIN or LEAVE is
answered, and so are the members of a barrier that completes. -/
def execSetRequestApply (k : Nat) (s : State) : Out :=
  match s.dev.setReqs[k]? with
  | none => .next s
  | some r =>
    let s1 := s.setDev { s.dev with setReqs := s.dev.setReqs.eraseIdx k }
    let answer (s : State) (bad : Bool) : State :=
      s.setDev { s.dev with setAnswers := s.dev.setAnswers ++ [⟨r.uid, r.id, r.op, bad⟩] }
    match findUid s1 r.uid with
    | none => .next s1
    | some _ =>
      match r.op with
      | .join =>
        let (s2, bad) := joinSet s1 r.fn r.id r.uid
        .next (answer s2 bad)
      | .leave => .next (answer (leaveSet s1 r.fn r.id r.uid) false)
      | .arrive => .next (arriveSet s1 r.fn r.id r.uid)

/-- Whether an SBAR waits for the barrier of a set. -/
def CWait.inBarrier (w : CWait) (id : Nat) : Bool :=
  match w with
  | .sbar i _ true false => i = id
  | _ => false

/-- A wait that learns that its barrier is complete. -/
def CWait.finBarrier : CWait → CWait
  | .sbar i vs sent _ => .sbar i vs sent true
  | w => w

/-- A barrier's completion reaches a strand. Barriers of one set complete in the order of their arrivals: one of an
abandoned SBAR first, then the kept SBAR's, then that of the word C is in (R85, R183). -/
def Strand.barrierDone (st : Strand) (id : Nat) : Strand :=
  if st.lateBars.contains id then { st with lateBars := st.lateBars.erase id }
  else if st.c.kept.inBarrier id then { st with c := { st.c with kept := st.c.kept.finBarrier } }
  else if st.c.wait.inBarrier id then st.cNext
  else st

/-- SET_ANSWER_ARRIVAL (R402): the k-th answer on its way reaches its strand. -/
def execSetAnswerArrival (k : Nat) (s : State) : Out :=
  match s.dev.setAnswers[k]? with
  | none => .next s
  | some a =>
    let s1 := s.setDev { s.dev with setAnswers := s.dev.setAnswers.eraseIdx k }
    match findUid s1 a.uid with
    | none => .next s1
    | some (key, st) =>
      match a.op with
      | .arrive =>
        .next ((traceStrand s1 key st 6 0 st.c.seqno 0).setStrand key (st.barrierDone a.id))
      | _ =>
        if st.c.wait ≠ .setReq then .next s1
        else if a.fault then .next (takeFault s1 key st ⟨.setLimit, .a, 0⟩)
        else if a.op = .leave then
          .next (s1.setStrand key ({ st with lateBars := st.lateBars.filter (· ≠ a.id) } : Strand).cNext)
        else .next (s1.setStrand key st.cNext)

/-! ### Timelines -/

/-- A wait of sequencer q numbered n on counter values orders the records that q decodes after it behind the operations it
covers (R349): the unretired records numbered up to each value. -/
def Strand.order (st : Strand) (q : Seqr) (n : Nat) (covers : Op → Bool) : Strand :=
  { st with ordered := st.ordered ++ (st.ops.filter covers).map (fun o => ⟨q, n, o.q, o.seqno⟩) }

/-- TLWAIT (R170). -/
def execTlwait (xa : Reg) (ctr : BitVec 4) (s : State) : Out :=
  onStrand s (fun st =>
    let v := (st.rx xa).toNat
    if v ≤ (counterValue s st ctr.toNat).2 then st.cNext
    else st.cStay (if ctr = 9 then .monWait v else .stalled))

/-- TLREAD (R171): IMM[0] = 0 reads the issue value, 1 the completion value, as its cycle began. -/
def execTlread (xd : Reg) (ctr : BitVec 4) (cmp : BitVec 1) (s : State) : Out :=
  writeBack s xd (fun st =>
    let v := counterValue s (s.atCycleStart st) ctr.toNat
    BitVec.ofNat 64 (if cmp = 1 then v.2 else v.1))

/-- Elements that an issue moves under a layout row: those of a tile row for TLD, those of a memory row otherwise (R197, R201). -/
def Op.issueElems (o : Op) (l : Row) : Nat :=
  match o.ins with
  | .tld r => rowElems r.fmt.toNat (shWidth (o.shape r.d.base.toNat))
  | _ => 1024 / layWidth l

/-- Whether issue n of a record under a layout row reads its operand A: some element is in bounds (R197). -/
def Op.readsRow (o : Op) (n : Nat) : Bool :=
  match o.layout with
  | none => true
  | some l => anyInBounds l (idxOf o.r n) (o.issueElems l)

/-- Whether the k issues from n on read nothing. -/
def Op.readsNone (o : Op) : Nat → Nat → Bool
  | _, 0 => true
  | n, k + 1 => !o.readsRow n && o.readsNone (n + 1) k

/-- Whether a copy counts as done for DRAIN: it has completed, or it is an RLD, TLD, KLD or RQLD that has made its reads, those of its
issues that read at all (R105, R197, R215). -/
def Op.drained (o : Op) : Bool :=
  o.phase = .complete || (match o.ins with
    | .rld r | .tld r | .kld r | .rqld r => o.phase = .done || (o.phase = .running && o.waiting = [] && o.readsNone o.n (r.total - o.n))
    | _ => false)

/-- Whether every copy of a channel numbered up to v counts as done (R105, R215). -/
def Strand.drained (st : Strand) (ch v : Nat) : Bool :=
  let t := st.tlAt ch
  (List.range (v - t.completion)).all (fun i =>
    t.early.contains (t.completion + 1 + i) ||
      st.ops.any (fun o => o.r.eng.toNat = ch && o.num = t.completion + 1 + i && o.drained))

/-- DRAIN (R105, R172, R215): the issue value is captured when the word executes. -/
def execDrain (ch : BitVec 2) (s : State) : Out :=
  onStrand s (fun st =>
    let v := match st.c.wait with
      | .drain v => v
      | _ => (st.tlAt ch.toNat).issue
    if st.drained ch.toNat v then st.cNext else st.cStay (.drain v))

/-! ### Tokens -/

/-- QPUSH (R173): stalls while the FIFO holds 32 tokens. -/
def execQpush (dst : BitVec 2) (s : State) : Out :=
  onStrand s (fun st =>
    let n := st.tokensAt 0 dst.toNat
    if st.tokenRoom 0 dst.toNat then (st.setTokens 0 dst.toNat (n + 1)).cNext else st.cStay .stalled)

/-- QPOP (R173): stalls while the FIFO is empty. -/
def execQpop (src : BitVec 2) (s : State) : Out :=
  onStrand s (fun st =>
    let n := st.tokensAt src.toNat 0
    if 0 < n then (st.setTokens src.toNat 0 (n - 1)).cNext else st.cStay .stalled)

end Sys2Proof.Machine
end

