-- ==== Sys2Proof/Machine/Csr.lean ====
section
/-! DEFINITION. The configuration registers and the CSR words (R26, R30, R56, R68, R74, R86, R174 to R177, R186, R322). -/

namespace Sys2Proof.Machine

/-- Whether only a strand of the physical function may access a CSR (R175). -/
def csrPf (n : Nat) : Bool := 0x200 ≤ n && n ≤ 0x401

/-- Whether a CSR has 64 bits (R175, R322). -/
def csrWide (n : Nat) : Bool :=
  n = 0x12 || n = 0x18 || n = 0x19 || n = 0x1A || n = 0x20 || (0x200 ≤ n && n ≤ 0x2FF) || n = 0x400
    || (0x500 ≤ n && n ≤ 0x53F)

/-- READY as it reads (R390): bit 31 is 1 when bits [22:0] are all 1. -/
def readyWord (d : Device) : Nat :=
  let v := bitsOf d.ready.toNat 0 23
  v + (if v = 2 ^ 23 - 1 then 2 ^ 31 else 0)

/-- STRANDST (R176). -/
def strandst (st : Strand) : Nat := st.nbv.toNat * 2 ^ 16 + st.det.toNat

/-- TSTAT (R176). -/
def tstat (st : Strand) : Nat := st.intr.toNat * 2 + st.act.toNat

/-- The ROTB CSR, of the strand as the reading cycle began (R176). -/
def rotbWord (st : Strand) : Nat := st.ss.rotb.toNat * 256 + st.xs.rotb.toNat * 16 + st.l.rotb.toNat

/-- Entry i of a vector of words, 0 beyond it. -/
def vget {n w : Nat} (v : Vector (BitVec w) n) (i : Nat) : Nat := if h : i < n then v[i].toNat else 0

/-- A vector of words with entry i replaced. -/
def vset {α : Type} {n : Nat} (v : Vector α n) (i : Nat) (x : α) : Vector α n := if h : i < n then v.set i x else v

/-- What a CSR reads as (R174, R175). -/
def csrRead (s : State) (st : Strand) (n : Nat) : Nat :=
  if n ≤ 0x0F then vget st.tshape n
  else if n = 0x10 then st.dqfmtlx.toNat
  else if n = 0x11 then st.dqfmtxs.toNat
  else if n = 0x12 then st.srseed.toNat
  else if n = 0x13 then st.srctr.toNat
  else if n = 0x14 then st.dqsnlx.toNat
  else if n = 0x15 then st.dqsnxs.toNat
  else if n = 0x16 then rotbWord (s.atCycleStart st)
  else if n = 0x17 then strandst st
  else if n = 0x18 then st.tvec.toNat
  else if n = 0x19 then st.tepc.toNat
  else if n = 0x1A then st.tcause.toNat
  else if n = 0x1B then tstat st
  else if n = 0x20 then s.dev.devtime.toNat
  else if n = 0x21 then readyWord s.dev
  else if n ≤ 0x2FF then (cellGet 0 s.dev.qbase (n - 0x200)).toNat
  else if n ≤ 0x3FF then (cellGet 0 s.dev.qctl (n - 0x300)).toNat
  else if n = 0x400 then s.dev.lseed.toNat
  else if n = 0x401 then s.dev.quantum.toNat
  else vget st.cost (n - 0x500)

/-- The bits of a CSR that are RSV; bits [63:32] of a 32-bit CSR count (R174). -/
def csrRsv (n : Nat) : Nat :=
  let hi := if csrWide n then 0 else 0xFFFFFFFF00000000
  hi + (if n ≤ 0x0F then 0xFE0000FC
    else if n = 0x10 || n = 0x11 then 0xFFFFF800
    else if n = 0x13 then 0x80000000
    else if n = 0x16 then 0xFFFFF000
    else if n = 0x17 then 0xFFFE
    else if n = 0x1B then 0xFFFFFFFC
    else if n = 0x21 then 0x7F800000
    else if 0x300 ≤ n && n ≤ 0x3FF then 0x600F0000
    else 0)

/-- Whether R26 lets TSHAPE take a value. -/
def tshapeOk (v : Nat) : Bool :=
  let width := bitsOf v 16 9
  let rows := bitsOf v 8 8
  let ew := bitsOf v 0 2
  rows ≤ 128 && width ≤ 256 && (width != 0 || rows == 0)
    && (ew != 2 || width % 2 == 0) && (ew != 3 || width % 4 == 0)

/-- EN of a queue (R68). -/
def queueEn (d : Device) (q : Nat) : Bool := (cellGet (0 : BitVec 32) d.qctl q).getLsbD 31
/-- LOGSZ of a queue. -/
def queueLogsz (d : Device) (q : Nat) : Nat := bitsOf (cellGet (0 : BitVec 32) d.qctl q).toNat 24 5
/-- FN of a queue. -/
def queueFn (d : Device) (q : Nat) : Nat := bitsOf (cellGet (0 : BitVec 32) d.qctl q).toNat 20 4
/-- TICKETS of a queue. -/
def queueTickets (d : Device) (q : Nat) : Nat := bitsOf (cellGet (0 : BitVec 32) d.qctl q).toNat 0 16
/-- QBASE of a queue. -/
def queueBase (d : Device) (q : Nat) : Nat := (cellGet (0 : Word) d.qbase q).toNat

/-- Whether QCTL may be given EN with this LOGSZ (R68). -/
def qctlOk (v : Nat) : Bool := !v.testBit 31 || (4 ≤ bitsOf v 24 5 && bitsOf v 24 5 ≤ 16)

/-- Whether C may write a value to a CSR, by the register's own statement (R174); the fault is ILLEGAL_OP. -/
def csrAllowed (s : State) (n v : Nat) : Bool :=
  if n ≤ 0x0F then tshapeOk v
  else if n = 0x10 || n = 0x11 then bitsOf v 8 2 != 3
  else if 0x200 ≤ n && n ≤ 0x2FF then
    !(queueEn s.dev (n - 0x200) && v / 128 * 128 != queueBase s.dev (n - 0x200))
  else if 0x300 ≤ n && n ≤ 0x3FF then
    qctlOk v && !(queueEn s.dev (n - 0x300) && bitsOf v 24 5 != queueLogsz s.dev (n - 0x300))
  else true

/-- A CSR written; RO registers keep their value (R174, R175). -/
def csrStore (s : State) (key : Nat) (st : Strand) (n v : Nat) : State :=
  let w : Word := BitVec.ofNat 64 v
  let h : BitVec 32 := BitVec.ofNat 32 v
  let put (st : Strand) : State := s.setStrand key st
  if n ≤ 0x0F then put { st with tshape := vset st.tshape n h }
  else if n = 0x10 then put { st with dqfmtlx := h, dqsnlx := 0 }
  else if n = 0x11 then put { st with dqfmtxs := h, dqsnxs := 0 }
  else if n = 0x12 then put { st with srseed := w }
  else if n = 0x13 then put { st with srctr := h }
  else if n = 0x18 then put { st with tvec := w &&& ~~~7#64 }
  else if n = 0x19 then
    put { st.dropKept with tepc := w &&& ~~~7#64 }
  else if n = 0x1A then put { st with tcause := w }
  else if 0x200 ≤ n && n ≤ 0x2FF then
    put st |>.setDev { s.dev with qbase := cellSet 0 s.dev.qbase (n - 0x200) (w &&& ~~~127#64) }
  else if 0x300 ≤ n && n ≤ 0x3FF then
    put st |>.setDev { s.dev with qctl := cellSet 0 s.dev.qctl (n - 0x300) h }
  else if n = 0x400 then put st |>.setDev { s.dev with lseed := if v = 0 then 1 else w }
  else if n = 0x401 then put st |>.setDev { s.dev with quantum := if v = 0 then 1 else h }
  else if 0x500 ≤ n && n ≤ 0x53F then put { st with cost := vset st.cost (n - 0x500) w }
  else put st

/-- Whether a strand may access a CSR (R175). -/
def csrMay (st : Strand) (n : Nat) : Bool := !csrPf n || st.fn = 0

/-- CSRW, CSRS and CSRC (R174): the value written is a function of the old value and xa; xd receives the old value. -/
def csrWord (f : Word → Word → Word) (xd xa : Reg) (csr : BitVec 16) (s : State) : Out :=
  onC s fun key st =>
    let n := csr.toNat
    let old : Word := BitVec.ofNat 64 (csrRead s st n)
    let v := (f old (st.rx xa)).toNat
    if !csrMay st n || v &&& csrRsv n ≠ 0 || !csrAllowed s n v then
      .next (takeFault s key st ⟨.illegalOp, .none, 0⟩)
    else
      let s1 := csrStore s key st n v
      .next (s1.setStrand key (((s1.strandAt key st).wx xd old).cNext))

/-- CSRR (R174). -/
def execCsrr (xd : Reg) (csr : BitVec 16) (s : State) : Out :=
  onC s fun key st =>
    if csrMay st csr.toNat then
      .next (s.setStrand key ((st.wx xd (BitVec.ofNat 64 (csrRead s st csr.toNat))).cNext))
    else .next (takeFault s key st ⟨.illegalOp, .none, 0⟩)

/-- CSRW (R174). -/
def execCsrw (xd xa : Reg) (csr : BitVec 16) (s : State) : Out := csrWord (fun _ a => a) xd xa csr s

/-- CSRS (R174). -/
def execCsrs (xd xa : Reg) (csr : BitVec 16) (s : State) : Out := csrWord (fun old a => old ||| a) xd xa csr s

/-- CSRC (R174). -/
def execCsrc (xd xa : Reg) (csr : BitVec 16) (s : State) : Out := csrWord (fun old a => old &&& ~~~a) xd xa csr s

end Sys2Proof.Machine
end

