-- ==== Sys2Proof/Machine/Aof.lean ====
section
/-! DEFINITION. AOF trees and plans: the tree as read (R317, R318), the shapes of its nodes, reassociable chains (R320),
templates and cost (R321, R323), the choice (R324) and the fingerprint (R329). -/

namespace Sys2Proof.Machine

/-! ### The tree -/

/-- IN field that names no input (R317). -/
def noInput : Nat := 0xFFFF

/-- A node of 32 bytes, and whether its reserved fields hold and its RND code exists (R317). -/
def nodeOf (bs : List Byte) : Node × Bool :=
  let n : Node := {
    kind := numAt bs 0 1, fmt := numAt bs 1 1, rnd := numAt bs 2 1, flags := numAt bs 3 1
    ins := [numAt bs 8 2, numAt bs 10 2, numAt bs 12 2]
    param0 := numAt bs 16 4, dest := numAt bs 20 4, param1 := numAt bs 24 8 }
  (n, numAt bs 4 4 = 0 && numAt bs 14 2 = 0 && n.rnd < 8 && n.rnd % 4 ≠ 3 && n.flags < 8)

/-- The nodes of a list of bytes. -/
def nodesOf : Nat → List Byte → List (Node × Bool)
  | 0, _ => []
  | n + 1, bs => nodeOf (bs.take 32) :: nodesOf n (bs.drop 32)

/-- Inputs of a kind; none where the kind is reserved (R318). -/
def kindArity (k : Nat) : Option Nat :=
  if k = 1 then some 0
  else if 2 ≤ k && k ≤ 4 then some 2
  else if (5 ≤ k && k ≤ 9) || k = 11 then some 1
  else if k = 10 then some 3
  else none

/-- The formats of R318 that do not depend on an input. -/
def kindFmt (k f : Nat) : Bool :=
  if k = 2 || k = 7 then (1 ≤ f && f ≤ 5) || f == 9
  else if k = 3 || k = 4 || k = 6 then 1 ≤ f && f ≤ 9
  else if k = 5 || k = 8 || k = 10 then 1 ≤ f && f ≤ 5
  else true

/-- A value's shape and format (R318). -/
structure Shp where
  rows : Nat
  cols : Nat
  fmt : Nat
deriving DecidableEq, Repr

/-- The shape of a tensor. -/
def Tensor.shp (t : Tensor) : Shp := ⟨t.rows, t.cols, t.fmt⟩

/-- TA, TB and KEEP (R317). -/
def Node.ta (n : Node) : Bool := n.flags.testBit 0
/-- TB. -/
def Node.tb (n : Node) : Bool := n.flags.testBit 1
/-- KEEP. -/
def Node.keep (n : Node) : Bool := n.flags.testBit 2

/-- The node of an index. -/
def nodeAt (ns : List Node) (i : Nat) : Node := ns.getD i ⟨0, 0, 0, 0, [], 0, 0, 0⟩

/-- A pair of formats of R253 for a MATMUL: CB2 weights stand first. -/
def matPair (f g : Nat) : Bool := formatsPair f g || (f = 14 && cb2Pair g)

/-- Whether a format is an integer pair format of R253. -/
def intPairFmt (f : Nat) : Bool := f = 6 || f = 7

/-- The reads of a request: a state and where its accesses go. -/
structure Reader where
  s : State
  aim : Aim
  fn : Nat
  tile : Nat

/-- Bytes read for a request. -/
def Reader.bytes (rd : Reader) (a n : Nat) : PRes (List Byte) := liftRes (planRead rd.s rd.aim a n)

/-- The head that a Hawkmoth block describes, its hyperplanes among it, as the planner reads it for a tile; none where the
descriptor breaks R290 (R319). -/
def hawkHead (s : State) (aim : Aim) (tile addr : Nat) : Res (Option Head) :=
  match planRead s aim addr 128 with
  | .error e => .error e
  | .ok bs =>
    match headFields s.dev tile (bytesRow bs) with
    | none => .ok none
    | some h =>
      match resMap (fun j => planRead s aim ((addr + 128 + 256 * j) % 2 ^ 64) (2 * h.dim)) (List.range h.np) with
      | .error e => .error e
      | .ok planes => .ok (some { h with proj := planes.zipIdx.foldl (fun p q =>
          (List.range h.dim).foldl (fun p e =>
            cellSet (0 : BitVec 16) p (128 * q.2 + e) (BitVec.ofNat 16 (numAt q.1 (2 * e) 2))) p) [] })

/-- The Hawkmoth block of an ATTENTION node with D elements a row (R319). -/
def hawkCheck (rd : Reader) (addr d : Nat) : PRes Unit := do
  match ← liftRes (hawkHead rd.s rd.aim rd.tile addr) with
  | none => pStatus 3
  | some h => if h.dim = d then pure () else pStatus 4

/-- The tensor a TID names, or BADTENSOR. -/
def needTensor (rd : Reader) (tid : Nat) : PRes Tensor :=
  match tensorOf rd.s.planner rd.fn tid with
  | some t => pure t
  | none => pStatus 6

/-- SHAPE unless a condition holds. -/
def needShape (b : Bool) : PRes Unit := if b then pure () else pStatus 4

/-- The shape of a MATMUL (R318, R253, R61). -/
def matShape (nd : Node) (a b : Shp) : PRes Shp := do
  let m := if nd.ta then a.cols else a.rows
  let ka := if nd.ta then a.rows else a.cols
  let n := if nd.tb then b.rows else b.cols
  let kb := if nd.tb then b.cols else b.rows
  needShape (ka = kb && matPair a.fmt b.fmt && !(nd.ta && isBlockFmt a.fmt) && !(nd.tb && isBlockFmt b.fmt)
    && (nd.fmt == 9) == intPairFmt a.fmt)
  pure ⟨m, n, nd.fmt⟩

/-- The shape of node i from those of the nodes before it, with every check of R317 to R319 on it. -/
def nodeShape (rd : Reader) (shps : List Shp) (i : Nat) (p : Node × Bool) : PRes Shp := do
  let nd := p.1
  match kindArity nd.kind with
  | none => pStatus 3
  | some ar =>
    let okIns := (List.range 3).all (fun j =>
      let x := nd.ins.getD j noInput
      if j < ar then x < i else x == noInput)
    if !p.2 || !okIns || !kindFmt nd.kind nd.fmt then pStatus 3
    else
      let inp (j : Nat) : Shp := shps.getD (nd.ins.getD j 0) ⟨0, 0, 0⟩
      let a := inp 0
      let b := inp 1
      let v ← match nd.kind with
        | 1 => do
          let t ← needTensor rd nd.param0
          needShape (nd.fmt = 0 || nd.fmt = t.fmt)
          pure t.shp
        | 2 => matShape nd a b
        | 3 | 4 => do
          needShape (a.rows = b.rows && a.cols = b.cols)
          pure ⟨a.rows, a.cols, nd.fmt⟩
        | 7 => pure ⟨a.rows, 1, nd.fmt⟩
        | 9 => do
          if nd.param0 = 0 || nd.param0 > 1024 then pStatus 3
          else
            needShape (nd.fmt = a.fmt)
            pure ⟨1, 4 * nd.param0, 9⟩
        | 10 => do
          let c := inp 2
          needShape (a.cols = b.cols && b.rows = c.rows)
          if nd.param1 ≠ 0 then hawkCheck rd nd.param1 a.cols
          pure ⟨a.rows, c.cols, nd.fmt⟩
        | 11 => do
          needShape (nd.fmt = a.fmt)
          pure a
        | _ => pure ⟨a.rows, a.cols, nd.fmt⟩
      if nd.dest ≠ 0 then
        let t ← needTensor rd nd.dest
        needShape (t.shp = v && (nd.kind ≠ 9 || t.dims.length = 1))
      pure v

/-- The shapes of all nodes, in order. -/
def treeShapes (rd : Reader) : List Shp → List (Node × Bool) → PRes (List Shp)
  | shps, [] => pure shps
  | shps, p :: r => do
    let v ← nodeShape rd shps shps.length p
    treeShapes rd (shps ++ [v]) r

/-- How often a node is an input. -/
def useCount (ns : List Node) (i : Nat) : Nat := ((ns.flatMap (·.ins)).filter (· = i)).length

/-- The checks of a whole tree: ROOT, its DEST, and that every other node feeds one (R317, R318). -/
def treeOk (ns : List Node) (root : Nat) : Bool :=
  root < ns.length && (nodeAt ns root).dest ≠ 0 &&
    (List.range ns.length).all (fun i => i == root || 0 < useCount ns i)

/-! ### Chains (R320) -/

/-- Whether a MATMUL node belongs to the chain of the node that it feeds. -/
def absorbed (ns : List Node) (i : Nat) : Bool :=
  let x := nodeAt ns i
  x.kind = 2 && x.flags % 8 = 0 && x.dest = 0 && useCount ns i = 1 &&
    ns.any (fun p => p.kind = 2 && !p.ta && !p.tb && (p.ins.take 2).contains i && p.fmt = x.fmt && p.rnd = x.rnd)

/-- A parenthesisation of a chain's factors, by their places. -/
inductive Paren where
  | leaf (i : Nat)
  | node (l r : Paren)
deriving DecidableEq, Repr

/-- The factors below a node of a chain, in written order. -/
def factors (ns : List Node) : Nat → Nat → List Nat
  | 0, i => [i]
  | fuel + 1, i =>
    if absorbed ns i then
      let x := nodeAt ns i
      factors ns fuel (x.ins.getD 0 0) ++ factors ns fuel (x.ins.getD 1 0)
    else [i]

/-- The written parenthesisation below a node, its factors counted from k. -/
def written (ns : List Node) : Nat → Nat → Nat → Paren
  | 0, _, k => .leaf k
  | fuel + 1, i, k =>
    if absorbed ns i then
      let x := nodeAt ns i
      .node (written ns fuel (x.ins.getD 0 0) k)
        (written ns fuel (x.ins.getD 1 0) (k + (factors ns fuel (x.ins.getD 0 0)).length))
    else .leaf k

/-- The interval of factors that each node of a written chain covers: first factor, count, node. -/
def covers (ns : List Node) : Nat → Nat → Nat → List (Nat × Nat × Nat)
  | 0, _, _ => []
  | fuel + 1, i, k =>
    if absorbed ns i then
      let x := nodeAt ns i
      let n := (factors ns fuel (x.ins.getD 0 0)).length
      (k, (factors ns (fuel + 1) i).length, i)
        :: (covers ns fuel (x.ins.getD 0 0) k ++ covers ns fuel (x.ins.getD 1 0) (k + n))
    else []

/-- A chain: its top, its factors, its written form, and which node each inner interval is. -/
structure Chain where
  top : Nat
  fac : List Nat
  form : Paren
  inner : List (Nat × Nat × Nat)

/-- The chain of a MATMUL node that is the top of one. -/
def chainOf (ns : List Node) (i : Nat) : Chain :=
  let x := nodeAt ns i
  let f := ns.length
  let l := x.ins.getD 0 0
  let r := x.ins.getD 1 0
  let n := (factors ns f l).length
  ⟨i, factors ns f l ++ factors ns f r, .node (written ns f l 0) (written ns f r n), covers ns f l 0 ++ covers ns f r n⟩

/-- The chains of a tree, by ascending top. -/
def chains (ns : List Node) : List Chain :=
  ((List.range ns.length).filter (fun i => (nodeAt ns i).kind = 2 && !absorbed ns i)).map (chainOf ns)

/-- Every full parenthesisation of n factors from the i-th. -/
def parens : Nat → Nat → Nat → List Paren
  | 0, _, _ => []
  | fuel + 1, i, n =>
    if n ≤ 1 then [.leaf i]
    else (List.range (n - 1)).flatMap (fun k =>
      (parens fuel i (k + 1)).flatMap (fun l => (parens fuel (i + k + 1) (n - k - 1)).map (fun r => .node l r)))

/-- The first factor and the count of factors of a parenthesisation. -/
def Paren.span : Paren → Nat × Nat
  | .leaf i => (i, 1)
  | .node l r => (l.span.1, l.span.2 + r.span.2)

/-- Whether every product has a factor as its IN1 (R324). -/
def Paren.leftDeep : Paren → Bool
  | .leaf _ => true
  | .node l (.leaf _) => l.leftDeep
  | .node _ _ => false

/-- The parenthesisations a chain may take (R320, R324). -/
def Chain.forms (c : Chain) (fixed : Bool) : List Paren :=
  if fixed || c.fac.length > 16 then [c.form] else parens c.fac.length 0 c.fac.length

/-- Whether every product of a parenthesisation pairs formats of R253. -/
def formPairs (fac : List Shp) (f : Nat) : Paren → Option Nat
  | .leaf i => some (fac.getD i ⟨0, 0, 0⟩).fmt
  | .node l r =>
    match formPairs fac f l, formPairs fac f r with
    | some a, some b => if matPair a b then some f else none
    | _, _ => none

/-- One of the forms for each chain, in every combination. -/
def formChoices : List (List Paren) → List (List Paren)
  | [] => [[]]
  | fs :: r => fs.flatMap (fun f => (formChoices r).map (fun t => f :: t))

/-! ### Templates and cost -/

/-- a ⊕ b of R323. -/
def satAdd (a b : Nat) : Nat := min (a + b) (2 ^ 64 - 1)

/-- a ⊗ b of R323. -/
def satMul (a b : Nat) : Nat := min (a * b) (2 ^ 64 - 1)

/-- An operand of an operator: its shape, and the tensor of a TENSOR node. -/
structure Operand where
  shp : Shp
  tensor : Option Tensor

/-- Whether a format is of the 8-bit class (R253). -/
def class8 (f : Nat) : Bool := (4 ≤ f && f ≤ 7) || isBlockFmt f

/-- Blocks of a tensor and those with a nonzero count; none where the array cannot be read (R321, R323). -/
def blockCounts (rd : Reader) (t : Tensor) : PRes (Option (Nat × Nat)) :=
  let nb := ceilDiv (t.rows * t.cols) 4096
  match planRead rd.s rd.aim t.blkaddr (4 * nb) with
  | .ok bs => pure (some (nb, ((List.range nb).filter (fun j => numAt bs (4 * j) 4 ≠ 0)).length))
  | .error (.raise _) => pure none
  | .error e => .error (.stop e)

/-- A template an operator may take, with the blocks it counts. -/
structure Choice where
  tmpl : Nat
  blocks : Nat × Nat

/-- The templates an operator is eligible for, ascending (R321). -/
def eligible (rd : Reader) (hints : Nat) (nd : Node) (ins : List Operand) : PRes (List Choice) := do
  let plain (t : Nat) : Choice := ⟨t, 1, 1⟩
  match nd.kind with
  | 2 =>
    match ins with
    | a :: b :: _ =>
      if a.shp.fmt = 14 then pure [plain 4]
      else
        match a.tensor, b.tensor with
        | some t, some u =>
          if hints.testBit 2 || cellGet 0 u.hist 63 ≠ 0 then pure [plain 0]
          else
            let c1 := if t.caddr ≠ 0 && t.c24 = t.rows * (t.cols / 4) then [plain 1] else []
            let c2 := if t.caddr ≠ 0 && t.c48 = t.rows * (t.cols / 8) then [plain 2] else []
            if t.blkaddr = 0 then pure (plain 0 :: (c1 ++ c2))
            else
              match ← blockCounts rd t with
              | some z => pure (plain 0 :: (c1 ++ c2 ++ [⟨3, z⟩]))
              | none => pure (plain 0 :: (c1 ++ c2))
        | _, _ => pure [plain 0]
    | _ => pure [plain 0]
  | 10 =>
    let ok := hints.testBit 0
    pure ((if ok && nd.param0 ≠ 0 then [plain 5] else []) ++ (if ok && nd.param1 ≠ 0 then [plain 6] else [])
      ++ [plain 7])
  | 7 => pure [plain 9]
  | 9 => pure [plain 10]
  | 8 => pure [plain 11]
  | _ => pure [plain 8]

/-- emac of R323. -/
def emac (cost : Vector Word 64) (nd : Node) (c : Choice) (ins : List Operand) (v : Shp) : Nat :=
  let a := (ins.getD 0 ⟨⟨0, 0, 0⟩, none⟩).shp
  let b := (ins.getD 1 ⟨⟨0, 0, 0⟩, none⟩).shp
  let d := (ins.getD 2 ⟨⟨0, 0, 0⟩, none⟩).shp
  match nd.kind with
  | 2 =>
    let e := v.rows * v.cols * (if nd.ta then a.rows else a.cols)
    let e0 := if class8 a.fmt && class8 b.fmt then ceilDiv e 2 else e
    match c.tmpl with
    | 1 | 2 => ceilDiv e0 2
    | 3 => ceilDiv (e0 * c.blocks.2) c.blocks.1
    | _ => e0
  | 10 =>
    let e := a.rows * b.rows * a.cols + a.rows * b.rows * d.cols
    if c.tmpl = 7 then e else ceilDiv (e * vget cost (4 * c.tmpl + 3)) 65536
  | 7 | 9 => a.rows * a.cols
  | _ => v.rows * v.cols

/-- Stored bytes of a value (R323). -/
def Shp.bytes (v : Shp) : Nat := v.rows * storedLen v.fmt v.cols

/-- cost(o) of R323. -/
def opCost (cost : Vector Word 64) (nd : Node) (c : Choice) (ins : List Operand) (v : Shp) : Nat :=
  let reg (i : Nat) : Nat := vget cost (4 * c.tmpl + i)
  let bytes := (ins.map (fun x => x.shp.bytes)).foldl (· + ·) 0 + v.bytes
  satAdd (satAdd (satMul (reg 0) (emac cost nd c ins v)) (satMul (reg 1) bytes)) (reg 2)

/-! ### Candidates -/

/-- A candidate as it is built: its operators in canonical order, their costs, the code of each node visited, the
operators after which the MATERIALISE of an operator's value puts a break, how many operators stand before each
MATERIALISE of a tensor, and the values that tensors receive: code, TID, and which MATERIALISE of a tensor it is. -/
structure Cand where
  ops : List POp
  costs : List Nat
  code : PMap Nat
  marks : List Nat
  copies : List Nat
  dests : List (Nat × Nat × Option Nat)

/-- What a choice is made from. -/
structure Plot where
  rd : Reader
  nodes : List Node
  shps : List Shp
  hints : Nat
  cost : Vector Word 64
  /-- operators that have been carried out and keep their templates -/
  fixed : List POp
  /-- whether each operator takes its cheapest template, or its lowest -/
  cheap : Bool

/-- The code of a MATERIALISE of a TENSOR node while a candidate is formed: its operand code is the tensor's, for it is the value of no
operator, and the mark above it says that it is no TENSOR node (R321, R329). -/
def materialised (code : Nat) : Nat := if 0x8000 ≤ code && code < 0x10000 then code + 0x10000 else code

/-- The operand code of R329. -/
def operandCode (code : Nat) : Nat := code % 0x10000

/-- The operand of a code (R329), with its tensor where it is a TENSOR node (R321). -/
def operandOf (p : Plot) (c : Cand) (code : Nat) : Operand :=
  if code ≥ 0x8000 then
    let i := operandCode code - 0x8000
    ⟨p.shps.getD i ⟨0, 0, 0⟩,
      if code < 0x10000 then tensorOf p.rd.s.planner p.rd.fn (nodeAt p.nodes i).param0 else none⟩
  else match c.ops[code - 1]? with
    | some o => ⟨⟨o.rows, o.cols, o.fmt⟩, none⟩
    | none => ⟨⟨0, 0, 0⟩, none⟩

/-- The cheapest of a list of choices with its cost, the first of equals. -/
def cheapest (f : Choice → Nat) : List Choice → Option (Choice × Nat)
  | [] => none
  | c :: r =>
    match cheapest f r with
    | some (d, k) => if k < f c then some (d, k) else some (c, f c)
    | none => some (c, f c)

/-- Whether a TOPK leaves out NaN, by its node or by the hints (R318, R325). -/
def xnanOf (hints : Nat) (nd : Node) : Bool := nd.kind = 9 && (hints.testBit 3 || nd.param1.testBit 0)

/-- An operator added to a candidate with the template it takes: its code. One that has been carried out keeps its template and
what it was carried out under (R331). -/
def emit (p : Plot) (c : Cand) (nd : Node) (node : Nat) (own : Bool) (code : List Nat) (v : Shp) :
    PRes (Nat × Cand) := do
  let ins := code.map (operandOf p c)
  let pos := c.ops.length
  let all ← eligible p.rd p.hints nd ins
  let tmpl ← match p.fixed[pos]? with
    | some o =>
      if o.tmpl = 3 then
        match ← (match ins with
          | ⟨_, some t⟩ :: _ => blockCounts p.rd t
          | _ => pure none) with
        | some z => pure ⟨3, z⟩
        | none => pure ⟨3, 1, 1⟩
      else pure ⟨o.tmpl, 1, 1⟩
    | none =>
      let price (ch : Choice) : Nat := if p.cheap then opCost p.cost nd ch ins v else 0
      match cheapest price all with
      | some (ch, _) => pure ch
      | none => pStatus 4
  pure (pos + 1, { c with
    ops := c.ops ++ [⟨node, own, nd.kind, v.fmt, nd.rnd, tmpl.tmpl,
      code.map operandCode ++ List.replicate (3 - code.length) 0,
      v.rows, v.cols, (p.fixed[pos]?).elim (xnanOf p.hints nd) (·.xnan)⟩]
    costs := c.costs ++ [opCost p.cost nd tmpl ins v] })

/-- The products of a parenthesised chain: factors have their codes already visited in order. -/
def emitParen (p : Plot) (ch : Chain) (visit : Nat → Cand → PRes (Nat × Cand)) : Paren → Cand → PRes (Nat × Cand)
  | .leaf i, c => visit (ch.fac.getD i 0) c
  | .node l r, c => do
    let (a, c1) ← emitParen p ch visit l c
    let (b, c2) ← emitParen p ch visit r c1
    let top := nodeAt p.nodes ch.top
    let sa := (operandOf p c2 a).shp
    let sb := (operandOf p c2 b).shp
    let span := (Paren.node l r).span
    if span.2 = ch.fac.length then
      emit p c2 top ch.top true [a, b] (p.shps.getD ch.top ⟨0, 0, 0⟩)
    else
      match ch.inner.find? (fun x => x.1 = span.1 ∧ x.2.1 = span.2) with
      | some x => emit p c2 top x.2.2 true [a, b] ⟨sa.rows, sb.cols, top.fmt⟩
      | none => emit p c2 top ch.top false [a, b] ⟨sa.rows, sb.cols, top.fmt⟩

/-- The value of node i in a candidate: its code, with its operators added in post-order unless it has been visited
(R324, R329). -/
def visit (p : Plot) (chs : List (Chain × Paren)) : Nat → Nat → Cand → PRes (Nat × Cand)
  | 0, _, _ => pStatus 3
  | fuel + 1, i, c =>
    match c.code.find? i with
    | some k => pure (k, c)
    | none => do
      let nd := nodeAt p.nodes i
      let v := p.shps.getD i ⟨0, 0, 0⟩
      let (k, c1) ←
        if nd.kind = 1 then pure (0x8000 + i, c)
        else if nd.kind = 11 then do
          let (k, c1) ← visit p chs fuel (nd.ins.getD 0 0) c
          pure (materialised k, if k < 0x8000 then { c1 with marks := c1.marks ++ [k] }
            else { c1 with copies := c1.copies ++ [c1.ops.length] })
        else
          match chs.find? (fun q => q.1.top = i) with
          | some (ch, f) => emitParen p ch (visit p chs fuel) f c
          | none => do
            let (codes, c1) ← ((nd.ins.filter (· ≠ noInput)).foldlM (fun (acc : List Nat × Cand) j => do
              let (k, c2) ← visit p chs fuel j acc.2
              pure (acc.1 ++ [k], c2)) (([], c) : List Nat × Cand))
            emit p c1 nd i true codes v
      pure (k, { c1 with
        code := c1.code.insert i k
        dests := if nd.dest = 0 then c1.dests
          else c1.dests ++ [(operandCode k, nd.dest, if nd.kind = 11 && k ≥ 0x8000 then some (c1.copies.length - 1) else none)] })

/-- Whether an operator that has been carried out is the same in a candidate. -/
def POp.sameAs (a b : POp) : Bool := a == b

/-- A complete candidate. -/
def candidate (p : Plot) (root : Nat) (chs : List (Chain × Paren)) : PRes (Option Cand) := do
  let (_, c) ← visit p chs (p.nodes.length + 1) root ⟨[], [], [], [], [], []⟩
  pure (if (p.fixed.zip c.ops).all (fun q => q.1.sameAs q.2) && p.fixed.length ≤ c.ops.length then some c else none)

/-- Lexicographic order of lists of numbers. -/
def lexLt : List Nat → List Nat → Bool
  | [], [] => false
  | [], _ :: _ => true
  | _ :: _, [] => false
  | a :: r, b :: q => a < b || (a == b && lexLt r q)

/-- The cost of a candidate (R323). -/
def Cand.cost (c : Cand) : Nat := c.costs.foldl satAdd 0

/-- A candidate with whether its chains are left-deep. -/
abbrev Rival := Cand × Bool

/-- Whether a candidate is chosen before another (R324). -/
def beats (a b : Rival) : Bool :=
  let ta := a.1.ops.map (·.tmpl)
  let tb := b.1.ops.map (·.tmpl)
  a.1.cost < b.1.cost || (a.1.cost == b.1.cost && (lexLt ta tb || (ta == tb &&
    ((a.2 && !b.2) || (a.2 == b.2 && lexLt (a.1.ops.flatMap (·.code)) (b.1.ops.flatMap (·.code)))))))

/-- The better of a candidate and the best so far. -/
def better (best : Option Rival) (c : Rival) : Option Rival :=
  match best with
  | none => some c
  | some b => if beats c b then some c else some b

/-- The candidates of one combination of parenthesisations. -/
def tryForms (p : Plot) (root : Nat) (chs : List Chain) (best : Option Rival) (fs : List Paren) :
    PRes (Option Rival) := do
  let ok := (chs.zip fs).all (fun q =>
    (formPairs (q.1.fac.map (fun i => p.shps.getD i ⟨0, 0, 0⟩)) (nodeAt p.nodes q.1.top).fmt q.2).isSome)
  if !ok then pure best
  else
    let deep := fs.all Paren.leftDeep
    let a ← candidate { p with cheap := true } root (chs.zip fs)
    let b ← candidate { p with cheap := false } root (chs.zip fs)
    pure ((a.toList ++ b.toList).foldl (fun best c => better best (c, deep)) best)

/-- Whether an operator forms a product of a chain. -/
def Chain.has (c : Chain) (o : POp) : Bool := o.kind = 2 && (o.node = c.top || c.inner.any (fun x => x.2.2 = o.node))

/-- How many chains a combination gives another form than the written one. -/
def unwritten (chs : List Chain) (fs : List Paren) : Nat := ((chs.zip fs).filter (fun q => q.2 ≠ q.1.form)).length

/-- The choice of R324; none where no candidate continues the operators carried out. Under FIXORDER a chain keeps its written
form, but for one that was begun in another before the hint came: the choice is that of the remaining operators (R331), and as
many chains as can keep the written form do (DEDUCED, log entry 36). -/
def choose (p : Plot) (root : Nat) : PRes (Option Cand) := do
  let chs := chains p.nodes
  let fix := p.hints.testBit 1
  let combos := formChoices (chs.map (fun c => c.forms (fix && !p.fixed.any c.has)))
  let best ← (if fix then
      (List.range (chs.length + 1)).foldlM (fun (best : Option Rival) k =>
        if best.isSome then pure best
        else (combos.filter (fun fs => unwritten chs fs = k)).foldlM (tryForms p root chs) none) none
    else combos.foldlM (tryForms p root chs) none)
  pure (best.map (·.1))

/-! ### What a choice comes to -/

/-- How many operators a value feeds. -/
def feeds (ops : List POp) (code : Nat) : Nat := (ops.filter (fun o => o.code.contains code)).length

/-- The operators at which a break lies (R330), by how many are done there. -/
def Cand.ends (c : Cand) : List Nat :=
  ((List.range c.ops.length).map (· + 1)).filter (fun k =>
    feeds c.ops k > 1 || c.dests.any (fun d => d.1 = k) || c.marks.contains k)

/-- A number put behind those not above it in a rising list. -/
def putBehind (a : Nat) : List Nat → List Nat
  | [] => [a]
  | b :: r => if b ≤ a then b :: putBehind a r else a :: b :: r

/-- How many operators are done at the end of each stage (R330): a break at each operator that has one and at each
MATERIALISE of a tensor. -/
def stagesOf (c : Cand) : List Nat :=
  let ks := c.copies.foldl (fun ks k => putBehind k ks) c.ends
  if ks ≠ [] && ks.getLastD 0 = c.ops.length then ks else ks ++ [c.ops.length]

/-- The stage that writes a value to a tensor: the one that forms it; for a tensor's value the stage of its MATERIALISE, or
the first where it has none. -/
def Cand.stageOf (c : Cand) (d : Nat × Nat × Option Nat) : Nat :=
  match d.2.2 with
  | some m => (c.ends.filter (· ≤ c.copies.getD m 0)).length + m
  | none => if d.1 ≥ 0x8000 then 0 else ((stagesOf c).filter (· < d.1)).length

/-- class(o) of R321. -/
def tmplClass (t : Nat) : Nat := if t ≤ 4 then 1 else t

/-- The word of an operator in the fingerprint (R329). -/
def opWord (ns : List Node) (o : POp) : Nat :=
  tmplClass o.tmpl + 2 ^ 8 * (if o.kind = 9 then (nodeAt ns o.node).fmt else o.fmt)
    + 2 ^ 12 * (o.rnd % 4 + 4 * (o.rnd / 4 % 2)) + 2 ^ 15 * o.xnan.toNat
    + 2 ^ 16 * o.code.getD 0 0 + 2 ^ 32 * o.code.getD 1 0 + 2 ^ 48 * o.code.getD 2 0

/-- Whether a list of operators holds template 5 or 6. -/
def approximate (ops : List POp) : Bool := ops.any (fun o => o.tmpl = 5 || o.tmpl = 6)

/-- The fingerprint (R329). FMT of a TENSOR node whose field is 0 is its tensor's (DEDUCED, log entry 35). -/
def fingerprint (nbv : Nat) (det : Bool) (ns : List Node) (shps : List Shp) (ops : List POp) : Nat :=
  let h0 : Word := BitVec.ofNat 64 nbv
  let h1 := (List.range ns.length).foldl (fun (h : Word) i =>
    if (nodeAt ns i).kind = 1 then
      fmix64 (h ^^^ BitVec.ofNat 64 (0xFF + 2 ^ 8 * (shps.getD i ⟨0, 0, 0⟩).fmt + 2 ^ 16 * i))
    else h) h0
  let h2 := ops.foldl (fun (h : Word) o => fmix64 (h ^^^ BitVec.ofNat 64 (opWord ns o))) h1
  let h3 := fmix64 (h2 ^^^ BitVec.ofNat 64 det.toNat)
  h3.toNat / 2 * 2 + (approximate ops).toNat

/-- The validity data of a tree: the tensors its TENSOR nodes and DESTs name (R331). -/
def recordedOf (p : Planner) (fn : Nat) (ns : List Node) : List Recorded :=
  (ns.flatMap (fun n => (if n.kind = 1 then [n.param0] else []) ++ (if n.dest ≠ 0 then [n.dest] else []))).filterMap
    (fun tid => (tensorOf p fn tid).map (fun t => ⟨tid, t.serial, t.dims, t.fmt⟩))

/-- An operator but for what a hint alone decides of it. -/
def POp.core (o : POp) : POp := { o with xnan := false }

/-- What planning a tree gives: the operators, stages, destinations, cost, fingerprint and validity data. -/
structure Planned where
  ops : List POp
  stages : List Nat
  dests : List (Nat × Nat × Nat)
  total : Nat
  fp : Nat
  recorded : List Recorded

/-- A tree planned (R324, R326, R331), the operators carried out kept; none where no candidate continues them. -/
def planTree (rd : Reader) (ns : List (Node × Bool)) (root hints nbv : Nat) (det : Bool) (cost : Vector Word 64)
    (fixed : List POp) : PRes (Option Planned) := do
  let shps ← treeShapes rd [] ns
  let nodes := ns.map (·.1)
  if !treeOk nodes root then pStatus 3
  else
    let c ← choose ⟨rd, nodes, shps, hints, cost, fixed, true⟩ root
    pure (c.map (fun c => {
      ops := c.ops, stages := stagesOf c, dests := c.dests.map (fun d => (c.stageOf d, d.1, d.2.1)), total := c.cost
      fp := fingerprint nbv det nodes shps c.ops
      recorded := recordedOf rd.s.planner rd.fn nodes }))

end Sys2Proof.Machine
end

