-- ==== Sys2Proof/Machine/Flags.lean ====
section
/-! DEFINITION. Comparisons and the total orders of elements: the predicates of VCMP (R231), greatest and least (R229,
R236), the ranking of VTOPK (R238). The machine has no arithmetic flags. -/

namespace Sys2Proof.Machine

/-- The predicate FN[2:0] of VCMP on two decoded values (R231). -/
def cmpPred (p : Nat) (a b : Val) : Bool :=
  let nan := a.isNaN || b.isNaN
  match p with
  | 0 => a.eqv b
  | 1 => !a.eqv b
  | 2 => a.lt b
  | 3 => !nan && !b.lt a
  | 4 => b.lt a
  | 5 => !nan && !a.lt b
  | 6 => nan
  | _ => !nan

/-- Whether a ranks strictly above b among values: greater first, NaN above all, zeros equal, NaNs equal (R238). -/
def ranksAbove (a b : Val) : Bool :=
  if a.isNaN then !b.isNaN else if b.isNaN then false else b.lt a

/-- An entry of a top-k list: its value, its bits and its index. -/
structure TopEntry where
  val : Val
  bits : Nat
  index : Nat
deriving DecidableEq, Repr

/-- The order of VTOPK: value first, then the lower index (R238). -/
def TopEntry.before (a b : TopEntry) : Bool :=
  ranksAbove a.val b.val || (!ranksAbove b.val a.val && a.index < b.index)

/-- An entry put into a list in rank order, after those it does not precede: of two of equal value and index the one that stands
first among the candidates comes first (R238; DESIGN CHOICE, log entry 33). -/
def topInsert (a : TopEntry) : List TopEntry → List TopEntry
  | [] => [a]
  | b :: r => if a.before b then a :: b :: r else b :: topInsert a r

/-- The first k of a list of candidates in rank order. -/
def topK (k : Nat) (l : List TopEntry) : List TopEntry := (l.foldl (fun acc a => (topInsert a acc).take k) []).take k

/-- What VRMAX and VRMIN give with no included element (R236). -/
def emptyExtreme (f : Nat) (big : Bool) : Nat :=
  if isIntegerFmt f then intEnc f true (if big then (intRange f).1 else (intRange f).2)
  else infinityEnc f big

end Sys2Proof.Machine
end

