-- ==== Sys2Proof/Machine/Trans.lean ====
section
/-! DEFINITION. Correctly rounded functions (R230): rational bounds of rising precision around the exact value, rounded
once when both ends round alike (log entry 12). -/

namespace Sys2Proof.Machine

/-- A non-negative rational: numerator and denominator. -/
structure Ratio where
  num : Nat
  den : Nat
deriving DecidableEq, Repr

/-- A ratio of a finite magnitude. -/
def magRatio (m : Nat) (e : Int) : Ratio := if 0 ≤ e then ⟨m * 2 ^ e.toNat, 1⟩ else ⟨m, 2 ^ (-e).toNat⟩

/-- Round of a signed ratio; a zero numerator is a zero. -/
def roundFrac (f : Nat) (mode : RMode) (sat neg : Bool) (q : Ratio) : Nat :=
  if q.num = 0 then (if isIntegerFmt f then 0 else zeroEnc f neg) else roundRatio f mode sat neg q.num q.den

/-- ⌈a / b⌉ of naturals. -/
def divUp (a b : Nat) : Nat := (a + b - 1) / b

/-- Rounding of a value known by bounds at each precision: `fuel` doublings from `bits`. -/
def roundBounds (f : Nat) (mode : RMode) (sat neg : Bool) (bounds : Nat → Ratio × Ratio) (key : Nat) : Nat → Nat → Nat
  | 0, _ => Config.unresolvedRounding f key
  | fuel + 1, bits =>
    let (lo, hi) := bounds bits
    let a := roundFrac f mode sat neg lo
    if a = roundFrac f mode sat neg hi then a else roundBounds f mode sat neg bounds key fuel (2 * bits)

/-- Sums of the exponential series on bounds of y in fixed point of q bits: terms and sums, low and high. -/
def expSeries (q ylo yhi : Nat) : Nat → Nat → Nat → Nat → Nat → Nat → Nat × Nat
  | 0, _, _, thi, slo, shi => (slo, shi + 2 * thi + 2)
  | fuel + 1, i, tlo, thi, slo, shi =>
    if thi ≤ 1 then (slo, shi + 2 * thi + 2)
    else
      let tlo' := tlo * ylo / 2 ^ q / i
      let thi' := divUp (divUp (thi * yhi) (2 ^ q)) i
      expSeries q ylo yhi fuel (i + 1) tlo' thi' (slo + tlo') (shi + thi')

/-- Bounds squared s times. -/
def expSquare (q : Nat) : Nat → Nat × Nat → Nat × Nat
  | 0, p => p
  | s + 1, p => expSquare q s (p.1 * p.1 / 2 ^ q, divUp (p.2 * p.2) (2 ^ q))

/-- Bounds of e^x for x ≥ 0, below 2^12, at a precision: x is divided by 2^14 for the series. -/
def expBounds (x : Ratio) (bits : Nat) : Ratio × Ratio :=
  let q := bits + 32
  let ylo := x.num * 2 ^ q / (x.den * 2 ^ 14)
  let yhi := divUp (x.num * 2 ^ q) (x.den * 2 ^ 14)
  let one := 2 ^ q
  let (lo, hi) := expSquare q 14 (expSeries q ylo yhi (q + 2) 1 one one one one)
  (⟨lo, one⟩, ⟨hi, one⟩)

/-- 2^-4096 as a ratio: smaller than every step of every format, and so are its multiples. -/
def tinyRatio : Ratio := ⟨1, 2 ^ 4096⟩

/-- Whether a ratio is at least a natural. -/
def Ratio.geNat (x : Ratio) (n : Nat) : Bool := n * x.den ≤ x.num

/-- Bounds of e^x or of 1 / e^x for x > 0 (R230): beyond 2^12 stand-ins that round as the exact value does. -/
def expVal (neg : Bool) (x : Ratio) (bits : Nat) : Ratio × Ratio :=
  if x.geNat 4096 then (if neg then (tinyRatio, tinyRatio) else (⟨2 ^ 4096, 1⟩, ⟨2 ^ 4096, 1⟩))
  else
    let (lo, hi) := expBounds x bits
    if neg then (⟨hi.den, hi.num⟩, ⟨lo.den, lo.num⟩) else (lo, hi)

/-- Bounds of tanh x for x > 0. -/
def tanhBounds (x : Ratio) (bits : Nat) : Ratio × Ratio :=
  if x.geNat 2048 then (⟨2 ^ 4096 - 1, 2 ^ 4096⟩, ⟨2 ^ 4096 - 1, 2 ^ 4096⟩)
  else
    let (lo, hi) := expBounds ⟨2 * x.num, x.den⟩ bits
    (⟨lo.num - lo.den, lo.num + lo.den⟩, ⟨hi.num - hi.den, hi.num + hi.den⟩)

/-- Bounds of 1 / (1 + e^(−x)), x > 0, or of 1 / (1 + e^x) where neg. -/
def sigmBounds (neg : Bool) (x : Ratio) (bits : Nat) : Ratio × Ratio :=
  if x.geNat 4096 then
    (if neg then (tinyRatio, tinyRatio) else (⟨2 ^ 4096 - 1, 2 ^ 4096⟩, ⟨2 ^ 4096 - 1, 2 ^ 4096⟩))
  else
    let (lo, hi) := expBounds x bits
    if neg then (⟨hi.den, hi.num + hi.den⟩, ⟨lo.den, lo.num + lo.den⟩)
    else (⟨lo.num, lo.num + lo.den⟩, ⟨hi.num, hi.num + hi.den⟩)

/-- Sums of z + z³/3 + z⁵/5 + … on bounds of z² and of the odd powers, fixed point of q bits. -/
def atanhSeries (q wlo whi : Nat) : Nat → Nat → Nat → Nat → Nat → Nat → Nat × Nat
  | 0, _, _, phi, slo, shi => (slo, shi + 2 * phi + 2)
  | fuel + 1, i, plo, phi, slo, shi =>
    if phi ≤ 1 then (slo, shi + 2 * phi + 2)
    else
      let plo' := plo * wlo / 2 ^ q
      let phi' := divUp (phi * whi) (2 ^ q)
      atanhSeries q wlo whi fuel (i + 2) plo' phi' (slo + plo' / i) (shi + divUp phi' i)

/-- Bounds of atanh (num / den) at q bits for a ratio at most 1/3. -/
def atanhBounds (q num den : Nat) : Nat × Nat :=
  if num = 0 then (0, 0)
  else
    let zlo := num * 2 ^ q / den
    let zhi := divUp (num * 2 ^ q) den
    atanhSeries q (zlo * zlo / 2 ^ q) (divUp (zhi * zhi) (2 ^ q)) (q + 2) 3 zlo zhi zlo zhi

/-- Bounds of |ln x| for x > 0 other than 1: k·ln 2 + ln f with 1 ≤ f < 2. -/
def logBounds (x : Ratio) (bits : Nat) : Ratio × Ratio :=
  let q := bits + 32
  let k := ratioLog2 x.num x.den
  let fn := if 0 ≤ k then x.num else x.num * 2 ^ (-k).toNat
  let fd := if 0 ≤ k then x.den * 2 ^ k.toNat else x.den
  let (alo, ahi) := atanhBounds q (fn - fd) (fn + fd)
  let (tlo, thi) := atanhBounds q 1 3
  let lo : Int := if 0 ≤ k then k * tlo + alo else k * thi + alo
  let hi : Int := if 0 ≤ k then k * thi + ahi else k * tlo + ahi
  if 0 ≤ k then (⟨(2 * lo).toNat, 2 ^ q⟩, ⟨(2 * hi).toNat, 2 ^ q⟩)
  else (⟨(-(2 * hi)).toNat, 2 ^ q⟩, ⟨(-(2 * lo)).toNat, 2 ^ q⟩)

/-- The integer square root and whether it is exact. -/
def sqrtExact (n : Nat) : Nat × Bool := (Nat.sqrt n, Nat.sqrt n * Nat.sqrt n == n)

/-- Bounds of √x: the exact root where it is a ratio. -/
def sqrtBounds (x : Ratio) (bits : Nat) : Ratio × Ratio :=
  let n := x.num * x.den * 2 ^ (2 * bits)
  let (r, ex) := sqrtExact n
  (⟨r, x.den * 2 ^ bits⟩, ⟨if ex then r else r + 1, x.den * 2 ^ bits⟩)

/-- Bounds of 1 / √x. -/
def rsqrtBounds (x : Ratio) (bits : Nat) : Ratio × Ratio :=
  let (lo, hi) := sqrtBounds x bits
  (⟨hi.den, hi.num⟩, ⟨lo.den, if lo.num = 0 then 1 else lo.num⟩)

/-- The functions of R230. -/
inductive Fun where
  | exp | log | rcp | rsq | sqrt | tanh | sigm
deriving DecidableEq, Repr

/-- A function of R230 of an exact value, rounded into G (R230). -/
def funRound (fn : Fun) (g : Nat) (mode : RMode) (sat : Bool) (key : Nat) (v : Val) : Nat :=
  let val (w : Val) : Nat := roundVal g mode sat w
  let one : Val := .fin false 1 0
  match v with
  | .nan => val .nan
  | .inf neg =>
    match fn with
    | .exp => val (if neg then .fin false 0 0 else .inf false)
    | .log => val (if neg then .nan else .inf false)
    | .rcp => val (.fin neg 0 0)
    | .rsq => val (if neg then .nan else .fin false 0 0)
    | .sqrt => val (if neg then .nan else .inf false)
    | .tanh => val (.fin neg 1 0)
    | .sigm => val (if neg then .fin false 0 0 else one)
  | .fin neg 0 _ =>
    match fn with
    | .exp => val one
    | .log => val (.inf true)
    | .rcp => val (.inf neg)
    | .rsq => val (.inf neg)
    | .sqrt => val (.fin neg 0 0)
    | .tanh => val (.fin neg 0 0)
    | .sigm => val (.fin false 1 (-1))
  | .fin neg (m + 1) e =>
    let x := magRatio (m + 1) e
    let go (neg : Bool) (b : Nat → Ratio × Ratio) : Nat := roundBounds g mode sat neg b key 9 64
    match fn with
    | .exp => go false (expVal neg x)
    | .log =>
      if neg then val .nan
      else if x.num = x.den then val (.fin false 0 0)
      else go (x.num < x.den) (logBounds x)
    | .rcp => roundFrac g mode sat neg ⟨x.den, x.num⟩
    | .rsq => if neg then val .nan else go false (rsqrtBounds x)
    | .sqrt => if neg then val .nan else go false (sqrtBounds x)
    | .tanh => go neg (tanhBounds x)
    | .sigm => go false (sigmBounds neg x)

end Sys2Proof.Machine
end

