-- ==== Sys2Proof/Machine/Vector.lean ====
section
/-! DEFINITION. The vector engine (R216 to R247): elements read, results formed, elements written, for one vector issue
of each record. -/

namespace Sys2Proof.Machine

/-- Indices of vector issue n with i0 = 0 (R216). -/
def vecIdx (r : Rec) (n : Nat) : Idx := ⟨n / r.t1.toNat / r.t2.toNat, n / r.t1.toNat % r.t2.toNat, n % r.t1.toNat, 0⟩

/-- The linear index of element 0 of issue n (R216). -/
def vecL0 (r : Rec) (n : Nat) : Nat := n * r.t0.toNat

/-- The formats F a record accepts (R227). -/
def vecAccepts (i : Instr) (f : Nat) : Bool :=
  match i with
  | .vadd _ | .vsub _ | .vmul _ | .vmin _ | .vmax _ | .vabs _ | .vneg _ | .vcmp _ | .vcvt _ | .vrsum _ | .vrmax _
  | .vrmin _ | .vscan _ | .vfill _ => 1 ≤ f && f ≤ 9
  | .vsel _ | .vcopy _ => (1 ≤ f && f ≤ 9) || f == 15
  | .vtopk _ | .vcomp _ | .vexpand _ => (1 ≤ f && f ≤ 7) || f == 9
  | .vand _ | .vor _ | .vxor _ | .vnot _ | .vshl _ | .vshr _ => 6 ≤ f && f ≤ 9
  | .vband _ | .vpopc _ | .visect _ => f == 15
  | .vclmul _ => f == 9
  | .viota _ => (1 ≤ f && f ≤ 3) || f == 6 || f == 7 || f == 9
  | .vdrop _ => f == 0
  | _ => 1 ≤ f && f ≤ 5

/-- G under DW (R224). -/
def dwFormat (f dw : Nat) : Nat :=
  if dw = 0 then f else if isIntegerFmt f then 9 else match dw with
    | 1 => 1
    | 2 => 3
    | _ => 2

/-- The format of D by the table of R227; VCLMUL's 64-bit element counts as 0 here. -/
def vecG (i : Instr) (r : Rec) : Nat :=
  let f := vecF i r
  match i with
  | .vcmp _ | .vdrop _ | .vband _ => 15
  | .vpopc _ => 9
  | .vcvt _ => r.b.base.toNat / 4
  | .vclmul _ => if r.fn = 1 then 9 else 0
  | .vadd _ | .vsub _ | .vmul _ | .vfma _ | .vdiv _ | .vmin _ | .vmax _ | .vabs _ | .vneg _ | .vexp _ | .vlog _
  | .vrcp _ | .vrsq _ | .vtanh _ | .vsigm _ | .vsqrt _ | .vrsum _ | .vscan _ => dwFormat f (r.fn.toNat / 8)
  | _ => f

/-- Element width of D in bits. -/
def vecDWidth (i : Instr) (r : Rec) : Nat := if vecG i r = 0 then 64 else fmtWidth (vecG i r)

/-- The bits of slot M (R223). -/
def vecMask (st : Strand) (r : Rec) : BitVec 65536 := (st.maskAt r.msk.toNat).bits

/-- Whether an element takes part under slot M. -/
def included (st : Strand) (r : Rec) (l : Nat) : Bool := r.msk = 0 || (vecMask st r).getLsbD l

/-! ### Reading -/

/-- Element e of the rows popped for an issue (R220). -/
def queueElem (buf : List Row) (w e : Nat) : Nat := elemAt ((buf.getD (e / (1024 / w)) 0).toNat) w (e % (1024 / w))

/-- The bits of the element at position p of an operand, for element width w. -/
def vecElem (s : State) (key : Nat) (st : Strand) (o : Op) (sl : Slot) (w : Nat) (i : Idx) (l0 p : Nat) : Res Nat :=
  match kindOf o.r sl with
  | 2 => .ok ((st.maskAt ((opdOf o.r sl).base.toNat - 32)).bits.getLsbD p).toNat
  | 3 => .ok (queueElem o.buf w p)
  | _ =>
    let sp := o.spot sl i w p
    match sramKey s key sp.addr false sl (l0 + p) with
    | .error e => .error e
    | .ok k => .ok (spotRead s.mem k sp.bit w)

/-- The modifier of a slot. -/
def slotMod (r : Rec) : Slot → BitVec 12
  | .b => r.modb
  | .a => r.moda
  | _ => 0

/-- The T0 elements of an operand after its modifier (R136, R216). -/
def vecElems (s : State) (key : Nat) (st : Strand) (o : Op) (sl : Slot) (w : Nat) (i : Idx) (l0 : Nat) : Res (List Nat) :=
  resMap (fun e => vecElem s key st o sl w i l0 (modSource (slotMod o.r sl) e)) (List.range o.r.t0.toNat)

/-- Elements of operand B where it is used, zeros otherwise. -/
def vecElemsB (s : State) (key : Nat) (st : Strand) (o : Op) (w : Nat) (i : Idx) (l0 : Nat) : Res (List Nat) :=
  if o.r.bk = 0 then .ok (List.replicate o.r.t0.toNat 0) else vecElems s key st o .b w i l0

/-! ### Writing -/

/-- What an issue writes: elements of D by position i0, bytes at addresses with the linear index a fault there names, and
a fault found after the writes. -/
structure VecOut where
  puts : List (Nat × Nat)
  raw : List (Nat × Nat × List Byte)
  late : Option Raise

/-- Element writes. -/
def VecOut.elems (l : List (Nat × Nat)) : VecOut := ⟨l, [], none⟩

/-- Elements of D written to memory: all places are resolved before any is written (R218, R219). They are written in ascending
order, so of several elements at one place the highest stays (DESIGN CHOICE, log entry 32). -/
def vecStore (s : State) (key : Nat) (o : Op) (w : Nat) (i : Idx) (l0 : Nat) (puts : List (Nat × Nat)) : Res State :=
  match resMap (fun p : Nat × Nat =>
      let sp := o.spot .d i w p.1
      match sramKey s key sp.addr true .d (l0 + p.1) with
      | .error e => .error e
      | .ok k => .ok (k, sp.bit, p.2)) puts with
  | .error e => .error e
  | .ok ws => .ok (s.setMem (ws.foldl (fun m p => spotWrite m p.1 p.2.1 w p.2.2) s.mem))

/-- Bytes written at addresses, each within a row. A header row's count is named by the first element of its issue, and
entry, pair or output c by element c of it (R219; DEDUCED, log entry 50). -/
def rawStore (s : State) (key : Nat) (raw : List (Nat × Nat × List Byte)) : Res State :=
  match resMap (fun p : Nat × Nat × List Byte =>
      match sramKey s key p.1 true .d p.2.1 with
      | .error e => .error e
      | .ok k => .ok (k, p.2.2)) raw with
  | .error e => .error e
  | .ok ws => .ok (s.setMem (ws.foldl (fun m p => writeBytes m p.1 p.2) s.mem))

/-- The elements of an issue by position, 0 where none is given: so a push of VEXPAND with ZERO = 0 holds 0 in the
elements that are not selected, which R245 calls unchanged (DESIGN CHOICE, log entry 50). -/
def putsAt (puts : List (Nat × Nat)) (n : Nat) : List Nat :=
  (List.range n).map (fun e => match puts.find? (fun p => p.1 = e) with
    | some p => p.2
    | none => 0)

/-- A vector issue's results delivered to D. `cnt` is how many elements D has. -/
def vecDeliver (s : State) (key : Nat) (st : Strand) (o : Op) (w : Nat) (i : Idx) (l0 cnt : Nat) (v : VecOut) :
    IssueRes :=
  let o' := { o with buf := [], n := o.n + 1, late := v.late }
  match o.r.dk.toNat with
  | 2 =>
    let k : MaskReg := ⟨15, BitVec.ofNat 65536 (packElems 1 (putsAt v.puts cnt))⟩
    .ok (s.setStrand key (st.setMask (o.r.d.base.toNat - 32) k), o')
  | 3 => .ok (s, { o' with out := packRows w (putsAt v.puts cnt) })
  | _ =>
    match vecStore s key o w i l0 v.puts with
    | .error e => .error e
    | .ok s1 =>
      match rawStore s1 key v.raw with
      | .error e => .error e
      | .ok s2 => .ok (s2, o')

/-! ### Elementwise arithmetic (R225, R229) -/

/-- A quotient rounded once (R225). -/
def divRound (g : Nat) (mode : RMode) (sat : Bool) (a b : Val) : Nat :=
  match a, b with
  | .nan, _ => canonicalNaN g
  | _, .nan => canonicalNaN g
  | .inf _, .inf _ => canonicalNaN g
  | .inf n, .fin k _ _ => roundVal g mode sat (.inf (n != k))
  | .fin n _ _, .inf k => roundVal g mode sat (.fin (n != k) 0 0)
  | .fin n m e, .fin k l f =>
    if l = 0 then (if m = 0 then canonicalNaN g else roundVal g mode sat (.inf (n != k)))
    else if m = 0 then roundVal g mode sat (.fin (n != k) 0 0)
    else
      let d := e - f
      roundFrac g mode sat (n != k) (if 0 ≤ d then ⟨m * 2 ^ d.toNat, l⟩ else ⟨m, l * 2 ^ (-d).toNat⟩)

/-- The exact value of an elementwise record on decoded values. -/
def arithVal (i : Instr) (a b d : Val) : Val :=
  match i with
  | .vadd _ => a.add b
  | .vsub _ => a.sub b
  | .vmul _ => a.mul b
  | .vfma _ => (a.mul b).add d
  | .vmin _ => a.min b
  | .vmax _ => a.max b
  | .vabs _ => a.abs
  | .vneg _ => a.negate
  | _ => .nan

/-- The exact integer of an elementwise record. -/
def arithInt (i : Instr) (a b : Int) : Int :=
  match i with
  | .vadd _ => a + b
  | .vsub _ => a - b
  | .vmul _ => a * b
  | .vmin _ => min a b
  | .vmax _ => max a b
  | .vabs _ => a.natAbs
  | .vneg _ => -a
  | _ => 0

/-- The function of a record of R230. -/
def funOf : Instr → Option Fun
  | .vexp _ => some .exp
  | .vlog _ => some .log
  | .vrcp _ => some .rcp
  | .vrsq _ => some .rsq
  | .vsqrt _ => some .sqrt
  | .vtanh _ => some .tanh
  | .vsigm _ => some .sigm
  | _ => none

/-- One element of a record marked R (R224, R225, R229, R230). -/
def arithElem (i : Instr) (f g : Nat) (mode : RMode) (sat : Bool) (a b d : Nat) : Nat :=
  if isIntegerFmt f then intEnc g sat (arithInt i (decodeInteger f a) (decodeInteger f b))
  else
    match funOf i with
    | some fn => funRound fn g mode sat a (decodeVal f a)
    | none =>
      match i with
      | .vdiv _ => divRound g mode sat (decodeVal f a) (decodeVal f b)
      | _ => roundVal g mode sat (arithVal i (decodeVal f a) (decodeVal f b) (decodeVal g d))

/-- Carry-less product (R241). -/
def clmul (a b : Nat) : Nat := (List.range 32).foldl (fun p j => if a.testBit j then Nat.xor p (b <<< j) else p) 0

/-- One element of a bitwise record or shift (R240). -/
def bitElem (i : Instr) (r : Rec) (f w a b : Nat) : Nat :=
  match i with
  | .vand _ => Nat.land a b
  | .vor _ => Nat.lor a b
  | .vxor _ => Nat.xor a b
  | .vnot _ => 2 ^ w - 1 - a % 2 ^ w
  | .vshl _ => a <<< (b % w) % 2 ^ w
  | _ =>
    if r.fn = 1 || f = 7 then a >>> (b % w)
    else (signedOf w a / (2 ^ (b % w) : Nat) % (2 ^ w : Nat)).toNat

/-! ### Reductions and scans -/

/-- The pairing of R234 over one level. -/
def pairLevel (comb : α → α → α) : List (Option α) → List (Option α)
  | [] => []
  | [x] => [x]
  | x :: y :: r =>
    (match x, y with
      | some a, some b => some (comb a b)
      | some a, none => some a
      | none, y => y) :: pairLevel comb r

/-- The fixed tree of R234: absent positions are none. -/
def reduceTree (comb : α → α → α) : Nat → List (Option α) → Option α
  | 0, l => l.headD none
  | fuel + 1, l => if l.length ≤ 1 then l.headD none else reduceTree comb fuel (pairLevel comb l)

/-- A sum in FP32 under RNE and NSAT of values (R234). -/
def sum32 (a b : Val) : Val := decodeFloat 1 (roundVal 1 .rne false (a.add b))

/-- VRSUM of an issue (R234). -/
def vrsumVal (f g rnd : Nat) (sat : Bool) (o : Op) (l0 : Nat) (els : List (Option Nat)) : Nat :=
  if isIntegerFmt f then intEnc g sat ((els.map (fun e => match e with
    | some v => decodeInteger f v
    | none => 0)).foldl (· + ·) 0)
  else
    roundVal g (o.mode rnd l0) sat
      ((reduceTree sum32 (els.length + 1) (els.map (Option.map (decodeVal f)))).getD (.fin false 0 0))

/-- VRMAX and VRMIN of an issue (R236). -/
def extremeVal (f : Nat) (big : Bool) (els : List Nat) : Nat :=
  if els.any (fun v => (decodeVal f v).isNaN) then canonicalNaN f
  else
    match els with
    | [] => emptyExtreme f big
    | v :: r => r.foldl (fun best x =>
        if (if big then (decodeVal f best).below (decodeVal f x) else (decodeVal f x).below (decodeVal f best)) then x
        else best) v

/-- The running values of VSCAN: before and after each element (R237). -/
def scanVals (step : Val → Nat → Val) : Val → List (Option Nat) → List (Val × Val)
  | _, [] => []
  | run, e :: r =>
    let next := match e with
      | some v => step run v
      | none => run
    (run, next) :: scanVals step next r

/-- The value a scan starts from (R237). -/
def scanStart (f op : Nat) : Val :=
  if op = 0 then .fin false 0 0
  else if isIntegerFmt f then .ofInt (if op = 1 then (intRange f).1 else (intRange f).2)
  else .inf (op = 1)

/-- One step of a scan (R237). -/
def scanStep (f op : Nat) (run : Val) (v : Nat) : Val :=
  let x := decodeVal f v
  match op with
  | 0 => if isIntegerFmt f then run.add x else sum32 run x
  | 1 => run.max x
  | _ => run.min x

/-- A scan's output in G: integers keep their low bits (R53, R237). -/
def scanOut (f g : Nat) (v : Val) : Nat :=
  if isIntegerFmt f then intEnc g false v.dy.m else roundVal g .rne false v

/-! ### Records with header rows -/

/-- The header row of an issue: the row that holds D's address for i0 = 0 (R238, R244, R245). -/
def vecHeader (s : State) (key : Nat) (o : Op) (i : Idx) (l0 : Nat) : Res (Nat × Row) :=
  let a := rowOf (o.addr .d i)
  match sramKey s key a false .d l0 with
  | .error e => .error e
  | .ok k => .ok (a, readRow s.mem k)

/-- An entry of a top-k list read at an address (R238). -/
def topRead (s : State) (key : Nat) (o : Op) (i : Idx) (f l0 p : Nat) : Res TopEntry :=
  let a := o.addr .a { i with i0 := p } / 8 * 8
  match sramKey s key a false .a (l0 + p), sramKey s key (addrPlus a 8) false .a (l0 + p) with
  | .ok k, .ok k1 =>
    let v := readNat s.mem k 8 % 2 ^ fmtWidth f
    .ok ⟨decodeVal f v, v, readNat s.mem k1 8⟩
  | .error e, _ => .error e
  | _, .error e => .error e

/-- VTOPK of an issue (R238). -/
def topOut (s : State) (key : Nat) (st : Strand) (o : Op) (f : Nat) (i : Idx) (l0 : Nat) : Res VecOut :=
  match vecHeader s key o i l0 with
  | .error e => .error e
  | .ok (hdr, row) =>
    let k := rowNat row 4 4
    let ibase := rowNat row 8 8
    if k = 0 || k > 1024 then raiseAt .format .d l0
    else
      let cand (e : Nat) : Res TopEntry :=
        let p := modSource o.r.moda e
        if o.r.fn.getLsbD 1 then topRead s key o i f l0 p
        else match vecElem s key st o .a (fmtWidth f) i l0 p with
          | .error x => .error x
          | .ok v => .ok ⟨decodeVal f v, v, (ibase + e) % 2 ^ 64⟩
      match resMap (fun e => match cand e with
          | .error x => .error x
          | .ok c => .ok (e, c)) (List.range o.r.t0.toNat) with
      | .error x => .error x
      | .ok cs =>
        let kept := (cs.filter (fun p => included st o.r (l0 + p.1) &&
          !(o.r.fn.getLsbD 0 && p.2.val.isNaN))).map (·.2)
        let top := topK k kept
        let entries := top.zipIdx.map (fun p =>
          (addrPlus hdr (128 + 16 * p.2 : Nat), l0 + p.2, leBytes 8 p.1.bits ++ leBytes 8 p.1.index))
        .ok ⟨[], (hdr, l0, leBytes 4 top.length) :: entries, none⟩

/-- One position of VISECT's walk: ranks, pairs found, and the first bit that did not fit (R244). -/
structure Isect where
  ra : Nat
  rb : Nat
  c : Nat
  pairs : List (Nat × Nat)
  first : Option Nat

/-- The walk of VISECT. -/
def isectStep (cap l0 : Nat) (z : Isect) (p : Nat × Nat × Nat) : Isect :=
  let hit := p.2.1 = 1 && p.2.2 = 1
  let z1 := if hit then
      { z with c := z.c + 1
               pairs := if z.c < cap then z.pairs ++ [(z.ra, z.rb)] else z.pairs
               first := if z.c = cap then some (l0 + p.1) else z.first }
    else z
  { z1 with ra := (z1.ra + p.2.1) % 2 ^ 32, rb := (z1.rb + p.2.2) % 2 ^ 32 }

/-- VISECT of an issue (R244). -/
def isectOut (s : State) (key : Nat) (st : Strand) (o : Op) (i : Idx) (l0 : Nat) : Res VecOut :=
  match vecHeader s key o i l0, vecElems s key st o .a 1 i l0, vecElems s key st o .b 1 i l0 with
  | .ok (hdr, row), .ok as, .ok bs =>
    let z := ((List.range o.r.t0.toNat).zip (as.zip bs)).foldl (isectStep (rowNat row 4 4) l0)
      ⟨rowNat row 8 4, rowNat row 12 4, 0, [], none⟩
    let pairs := z.pairs.zipIdx.map (fun p =>
      (addrPlus hdr (128 + 8 * p.2 : Nat), l0 + p.2, leBytes 4 p.1.1 ++ leBytes 4 p.1.2))
    .ok ⟨[], (hdr, l0, leBytes 4 z.c) :: pairs, z.first.map (fun l => ⟨.compactOvf, .d, l⟩)⟩
  | .error e, _, _ => .error e
  | _, .error e, _ => .error e
  | _, _, .error e => .error e

/-- The selector bits of VCOMP and VEXPAND (R245). -/
def selectors (s : State) (key : Nat) (st : Strand) (o : Op) (i : Idx) (l0 : Nat) : Res (List Bool) :=
  if o.r.bk = 1 then
    match vecElems s key st o .b 1 i l0 with
    | .error e => .error e
    | .ok bs => .ok (bs.map (· = 1))
  else .ok ((List.range o.r.t0.toNat).map (fun e => included st o.r (l0 + e)))

/-- VCOMP of an issue (R245). -/
def compOut (s : State) (key : Nat) (st : Strand) (o : Op) (f : Nat) (i : Idx) (l0 : Nat) : Res VecOut :=
  match vecHeader s key o i l0, selectors s key st o i l0, vecElems s key st o .a (fmtWidth f) i l0 with
  | .ok (hdr, row), .ok sel, .ok as =>
    let picked := ((List.range o.r.t0.toNat).zip (sel.zip as)).filter (fun p => p.2.1)
    let cap := rowNat row 4 4
    let outs := (picked.take cap).zipIdx.map (fun p =>
      (addrPlus (o.spot .d i (fmtWidth f) p.2).addr 128, l0 + p.2, leBytes (fmtWidth f / 8) p.1.2.2))
    .ok ⟨[], (hdr, l0, leBytes 4 picked.length) :: outs,
      match picked[cap]? with
      | some p => some ⟨.compactOvf, .d, l0 + p.1⟩
      | none => none⟩
  | .error e, _, _ => .error e
  | _, .error e, _ => .error e
  | _, _, .error e => .error e

/-- VEXPAND: how many selected elements stand before each position. -/
def countBefore : Nat → List Bool → List (Bool × Nat)
  | _, [] => []
  | c, b :: r => (b, c) :: countBefore (if b then c + 1 else c) r

/-- VEXPAND of an issue (R245). A fault of A names the position c among the elements of A (R219; DESIGN CHOICE, log entry 33). -/
def expandOut (s : State) (key : Nat) (st : Strand) (o : Op) (f : Nat) (i : Idx) (l0 : Nat) : Res VecOut :=
  match selectors s key st o i l0 with
  | .error e => .error e
  | .ok sel =>
    match resMap (fun p : Nat × (Bool × Nat) =>
        if p.2.1 then
          match vecElem s key st o .a (fmtWidth f) i l0 (modSource o.r.moda p.2.2) with
          | .error e => .error e
          | .ok v => .ok (some (p.1, v))
        else .ok (if o.r.fn = 1 then some (p.1, 0) else none))
        ((List.range o.r.t0.toNat).zip (countBefore 0 sel)) with
    | .error e => .error e
    | .ok vs => .ok (.elems (vs.filterMap id))

/-- VCOPY of an issue: by element number, or by the index B gives (R246). A fault of A at an index of B names the element of the
output (R219; DESIGN CHOICE, log entry 33). -/
def copyOut (s : State) (key : Nat) (st : Strand) (o : Op) (f : Nat) (i : Idx) (l0 : Nat) : Res VecOut :=
  let w := fmtWidth f
  let t0 := o.r.t0.toNat
  let keep (vs : List Nat) : VecOut :=
    .elems (((List.range t0).zip vs).filter (fun p => included st o.r (l0 + p.1)))
  if o.r.fn = 1 then
    match vecElems s key st o .b 32 i l0 with
    | .error e => .error e
    | .ok xs =>
      match resMap (fun p : Nat × Nat =>
          if p.2 = 2 ^ 32 - 1 then .ok 0
          else
            let q := modSource o.r.moda p.2
            if o.r.ak = 3 then .ok (if q < t0 then queueElem o.buf w q else 0)
            else
              let sp := o.spot .a i w q
              match sramKey s key sp.addr false .a (l0 + p.1) with
              | .error e => .error e
              | .ok k => .ok (spotRead s.mem k sp.bit w)) ((List.range t0).zip xs) with
      | .error e => .error e
      | .ok vs => .ok (keep vs)
  else
    match vecElems s key st o .a w i l0 with
    | .error e => .error e
    | .ok vs => .ok (keep vs)

/-- VDROP of an issue (R239). MODA has no elements to permute in a parameter row and is ignored, and the FORMAT of a reserved
byte that is not zero names the first element of the issue (DESIGN CHOICE, log entry 50). -/
def dropOut (s : State) (key : Nat) (o : Op) (i : Idx) (l0 : Nat) : Res VecOut :=
  match sramKey s key (rowOf (o.addr .a i)) false .a l0 with
  | .error e => .error e
  | .ok k =>
    let row := readRow s.mem k
    if rowNat row 14 2 ≠ 0 then raiseAt .format .a l0
    else
      let p := rowNat row 12 2
      let keep (e : Nat) : Bool :=
        p = 0 || stochR (recordKey (BitVec.ofNat 64 (rowNat row 0 8)) (rowNat row 8 4)
          ((rowNat row 16 8 + e) % 2 ^ 64)) < p
      .ok (.elems ((List.range o.r.t0.toNat).map (fun e => (e, (keep e).toNat))))

/-- VPOPC of an issue (R243). -/
def popcOut (s : State) (key : Nat) (st : Strand) (o : Op) (i : Idx) (l0 : Nat) : Res VecOut :=
  match vecElems s key st o .a 1 i l0 with
  | .error e => .error e
  | .ok bits =>
    let count (n : Nat) : Nat := (bits.take n).foldl (· + ·) 0 % 2 ^ 32
    .ok (.elems ((List.range (ceilDiv o.r.t0.toNat 32)).map (fun j =>
      (j, count (if o.r.fn = 1 then 32 * j + 32 else 32 * j)))))

/-! ### One issue -/

/-- Elements of an issue that slot M includes. -/
def included? (st : Strand) (o : Op) (l0 : Nat) (els : List Nat) : List (Option Nat) :=
  ((List.range o.r.t0.toNat).zip els).map (fun p => if included st o.r (l0 + p.1) then some p.2 else none)

/-- Elementwise results under slot M as a write (R223). -/
def eachOut (st : Strand) (o : Op) (l0 : Nat) (f : Nat → Nat → Nat → Nat) (as bs : List Nat) : VecOut :=
  .elems ((((List.range o.r.t0.toNat).zip (as.zip bs)).filter (fun p => included st o.r (l0 + p.1))).map
    (fun p => (p.1, f p.1 p.2.1 p.2.2)))

/-- The results of an issue of a vector record. -/
def vecOut (s : State) (key : Nat) (st : Strand) (o : Op) (i : Idx) (l0 : Nat) : Res VecOut :=
  let r := o.r
  let f := vecF o.ins r
  let g := vecG o.ins r
  let w := fmtWidth f
  let two (h : Nat → Nat → Nat → Nat) : Res VecOut :=
    match vecElems s key st o .a w i l0, vecElemsB s key st o w i l0 with
    | .ok as, .ok bs => .ok (eachOut st o l0 h as bs)
    | .error e, _ => .error e
    | _, .error e => .error e
  let one (h : List Nat → VecOut) : Res VecOut :=
    match vecElems s key st o .a w i l0 with
    | .ok as => .ok (h as)
    | .error e => .error e
  match o.ins with
  | .vfma _ =>
    match vecElems s key st o .a w i l0, vecElems s key st o .b w i l0, vecElems s key st o .d (fmtWidth g) i l0 with
    | .ok as, .ok bs, .ok ds =>
      .ok (eachOut st o l0 (fun e a b =>
        arithElem o.ins f g (o.mode (fnRnd r) (l0 + e)) (fnSat r) a b (ds.getD e 0)) as bs)
    | .error e, _, _ => .error e
    | _, .error e, _ => .error e
    | _, _, .error e => .error e
  | .vcmp _ => two (fun _ a b => (cmpPred r.fn.toNat (decodeVal f a) (decodeVal f b)).toNat)
  | .vsel _ =>
    match vecElems s key st o .a w i l0, vecElems s key st o .b w i l0 with
    | .ok as, .ok bs => .ok (.elems (((List.range r.t0.toNat).zip (as.zip bs)).map
        (fun p => (p.1, if included st r (l0 + p.1) then p.2.1 else p.2.2))))
    | .error e, _ => .error e
    | _, .error e => .error e
  | .vcvt _ =>
    one (fun as => eachOut st o l0 (fun e a _ =>
      convertElem f g (o.mode (r.b.base.toNat % 4) (l0 + e)) (r.b.off.getLsbD 33) a) as as)
  | .vrsum _ => one (fun as => .elems [(0, vrsumVal f g (fnRnd r) (fnSat r) o l0 (included? st o l0 as))])
  | .vrmax _ => one (fun as => .elems [(0, extremeVal f true ((included? st o l0 as).filterMap id))])
  | .vrmin _ => one (fun as => .elems [(0, extremeVal f false ((included? st o l0 as).filterMap id))])
  | .vscan _ =>
    one (fun as =>
      let op := r.fn.toNat % 4
      let runs := scanVals (scanStep f op) (scanStart f op) (included? st o l0 as)
      .elems ((List.range r.t0.toNat).zip (runs.map (fun p => scanOut f g (if r.fn.getLsbD 2 then p.1 else p.2)))))
  | .vtopk _ => topOut s key st o f i l0
  | .vdrop _ => dropOut s key o i l0
  | .vand _ | .vor _ | .vxor _ | .vnot _ | .vshl _ | .vshr _ => two (fun _ a b => bitElem o.ins r f w a b)
  | .vclmul _ => two (fun _ a b => clmul a b % 2 ^ vecDWidth o.ins r)
  | .vband _ => two (fun _ a b => if r.fn = 1 then a * (1 - b) else a * b)
  | .vpopc _ => popcOut s key st o i l0
  | .visect _ => isectOut s key st o i l0
  | .vcomp _ => compOut s key st o f i l0
  | .vexpand _ => expandOut s key st o f i l0
  | .vcopy _ => copyOut s key st o f i l0
  | .vfill _ =>
    let z := List.replicate r.t0.toNat 0
    .ok (eachOut st o l0 (fun _ _ _ => bitsOf r.a.off.toNat 0 w) z z)
  | .viota _ =>
    let z := List.replicate r.t0.toNat 0
    .ok (eachOut st o l0 (fun e _ _ =>
      let v : Int := signedOf 32 r.a.off.toNat + (l0 + e : Nat) * r.a.s0.toInt
      if isIntegerFmt f then intEnc f false v else roundVal f .rne false (.ofInt v)) z z)
  | _ => two (fun e a b => arithElem o.ins f g (o.mode (fnRnd r) (l0 + e)) (fnSat r) a b 0)

/-- How many elements D has in an issue. -/
def vecCount (i : Instr) (r : Rec) : Nat :=
  match i with
  | .vrsum _ | .vrmax _ | .vrmin _ => 1
  | .vpopc _ => ceilDiv r.t0.toNat 32
  | _ => r.t0.toNat

/-- One vector issue (R216 to R223). -/
def vecIssue (s : State) (key : Nat) (st : Strand) (o : Op) : IssueRes :=
  let i := vecIdx o.r o.n
  let l0 := vecL0 o.r o.n
  match vecOut s key st o i l0 with
  | .error e => .error e
  | .ok v => vecDeliver s key st o (vecDWidth o.ins o.r) i l0 (vecCount o.ins o.r) v

/-- Rows an issue pops from dq.lx (R220). -/
def vecNeed (o : Op) : Nat :=
  if o.r.ak = 3 || o.r.bk = 3 then ceilDiv (o.r.t0.toNat * fmtWidth (vecF o.ins o.r)) 1024 else 0

/-- The queue's SNK must be 0 or F, named at the first element of the issue (R220). -/
def vecPopCheck (st : Strand) (o : Op) : Option Raise :=
  if dqSnk st.dqfmtlx ≠ 0 && dqSnk st.dqfmtlx ≠ vecF o.ins o.r then some ⟨.format, .q, vecL0 o.r o.n⟩ else none

/-- A mask operand that is read must carry tag 15 (R221). -/
def maskTagBad (st : Strand) (r : Rec) (sl : Slot) : Bool :=
  kindOf r sl = 2 && (st.maskAt ((opdOf r sl).base.toNat - 32)).tag ≠ 15

/-- The checks of a vector record at issue: its format, and the tags of masks it reads (R221, R222). -/
def vecStart (st : Strand) (o : Op) : Res Unit :=
  let r := o.r
  let f := vecF o.ins r
  if !vecAccepts o.ins f then raiseAt .format (if r.ak = 0 then .d else .a) 0
  else if maskTagBad st r .a then raiseAt .format .a 0
  else if maskTagBad st r .b then raiseAt .format .b 0
  else if r.msk ≠ 0 && (st.maskAt r.msk.toNat).tag ≠ 15 then raiseAt .format .m 0
  else .ok ()

end Sys2Proof.Machine
end

