-- ==== Sys2Proof/Machine/PlanValue.lean ====
section
/-! DEFINITION. The values that the operators of a plan form (R318): each on exact values, rounded once. -/

namespace Sys2Proof.Machine

/-- An operand's value: its format, its decoded elements row by row, and their encodings where it has them. -/
structure PVal where
  fmt : Nat
  rows : List (List Val)
  bits : List (List Nat)

/-- Lists of c elements cut from a list, n of them. -/
def cut {α : Type} (c : Nat) : Nat → List α → List (List α)
  | 0, _ => []
  | n + 1, l => l.take c :: cut c n (l.drop c)

/-- Element (i, j) of a value. -/
def PVal.at (v : PVal) (i j : Nat) : Val := (v.rows.getD i []).getD j .nan

/-- The value of an operator from its encodings. -/
def formedVal (o : POp) (els : List Nat) : PVal :=
  let bits := cut o.cols o.rows els
  ⟨o.fmt, bits.map (fun r => r.map (decodeVal o.fmt)), bits⟩

/-- A stored tensor row as decoded elements and, for the formats that have them, encodings (R47, R51, R311). -/
def rowVal (t : Tensor) (book : BitVec 8192) (bs : List Byte) : List Val × List Nat :=
  let f := t.fmt
  let v := leNat bs
  if f ≤ 9 then
    let els := unpackElems v (fmtWidth f) t.cols
    (els.map (decodeVal f), els)
  else if f ≤ 13 then
    let els := (List.range t.cols).map (fun j => elemAt v 8 (33 * (j / 32) + j % 32))
    ((List.range t.cols).map (fun j =>
      decodeMx f (elemAt v 8 (33 * (j / 32) + j % 32)) (elemAt v 8 (33 * (j / 32) + 32))), els)
  else
    ((List.range (t.cols / 8)).flatMap (fun q =>
      let p := 9 * (q / 4) + 2 * (q % 4)
      decodeCb2 book (numAt bs p 2) (numAt bs (9 * (q / 4) + 8) 1)), [])

/-- The stored bytes of every row of a tensor. -/
def tensorRows (s : State) (aim : Aim) (t : Tensor) : Res (List (List Byte)) :=
  resMap (fun r => planRead s aim ((t.base + r * t.pitch) % 2 ^ 64) (storedLen t.fmt t.cols)) (List.range t.rows)

/-- A tensor as a value (R318, R321). -/
def tensorVal (s : State) (aim : Aim) (t : Tensor) : Res PVal :=
  match (if t.fmt = 14 then planRead s aim t.cbaddr 1024 else .ok []) with
  | .error e => .error e
  | .ok bk =>
    match tensorRows s aim t with
    | .error e => .error e
    | .ok rs =>
      let vs := rs.map (rowVal t (BitVec.ofNat 8192 (leNat bk)))
      .ok ⟨t.fmt, vs.map (·.1), vs.map (·.2)⟩

/-! ### Rounding -/

/-- How a node rounds: format, mode code, SAT, and the seed and node index of its stochastic keys (R318). -/
structure NodeRound where
  fmt : Nat
  rnd : Nat
  sat : Bool
  seed : Word
  node : Nat

/-- The key of element g (R318). -/
def NodeRound.key (r : NodeRound) (g : Nat) : Word :=
  r.seed ^^^ BitVec.ofNat 64 (Nat.xor ((2 ^ 31 + 2 + r.node) * 2 ^ 32) (g % 2 ^ 32))

/-- The mode for element g. -/
def NodeRound.mode (r : NodeRound) (g : Nat) : RMode := rndMode r.rnd (r.key g)

/-- An exact value rounded as element g. -/
def NodeRound.round (r : NodeRound) (g : Nat) (v : Val) : Nat := roundVal r.fmt (r.mode g) r.sat v

/-! ### Quotients of exponential sums -/

/-- Terms of equal exponent: the exponent, which is at most 0, the sum of the coefficients, and how many. -/
structure ExpTerm where
  x : Dy
  c : Int
  n : Nat

/-- A term added to those of its exponent. -/
def addTerm (x : Dy) (c : Int) : List ExpTerm → List ExpTerm
  | [] => [⟨x, c, 1⟩]
  | t :: r => if (x.sub t.x).m = 0 then ⟨t.x, t.c + c, t.n + 1⟩ :: r else t :: addTerm x c r

/-- Bounds of e^x in fixed point of q bits, for x ≤ 0: below 2^−q it lies between 0 and 1. -/
def expFixed (x : Dy) (bits q : Nat) : Nat × Nat :=
  let r := magRatio x.m.natAbs x.e
  if x.m = 0 then (2 ^ q, 2 ^ q)
  else if r.geNat q then (0, 1)
  else
    let (lo, hi) := expBounds r bits
    (hi.den * 2 ^ q / hi.num, divUp (lo.den * 2 ^ q) lo.num)

/-- Bounds of Σ c·e^x and of Σ n·e^x in fixed point. -/
def expSums (bits q : Nat) : List ExpTerm → (Int × Int) × (Nat × Nat)
  | [] => ((0, 0), (0, 0))
  | t :: r =>
    let ((nl, nh), (dl, dh)) := expSums bits q r
    let (lo, hi) := expFixed t.x bits q
    ((nl + (if 0 ≤ t.c then t.c * lo else t.c * hi), nh + (if 0 ≤ t.c then t.c * hi else t.c * lo)),
      (dl + t.n * lo, dh + t.n * hi))

/-- A ratio times 2^e. -/
def Ratio.scale (q : Ratio) (e : Int) : Ratio :=
  if 0 ≤ e then ⟨q.num * 2 ^ e.toNat, q.den⟩ else ⟨q.num, q.den * 2 ^ (-e).toNat⟩

/-- The sign of Σ c·e^x, whether it is positive, from bounds of rising precision; its exponents are at most 0, the largest 0. -/
def expSignLoop (ts : List ExpTerm) : Nat → Nat → Option Bool
  | 0, _ => none
  | fuel + 1, bits =>
    let ((lo, hi), _) := expSums bits (bits + 64) ts
    if 0 < lo then some true else if hi < 0 then some false else expSignLoop ts fuel (2 * bits)

/-- Doublings of the precision that a search on terms may take: sums of more terms may cancel further (log entry 12). -/
def expFuel (ts : List ExpTerm) : Nat := 9 + Nat.log2 ts.length

/-- Whether Σ c·e^x, of distinct exponents, is positive; it is 0 where every coefficient is. -/
def expSign (ts : List ExpTerm) : Option Bool :=
  match ts.filter (fun t => t.c ≠ 0) with
  | [] => none
  | t :: r =>
    let top := r.foldl (fun d u => if d.lt u.x then u.x else d) t.x
    expSignLoop ((t :: r).map (fun u => { u with x := u.x.sub top })) (expFuel ts) 64

/-- The coarsest dyadic number from lo to hi, of the steps 2^300 to 2^−200: every rounding boundary of a format is such a
number. -/
def midDyadic (lo hi : Ratio) : Option Dy :=
  (List.range 501).findSome? (fun (k : Nat) =>
    let e : Int := 300 - k
    let l := lo.scale (-e)
    let m := divUp l.num l.den
    let h := hi.scale (-e)
    if m * h.den ≤ h.num then some ⟨m, e⟩ else none)

/-- The terms of Σ c·2^e·e^x − b·Σ n·e^x, over a power of two. -/
def excessTerms (ts : List ExpTerm) (e : Int) (b : Dy) : List ExpTerm :=
  let k := min e b.e
  ts.map (fun t => { t with c := t.c * 2 ^ (e - k).toNat - b.m * t.n * 2 ^ (b.e - k).toNat })

/-- A positive quotient (Σ c·e^x / Σ n·e^x)·2^e rounded once, with a sign: from bounds of rising precision, and where they lie
on the two sides of a dyadic number by the side of it on which the quotient lies (log entry 12). -/
def expQuotLoop (r : NodeRound) (g : Nat) (neg : Bool) (ts : List ExpTerm) (e : Int) : Nat → Nat → Nat
  | 0, _ => Config.unresolvedRounding r.fmt g
  | fuel + 1, bits =>
    let ((nl, nh), (dl, dh)) := expSums bits (bits + 64) ts
    let lo := Ratio.scale ⟨nl.toNat, dh⟩ e
    let hi := Ratio.scale ⟨nh.toNat, dl⟩ e
    let round (q : Ratio) : Nat := roundFrac r.fmt (r.mode g) r.sat neg q
    if round lo = round hi then round lo
    else
      match (midDyadic lo hi).bind (fun b => (expSign (excessTerms ts e b)).map (fun up => (b, up))) with
      | none => expQuotLoop r g neg ts e fuel (2 * bits)
      | some (b, up) =>
        let d := b.add ⟨if up then 1 else -1, -400⟩
        let v := round (magRatio d.m.natAbs d.e)
        if v = round (if up then hi else lo) then v else expQuotLoop r g neg ts e fuel (2 * bits)

/-- (Σ c·e^x / Σ n·e^x)·2^e rounded once: a ratio where every exponent has the same mean coefficient, which is the
only way for the quotient to be rational. -/
def expQuot (r : NodeRound) (g : Nat) (ts : List ExpTerm) (e : Int) : Nat :=
  match ts with
  | [] => r.round g .nan
  | t :: _ =>
    if ts.all (fun u => u.c * t.n = t.c * u.n) then
      if t.c = 0 then r.round g (.fin false 0 0)
      else roundFrac r.fmt (r.mode g) r.sat (t.c < 0) (Ratio.scale ⟨t.c.natAbs, t.n⟩ e)
    else
      match expSign ts with
      | none => Config.unresolvedRounding r.fmt g
      | some up =>
        expQuotLoop r g (!up) (ts.map (fun u => { u with c := if up then u.c else -u.c })) e (expFuel ts) 64

/-! ### Kinds of R318 -/

/-- The largest of finite values among a list, none where none is finite. -/
def maxDy : List Val → Option Dy
  | [] => none
  | .fin n m e :: r =>
    match maxDy r with
    | some d => some (if d.lt (Val.fin n m e).dy then (Val.fin n m e).dy else d)
    | none => some (Val.fin n m e).dy
  | _ :: r => maxDy r

/-- Whether a row of scores makes every element NaN (R318). -/
def badRow (row : List Val) : Bool := row.any (fun v => v.isNaN || v == .inf false) || row.all Val.isInf

/-- SOFTMAX of a row, elements counted from g0. -/
def softmaxRow (r : NodeRound) (g0 : Nat) (row : List Val) : List Nat :=
  match badRow row, maxDy row with
  | false, some m =>
    row.zipIdx.map (fun p =>
      match p.1 with
      | .inf _ => r.round (g0 + p.2) (.fin false 0 0)
      | _ => expQuot r (g0 + p.2) (row.zipIdx.foldl (fun ts q =>
          if q.1.isInf then ts else addTerm (q.1.dy.sub m) (if q.2 = p.2 then 1 else 0) ts) []) 0)
  | _, _ => row.zipIdx.map (fun p => r.round (g0 + p.2) .nan)

/-- The least exponent of finite values. -/
def minExp : List Val → Int
  | [] => 0
  | [v] => v.dy.e
  | v :: r => min v.dy.e (minExp r)

/-! ### Operands of a MATMUL by template (R321) -/

/-- IN0 of a MATMUL as its template reads it: its elements, none for one that is not present, and its extents. -/
structure LeftMat where
  el : MatFn
  rows : Nat
  cols : Nat

/-- A value whose elements are all present. -/
def PVal.left (v : PVal) : LeftMat := ⟨fun i k => some (v.at i k), v.rows.length, (v.rows.headD []).length⟩

/-- Whether the compressed copy is in 2:4 layout: C24 shows full compliance (R311). -/
def Tensor.layout24 (t : Tensor) : Bool := t.c24 = t.rows * (t.cols / 4)

/-- The indices kept of a group from the index bits of its row group: h of them, lg bits each (R261). -/
def copyIndices (bits pos h lg : Nat) : List Nat := (List.range h).map (fun t => bitsOf bits (pos + t * lg) lg)

/-- IN0 of templates 1 and 2: the compressed copy at CADDR, read as MMANM reads A and kM and with its checks (R261, R311).
Where in the copy a part begins is a free value (log entry 9). -/
def copyMat (s : State) (aim : Aim) (t : Tensor) : Res LeftMat :=
  let g := if t.layout24 then 4 else 8
  let h := g / 2
  let lg := if t.layout24 then 2 else 3
  let w := if t.layout24 then 4 else 12
  let v := if t.vl = 0 then 4 else 8
  if !(2 ≤ t.fmt && t.fmt ≤ 7) then raiseAt .format .a 0
  else if t.rows % v ≠ 0 then raiseAt .shape .a 0
  else if t.cols % g ≠ 0 then raiseAt .shape .b 0
  else
    let place (part : Bool) (i : Nat) : Nat :=
      (t.caddr + Config.copyPlace [t.fmt, t.vl, t.layout24.toNat, t.cols] part i) % 2 ^ 64
    match resMap (fun r => planRead s aim (place false r) (ceilDiv (t.cols / 2 * fmtWidth t.fmt) 8)) (List.range t.rows) with
    | .error e => .error e
    | .ok vals =>
      match resMap (fun i => planRead s aim (place true i) (ceilDiv (t.cols / g * w) 8)) (List.range (t.rows / v)) with
      | .error e => .error e
      | .ok ixs =>
        let idx (i k : Nat) : List Nat := copyIndices (leNat (ixs.getD (i / v) [])) (k / g * w) h lg
        let bad := (List.range (t.rows / v)).findSome? (fun i => (List.range (t.cols / g)).findSome? (fun j =>
          if ascending (idx (i * v) (j * g)) then none else some ((i * (t.cols / g) + j) * w)))
        match bad with
        | some p => raiseAt .format .m p
        | none => .ok ⟨fun i k => ((idx i k).findIdx? (· = k % g)).map (fun e =>
            decodeVal t.fmt (elemAt (leNat (vals.getD i [])) (fmtWidth t.fmt) (k / g * h + e))), t.rows, t.cols⟩

/-- IN0 of template 3: the elements of the blocks whose count in the array at BLKADDR is nonzero (R311, R321). -/
def blockMat (s : State) (aim : Aim) (t : Tensor) (v : PVal) : Res LeftMat :=
  match planRead s aim t.blkaddr (4 * ceilDiv (t.rows * t.cols) 4096) with
  | .error e => .error e
  | .ok bs => .ok ⟨fun i k => if numAt bs (4 * ((i * t.cols + k) / 4096)) 4 = 0 then none else some (v.at i k),
      t.rows, t.cols⟩

/-- One output of ATTENTION: weights from a row of scores, a column of V (R318, R255). -/
def attnElem (r : NodeRound) (g : Nat) (scores col : List Val) (m : Dy) : Nat :=
  let ps := scores.zip col
  let odd := ps.filter (fun p => !p.2.isNaN && p.2.isInf)
  if ps.any (fun p => p.2.isNaN) || odd.any (fun p => p.1.isInf) then r.round g .nan
  else if odd.any (fun p => p.2.neg) && odd.any (fun p => !p.2.neg) then r.round g .nan
  else
    match odd with
    | p :: _ => r.round g p.2
    | [] =>
      let e := minExp col
      let ts := ps.foldl (fun ts p =>
        if p.1.isInf then ts
        else addTerm (p.1.dy.sub m) (p.2.dy.m * 2 ^ (p.2.dy.e - e).toNat) ts) []
      expQuot r g ts e

/-- What an approximate template removes: a key for a query, whether as a score of −∞ or as an absent key (R318). -/
structure Removal where
  gone : Nat → Nat → Bool
  absent : Bool

/-- ATTENTION of exact scores, but for what is removed. A query that no key is left for has nothing to normalise and gives
NaN, as a row of −∞ does. -/
def attention (r : NodeRound) (cut : Removal) (q k v : PVal) : List Nat :=
  let dv := (v.rows.headD []).length
  q.rows.zipIdx.flatMap (fun p =>
    let keys := (k.rows.zip v.rows).zipIdx.filter (fun x => !(cut.absent && cut.gone p.2 x.2))
    let scores := keys.map (fun x =>
      if cut.gone p.2 x.2 then Val.inf true else exactSum ((p.1.zip x.1.1).map (fun y => y.1.mul y.2)))
    let nan := (List.range dv).map (fun n => r.round (p.2 * dv + n) .nan)
    match badRow scores, maxDy scores with
    | false, some m =>
      (List.range dv).map (fun n => attnElem r (p.2 * dv + n) scores (keys.map (fun x => x.1.2.getD n .nan)) m)
    | _, _ => nan)

/-- The elements of a value as numbers. -/
def PVal.nums (v : PVal) : List Nat := v.rows.flatten.map (roundVal 10 .rne false)

/-- SCOUT's estimates of operands as they stand: for each query row, those over the key tiles of 64 (R286). -/
def scoutEstimates (q k : PVal) : List (List Val) :=
  let keys := k.rows.map (fun x => x.map scoutByte)
  let tiles := cut 64 (ceilDiv keys.length 64) keys
  q.rows.map (fun x => tiles.map (fun t => decodeFloat 1 (tileEstimate (x.map scoutByte) t)))

/-- The estimates of operands that SCOUT cannot read as they stand, of which only that they are finite or NaN is known (R286; log
entry 9). -/
def freeEstimates (pos mark : Nat) (ins : List PVal) (q k : PVal) : List (List Val) :=
  (List.range q.rows.length).map (fun m => (List.range (ceilDiv k.rows.length 64)).map (fun t =>
    match decodeFloat 1 (Config.estimate mark pos (ins.map PVal.nums) m t).toNat with
    | .inf _ => .nan
    | v => v))

/-- Which Skipper tiles of 64 by 64 THRESH may leave out: those in which every query row's estimate lies below the row's lim
(R286, R287). A tile that some row keeps stays, that of the row's largest estimate among them, whatever part of the key tiles RMAX
has seen. -/
def skippable (margin : Nat) (est : List (List Val)) : Nat → Nat → Bool :=
  let keeps := est.map (fun es => es.map (keepsTile margin (skipLimit margin (rowTop (.inf true) es))))
  fun qt kt => ((keeps.drop (64 * qt)).take 64).all (fun ks => !ks.getD kt true)

/-- Whether SCOUT can read an operand as it stands: a format of R285, its row within a tile register's. -/
def PVal.scouted (v : PVal) : Bool := 2 ≤ v.fmt && v.fmt ≤ 5 && (v.rows.headD []).length * fmtWidth v.fmt ≤ 2048

/-- What ASKIP removes: of the tiles that its operands allow a free value, the same in deterministic mode for the same operands
at the same canonical position, by which the fingerprint names operators; of operands that SCOUT cannot read as they stand those that
THRESH's rule leaves out by free estimates (R264, R286, R287, R318, R329, R335; log entry 9). -/
def skipperCut (pos mark margin : Nat) (ins : List PVal) : Removal :=
  let q := ins.getD 0 ⟨0, [], []⟩
  let k := ins.getD 1 ⟨0, [], []⟩
  let gone := Config.removed mark pos (ins.map PVal.nums)
  let may := skippable margin (if q.scouted && k.scouted then scoutEstimates q k else freeEstimates pos mark ins q k)
  ⟨fun i j => may (i / 64) (j / 64) && gone (i / 64) (j / 64), false⟩

/-- No removal. -/
def Removal.none : Removal := ⟨fun _ _ => false, false⟩

/-- MATMUL by the K-block rule (R254, R318). -/
def matmul (r : NodeRound) (o : POp) (nd : Node) (own : Bool) (a : LeftMat) (b : PVal) : List Nat :=
  let ta := own && nd.ta
  let tb := own && nd.tb
  let k := if ta then a.rows else a.cols
  (List.range o.rows).flatMap (fun i => (List.range o.cols).map (fun j =>
    r.round (i * o.cols + j) (decodeFloat 10 (kRule 0 (fun x =>
      (if ta then a.el x i else a.el i x).map (fun y => y.mul (if tb then b.at j x else b.at x j))) k))))

/-- REDUCE_SUM of a row (R234, R318). -/
def reduceRow (f : Nat) (row : List Val) : Val :=
  if isIntegerFmt f then exactSum row
  else (reduceTree sum32 (row.length + 1) (row.map some)).getD (.fin false 0 0)

/-- TOPK as a row of INT32 elements (R318): entries beyond the candidates hold value bits 0 and index all ones. -/
def topkElems (xnan : Bool) (k : Nat) (v : PVal) : List Nat :=
  let vals := v.rows.flatten
  let bits := v.bits.flatten
  let cands := (vals.zipIdx.map (fun p =>
    (⟨p.1, if v.fmt = 14 then Config.topkBits (roundVal 10 .rne false p.1) p.2 % 2 ^ 32 else bits.getD p.2 0,
      p.2⟩ : TopEntry))).filter
      (fun c => !(xnan && c.val.isNaN))
  let top := topK k cands
  (List.range k).flatMap (fun j =>
    let (b, ix) := match top[j]? with
      | some c => (c.bits, c.index)
      | none => (0, 2 ^ 64 - 1)
    [b % 2 ^ 32, b / 2 ^ 32, ix % 2 ^ 32, ix / 2 ^ 32])

/-- The encodings of an operator's value in row-major order (R318); `left` is IN0 of a MATMUL as its template reads it, and
`gone` what the template of an ATTENTION removes. -/
def opValue (ns : List Node) (seed : Word) (pos : Nat) (o : POp) (gone : Removal) (left : LeftMat) (ins : List PVal) :
    List Nat :=
  let nd := nodeAt ns o.node
  let node := if o.own then o.node else Config.chainKeyNode o.node pos
  let r : NodeRound := ⟨o.fmt, o.rnd % 4, o.rnd.testBit 2, seed, node⟩
  let a := ins.getD 0 ⟨0, [], []⟩
  let b := ins.getD 1 ⟨0, [], []⟩
  let c := ins.getD 2 ⟨0, [], []⟩
  let flat (v : PVal) : List Val := v.rows.flatten
  match o.kind with
    | 2 => matmul r o nd o.own left b
    | 3 => ((flat a).zip (flat b)).zipIdx.map (fun p => r.round p.2 (p.1.1.add p.1.2))
    | 4 => ((flat a).zip (flat b)).zipIdx.map (fun p => r.round p.2 (p.1.1.mul p.1.2))
    | 5 => (flat a).zipIdx.map (fun p => funRound .exp o.fmt (r.mode p.2) r.sat p.2 p.1)
    | 6 =>
      if a.fmt ≤ 9 then
        (a.bits.flatten).zipIdx.map (fun p => convertElem a.fmt o.fmt (r.mode p.2) r.sat p.1)
      else (flat a).zipIdx.map (fun p => r.round p.2 p.1)
    | 7 => a.rows.zipIdx.map (fun p => r.round p.2 (reduceRow a.fmt p.1))
    | 8 => a.rows.zipIdx.flatMap (fun p => softmaxRow r (p.2 * o.cols) p.1)
    | 9 => topkElems o.xnan nd.param0 a
    | _ => attention r gone a b c

/-! ### The chain array of AHAWK -/

/-- A key put into a list by the place of its link, the lower key first of equals. -/
def byTurn (turn : Nat → Nat) (a : Nat) : List Nat → List Nat
  | [] => [a]
  | b :: r => if turn b ≤ turn a then b :: byTurn turn a r else a :: b :: r

/-- Memory after a stage of AHAWK has filed its keys: HRESET of the chain array, then one link for each key, key j as token j,
in the order in which the links reach the owner (R293, R295, R296, R319; log entry 9). -/
def hawkChain (m : List Host.Cell) (h : Head) (keys : List (List Val)) (turn : Nat → Nat) : List Host.Cell :=
  let m1 := (List.range (1 + ceilDiv (2 ^ h.bexp) 4)).foldl (fun m r =>
    writeNat m (h.key + 128 * r) 128 (resetRow h.bexp h.nnodes r)) m
  ((List.range keys.length).foldl (fun l j => byTurn turn j l) []).foldl (fun m j =>
    applyLink m ⟨0, 0, j, h.key, h.bexp, h.limit, h.nnodes, bucketOf h (keys.getD j []), j, ⟨0, 0, 0, 0, 0, 0, 0⟩⟩) m1

/-- A query block of AHAWK gathered: HGATHER's status and token set, and its fault where it falls back (R297 to R299, R319). -/
def hawkBlock (m : List Host.Cell) (h : Head) (mp : Bool) (rows : List (List Val)) : (Nat × List Nat) × Option Raise :=
  let ps := probesOf h mp rows
  let g := ps.foldl (fun g _ => hgatherRead m h g) ⟨ps, ps.length, [], none, 0⟩
  let r := hgatherStatus h g
  (r, fallbackOf g r.1 r.2.length)

/-- What AHAWK removes from its filed chain array: for the queries of a block with a list every key that is not on it; a block
that falls back is finished by ADENSE (R319). The blocks' size and MP are the planner's code's: free values, the same at one
canonical position of equal extents (R329, R335; log entry 9). The faults of the blocks that fall back stand beside it. -/
def hawkCut (m : List Host.Cell) (h : Head) (pos : Nat) (o : POp) (q : PVal) : Removal × List Raise :=
  let size := 1 + Config.queryBlock [pos, o.rows, o.cols] % 64
  let mp := Config.secondProbe [pos, o.rows, o.cols]
  let bs := (cut size (ceilDiv q.rows.length size) q.rows).map (hawkBlock m h mp)
  (⟨fun i j => match bs[i / size]? with
      | some ((0, ts), _) => !ts.contains j
      | _ => false, true⟩, bs.filterMap (·.2))

end Sys2Proof.Machine
end

