-- ==== Sys2Proof/Machine/System.lean ====
section
/-! DEFINITION. LAUNCH, PROBE, QUIESCE, TRAP, TRET, NOP and END of C (R116, R117, R119, R178 to R184). -/

namespace Sys2Proof.Machine

/-! ### LAUNCH -/

/-- Slots of a queue (R68). -/
def queueSize (d : Device) (q : Nat) : Nat := 2 ^ queueLogsz d q

/-- The address of slot w of a queue of a base and a size (R69, R70). -/
def slotIn (base size w : Nat) : Nat := base + 256 + 64 * (w % size)

/-- The address of slot w of a queue. -/
def slotAddr (d : Device) (q w : Nat) : Nat := slotIn (queueBase d q) (queueSize d q) w

/-- LAUNCH stores its packet in slot w and completes (R178): one row store, or on a host page bytes 8 to 63 and then
0 to 7, eight bytes an access (R94). -/
def launchStore (s : State) (key : Nat) (st : Strand) (p : Posting) (w : Nat) : Out :=
  let a := slotIn p.base p.size w
  let bs := leBytes 64 p.packet.toNat
  match resolve s key (some 0) a true .a 0 with
  | .error e => match e with
    | .raise r => .next (takeFault s key st r)
    | _ => .next (s.setStrand key (st.cStay (.store p w)))
  | .ok (t, s1) =>
    cMeet s1 key (s1.strandAt key st) true fun s2 =>
      let s3 := match t with
        | .far none b => sendPieces s2 none (hostPieces (b + 8) (bs.drop 8) 7 ++ [(b, bs.take 8)])
        | t => writeTarget s2 t (a % 128) bs
      .next (s3.setStrand key (s3.strandAt key st).cNext)

/-- Whether slot w is free under a read index: w − RDIDX, a difference of unbounded integers (R10), is below the size (R70). -/
def slotFree (size w r : Nat) : Bool := w < r + size

/-- LAUNCH with its slot claimed: it waits for the slot to be free (R178). -/
def launchWait (s : State) (key : Nat) (st : Strand) (p : Posting) (w : Nat) : Out :=
  match resolve s key (some 0) (p.base + 128) false .a 0 with
  | .error (.raise r) => .next (takeFault s key st r)
  | .error _ => .next (s.setStrand key (st.cStay (.launch p w)))
  | .ok (t, s1) =>
    let st1 := s1.strandAt key st
    cMeet s1 key st1 false fun s2 => match t with
      | .cell k =>
        if slotFree p.size w (readNat s2.mem (word8 k) 8) then launchStore s2 key st1 p w
        else .next (s2.setStrand key (st1.cStay (.launch p w)))
      | .far port a => .next (cAskRead s2 key st1 port (loadSpan port a).1 (loadSpan port a).2 (.word a)
          (fun id => .readIndex id p w))

/-- LAUNCH claims a slot by an atomic add of 1 to WRIDX, performed when it leaves; xd takes the claimed index (R70,
R178). -/
def launchClaim (s : State) (key : Nat) (st : Strand) (xd : Reg) (p : Posting) : Out :=
  match resolve s key (some 0) p.base true .a 0 with
  | .error (.raise r) => .next (takeFault s key st r)
  | .error _ => .next (s.setStrand key (st.cStay (.post p)))
  | .ok (t, s1) =>
    let st1 := s1.strandAt key st
    cMeet s1 key st1 false fun s2 => match t with
      | .cell k =>
        let (w, m) := atomicMem s2.mem .add k 1 0
        let st2 := st1.wx xd (BitVec.ofNat 64 w)
        launchWait ((s2.setMem m).setStrand key st2) key st2 p w
      | .far port a =>
        .next (cAskAtom s2 key st1 port (word8 a) .add 1 0 (.atom xd .add a) (fun id => .claim id p))

/-- The 64 bytes of a row that hold an address. -/
def halfRow (r : Row) (a : Nat) : BitVec 512 := BitVec.ofNat 512 (rowNat r (a % 128 / 64 * 64) 64)

/-- LAUNCH with its packet read: TYPE must not be 0, and the queue's base and size are taken, once (R178). -/
def launchPacket (s : State) (key : Nat) (st : Strand) (q : Nat) (xd : Reg) (packet : BitVec 512) : Out :=
  if bitsOf packet.toNat 0 8 = 0 then .next (takeFault s key st ⟨.launch, .a, 0⟩)
  else launchClaim s key st xd ⟨queueBase s.dev q, queueSize s.dev q, packet⟩

/-- Whether queue q takes launches of function f (R178, R332). -/
def queueTakes (d : Device) (q f : Nat) : Bool := q ≤ 255 && queueEn d q && queueFn d q = f

/-- LAUNCH (R178). It takes the queue's base and size once, before the claim, and goes on with them, whatever xd, a handler
or the host has written to xc or to the queue's registers since (DESIGN CHOICE for the handler, log entry 56). -/
def execLaunch (xd xa xc : Reg) (s : State) : Out :=
  onC s fun key st =>
    let q := (st.rx xc).toNat
    match st.c.wait with
    | .launch p w => launchWait s key st p w
    | .store p w => launchStore s key st p w
    | .post p => launchClaim s key st xd p
    | .gotPacket packet => launchPacket s key st q xd packet
    | .claim _ _ | .readIndex _ _ _ | .packet _ => .next s
    | _ =>
      if !queueTakes s.dev q st.fn then .next (takeFault s key st ⟨.launch, .a, 0⟩)
      else
        let a := (st.rx xa).toNat / 64 * 64
        match readRowAt s key (some 0) a .a 0 [] with
        | .ok (r, s1) =>
          let st1 := s1.strandAt key st
          cMeet s1 key st1 false fun s2 => launchPacket s2 key st1 q xd (halfRow r a)
        | .error (.far port b _ _) => cMeet s key st false fun s1 =>
            .next (cAskRead s1 key st port b 128 (.word (b + a % 128)) (fun id => .packet id))
        | .error e => cStop s key st e

/-! ### PROBE -/

/-- What PROBE does next at an address. -/
inductive ProbeStep where
  /-- the page is confirmed up to here -/
  | go (p : Nat) (s : State)
  /-- PROBE ends here -/
  | stop
  /-- no valid, permitted translation: a page request is due -/
  | miss
  | held

/-- PROBE walks its page, whatever C's TLB holds (R116). -/
def probeWalk (s : State) (st : Strand) (p : Nat) : Walk := walk s.mem s.dev.ready (vget s.dev.ptbase st.fn) p

/-- C's TLB without the entries of an address, in whose place the entry just walked stands. -/
def Strand.dropPage (st : Strand) (p : Nat) : Strand :=
  { st with tlb := st.tlb.set 0 (st.tlb[0].filter (fun e => !e.covers p)) }

/-- Whether PROBE walks page tables at an address: it lies in the global window. -/
def probeWalks (key p : Nat) : Bool := (decodeAddr (key / 2) p).any (fun d => d.win = 3)

/-- One page of PROBE (R116). It ends at a page of a failed tile's slice, which R392 counts as unpopulated (DEDUCED, log entry
26). -/
def probePage (s : State) (key : Nat) (st : Strand) (p : Nat) (write : Bool) : ProbeStep :=
  match decodeAddr (key / 2) p with
  | none => .stop
  | some d =>
    if d.win ≠ 3 then
      if d.off ≥ Config.sliceBytes || (d.win ≠ 0 && s.dev.failed d.tile) then .stop
      else .go ((p / 2 ^ 16 + 1) * 2 ^ 16) s
    else
      match probeWalk s st p with
      | .held => .held
      | .nothing => .miss
      | .found e =>
        if write && !e.writable then .miss
        else .go e.after (s.setStrand key ((st.dropPage p).touch 0 e))

/-- PROBE completes at p: xd takes the bytes confirmed (R116). -/
def probeDone (s : State) (key : Nat) (st : Strand) (xd : Reg) (a n p : Nat) : Out :=
  .next (s.setStrand key ((st.wx xd (BitVec.ofNat 64 (min p (a + n) - a))).cNext))

/-- The page-request ring takes an entry: the new state, or none while the ring is full, its indices are on their way or a
write is held; the flag tells a request that is answered as deny at once (R117). The entry and the write index are one ring
write: where only the index finds no writable translation the entry is not made either. An index row that has no valid
translation, or whose read is answered with an error, denies the request and sets LOGERR, the read index's too (DESIGN CHOICE,
log entry 54). -/
def pageRequest (s : State) (st : Strand) (tile p tag : Nat) (write : Bool) : Option (State × Bool) :=
  let base := vget s.dev.prqbase st.fn
  if base = 0 then some (s, true)
  else
    match procRow s st.fn base, procRow s st.fn (base + 128) with
    | .ok (some r0), .ok (some r1) =>
      let w := rowNat r0 0 8
      if w = rowNat r1 0 8 + 64 then none
      else
        let entry := p / 2 ^ 16 * 2 ^ 16 + 2 ^ 64 * tile + 2 ^ 96 * tag + 2 ^ 128 * write.toNat
        match procWrite s.forgetRows st.fn (base + 256 + 32 * (w % 64)) (leBytes 32 entry) with
        | .error .hold => none
        | .error _ => some (s.logErr, true)
        | .ok s1 =>
          match procWrite s1 st.fn base (leBytes 8 (w + 1)) with
          | .error .hold => none
          | .error _ => some (s.logErr, true)
          | .ok s2 => some (s2, false)
    | .error .hold, _ => none
    | _, .error .hold => none
    | .error (.far _ _ _ _), _ => none
    | _, .error (.far _ _ _ _) => none
    | _, _ => some (s.logErr, true)

/-- PROBE at a page with no translation: it posts a request and waits, or ends there (R116, R117, R180). -/
def probeMiss (s : State) (key : Nat) (st : Strand) (xd : Reg) (a n p : Nat) (write : Bool) : Out :=
  if st.det then probeDone s key st xd a n p
  else
    let tag := s.dev.nextTag
    match pageRequest s st (key / 2) p tag write with
    | none =>
      let base := vget s.dev.prqbase st.fn
      let full := (procRow s st.fn base).toOption.isSome && (procRow s st.fn (base + 128)).toOption.isSome
      let s0 := if full then s.forgetRows else s
      .next ((procAskRows s0 st.fn [base, base + 128]).setStrand key (st.cStay (.ask p)))
    | some (s1, true) => probeDone s1 key st xd a n p
    | some (s0, false) =>
      let s1 := procMeet s0 st.fn st.queue st.pkt false
      .next ((s1.setDev { s1.dev with
        pageReqs := s1.dev.pageReqs ++ [⟨st.fn, tag, st.uid, none⟩]
        nextTag := (tag + 1) % 2 ^ 32 }).setStrand key (st.cStay (.probe p (some tag))))

/-- What PROBE does at an address, the reads of its walk meeting their health (R342, R364). -/
def probeStep (s : State) (key : Nat) (st : Strand) (p : Nat) (write : Bool) (go : State → ProbeStep → Out) : Out :=
  match probePage s key st p write with
  | .held => go s .held
  | r => if probeWalks key p then cMeet s key st false fun s1 => go s1 (probePage s1 key st p write) else go s r

/-- PROBE from address p, up to `fuel` pages in one step of the model. -/
def probeLoop (xd : Reg) (key a n : Nat) (write : Bool) : Nat → State → Strand → Nat → Out
  | 0, s, st, p => .next (s.setStrand key (st.cStay (.probe p none)))
  | fuel + 1, s, st, p =>
    if p ≥ a + n then probeDone s key st xd a n p
    else probeStep s key st p write fun s0 r => match r with
      | .go p' s1 => probeLoop xd key a n write fuel s1 (s1.strandAt key st) p'
      | .stop => probeDone s0 key st xd a n p
      | .held => .next (s0.setStrand key (st.cStay (.probe p none)))
      | .miss => probeMiss s0 key st xd a n p write

/-- The page requests without one tag. -/
def dropPageReq (s : State) (fn tag : Nat) : State :=
  s.setDev { s.dev with pageReqs := s.dev.pageReqs.filter (fun r => ¬(r.fn = fn ∧ r.tag = tag)) }

/-- PROBE (R116, R180): w = 0 reads, w = 1 writes. -/
def execProbe (xd xa xc : Reg) (w : BitVec 1) (s : State) : Out :=
  onC s fun key st =>
    let a := (st.rx xa).toNat
    let n := (st.rx xc).toNat
    let write := w = 1
    match st.c.wait with
    | .probe p none => probeLoop xd key a n write 4096 s st p
    | .ask p => probeMiss s key st xd a n p write
    | .probe p (some tag) =>
      match s.dev.pageReqs.find? (fun r => r.fn = st.fn ∧ r.tag = tag) with
      | some r =>
        match r.answer with
        | none => .next s
        | some grant =>
          let s1 := dropPageReq s st.fn tag
          if !grant then probeDone s1 key st xd a n p
          else probeStep s1 key st p write fun s2 r => match r with
            | .go p' s3 => probeLoop xd key a n write 4096 s3 (s3.strandAt key st) p'
            | .held => .next s
            | _ => probeDone s2 key st xd a n p
      | none => probeDone s key st xd a n p
    | _ =>
      if st.quiet then probeLoop xd key a n write 4096 s st a
      else .next (s.setStrand key (st.cStay .stalled))

/-! ### QUIESCE, traps, NOP and END -/

/-- QUIESCE (R119, R181). -/
def execQuiesce (s : State) : Out :=
  onC s fun key st =>
    if (s.dev.ivpending.find? key).isNone then .next (s.setStrand key st.cNext)
    else if !st.quiet || !attrReady s.dev then .next (s.setStrand key (st.cStay .quiesce))
    else
      let s1 := ackSlot s key
      .next (s1.setStrand key (s1.strandAt key st).cNext)

/-- TRAP (R182, R186). -/
def execTrap (imm : BitVec 32) (s : State) : Out :=
  onC s fun key st =>
    if st.tvec = 0 || st.act then .next (takeFault s key st ⟨.unhandledTrap, .none, 0⟩)
    else
      let st1 := st.enterHandler (st.c.pc + 8) (BitVec.ofNat 64 (2 ^ 63 + imm.toNat))
      .next (s.setStrand key { st1 with c := { st1.c with seqno := st.c.seqno + 1 } })

/-- TRET (R183). -/
def execTret (s : State) : Out :=
  onC s fun key st =>
    if !st.act then .next (takeFault s key st ⟨.illegalOp, .none, 0⟩)
    else .next (s.setStrand key st.leaveHandler)

/-- NOP (R184). -/
def execNop (s : State) : Out := onStrand s (fun st => st.cNext)

/-- END of C (R184): the stream ends. -/
def execEndC (s : State) : Out :=
  onStrand s (fun st => { st with c := { st.c with seqno := st.c.seqno + 1, ended := true, wait := .idle } })

end Sys2Proof.Machine
end

