-- ==== Sys2Proof/Machine/PlanRun.lean ====
section
/-! DEFINITION. Plan runs: the break (R331), the stages and what they write (R330, R338), the claim and the packet of a
stage's launch, and the end of a run (R332 to R334). -/

namespace Sys2Proof.Machine

/-! ### Plan slots and runs -/

/-- A plan slot at reset (R337). -/
def PlanSlot.start : PlanSlot := ⟨1, 0, none⟩

/-- A plan slot. -/
def planSlot (s : State) (slot : Nat) : PlanSlot := (s.planner.plans.find? slot).getD PlanSlot.start

/-- A plan slot replaced. -/
def setPlanSlot (s : State) (slot : Nat) (p : PlanSlot) : State :=
  s.setPlanner { s.planner with plans := s.planner.plans.insert slot p }

/-- The plan of a slot replaced. -/
def setPlan (s : State) (slot : Nat) (p : Plan) : State :=
  setPlanSlot s slot { planSlot s slot with plan := some p }

/-- The run of a number. -/
def findRun (s : State) (num : Nat) : Option Run := s.planner.runs.find? (fun r => r.num = num)

/-- A run replaced. -/
def putRun (s : State) (r : Run) : State :=
  s.setPlanner { s.planner with runs := s.planner.runs.map (fun q => if q.num = r.num then r else q) }

/-- Whether a slot's plan has a run that has not ended. -/
def running (s : State) (slot : Nat) : Bool := s.planner.runs.any (fun r => r.slot = slot)

/-- Operators done after k stages. -/
def Plan.doneAt (p : Plan) (k : Nat) : Nat := if k = 0 then 0 else p.stages.getD (k - 1) p.ops.length

/-- A plan that takes a new choice (R331). -/
def Plan.adopt (p : Plan) (d : Planned) : Plan :=
  { p with ops := d.ops, stages := d.stages, dests := d.dests, total := d.total, fp := d.fp, recorded := d.recorded }

/-- A node as numbers. -/
def Node.nums (n : Node) : List Nat := [n.kind, n.fmt, n.rnd, n.flags, n.param0, n.param1, n.dest] ++ n.ins

/-- An operator as numbers. -/
def POp.nums (o : POp) : List Nat := [o.node, o.own.toNat, o.kind, o.fmt, o.rnd, o.tmpl, o.rows, o.cols] ++ o.code

/-- Arena units that a tree and a choice need: at least one, and a free value (R325; log entry 9). -/
def unitsOf (nodes : List Node) (ops : List POp) : Nat :=
  max 1 (Config.arenaUnits (nodes.length :: (nodes.flatMap Node.nums ++ ops.flatMap POp.nums)))

/-- Whether the planner can write every page of an arena; an access may have to wait (R326). -/
def arenaOk (aim : Aim) (a units : Nat) : Res Bool :=
  if a ≥ 2 ^ 56 then .ok false
  else resFold (fun (b : Bool) (u : Nat) =>
    match aim (a + 65536 * u) true with
    | .ok _ => .ok b
    | .error (.raise _) => .ok false
    | .error e => .error e) true (List.range units)

/-- What the planner writes into an arena: its records, words and packets, which are free values (R326, R331; log
entry 9). -/
def writeArena (s : State) (aim : State → Aim) (a units : Nat) : State :=
  (planWrite { s with nfree := s.nfree + 1 } aim a ((List.range (65536 * units)).map (Config.arenaByte s.nfree))).1

/-- The nodes of a plan, whose fields have been checked. -/
def Plan.tree (p : Plan) : List (Node × Bool) := p.nodes.map (fun n => (n, true))

/-- Whether every recorded SERIAL still stands (R331). -/
def serialsStand (s : State) (fn : Nat) (p : Plan) : Bool :=
  p.recorded.all (fun r => match tensorOf s.planner fn r.tid with
    | some t => t.serial = r.serial
    | none => false)

/-- Whether every recorded RANK, DIM and FMT still stands. -/
def shapesStand (s : State) (fn : Nat) (p : Plan) : Bool :=
  p.recorded.all (fun r => match tensorOf s.planner fn r.tid with
    | some t => t.dims = r.dims && t.fmt = r.fmt
    | none => false)

/-- The plan that a break leaves where the choice of R324 is that of its plan already: the hints and cost registers as they
now stand are in effect for the operators still to come, and with them the fingerprint and the cost (R327 to R329). -/
def Plan.renew (p : Plan) (d : Planned) : Plan := { p with ops := d.ops, fp := d.fp, total := d.total }

/-- The break of R331 after `k` stages, steps 1 to 3: none where the plan cannot run; otherwise the plan, and whether it
planned again. A Hawkmoth block that cannot be loaded faults as LD does (R319). A re-plan that its arena cannot hold, or that the planner cannot write there, cannot run either (log
entry 9). -/
def breakPlan (s : State) (fn : Nat) (p : Plan) (k : Nat) : PRes (Option (Plan × Bool)) :=
  if !serialsStand s fn p then pure none
  else
    let same := shapesStand s fn p
    if !same && p.pinned then pure none
    else
      let rd : Reader := ⟨s, fnAim s fn p.tile p.det, fn, p.tile⟩
      match planTree rd p.tree p.root p.hints p.nbv p.det p.cost (p.ops.take (p.doneAt k)) with
      | .error (.status _ _) => pure none
      | .error e => .error e
      | .ok none => pure (if same && p.pinned then some (p, false) else none)
      | .ok (some d) =>
        if same && p.pinned then pure (some (p, false))
        else if same && d.ops.map POp.core == p.ops.map POp.core then pure (some (p.renew d, false))
        else if unitsOf p.nodes d.ops > p.arenaLen then pure none
        else do
          let ok ← liftRes (arenaOk rd.aim p.arena (unitsOf p.nodes d.ops))
          pure (if ok then some ({ p.adopt d with replans := (p.replans + 1) % 2 ^ 32 }, true) else none)

/-- Step 4 of R331: the tensors that a plan names as they now stand go into the run, and what the planner writes of them into
the arena, where it can; it waits while a page of the arena lies in an HBM stack that is not trained (R391). -/
def patchRun (s : State) (p : Plan) (r : Run) : Res (State × Run) :=
  let aim (s : State) : Aim := fnAim s r.fn p.tile p.det
  let units := unitsOf p.nodes p.ops
  let take (m : PMap Tensor) (q : Recorded) : PMap Tensor := match tensorOf s.planner r.fn q.tid with
    | some t => m.insert q.tid t
    | none => m
  let r1 := { r with tensors := p.recorded.foldl take [] }
  match arenaOk (aim s) p.arena units with
  | .error e => .error e
  | .ok ok => .ok (if ok then writeArena s aim p.arena units else s, r1)

/-! ### What a stage forms and writes -/

/-- A tensor as the stages of a run know it: as the last break patched it (R331, R336). -/
def Run.tensor (r : Run) (tid : Nat) : Tensor := (r.tensors.find? tid).getD Tensor.free

/-- The tensor of a TENSOR node's operand code. -/
def Run.coded (r : Run) (p : Plan) (code : Nat) : Tensor := r.tensor (nodeAt p.nodes (code - 0x8000)).param0

/-- What tells the removals of two runs apart: nothing in deterministic mode, in which equal data give equal bits (R335). -/
def Run.mark (r : Run) : Nat := if r.det then 0 else r.num

/-- The value of an operand code in a run. -/
def codeVal (s : State) (aim : Aim) (p : Plan) (r : Run) (code : Nat) : Res PVal :=
  if code ≥ 0x8000 then tensorVal s aim (r.coded p code)
  else match p.ops[code - 1]? with
    | some o => .ok (formedVal o (cellGet [] r.values (code - 1)))
    | none => .ok ⟨0, [], []⟩

/-- The operands of an operator: IN0 as its template reads it, and the inputs as values; templates 1 and 2 do not read the
rows of IN0's tensor (R321). -/
def operandsOf (s : State) (aim : Aim) (p : Plan) (r : Run) (o : POp) : Res (LeftMat × List PVal) :=
  let codes := o.code.filter (· ≠ 0)
  let t := r.coded p (codes.headD 0)
  if o.tmpl = 1 || o.tmpl = 2 then
    match copyMat s aim t, resMap (codeVal s aim p r) (codes.drop 1) with
    | .error e, _ => .error e
    | _, .error e => .error e
    | .ok l, .ok ins => .ok (l, ⟨t.fmt, [], []⟩ :: ins)
  else
    match resMap (codeVal s aim p r) codes with
    | .error e => .error e
    | .ok ins =>
      let a := ins.headD ⟨0, [], []⟩
      if o.tmpl = 3 then
        match blockMat s aim t a with
        | .error e => .error e
        | .ok l => .ok (l, ins)
      else .ok (a.left, ins)

/-- Where a strand of a stage meets a fault or an event: its place in the planner's code, and in deterministic mode its
schedule cycle, are free values, drawn from k on (R356; log entry 9). -/
def stageAt (s : State) (r : Run) (pkt k : Nat) : Where :=
  { procAt s r.fn r.queue pkt with
    seq := Config.stageFaultWord r.num k % 4, seqno := Config.stageFaultWord r.num (k + 1)
    tile := Config.stageFaultWord r.num (k + 2) % 512
    scyc := if r.det then Config.stageFaultWord r.num (k + 3) else ones64 }

/-- The chain array of an AHAWK operator with its keys filed, and the head (R319). The order of the links depends on the keys
alone, so that bucket contents are the same for the same data (R335). A block that R290 refuses, or of another DIM, faults as
HCFG and KSTORE do. -/
def fileKeys (s : State) (aim : Aim) (p : Plan) (o : POp) (k : PVal) : Res (Head × State) :=
  match hawkHead s aim p.tile (nodeAt p.nodes o.node).param1 with
  | .error e => .error e
  | .ok none => raiseAt .format .a 0
  | .ok (some h) =>
    if h.dim ≠ (k.rows.headD []).length then raiseAt .shape .a 0
    else .ok (h, s.setMem (hawkChain s.mem h k.rows (Config.linkTurn k.nums)))

/-- What the template of an operator removes, and the state: AHAWK files its keys, gathers its query blocks and logs the
DENSE_FALLBACK of each block that falls back (R299, R318, R319). -/
def cutOf (s : State) (aim : Aim) (p : Plan) (r : Run) (pkt pos : Nat) (o : POp) (ins : List PVal) :
    Res (Removal × State) :=
  match o.tmpl with
  | 5 => .ok (skipperCut pos r.mark (nodeAt p.nodes o.node).param0 ins, s)
  | 6 =>
    match fileKeys s aim p o (ins.getD 1 ⟨0, [], []⟩) with
    | .error e => .error e
    | .ok (h, s1) =>
      let (gone, fs) := hawkCut s1.mem h pos o (ins.getD 0 ⟨0, [], []⟩)
      .ok (gone, fs.zipIdx.foldl (fun s f =>
        logRecord s f.1 (stageAt s r pkt (16 + 4 * (pos * 2 ^ 32 + f.2))) { delivered := true }) s1)
  | _ => .ok (Removal.none, s)

/-- The operator at a position formed. -/
def formOne (s : State) (aim : Aim) (p : Plan) (r : Run) (pkt pos : Nat) : Res (State × Run) :=
  match p.ops[pos]? with
  | none => .ok (s, r)
  | some o =>
    match operandsOf s aim p r o with
    | .error e => .error e
    | .ok (l, ins) =>
      match cutOf s aim p r pkt pos o ins with
      | .error e => .error e
      | .ok (gone, s1) =>
        .ok (s1, { r with values := r.values.insert pos (opValue p.nodes r.seed pos o gone l ins) })

/-- The operators of a stage formed in order: the state and the run, and the fault that stopped them. -/
def formStage (aim : State → Aim) (p : Plan) (pkt : Nat) : List Nat → State → Run → Res (State × Run × Option Raise)
  | [], s, r => .ok (s, r, none)
  | pos :: rest, s, r =>
    match formOne s (aim s) p r pkt pos with
    | .error (.raise f) => .ok (s, r, some f)
    | .error e => .error e
    | .ok (s1, r1) => formStage aim p pkt rest s1 r1

/-- Columns beyond C in the last unit of an MX row are written as zero (R311). -/
def zeroPad (t : Tensor) (bs : List Byte) : List Byte :=
  if 11 ≤ t.fmt && t.fmt ≤ 13 then
    bs.zipIdx.map (fun x =>
      let u := x.2 / 33
      let j := x.2 % 33
      if j < 32 && t.cols ≤ 32 * u + j then 0 else x.1)
  else bs

/-- The stored bytes of the rows that a value gives a tensor; the other half of a last byte stays (R338, R318). -/
def destRows (s : State) (aim : Aim) (p : Plan) (r : Run) (code : Nat) (t : Tensor) : Res (List (List Byte)) :=
  if code ≥ 0x8000 then
    match tensorRows s aim (r.coded p code) with
    | .error e => .error e
    | .ok rs => .ok (rs.map (zeroPad t))
  else
    let w := fmtWidth t.fmt
    let len := storedLen t.fmt t.cols
    resMap (fun q : List Nat × Nat =>
      let v := packElems w q.1
      if t.cols * w % 8 = 0 then .ok (leBytes len v)
      else
        match planRead s aim ((t.base + q.2 * t.pitch + len - 1) % 2 ^ 64) 1 with
        | .error e => .error e
        | .ok old => .ok (leBytes len (v + (old.headD 0).toNat / 16 * 16 * 2 ^ (8 * (len - 1)))))
      (cut t.cols t.rows (cellGet [] r.values (code - 1))).zipIdx

/-- Samples of a written row, one for each memory row (R195, R313). -/
def rowSamples (fn tile : Nat) : Nat → State → Nat → List Byte → Res State
  | 0, s, _, _ => .ok s
  | fuel + 1, s, a, bs =>
    if bs.isEmpty then .ok s
    else
      match applySample s fn (sampleForm tile a) (bytesRow bs) with
      | .error e => .error e
      | .ok s1 => rowSamples fn tile fuel s1 (a + 128) (bs.drop 128)

/-- Rows written to a tensor in order, with their samples under STAT: the state, and the fault that stopped them. -/
def writeRows (p : Plan) (r : Run) (t : Tensor) (stat : Bool) : List (List Byte × Nat) → State →
    Res (State × Option Raise)
  | [], s => .ok (s, none)
  | (bs, i) :: rest, s =>
    let a := (t.base + i * t.pitch) % 2 ^ 64
    match planWrite s (fun s => fnAim s r.fn p.tile r.det) a bs with
    | (s1, some (.raise f)) => .ok (s1, some f)
    | (_, some e) => .error e
    | (s1, none) =>
      match (if stat then rowSamples r.fn p.tile (bs.length / 128 + 2) s1 a bs else .ok s1) with
      | .error e => .error e
      | .ok s2 => writeRows p r t stat rest s2

/-- The stage that forms the operator at a position. -/
def Plan.stageOf (p : Plan) (pos : Nat) : Nat := (p.stages.filter (· ≤ pos)).length

/-- Whether an operand code names a TENSOR node of a TID. -/
def Plan.codeNames (p : Plan) (tid code : Nat) : Bool :=
  code ≥ 0x8000 && (nodeAt p.nodes (code - 0x8000)).param0 = tid

/-- Whether the values a tensor receives in a stage are written with STAT = 1: it is a TENSOR that another stage reads, or one
whose statistics feed a choice of R324, which are the inputs of a MATMUL (R321, R330; log entry 9). -/
def statDest (p : Plan) (stage tid : Nat) : Bool :=
  p.ops.zipIdx.any (fun o => p.stageOf o.2 ≠ stage && o.1.code.any (p.codeNames tid))
    || p.dests.any (fun d => d.1 ≠ stage && p.codeNames tid d.2.1)
    || p.nodes.any (fun n => n.kind = 2 && (n.ins.take 2).any (fun i =>
      let t := nodeAt p.nodes i
      t.kind = 1 && t.param0 = tid))

/-- The destinations of a stage written in order. -/
def writeDests (p : Plan) (r : Run) : List (Nat × Nat) → State → Res (State × Option Raise)
  | [], s => .ok (s, none)
  | (code, tid) :: rest, s =>
    let t := r.tensor tid
    match destRows s (fnAim s r.fn p.tile r.det) p r code t with
    | .error (.raise f) => .ok (s, some f)
    | .error e => .error e
    | .ok rows =>
      match writeRows p r t (statDest p r.stage tid) rows.zipIdx s with
      | .error e => .error e
      | .ok (s1, some f) => .ok (s1, some f)
      | .ok (s1, none) => writeDests p r rest s1

/-- Stage k of a run carried out: its operators formed, its destinations written. -/
def doStage (s : State) (p : Plan) (r : Run) (pkt : Nat) : Res (State × Run × Option Raise) :=
  let lo := p.doneAt r.stage
  let hi := p.doneAt (r.stage + 1)
  match formStage (fun s => fnAim s r.fn p.tile r.det) p pkt ((List.range (hi - lo)).map (· + lo)) s r with
  | .error e => .error e
  | .ok (s1, r1, some f) => .ok (s1, r1, some f)
  | .ok (s1, r1, none) =>
    match writeDests p r1 ((p.dests.filter (fun d => d.1 = r.stage)).map (·.2)) s1 with
    | .error e => .error e
    | .ok (s2, f) => .ok (s2, r1, f)

/-! ### The launch of a stage -/

/-- Free running slots of a die for binding, but those of tiles whose slots are exchanging (R77, R362, R392). -/
def freeRunning (s : State) (die : Nat) : List Nat :=
  ((List.range 128).map (· + 128 * die)).filter (fun t =>
    !s.dev.failed t && (s.strands.find? (runKey t)).isNone && !(s.tile t).exchanging)

/-- The die of strand i (R76). -/
def dieOf (groups : List (Nat × Nat × Nat)) (strands i : Nat) : Nat :=
  match groups.find? (fun g => g.1 ≤ i && i ≤ g.2.1) with
  | some g => g.2.2
  | none => 4 * i / strands

/-- Strands of a launch that a die takes. -/
def dieCount (groups : List (Nat × Nat × Nat)) (strands d : Nat) : Nat :=
  ((List.range strands).filter (fun i => dieOf groups strands i = d)).length

/-- Tiles of a die that passed their test (R392). -/
def workingTiles (d : Device) (die : Nat) : Nat :=
  ((List.range 128).filter (fun t => !d.failed (128 * die + t))).length

/-- Strands of the launch that issued a run, all of them and those on a die. -/
def issuerStrands (s : State) (r : Run) : Nat × (Nat → Nat) :=
  match s.dev.launches.find? r.launch with
  | some l => (pkStrands l.packet, dieCount l.groups (pkStrands l.packet))
  | none => (0, fun _ => 0)

/-- Whether a stage of n strands in deterministic mode keeps the bounds of R330: 512 less the strands of its issuing launch,
and on each die, where R76 places them with no placement map, the running slots which that launch leaves free. -/
def stageFits (s : State) (r : Run) (n : Nat) : Bool :=
  let i := issuerStrands s r
  n + i.1 ≤ 512 && (List.range Config.dies).all (fun d => dieCount [] n d + i.2 d ≤ workingTiles s.dev d)

/-- The placements of a stage in deterministic mode that keep the bounds of R330, its strands and the groups of its placement map
(R76): sizes with no map, and sizes all on one die. -/
def detPlaces (s : State) (r : Run) : List (Nat × List (Nat × Nat × Nat)) :=
  let i := issuerStrands s r
  let sizes := (List.range 512).map (· + 1)
  (sizes.filter (stageFits s r)).map (fun n => (n, []))
    ++ (List.range Config.dies).flatMap (fun d =>
      (sizes.filter (fun n => n + i.1 ≤ 512 && n + i.2 d ≤ workingTiles s.dev d)).map (fun n => (n, [(0, n - 1, d)])))

/-- The strands of a stage and the groups of its map: at least one strand, a free value within the bounds of R330 and R66
(log entry 9). -/
def stagePlace (s : State) (r : Run) : Nat × List (Nat × Nat × Nat) :=
  let v := Config.stageStrands (r.num * 65536 + r.stage)
  if r.det then
    let ps := detPlaces s r
    ps.getD (v % max 1 ps.length) (1, [])
  else
    let n := 1 + v % (2 ^ 20 - 1)
    let d := v / 2 ^ 20 % 5
    (n, if d < Config.dies then [(0, n - 1, d)] else [])

/-- The packet of a stage under its placement (R330, R66): words that the planner's code determines are free values, the place of
its map in the arena among them (log entry 9). -/
def stagePacket (r : Run) (p : Plan) (place : Nat × List (Nat × Nat × Nat)) : BitVec 512 :=
  let inArena (i j unit : Nat) : Nat := p.arena + Config.stagePacketWord i j / unit * unit % (65536 * p.arenaLen)
  let map := if place.2 = [] then 0 else 2 ^ 256 * inArena (r.num + 1) (r.stage + 1) 32 + 2 ^ 320
  BitVec.ofNat 512 (1 + 2 ^ 9 * r.det.toNat + 2 ^ 16 * r.nbv + 2 ^ 32 * place.1 + 2 ^ 64 * inArena r.num r.stage 64
    + 2 ^ 128 * (Config.stagePacketWord r.stage r.num % 2 ^ 64) + map)

/-- A run ended with a status (R333, R334): its number completes, the plan keeps what R328 reads, a released plan's
slot becomes free, and status 5 raises PLAN_INVALID in the issuing strand's context. -/
def endRun (s : State) (r : Run) (status : Nat) : State :=
  let rest := s.planner.runs.filter (fun q => q.num ≠ r.num)
  let early := r.num :: s.planner.monEarly
  let (c, e) := absorb early.length s.planner.monCompletion early
  let s1 := s.setPlanner { s.planner with runs := rest, monCompletion := c, monEarly := e }
  let slot := planSlot s1 r.slot
  let s2 := match slot.plan with
    | none => s1
    | some p =>
      if p.released && !running s1 r.slot then setPlanSlot s1 r.slot { slot with plan := none }
      else setPlan s1 r.slot { p with
        lastStatus := status, lastFp := p.fp, lastReplanned := r.replanned, ended := (p.ended + 1) % 2 ^ 32 }
  if status = 5 then
    match findUid s2 r.uid with
    | some (key, st) => s2.setStrand key { st with
        pendingFaults := st.pendingFaults ++ [(⟨.planInvalid, .a, 0⟩, r.pseqno)] }
    | none => s2
  else s2

/-- A queue that the planner cannot reach for a run: the record of R80 and status 3 (log entry 9). -/
def runLost (s : State) (r : Run) : State :=
  endRun (logRecord s ⟨.address, .none, 0⟩ (procAt s r.fn r.queue (openField s 1)) {}).logErr r 3

/-- A run in deterministic mode whose queue lies on a host or peer page: MODE at the claim, as for LAUNCH (R109, R178), in a
record of the planner, and status 3 (DESIGN CHOICE for who raises it and for the status, log entry 9). -/
def runMode (s : State) (r : Run) : State :=
  endRun (logRecord s ⟨.mode, .none, 0⟩ (procAt s r.fn r.queue (openField s 1)) {}) r 3

/-- The claimed slot takes the stage's packet once it is free (R70, R71, R178), at the base and under the size that the claim
took. Once the issuing strand has been killed no stage is launched, and the slot keeps TYPE 0 (R179, R334). -/
def storeStage (s : State) (r : Run) (p : Plan) (base size w : Nat) : State :=
  if r.killed then endRun s r 4
  else
  match procRow s r.fn (base + 128) with
  | .error (.raise _) => runLost s r
  | .error (.far port a _ _) => if r.det then runMode s r else procAsk s port a
  | .error .hold => s
  | .ok none => runLost s r
  | .ok (some row) =>
    let s0 := s.forgetRows
    if !slotFree size w (rowNat row 0 8) then s0
    else
      let a := slotIn base size w
      let place := stagePlace s0 r
      let pkt := stagePacket r p place
      let bs := leBytes 64 pkt.toNat
      let r1 := { r with phase := .sent w pkt place.2 }
      match procTarget s0 r.fn a true with
      | .error .hold => s0
      | .error _ => runLost s0 r
      | .ok (.cell k) => putRun (writeTarget s0 (.cell k) (a % 128) bs) r1
      | .ok (.far port b) =>
        if r.det then runMode s0 r
        else match port with
          | none =>
            putRun (sendPieces s0 none (hostPieces (b + 8) (bs.drop 8) 7 ++ [(b, bs.take 8)])) r1
          | some _ => putRun (writeTarget s0 (.far port b) (a % 128) bs) r1

/-- A slot claimed for the next stage by an add of 1 to WRIDX, the queue's base and size taken once, before it (R70, R178,
R332). -/
def claimStage (s : State) (r : Run) (p : Plan) : State :=
  let base := queueBase s.dev r.queue
  let size := queueSize s.dev r.queue
  match procTarget s r.fn base true with
  | .error .hold => s
  | .error _ => runLost s r
  | .ok (.cell k) =>
    if stackReady s.dev.ready k then
      let (w, m) := atomicMem s.mem .add k 1 0
      let r1 := { r with phase := .store base size w }
      storeStage (putRun (s.setMem m) r1) r1 p base size w
    else s
  | .ok (.far port a) =>
    if r.det then runMode s r
    else
      let (id, s1) := s.drawId
      (putRun (s1.setDev { s1.dev with far := s1.dev.far ++ [⟨id, id, 0, port, a, .claim r.num⟩] })
        { r with phase := .asked id base size }).send (.atomic id port .add (word8 a) 1 0)

/-- A stage's next launch, or the end of a run that has no more stages or whose strand was killed (R334). -/
def nextStage (s : State) (r : Run) (p : Plan) : State :=
  if r.killed then endRun s r 4
  else if r.stage ≥ p.stages.length then endRun s r 1
  else claimStage (putRun s { r with phase := .claim }) { r with phase := .claim } p

/-- What a part of a run comes to when an access must wait. -/
def runWait (s : State) (e : Stop) : State :=
  match e with
  | .far port a _ _ => procAsk s port a
  | _ => s

/-- The break after r.stage stages applied, and what follows it (R331, R332). A Hawkmoth block that cannot be loaded there, where
no word stands to fault, leaves the plan unable to run (DESIGN CHOICE, log entry 9). -/
def applyBreak (s : State) (r : Run) (p : Plan) : Except Stop State :=
  match breakPlan s r.fn p r.stage with
  | .error (.stop (.raise _)) => .ok (endRun s r 5)
  | .error (.stop e) => .error e
  | .error (.status _ _) => .ok (endRun s r 5)
  | .ok none => .ok (endRun s r 5)
  | .ok (some (p1, again)) =>
    match patchRun (setPlan s.forgetRows r.slot p1) p1 { r with replanned := r.replanned || again } with
    | .error e => .error e
    | .ok (s1, r1) => .ok (nextStage (putRun s1 r1) r1 p1)

/-- The record of a strand of a stage that ends by a fault; TIMING is imprecise (R342, R360). -/
def stageFault (s : State) (r : Run) (pkt : Nat) (f : Raise) : State :=
  logRecord s { f with index := Config.stageFaultWord r.num 0 } (stageAt s r pkt 1)
    { imprecise := f.code = .timing, ended := true }

/-- The launch of a stage leaves the table. -/
def stageGone (s : State) (lid : Nat) : State := s.setDev { s.dev with launches := s.dev.launches.erase lid }

/-- A stage whose strand has ended by a fault (R334). -/
def stageFails (s : State) (r : Run) (l : Launch) (lid : Nat) (f : Raise) : State :=
  endRun (stageGone (stageFault s r l.pkt f) lid) r 3

/-- A stage whose strands have all ended: its values, its status, then the break (R331, R334). -/
def stageEnded (s : State) (r : Run) (p : Plan) (l : Launch) (lid : Nat) : Except Stop State :=
  if l.status ≠ 1 then .ok (endRun (stageGone s lid) r l.status)
  else
    match doStage s p r l.pkt with
    | .error e => .error e
    | .ok (s1, r1, some f) => .ok (stageFails s1 r1 l lid f)
    | .ok (s1, r1, none) =>
      let r2 := { r1 with stage := r1.stage + 1, phase := .claim }
      applyBreak (putRun (stageGone s1 lid) r2) r2 p

/-- Whether every strand of a launch that is a stage has ended, and no kill of it is under way. -/
def stageOver (s : State) (l : Launch) (lid : Nat) : Bool :=
  !s.dev.killedLaunches.contains lid && l.ended = (if l.killed then l.bound else pkStrands l.packet)

/-- What a run does next: its first break once it is its turn, its claim, its store, or the end of a stage. A run whose packet
was lost waits until it is killed (R70, R334; DESIGN CHOICE, log entry 9). -/
def runStep (s : State) (r : Run) (p : Plan) : Except Stop State :=
  match r.phase with
  | .queued =>
    if s.planner.runs.any (fun q => q.slot = r.slot && q.num < r.num) then .ok s
    else if r.killed then .ok (endRun s r 4)
    else applyBreak s r p
  | .claim => .ok (nextStage s r p)
  | .store base size w => .ok (storeStage s r p base size w)
  | .staged lid =>
    match s.dev.launches.find? lid with
    | none => .ok (endRun s r 4)
    | some l => if stageOver s l lid then stageEnded s r p l lid else .ok s
  | .lost => .ok (if r.killed then endRun s r 4 else s)
  | _ => .ok s

/-- Whether what a run does next makes accesses: a break's reads, a claim, a store, a stage's own accesses. -/
def runActs (s : State) (r : Run) (p : Plan) : Bool :=
  match r.phase with
  | .queued => !s.planner.runs.any (fun q => q.slot = r.slot && q.num < r.num) && !r.killed
  | .claim => !r.killed && r.stage < p.stages.length
  | .store _ _ _ => !r.killed
  | .staged lid => match s.dev.launches.find? lid with
    | some l => stageOver s l lid && l.status = 1
    | none => false
  | _ => false

/-- An access of a strand of a stage meets the health of the state: in deterministic mode an error that lasts is its fault, and
every other is an event of it (R342, R364; its place is a free value, log entry 9). -/
def stageMeet (s : State) (r : Run) (l : Launch) : State × Option Raise :=
  let s1 := { s with health := .clean }
  let event (c : Code) : State :=
    logRecord s1 ⟨c, .a, Config.stageFaultWord r.num 5⟩ (stageAt s1 r l.pkt 6) { transient := true }
  match s.health with
  | .clean => (s, none)
  | .softEcc => (event .softEcc, none)
  | .linkRetry => (event .linkRetry, none)
  | .memLasting => if r.det then (s1, some ⟨.memLasting, .a, 0⟩) else (event .softEcc, none)
  | .linkLasting => if r.det then (s1, some ⟨.linkLasting, .a, 0⟩) else (event .linkRetry, none)
  | .timing => (s1, if r.det && !l.desync then some ⟨.timing, .a, 0⟩ else none)

/-- What a run does next, its accesses meeting the health of the state first: the planner's own as events (R364), those of a
stage as its strands' (R342). -/
def runMeets (s : State) (r : Run) (p : Plan) : Except Stop State :=
  match r.phase with
  | .staged lid =>
    match s.dev.launches.find? lid with
    | none => runStep s r p
    | some l => match stageMeet s r l with
      | (s1, some f) => .ok (stageFails s1 r l lid f)
      | (s1, none) => runStep s1 r p
  | _ => runStep (procMeet s r.fn r.queue (openField s 1) false) r p

/-- PLAN_BREAK (R331, R332): the run of this number goes on. -/
def execPlanBreak (run : Nat) (s : State) : Out :=
  match findRun s run with
  | none => .next s
  | some r =>
    match (planSlot s r.slot).plan with
    | none => .next (endRun s r 5)
    | some p =>
      match runStep s r p with
      | .error e => .next (runWait s e)
      | .ok s1 =>
        if s.health = .clean || !runActs s r p then .next s1
        else match runMeets s r p with
          | .ok s2 => .next s2
          | .error e => .next (runWait s e)

end Sys2Proof.Machine
end

