-- ==== Sys2Proof/Machine/Planner.lean ====
section
/-! DEFINITION. The planner words (R310 to R332): at C a word sends its request and waits; the planner applies requests
one at a time (R309) and answers. -/

namespace Sys2Proof.Machine

/-- A planner word at C (R310): its earlier accesses have been performed (log entry 5), so the request leaves at once;
C waits for the answer. -/
def planWord (i : Instr) (s : State) : Out :=
  onC s fun key st =>
    if st.c.wait = .planner then .next s
    else .next ((s.setPlanner { s.planner with reqs := s.planner.reqs ++ [.word st.uid i] }).setStrand key
      (st.cStay .planner))

/-- treg.reg (R312). -/
def execTregReg (xd xa : Reg) (s : State) : Out := planWord (.tregReg xd xa) s
/-- treg.upd (R312). -/
def execTregUpd (xd xa : Reg) (s : State) : Out := planWord (.tregUpd xd xa) s
/-- treg.rst (R312). -/
def execTregRst (xd xa : Reg) (s : State) : Out := planWord (.tregRst xd xa) s
/-- treg.del (R312). -/
def execTregDel (xd xa : Reg) (s : State) : Out := planWord (.tregDel xd xa) s
/-- PLAN (R326): an n of 0 is illegal when the word executes. -/
def execPlan (xd xa xc : Reg) (hints : BitVec 4) (n : BitVec 16) (s : State) : Out :=
  if n = 0 then onC s fun key st => .next (takeFault s key st ⟨.illegalOp, .none, 0⟩)
  else planWord (.plan xd xa xc hints n) s
/-- PHINT (R327). -/
def execPhint (xd xa : Reg) (hints : BitVec 4) (s : State) : Out := planWord (.phint xd xa hints) s
/-- ppin.on (R327). -/
def execPpinOn (xa : Reg) (s : State) : Out := planWord (.ppinOn xa) s
/-- ppin.off (R327). -/
def execPpinOff (xa : Reg) (s : State) : Out := planWord (.ppinOff xa) s
/-- PRUN (R332). -/
def execPrun (xd xa xc : Reg) (s : State) : Out := planWord (.prun xd xa xc) s
/-- PREL (R327). -/
def execPrel (xa : Reg) (s : State) : Out := planWord (.prel xa) s
/-- STATRD (R316). -/
def execStatrd (xd xa xc : Reg) (s : State) : Out := planWord (.statrd xd xa xc) s
/-- PFPR (R328). -/
def execPfpr (xd xa : Reg) (sel : BitVec 3) (s : State) : Out := planWord (.pfpr xd xa sel) s

/-! ### Requests applied -/

/-- What a word's request comes to: the state, xd's value, and a fault found after a part of its effect. -/
structure Answer where
  s : State
  v : Nat
  late : Option Raise

/-- An answer without a fault. -/
def answer (s : State) (v : Nat) : PRes Answer := pure ⟨s, v, none⟩

/-- A fault of a planner word, slot A. -/
def pRaise {α : Type} (c : Code) : PRes α := .error (.stop (.raise ⟨c, .a, 0⟩))

/-- The descriptor row at an address, checked as LD (R311, R312). -/
def readDesc (s : State) (key : Nat) (a : Word) : PRes (List Byte × Tensor) := do
  let bs ← liftRes (planRead s (wordAim s key) (rowOf a.toNat) 128)
  match descOf bs with
  | some t => pure (bs, t)
  | none => pStatus 1

/-- treg.reg (R312). -/
def regTensor (s : State) (key : Nat) (st : Strand) (a : Word) : PRes Answer := do
  let (_, t) ← readDesc s key a
  match freeTensor s.planner with
  | none => pStatus 2
  | some tid =>
    let old := (s.planner.tensors.find? tid).getD Tensor.free
    answer (setTensor s tid { t.fresh with
      live := true, fn := st.fn, serial := (old.serial + 1) % 2 ^ 32, gen := 1 }) tid

/-- treg.upd (R312). -/
def updTensor (s : State) (key : Nat) (st : Strand) (a : Word) : PRes Answer := do
  let (bs, t) ← readDesc s key a
  let tid := numAt bs 52 4
  match tensorOf s.planner st.fn tid with
  | none => pStatus 6
  | some old => answer (setTensor s tid { old with
      base := t.base, blkaddr := t.blkaddr, caddr := t.caddr, pitch := t.pitch, dims := t.dims, fmt := t.fmt
      vl := t.vl }) tid

/-- treg.rst (R312). -/
def rstTensor (s : State) (st : Strand) (tid : Nat) : PRes Answer :=
  match tensorOf s.planner st.fn tid with
  | none => pStatus 6
  | some t =>
    let gen := (t.gen + 1) % 2 ^ 32
    answer (setTensor s tid { t.fresh with gen := gen }) gen

/-- treg.del (R312). -/
def delTensor (s : State) (st : Strand) (tid : Nat) : PRes Answer :=
  match tensorOf s.planner st.fn tid with
  | none => pStatus 6
  | some t => answer (setTensor s tid { t with live := false }) 0

/-- STATRD (R316): the rows before a failing one stay written. -/
def statRead (s : State) (key : Nat) (st : Strand) (tid : Nat) (a : Word) : PRes Answer :=
  match tensorOf s.planner st.fn tid with
  | none => pStatus 6
  | some t =>
    match planWrite s (fun s => wordAim s key) (rowOf a.toNat) (entryBytes tid t) with
    | (s1, none) => answer s1 t.gen
    | (s1, some (.raise r)) => pure ⟨s1, 0, some r⟩
    | (_, some e) => .error (.stop e)

/-- A handle (R325). -/
def handleWord (gen fn slot : Nat) : Nat := gen * 2 ^ 32 + fn * 2 ^ 28 + slot

/-- The slot and plan of a handle; PLAN_INVALID where it is stale (R325, R327). -/
def needPlan (s : State) (st : Strand) (h : Word) : PRes (Nat × PlanSlot × Plan) :=
  let slot := bitsOf h.toNat 0 12
  let ps := planSlot s slot
  match ps.plan with
  | none => pRaise .planInvalid
  | some p =>
    if h.toNat = handleWord ps.gen st.fn slot && ps.fn = st.fn then pure (slot, ps, p) else pRaise .planInvalid

/-- The arena of a plan, or the ARENA status (R325, R326). -/
def needArena (aim : Aim) (a units n : Nat) : PRes Unit :=
  if a % 65536 ≠ 0 then pStatus 5
  else if units > n then .error (.status 5 (min units 0xFFFF))
  else do
    let ok ← liftRes (arenaOk aim a units)
    if ok then pure () else pStatus 5

/-- The lowest free plan slot (R337). -/
def freePlan (s : State) : Option Nat := (List.range Config.maxPlans).find? (fun i => (planSlot s i).plan.isNone)

/-- The tree at an address: ROOT and the nodes (R317, R339). -/
def readTree (s : State) (key : Nat) (a : Nat) : PRes (Nat × List (Node × Bool)) := do
  let hd ← liftRes (planRead s (wordAim s key) a 32)
  let n := numAt hd 0 4
  if numAt hd 8 24 ≠ 0 || numAt hd 4 2 ≠ 1 || n = 0 || n > 1024 then pStatus 3
  else
    let raw ← liftRes (planRead s (wordAim s key) ((a + 32) % 2 ^ 64) (32 * n))
    pure (numAt hd 6 2, nodesOf n raw)

/-- PLAN (R326). The plan keeps NBV and DET of the strand that issued it: they enter every fingerprint of it, whoever issues PHINT
or PRUN (R329; DESIGN CHOICE, log entry 37). -/
def makePlan (s : State) (key : Nat) (st : Strand) (tree arena : Word) (hints n : Nat) : PRes Answer := do
  let (root, ns) ← readTree s key tree.toNat
  let aim := wordAim s key
  match ← planTree ⟨s, aim, st.fn, key / 2⟩ ns root hints st.nbv.toNat st.det st.cost [] with
  | none => pStatus 4
  | some d =>
    match freePlan s with
    | none => pStatus 2
    | some slot =>
      let units := unitsOf (ns.map (·.1)) d.ops
      needArena aim arena.toNat units n
      let gen := (planSlot s slot).gen
      let p : Plan := {
        tile := key / 2, nodes := ns.map (·.1), root := root, hints := hints, arena := arena.toNat
        arenaLen := n
        nbv := st.nbv.toNat, det := st.det, cost := st.cost, ops := d.ops, stages := d.stages, dests := d.dests
        total := d.total, fp := d.fp, recorded := d.recorded, pinned := false, released := false, lastStatus := 0
        lastReplanned := false, lastFp := 0, replans := 0, ended := 0 }
      answer (setPlanSlot (writeArena s (fun s => wordAim s key) arena.toNat units) slot ⟨gen, st.fn, some p⟩)
        (handleWord gen st.fn slot)

/-- A new choice for a plan outside a break: what PLAN recorded of its tensors is recorded anew but for their SERIALs, so that a
registration in the slot of a deleted tensor does not revive the plan (R331, R336; DEDUCED, log entry 9). -/
def Plan.hinted (p : Plan) (d : Planned) : Plan :=
  { p.adopt d with recorded := d.recorded.map (fun r =>
      { r with serial := ((p.recorded.find? (fun q => q.tid = r.tid)).map (·.serial)).getD r.serial }) }

/-- PHINT (R327): unless the plan is pinned or running it plans again at once, as PLAN does, from the kept tree. That is no re-plan
of SEL 4, which counts those at breaks (R328, R331; DESIGN CHOICE, log entry 36). -/
def hintPlan (s : State) (key : Nat) (st : Strand) (h : Word) (hints : Nat) : PRes Answer := do
  let (slot, ps, p) ← needPlan s st h
  if p.pinned then pStatus 7
  else if running s slot then answer (setPlan s slot { p with hints := hints, cost := st.cost }) 0
  else
    let aim := wordAim s key
    match ← planTree ⟨s, aim, ps.fn, p.tile⟩ p.tree p.root hints p.nbv p.det st.cost [] with
    | none => pStatus 4
    | some d =>
      let units := unitsOf p.nodes d.ops
      needArena aim p.arena units p.arenaLen
      answer (setPlan (writeArena s (fun s => wordAim s key) p.arena units) slot
        { p.hinted d with hints := hints, cost := st.cost }) 0

/-- PPIN (R327). -/
def pinPlan (s : State) (st : Strand) (h : Word) (on : Bool) : PRes Answer := do
  let (slot, _, p) ← needPlan s st h
  answer (setPlan s slot { p with pinned := on }) 0

/-- PREL (R325, R327). -/
def relPlan (s : State) (st : Strand) (h : Word) : PRes Answer := do
  let (slot, ps, p) ← needPlan s st h
  answer (setPlanSlot s slot { ps with
    gen := (ps.gen + 1) % 2 ^ 16
    plan := if running s slot then some { p with released := true } else none }) 0

/-- The field of PFPR (R328). -/
def planField (s : State) (slot : Nat) (p : Plan) (sel : Nat) : Nat :=
  match sel with
  | 0 => p.fp
  | 1 => p.total
  | 2 => p.lastStatus * 2 ^ 32 + p.hints * 2 ^ 16 + p.stages.length % 256 * 2 ^ 8 + p.lastReplanned.toNat * 4
      + (running s slot).toNat * 2 + p.pinned.toNat
  | 3 => p.lastFp
  | 4 => p.replans * 2 ^ 32 + p.ended
  | _ => unitsOf p.nodes p.ops

/-- PFPR (R328). -/
def readPlan (s : State) (st : Strand) (h : Word) (sel : Nat) : PRes Answer := do
  let (slot, _, p) ← needPlan s st h
  answer s (planField s slot p sel)

/-- Whether the issuing launch of a PRUN leaves a stage enough slots (R346). -/
def prunFits (s : State) (st : Strand) : Bool :=
  !st.det || match s.dev.launches.find? st.launch with
    | some l => pkStrands l.packet ≤ 448
    | none => true

/-- PRUN accepted (R332, R333): the run takes the next number of tl.mon. -/
def startRun (s : State) (st : Strand) (slot queue : Nat) (ph : RunPhase) (again : Bool) : State × Run :=
  let num := s.planner.monIssue + 1
  let r : Run := {
    num := num, slot := slot, queue := queue, fn := st.fn, uid := st.uid, launch := st.launch
    pseqno := st.c.seqno + 1, det := st.det, nbv := st.nbv.toNat, seed := st.srseed, phase := ph, stage := 0, tensors := []
    values := [], replanned := again, killed := false }
  (s.setPlanner { s.planner with monIssue := num, runs := s.planner.runs ++ [r] }, r)

/-- PRUN (R332). -/
def runPlan (s : State) (st : Strand) (h xc : Word) : PRes Answer := do
  let (slot, ps, p) ← needPlan s st h
  let q := xc.toNat
  if !queueTakes s.dev q st.fn || !prunFits s st then pRaise .launch
  else if running s slot then
    if !serialsStand s ps.fn p || (p.pinned && !shapesStand s ps.fn p) then pRaise .planInvalid
    else
      let (s1, r) := startRun s st slot q .queued false
      answer s1 r.num
  else
    match ← breakPlan s ps.fn p 0 with
    | none => pRaise .planInvalid
    | some (p1, again) =>
      let (s1, r) := startRun (setPlan s slot p1) st slot q .claim again
      let (s2, r1) ← liftRes (patchRun s1 p1 r)
      answer (nextStage (putRun s2 r1) r1 p1) r.num

/-- The request of a planner word applied (R309). -/
def applyWord (s : State) (key : Nat) (st : Strand) (i : Instr) : PRes Answer :=
  match i with
  | .tregReg _ xa => regTensor s key st (st.rx xa)
  | .tregUpd _ xa => updTensor s key st (st.rx xa)
  | .tregRst _ xa => rstTensor s st (st.rx xa).toNat
  | .tregDel _ xa => delTensor s st (st.rx xa).toNat
  | .plan _ xa xc hints n => makePlan s key st (st.rx xa) (st.rx xc) hints.toNat n.toNat
  | .phint _ xa hints => hintPlan s key st (st.rx xa) hints.toNat
  | .ppinOn xa => pinPlan s st (st.rx xa) true
  | .ppinOff xa => pinPlan s st (st.rx xa) false
  | .prun _ xa xc => runPlan s st (st.rx xa) (st.rx xc)
  | .prel xa => relPlan s st (st.rx xa)
  | .statrd _ xa xc => statRead s key st (st.rx xa).toNat (st.rx xc)
  | .pfpr _ xa sel => readPlan s st (st.rx xa) sel.toNat
  | _ => pStatus 0

/-- The register a planner word writes: x0 for PPIN and PREL. -/
def planXd : Instr → Reg
  | .tregReg xd _ | .tregUpd xd _ | .tregRst xd _ | .tregDel xd _ => xd
  | .plan xd _ _ _ _ => xd
  | .phint xd _ _ => xd
  | .prun xd _ _ => xd
  | .statrd xd _ _ => xd
  | .pfpr xd _ _ => xd
  | _ => 0

/-- A status word (R325). -/
def statusWord (code size : Nat) : Nat := 2 ^ 63 + size * 2 ^ 32 + code

/-- The request at the head taken off. -/
def popReq (s : State) : State := s.setPlanner { s.planner with reqs := s.planner.reqs.drop 1 }

/-- A planner word answered: xd takes the value and C goes on. -/
def planAnswer (s : State) (key : Nat) (st : Strand) (i : Instr) (v : Nat) : State :=
  s.setStrand key (((s.strandAt key st).wx (planXd i) (BitVec.ofNat 64 v)).cNext)

/-- The planner word at the head applied for its strand. -/
def applyHead (s : State) (key : Nat) (st : Strand) (i : Instr) : State :=
  match applyWord s key st i with
  | .ok a =>
    let s1 := (popReq a.s).forgetRows
    match a.late with
    | none => planAnswer s1 key st i a.v
    | some r => takeFault s1 key (s1.strandAt key st) r
  | .error (.status c z) => planAnswer (popReq s).forgetRows key st i (statusWord c z)
  | .error (.stop (.raise r)) => takeFault (popReq s).forgetRows key st r
  | .error (.stop e) => runWait s e

/-- Whether a planner word that came to this result has made an access: a descriptor or tree read, a plan's break, the rows of
STATRD. -/
def planAccessed (s : State) (st : Strand) (i : Instr) (res : PRes Answer) : Bool :=
  let slot (xa : Reg) : Nat := bitsOf (st.rx xa).toNat 0 12
  let ended : Bool := match res with
    | .error (.stop _) => false
    | _ => true
  ended && match i with
    | .tregReg _ _ | .tregUpd _ _ | .plan _ _ _ _ _ => true
    | .phint _ xa _ => !running s (slot xa) && (match (planSlot s (slot xa)).plan with
      | some p => !p.pinned
      | none => false)
    | .prun _ xa _ => !running s (slot xa)
    | .statrd _ _ _ => res.toOption.isSome
    | _ => false

/-- An access of a planner word meets the health of the state: an event or a fault that names the word, in slot D for the rows
that STATRD writes and in slot A for what the others read (R316, R342, R357, R364, R384). -/
def planMeet (s : State) (key : Nat) (st : Strand) (i : Instr) : State × Option Raise :=
  let writes : Bool := match i with
    | .statrd _ _ _ => true
    | _ => false
  meetHealth s key st .c (st.c.seqno + 1) (if writes then .d else .a) 0 writes

/-- The planner word at the head applied for its strand, its accesses meeting their health. One whose error lasts has no effect
(DESIGN CHOICE for the rows that STATRD has written, log entry 45). -/
def applyMeets (s : State) (key : Nat) (st : Strand) (i : Instr) : State :=
  if s.health = .clean || !planAccessed s st i (applyWord s key st i) then applyHead s key st i
  else match planMeet s key st i with
    | (s1, some r) => takeFault (popReq s1).forgetRows key st r
    | (s1, none) => applyHead s1 key st i

/-- Whether a sample, where it is applied, makes accesses of the planner: it counts blocks or reads the rest of its row. -/
def sampleReads (s : State) (fn addr : Nat) : Bool :=
  match sampleTensor fn addr s.planner.tensors with
  | some (_, t, _, _) => t.blkaddr ≠ 0 || 11 ≤ t.fmt
  | none => false

/-- PLANNER_REQUEST_APPLY (R309, R391): the planner word at the head is applied; one whose strand has gone is dropped
(R369). -/
def execPlannerRequestApply (s : State) : Out :=
  match s.planner.reqs with
  | .word uid i :: _ =>
    if !s.dev.ready.getLsbD 4 then .next s
    else
      match findUid s uid with
      | none => .next (popReq s)
      | some (key, st) => if st.c.wait = .planner then .next (applyMeets s key st i) else .next (popReq s)
  | _ => .next s

/-- ATLAS_SAMPLE_APPLY (R309, R313, R314): the sample at the head is applied. -/
def execAtlasSampleApply (s : State) : Out :=
  match s.planner.reqs with
  | .sample _ _ _ fn queue pkt addr row :: _ =>
    match applySample s fn addr row with
    | .ok s1 =>
      let s2 := (popReq s1).forgetRows
      .next (if sampleReads s fn addr then procMeet s2 fn queue pkt false else s2)
    | .error e => .next (runWait s e)
  | _ => .next s

end Sys2Proof.Machine
end

