-- ==== Sys2Proof/Machine/CmdProc.lean ====
section
/-! DEFINITION. The command processors' intake: queue heads (R68 to R71, R80), the lottery (R72, R73), packet breakpoints
(R371, R372), the checks of a packet (R65 to R67, R75, R391), placement (R76) and acceptance. -/

namespace Sys2Proof.Machine

/-! ### Queue heads -/

/-- A queue that a command processor cannot serve is disabled, with the record of R80. -/
def breakQueue (s : State) (q : Nat) : State :=
  let off := setBits (cellGet (0 : BitVec 32) s.dev.qctl q).toNat 31 1 0
  let s1 := s.setDev { s.dev with qctl := cellSet 0 s.dev.qctl q (BitVec.ofNat 32 off) }
  (logRecord s1 ⟨.address, .none, 0⟩ (procAt s1 (queueFn s.dev q) q (openField s1 1)) {}).logErr

/-- What a command processor finds at a queue's head. -/
inductive QHead where
  /-- no packet -/
  | empty
  /-- the read index and the packet -/
  | packet (rd : Nat) (p : BitVec 512)
  /-- rows of these addresses have not come yet, or lie in an untrained stack -/
  | wait (vas : List Nat)
  /-- an index or the slot cannot be read (R80) -/
  | broken
deriving DecidableEq, Repr

/-- TYPE of a packet (R66). -/
def pkType (p : BitVec 512) : Nat := bitsOf p.toNat 0 8

/-- The head of a queue as it stands (R71). -/
def queueHead (s : State) (q : Nat) : QHead :=
  let f := queueFn s.dev q
  let base := queueBase s.dev q
  match procRow s f base, procRow s f (base + 128) with
  | .error (.raise _), _ => .broken
  | _, .error (.raise _) => .broken
  | .ok none, _ => .broken
  | _, .ok none => .broken
  | .ok (some r0), .ok (some r1) =>
    let rd := rowNat r1 0 8
    if rd = rowNat r0 0 8 then .empty
    else
      let a := slotAddr s.dev q rd
      match procRow s f a with
      | .error (.raise _) => .broken
      | .ok none => .broken
      | .error _ => .wait [a]
      | .ok (some row) => if pkType (halfRow row a) = 0 then .empty else .packet rd (halfRow row a)
  | _, _ => .wait [base, base + 128]

/-! ### The checks of a packet -/

/-- Whether a packet's reserved fields, and those that must be 0 for its type, are 0 (R66), and a GANG_ARM has a gang: one with
GANG = 0 is refused as a broken field is (DESIGN CHOICE, log entry 52). -/
def packetFieldsOk (p : BitVec 512) : Bool :=
  bitsOf p.toNat 10 6 = 0 && bitsOf p.toNat 52 12 = 0 && bitsOf p.toNat 368 8 = 0 &&
    (if pkType p = 2 then pkGang p ≠ 0 else pkGang p = 0 && pkPorts p = 0 && pkDeadline p = 0)

/-- PMAPN of a packet (R66). -/
def pkMapN (p : BitVec 512) : Nat := bitsOf p.toNat 320 32
/-- PMAP of a packet. -/
def pkMap (p : BitVec 512) : Nat := bitsOf p.toNat 256 64
/-- NBV of a packet. -/
def pkNbv (p : BitVec 512) : Nat := bitsOf p.toNat 16 16
/-- ARGS of a packet. -/
def pkArgs (p : BitVec 512) : Nat := bitsOf p.toNat 128 64
/-- WDLIMIT of a packet. -/
def pkWdlimit (p : BitVec 512) : Nat := bitsOf p.toNat 384 32

/-- The checks of R67 on the packet's own fields. -/
def packetOk (p : BitVec 512) : Bool :=
  packetFieldsOk p && 1 ≤ pkStrands p && pkMapN p ≤ 4096 && pkKaddr p % 64 = 0
    && (pkMapN p = 0 || pkMap p % 32 = 0) && pkSignal p % 8 = 0 && !(pkDet p && pkStrands p > 512)

/-- Offsets and NBV of a kernel header (R65). -/
def hdOff (h : BitVec 512) (i : Nat) : Nat := bitsOf h.toNat (32 * (1 + i)) 32
/-- NBV of a header. -/
def hdNbv (h : BitVec 512) : Nat := bitsOf h.toNat 0 16

/-- The checks of R65 on a header: reserved bytes and multiples. -/
def headerOk (h : BitVec 512) : Bool :=
  bitsOf h.toNat 16 16 = 0 && bitsOf h.toNat 160 352 = 0 && hdOff h 0 % 8 = 0
    && hdOff h 1 % 64 = 0 && hdOff h 2 % 64 = 0 && hdOff h 3 % 64 = 0

/-- An entry of a placement map (R75). -/
structure MapEntry where
  first : Nat
  last : Nat
  base : Nat
  len : Nat
deriving DecidableEq, Repr

/-- An entry from its 32 bytes; none where it breaks R75. -/
def mapEntry (strands : Nat) (v : Nat) : Option MapEntry :=
  let e : MapEntry := ⟨bitsOf v 0 32, bitsOf v 64 32, bitsOf v 192 64, bitsOf v 128 64⟩
  if bitsOf v 32 32 ≠ 0 || bitsOf v 96 32 ≠ 0 || e.last < e.first || e.last ≥ strands then none else some e

/-- The rows of a placement map. -/
def mapRows (p : BitVec 512) : List Nat :=
  if pkMapN p = 0 then []
  else
    let a := rowOf (pkMap p)
    (List.range ((pkMap p + 32 * pkMapN p - 1) / 128 + 1 - pkMap p / 128)).map (fun i => a + 128 * i)

/-- The entries of a map, read in order; none where a row cannot be read or an entry breaks R75 (R76). -/
def readMap (s : State) (fn : Nat) (p : BitVec 512) : List Nat → Option (List MapEntry)
  | [] => some []
  | i :: rest =>
    let a := pkMap p + 32 * i
    match procRow s fn a with
    | .ok (some row) =>
      match mapEntry (pkStrands p) (rowNat row (a % 128) 32), readMap s fn p rest with
      | some e, some es => some (e :: es)
      | _, _ => none
    | _ => none

/-! ### Placement -/

/-- The level of the entry at which a walk ends (R111). -/
def stopLevel (m : List Host.Cell) (va : Nat) : Nat → Nat → Nat → Nat
  | 0, level, _ => level
  | fuel + 1, level, table =>
    let e : Word := BitVec.ofNat 64 (readNat m (table + 8 * walkIndex va level) 8)
    if !e.getLsbD 0 || e.getLsbD 1 || level = 4 || !tableOk e then level
    else stopLevel m va fuel (level + 1) (bitsOf e.toNat 8 48 * 256)

/-- Bytes that an entry of a level spans (R111). -/
def levelSpan (level : Nat) : Nat :=
  match level with
  | 0 => 2 ^ 48
  | 1 => 2 ^ 39
  | 2 => 2 ^ 30
  | 3 => 2 ^ 21
  | _ => 2 ^ 16

/-- Counts per die with n bytes added to die d. -/
def addDie (c : List Nat) (d n : Nat) : List Nat := c.zipIdx.map (fun x => if x.2 = d then x.1 + n else x.1)

/-- Bytes of [va, stop) whose pages are mapped to each die's stacks, added to the counts; none where a table lies in an
untrained stack (R76, R391). -/
def countRange (s : State) (root : Word) : Nat → Nat → Nat → List Nat → Option (List Nat)
  | 0, _, _, c => some c
  | fuel + 1, va, stop, c =>
    if va ≥ stop then some c
    else
      match walk s.mem s.dev.ready root va with
      | .held => none
      | .found e =>
        let next := min stop (va - e.offset va + (if e.big then 2 ^ 21 else 2 ^ 16))
        match e.target va with
        | .cell k => countRange s root fuel next stop (addDie c (stackOf k / 2) (next - va))
        | _ => countRange s root fuel next stop c
      | .nothing =>
        let span := if va < 2 ^ 16 then 2 ^ 16 else levelSpan (stopLevel s.mem va 5 0 root.toNat)
        countRange s root fuel ((va / span + 1) * span) stop c

/-- The counts of the ranges of a group, one range after another, so that bytes which two of them cover count twice (R76; DESIGN
CHOICE, log entry 60). -/
def countGroup (s : State) (root : Word) (first last : Nat) : List MapEntry → List Nat → Option (List Nat)
  | [], c => some c
  | e :: es, c =>
    if e.first = first && e.last = last then
      match countRange s root (2 ^ 56) e.base (min (e.base + e.len) (2 ^ 56)) c with
      | none => none
      | some c1 => countGroup s root first last es c1
    else countGroup s root first last es c

/-- The die of the largest count, the lowest of equals; none where all are 0. -/
def bestDie (c : List Nat) : Option Nat :=
  let top := c.foldl max 0
  if top = 0 then none else c.findIdx? (· = top)

/-- The groups of a map in map order, with their dies; groups that count for no die are left out (R76). -/
def groupsOf (s : State) (root : Word) (all : List MapEntry) :
    List MapEntry → List (Nat × Nat) → Option (List (Nat × Nat × Nat))
  | [], _ => some []
  | e :: es, seen =>
    if seen.contains (e.first, e.last) then groupsOf s root all es seen
    else
      match countGroup s root e.first e.last all [0, 0, 0, 0], groupsOf s root all es ((e.first, e.last) :: seen) with
      | some c, some gs =>
        match bestDie c with
        | some d => some ((e.first, e.last, d) :: gs)
        | none => some gs
      | _, _ => none

/-- Whether a deterministic launch fits its dies (R77, R392). -/
def detFits (d : Device) (groups : List (Nat × Nat × Nat)) (strands : Nat) : Bool :=
  (List.range Config.dies).all (fun die => dieCount groups strands die ≤ min 128 (workingTiles d die))

/-! ### Acceptance -/

/-- Whether rows of a function's space cannot be read yet. -/
def rowsWait (s : State) (fn : Nat) (vas : List Nat) : Bool :=
  vas.any (fun va => match procRow s fn va with
    | .error (.raise _) => false
    | .error _ => true
    | .ok _ => false)

/-- What comes of a packet's checks: rows to wait for, a fault, or the header and the groups of the launch. -/
inductive Judged where
  | wait (vas : List Nat)
  | bad (c : Code)
  | good (header : BitVec 512) (groups : List (Nat × Nat × Nat))
deriving DecidableEq, Repr

/-- The checks of a LAUNCH or GANG_ARM packet, in the order of log entry 6 (R65, R67, R75, R76, R77, R392). -/
def judge (s : State) (fn : Nat) (p : BitVec 512) : Judged :=
  if !packetOk p then .bad .launch
  else if rowsWait s fn [pkKaddr p] then .wait [pkKaddr p]
  else
    match procRow s fn (pkKaddr p) with
    | .ok (some row) =>
      let h := halfRow row (pkKaddr p)
      if !headerOk h || hdNbv h ≠ pkNbv p then .bad .launch
      else if hdNbv h ≠ Config.nbv then .bad .nbv
      else if rowsWait s fn (mapRows p) then .wait (mapRows p)
      else
        match readMap s fn p (List.range (pkMapN p)) with
        | none => .bad .launch
        | some es =>
          match groupsOf s (if q : fn < 16 then s.dev.ptbase[fn] else 0) es es [] with
          | none => .wait []
          | some gs =>
            if pkDet p && !detFits s.dev gs (pkStrands p) then .bad .launch else .good h gs
    | _ => .bad .launch

/-- Whether the writes that consume a packet are held for an HBM stack that is not trained (R391). -/
def consumeHeld (s : State) (q rd : Nat) : Bool :=
  let f := queueFn s.dev q
  let held (a : Nat) : Bool := match procTarget s f a true with
    | .error .hold => true
    | _ => false
  held (slotAddr s.dev q rd) || held (queueBase s.dev q + 128)

/-- TYPE 0 and RDIDX + 1, in that order (R71); none where a page cannot be written (R80). -/
def consume (s : State) (q rd : Nat) : Option State :=
  let f := queueFn s.dev q
  match procTarget s f (slotAddr s.dev q rd) true, procTarget s f (queueBase s.dev q + 128) true with
  | .ok _, .ok _ =>
    match procWrite s f (slotAddr s.dev q rd) [0] with
    | .ok s1 =>
      match procWrite s1 f (queueBase s.dev q + 128) (leBytes 8 (rd + 1)) with
      | .ok s2 => some s2
      | .error _ => none
    | .error _ => none
  | _, _ => none

/-- A launch enters the table. -/
def addLaunch (s : State) (l : Launch) : State :=
  (s.setDev { s.dev with
    launches := s.dev.launches.insert s.dev.nextLaunch l
    nextLaunch := s.dev.nextLaunch + 1
    nextUid := s.dev.nextUid + pkStrands l.packet })

/-- The launch of a packet. -/
def newLaunch (s : State) (q rd : Nat) (p h : BitVec 512) (groups : List (Nat × Nat × Nat)) : Launch where
  uid0 := s.dev.nextUid
  queue := q
  pkt := rd
  fn := queueFn s.dev q
  packet := p
  header := h
  groups := groups
  next := Vector.replicate 4 0
  bound := 0
  ended := 0
  started := false
  status := 1
  killed := false
  gang := if pkType p = 2 then .armed else .none
  ackSent := false
  desync := false
  parked := false
  scyc := 0
  stage := none
  issuer := none

/-- Every strand of a launch joins INITSET, in strand order; none is SET_LIMIT (R85). -/
def joinAll (s : State) (l : Launch) : Option State :=
  let id := pkInitset l.packet
  let uids := (List.range (pkStrands l.packet)).map (· + l.uid0)
  if id = 0 then some s
  else
    match s.dev.sets.find? (setKey l.fn id) with
    | some e => some (s.setDev { s.dev with
        sets := s.dev.sets.insert (setKey l.fn id) { e with members := e.members ++ uids } })
    | none =>
      if s.dev.sets.length ≥ Config.maxSets then none
      else some (s.setDev { s.dev with sets := s.dev.sets.insert (setKey l.fn id) ⟨uids, []⟩ })

/-- A strand's slot freed without its having run (R81): a gang that is dropped. -/
def unbind (s : State) (key : Nat) (st : Strand) : State :=
  ackOrHold (leaveAll { s with strands := s.strands.erase key } st.fn st.uid) key

/-- The strands a launch holds in slots. -/
def strandsOf (s : State) (lid : Nat) : List (Nat × Strand) := s.strands.filter (fun p => p.2.launch = lid)

/-- The strands of a launch that are not bound leave INITSET (R85; log entry 18). -/
def leaveUnbound (s : State) (l : Launch) (lid : Nat) : State :=
  if pkInitset l.packet = 0 then s
  else
    let live := (strandsOf s lid).map (·.2.uid)
    ((List.range (pkStrands l.packet)).filter (fun i => !live.contains (l.uid0 + i))).foldl
      (fun s i => leaveSet s l.fn (pkInitset l.packet) (l.uid0 + i)) s

/-- A gang launch is dropped: its slots are freed, DROP goes to every port of GPORTS and status 2 is stored (R81). -/
def dropGang (s : State) (lid : Nat) : State :=
  match s.dev.launches.find? lid with
  | none => s
  | some l =>
    let s1 := leaveUnbound s l lid
    let held := strandsOf s1 lid
    let s2 := held.foldl (fun s p => promote s p.1) (held.foldl (fun s p => unbind s p.1 p.2) s1)
    let s3 := s2.setDev { s2.dev with armAcks := s2.dev.armAcks.filter (fun a => a.1 ≠ pkGang l.packet) }
    completeLaunch (sendDrops s3 l 8) lid 2

/-- Whether a gang's decision tick has come (R81). -/
def decisionTick (s : State) (l : Launch) : Bool := pkDeadline l.packet ≤ s.dev.devtime.toNat

/-- A packet whose checks have passed becomes a launch (R66, R81, R85, R379). A GANG_ARM that comes at or after its DEADLINE and
would make the 4097th set takes SET_LIMIT and status 3, not the drop (DESIGN CHOICE, log entry 6). -/
def startLaunch (s : State) (l : Launch) : State :=
  let lid := s.dev.nextLaunch
  let s1 := traceRecord (addLaunch s l) l.fn 1 4 0xFFFF 0 0 none
  match joinAll s1 l with
  | none =>
    completeLaunch (logRecord s1 ⟨.setLimit, .none, 0⟩ (procAt s1 l.fn l.queue l.pkt) {}) lid 3
  | some s2 => if l.gang = .armed && decisionTick s2 l then dropGang s2 lid else s2

/-- A packet that faults at acceptance: its record, and status 3 (R67, R79). -/
def failPacket (s : State) (q rd : Nat) (p : BitVec 512) (c : Code) : State :=
  let f := queueFn s.dev q
  let s1 := logRecord s ⟨c, .none, 0⟩ (procAt s f q rd) {}
  if pkSignal p % 8 = 0 then storeStatus s1 f q rd (pkSignal p) 3 else s1

/-- The run whose stage's packet was stored in this slot, with that packet and the dies of its strands (R330, R332). -/
def stageRun (s : State) (q rd : Nat) : Option (Run × BitVec 512 × List (Nat × Nat × Nat)) :=
  s.planner.runs.findSome? (fun r => match r.phase with
    | .sent w p gs => if w = rd && r.queue = q && r.fn = queueFn s.dev q then some (r, p, gs) else none
    | _ => none)

/-- The launch of a stage: its code and its placement map are the planner's (R330; log entry 9). -/
def stageLaunch (s : State) (q rd : Nat) (p : BitVec 512) (r : Run) (groups : List (Nat × Nat × Nat)) : State :=
  let l := { newLaunch s q rd p 0 groups with
    gang := .none, stage := some r.num, issuer := some r.launch }
  let lid := s.dev.nextLaunch
  putRun (traceRecord (addLaunch s l) l.fn 1 4 0xFFFF 0 0 none) { r with phase := .staged lid }

/-- A packet judged as it stood in state s, and what comes of it in s1, in which it is consumed (R66, R67, R79). -/
def acceptPacket (s s1 : State) (q rd : Nat) (p : BitVec 512) : List Nat ⊕ State :=
  if pkType p = 3 then
    if pkSignal p % 8 = 0 then .inr (storeStatus s1.forgetRows (queueFn s.dev q) q rd (pkSignal p) 1)
    else .inr (failPacket s1.forgetRows q rd p .launch)
  else if pkType p > 3 then .inr (failPacket s1.forgetRows q rd p .launch)
  else
    match judge s (queueFn s.dev q) p with
    | .wait vas => .inl vas
    | .bad c => .inr (failPacket s1.forgetRows q rd p c)
    | .good h gs => .inr (startLaunch s1.forgetRows (newLaunch s1 q rd p h gs))

/-- A head packet accepted (R71, R80): the addresses whose rows must come first, or the state after it. It waits while
its queue's page cannot be written yet (R391). A packet read in the slot of a plan stage is the stage's where it is the packet that
the planner stored; another one was written over it and is taken as it reads, and the stage's is lost (R70). -/
def acceptHead (s : State) (q rd : Nat) (p : BitVec 512) : List Nat ⊕ State :=
  if consumeHeld s q rd then .inl []
  else
  match consume s q rd with
  | none => .inr (breakQueue s q)
  | some s1 =>
    match stageRun s q rd with
    | none => acceptPacket s s1 q rd p
    | some (r, x, gs) =>
      if x = p then .inr (stageLaunch s1.forgetRows q rd p r gs)
      else acceptPacket s (putRun s1 { r with phase := .lost }) q rd p

/-! ### The draw -/

/-- READY bits that a deterministic packet needs (R400). -/
def detMask : Nat := 0x1FEF

/-- Whether a head may be drawn: BARRIER waits until every earlier packet of its queue has stored its status, one held for an
untrained stack included (R79, R391); a deterministic packet waits for the bits of R400. -/
def headEligible (s : State) (q : Nat) (p : BitVec 512) : Bool :=
  !(p.getLsbD 8 && (s.dev.launches.any (fun l => l.2.queue = q) || s.dev.statuses.any (fun r => r.queue = q))) &&
    !(pkDet p && pkType p ≠ 3 && s.dev.ready.toNat &&& detMask ≠ detMask)

/-- The queues a draw looks at: enabled, with tickets (R72). The rows of a queue without tickets are not watched, so they do
not disable it (R80; DESIGN CHOICE, log entry 40). -/
def servedQueues (d : Device) : List Nat :=
  (d.qctl.filter (fun c => queueEn d c.1 && queueTickets d c.1 ≠ 0)).map (·.1)

/-- An eligible head: queue, read index, packet. -/
structure Entrant where
  queue : Nat
  rd : Nat
  packet : BitVec 512
deriving DecidableEq, Repr

/-- The eligible heads, in queue order. -/
def entrants (s : State) : List Entrant :=
  (servedQueues s.dev).filterMap (fun q => match queueHead s q with
    | .packet rd p => if headEligible s q p then some ⟨q, rd, p⟩ else none
    | _ => none)

/-- The generator's next state (R73). -/
def lotteryNext (s : Word) : Word :=
  let a := s ^^^ (s <<< 13)
  let b := a ^^^ (a >>> 7)
  b ^^^ (b <<< 17)

/-- The entrant an index falls to (R73). -/
def pickEntrant (d : Device) : Nat → List Entrant → Option Entrant
  | _, [] => none
  | idx, e :: es => if idx < queueTickets d e.queue then some e else pickEntrant d (idx - queueTickets d e.queue) es

/-- Whether breakpoint n matches a head (R371). The KADDR of a NOP is not examined (R66), so a NOP matches by its queue alone. -/
def bpMatch (d : Device) (q : Nat) (p : BitVec 512) (n : Nat) : Bool :=
  let c := vget d.bpcfg n
  let onAddr := pkType p ≠ 3 && pkKaddr p = vget d.bpaddr n
  let onQueue := bitsOf c 0 8 = q
  c.testBit 31 && (match bitsOf c 28 2 with
    | 0 => onAddr
    | 1 => onQueue
    | _ => onAddr && onQueue)

/-- The breakpoints that match a head. -/
def bpHits (d : Device) (q : Nat) (p : BitVec 512) : List Nat := (List.range 4).filter (bpMatch d q p)

/-- A stop is requested; ignored while stopped or pending (R373). -/
def requestStop (s : State) : State :=
  if s.dev.stopped || s.dev.stopPending then s else s.setDev { s.dev with stopPending := true }

/-- BREAKPOINT_HIT (R372): dispatch halts, the packet is held, and the record is logged. -/
def breakHit (s : State) (e : Entrant) (hits : List Nat) : State :=
  let s1 := s.setDev { s.dev with
    bpstat := BitVec.ofNat 32 (2 ^ 31 + (hits.headD 0) * 2 ^ 8 + e.queue)
    held := some (e.queue, e.packet) }
  let s2 := logRecord s1 ⟨.break, .none, 0⟩ (procAt s1 (queueFn s.dev e.queue) e.queue e.rd) {}
  if hits.any (fun n => (vget s.dev.bpcfg n).testBit 30) then requestStop s2 else s2

/-- Requests for the rows that the heads of the served queues need. -/
def askHeads (s : State) : List Nat → State
  | [] => s
  | q :: qs =>
    match queueHead s q with
    | .wait vas => askHeads (procAskRows s (queueFn s.dev q) vas) qs
    | _ => askHeads s qs

/-- Whether the head of a served queue is on its way from the host or a peer. -/
def headsComing (s : State) (qs : List Nat) : Bool :=
  qs.any (fun q => match queueHead s q with
    | .wait vas => vas.any (fun va => match procRow s (queueFn s.dev q) va with
        | .error (.far _ _ _ _) => true
        | _ => false)
    | _ => false)

/-- The queues that R80 disables. -/
def breakAll (s : State) (qs : List Nat) : State :=
  qs.foldl (fun s q => if queueHead s q = .broken then breakQueue s q else s) s

/-- The reads of a draw meet the health of the state; which of the queues looked at an event names is a free value (R364). -/
def drawMeet (s : State) (qs : List Nat) : State :=
  if s.health = .clean || qs = [] then s
  else
    let q := qs.getD (Config.failedElement s.nfree % qs.length) 0
    procMeet { s with nfree := s.nfree + 1 } (queueFn s.dev q) q (openField s 1) false

/-- One draw among the eligible heads (R73). The draw that needs rows of the host or a peer, or an HBM stack that is not trained,
before its packet can be accepted stays in progress with what it has picked (R72). -/
def drawOnce (s : State) (es : List Entrant) : State :=
  let total := (es.map (fun e => queueTickets s.dev e.queue)).sum
  if total = 0 then s.forgetRows
  else
    let seed := lotteryNext s.dev.lseed
    match pickEntrant s.dev (seed.toNat * total / 2 ^ 64) es with
    | none => s
    | some e =>
      let drawn := s.setDev { s.dev with lseed := seed }
      let hits := bpHits s.dev e.queue e.packet
      if hits ≠ [] then (breakHit drawn e hits).forgetRows
      else
        match acceptHead drawn e.queue e.rd e.packet with
        | .inr s1 => s1.forgetRows
        | .inl vas =>
          procAskRows (drawn.setDev { drawn.dev with drawing := some (e.queue, e.rd, e.packet) }) (queueFn s.dev e.queue) vas

/-- The draw in progress tried again: the packet it picked is accepted, whatever TICKETS and heads have become (R72). -/
def resumeDraw (s : State) (q rd : Nat) (p : BitVec 512) : State :=
  match acceptHead (procMeet s (queueFn s.dev q) q rd false) q rd p with
  | .inr s1 => (s1.setDev { s1.dev with drawing := none }).forgetRows
  | .inl vas => procAskRows s (queueFn s.dev q) vas

/-- The held packet accepted, without another test (R372). -/
def acceptHeldPacket (s : State) (q : Nat) : State :=
  let free (s : State) : State := (s.setDev { s.dev with held := none }).forgetRows
  match queueHead s q with
  | .empty => free s
  | .broken => free (breakQueue s q)
  | .wait vas => procAskRows s (queueFn s.dev q) vas
  | .packet rd p =>
    match acceptHead (procMeet s (queueFn s.dev q) q rd false) q rd p with
    | .inr s1 => free s1
    | .inl vas => procAskRows s (queueFn s.dev q) vas

/-- Whether dispatch stands: stopped, halted, or die 0 not ready (R372, R374, R391). -/
def dispatchHeld (d : Device) : Bool := d.stopped || d.bpstat.getLsbD 31 || !d.ready.getLsbD 0

/-- LOTTERY_DRAW (R72, R73): the draw in progress, if there is one, or a new one. The rows of the heads that lie on host and peer
pages come before a draw begins; until all have come no draw begins among the other queues either, and the generator does not move
(DESIGN CHOICE, log entry 62). -/
def execLotteryDraw (s : State) : Out :=
  if dispatchHeld s.dev then .next s
  else
    match s.dev.held, s.dev.drawing with
    | some h, _ => .next (acceptHeldPacket s h.1)
    | none, some (q, rd, p) => .next (resumeDraw s q rd p)
    | none, none =>
      let s1 := breakAll s (servedQueues s.dev)
      let qs := servedQueues s1.dev
      if headsComing s1 qs then .next (askHeads s1 qs)
      else
        let s2 := drawMeet s1 qs
        .next (drawOnce s2 (entrants s2))

/-- A 1 written to HALT: the held packet is accepted, and draws resume (R372). -/
def bpResume (s : State) : State :=
  if s.dev.bpstat.getLsbD 31 then
    let s1 := s.setDev { s.dev with bpstat := BitVec.ofNat 32 (setBits s.dev.bpstat.toNat 31 1 0) }
    match s1.dev.held with
    | some h => if dispatchHeld s1.dev then s1 else acceptHeldPacket s1 h.1
    | none => s1
  else s

/-- BREAKPOINT_RESUME (R372). -/
def execBreakpointResume (s : State) : Out := .next (bpResume s)

end Sys2Proof.Machine
end

