-- ==== Sys2Proof/Machine/Bind.lean ====
section
/-! DEFINITION. Binding (R63, R77), gangs (R81, R82), deterministic starts (R77, R345, R346), parking (R346) and the end of
a strand (R64). -/

namespace Sys2Proof.Machine

/-! ### A strand's start -/

/-- The pc of a stream and whether it is absent (R63, R65). -/
def streamStart (kaddr off : Nat) : Word × Bool := (BitVec.ofNat 64 (kaddr + off), off = 0)

/-- Strand i of a launch as it is bound to a tile (R63). -/
def newStrand (l : Launch) (lid i tile : Nat) : Strand :=
  let k := pkKaddr l.packet
  let start (j : Nat) : Word × Bool :=
    if l.stage.isSome then (0, true) else streamStart k (hdOff l.header j)
  let x0 : Vector Word 64 := Vector.replicate 64 0
  let x1 := ((((x0.set 1 (BitVec.ofNat 64 (pkArgs l.packet))).set 2 (BitVec.ofNat 64 i)).set 3
    (BitVec.ofNat 64 (pkStrands l.packet))).set 4 (BitVec.ofNat 64 tile)).set 5
    (BitVec.ofNat 64 (pkInitset l.packet))
  { Strand.blank with
    uid := l.uid0 + i
    launch := lid
    index := i
    queue := l.queue
    pkt := l.pkt
    fn := l.fn
    det := pkDet l.packet
    nbv := BitVec.ofNat 16 (pkNbv l.packet)
    wdlimit := pkWdlimit l.packet
    started := l.gang ≠ .armed
    x := x1
    c := CSeq.start (start 0).1 (start 0).2
    l := RSeq.start (start 1).1 (start 1).2
    xs := RSeq.start (start 2).1 (start 2).2
    ss := RSeq.start (start 3).1 (start 3).2 }

/-- Strand i of a launch bound to a slot; a strand that starts at once leaves its trace record (R77, R379). -/
def bindStrand (s : State) (lid i key : Nat) : State :=
  match s.dev.launches.find? lid with
  | none => s
  | some l =>
    let st := newStrand l lid i (key / 2)
    let s1 := modLaunch (s.setStrand key st) lid (fun l => { l with bound := l.bound + 1 })
    if st.started then traceStrand s1 key st 2 0 0 0 else s1

/-- ARM-ACK carrying GANG on each port of GPORTS that is up (R81): a port that is down as the gang is bound gets none, then or
once it trains (DESIGN CHOICE, log entry 52). -/
def sendAcks (s : State) (l : Launch) : Nat → State
  | 0 => s
  | n + 1 =>
    let s' := sendAcks s l n
    if (pkPorts l.packet).testBit n && s'.dev.ready.getLsbD (15 + n) then s'.send (.armAck n (pkGang l.packet))
    else s'

/-- An armed gang whose strands are all bound acknowledges, once (R81). -/
def ackGang (s : State) (lid : Nat) : State :=
  match s.dev.launches.find? lid with
  | none => s
  | some l =>
    if l.gang = .armed && !l.ackSent && l.bound = pkStrands l.packet then
      sendAcks (modLaunch s lid (fun l => { l with ackSent := true })) l 8
    else s

/-! ### Arrival-mode binding -/

/-- The next strand of a launch for a die, at or after index i. -/
def nextFor (groups : List (Nat × Nat × Nat)) (strands die : Nat) : Nat → Nat → Option Nat
  | 0, _ => none
  | fuel + 1, i =>
    if i ≥ strands then none
    else if dieOf groups strands i = die then some i
    else nextFor groups strands die fuel (i + 1)

/-- The next strand of a launch that its die has to bind. -/
def Launch.wants (l : Launch) (die : Nat) : Option Nat :=
  if pkDet l.packet || l.killed then none
  else
    let i := if h : die < 4 then l.next[die] else 0
    nextFor l.groups (pkStrands l.packet) die (pkStrands l.packet) i

/-- Free resident slots of a die, but those of tiles whose slots are exchanging (R77, R362, R392). -/
def freeResident (s : State) (die : Nat) : List Nat :=
  ((List.range 128).map (· + 128 * die)).filter (fun t =>
    !s.dev.failed t && (s.strands.find? (2 * t + 1)).isNone && !(s.tile t).exchanging)

/-- The slot the next arrival-mode strand of a die takes (R77). -/
def slotFor (s : State) (die : Nat) : Option Nat :=
  match freeRunning s die with
  | t :: _ => some (2 * t)
  | [] => match freeResident s die with
    | t :: _ => some (2 * t + 1)
    | [] => none

/-- The first launch, in the order of acceptance, that has a strand for a die (log entry 18). -/
def binder (s : State) (die : Nat) : Option (Nat × Nat) :=
  s.dev.launches.findSome? (fun p => (p.2.wants die).map (fun i => (p.1, i)))

/-- STRAND_BIND (R77, R391): the die's command processor binds its next arrival-mode strand. -/
def execStrandBind (die : BitVec 2) (s : State) : Out :=
  if !s.dev.ready.getLsbD die.toNat then .next s
  else
    match binder s die.toNat, slotFor s die.toNat with
    | some (lid, i), some key =>
      let s1 := modLaunch s lid (fun l => { l with next := vset l.next die.toNat (i + 1) })
      .next (ackGang (bindStrand s1 lid i key) lid)
    | _, _ => .next s

/-! ### Parking -/

/-- Whether a wait stands on `tl.mon` for a run that has not ended (R346); one that ended before an earlier run counts as
ended. -/
def onMon (p : Planner) (v : Nat) : Bool := p.monCompletion < v && v ≤ p.monIssue && !p.monEarly.contains v

/-- Whether a record sequencer has ended or waits on `tl.mon`. -/
def RSeq.parked (r : RSeq) (p : Planner) : Bool :=
  r.ended || match r.wait with
    | some (.tl 9 v) => onMon p v
    | _ => false

/-- Whether C has ended or waits on `tl.mon`. -/
def CSeq.parked (c : CSeq) (p : Planner) : Bool :=
  c.ended || match c.wait with
    | .monWait v => onMon p v
    | _ => false

/-- Whether every operation and access that a strand issued has completed. -/
def strandStill (s : State) (st : Strand) : Bool :=
  st.ops.all (fun o => o.phase = .complete) && st.episode.isNone
    && !s.dev.atoms.any (fun a => a.uid = st.uid) && !s.dev.links.any (fun l => l.uid = st.uid)
    && !s.dev.far.any (fun f => f.uid = st.uid)

/-- Whether a strand is parked (R346). -/
def strandParked (s : State) (st : Strand) : Bool :=
  st.c.parked s.planner && st.l.parked s.planner && st.xs.parked s.planner && st.ss.parked s.planner
    && !(st.c.ended && st.l.ended && st.xs.ended && st.ss.ended) && strandStill s st

/-- Whether a launch is parked: each of its strands has ended or is parked (R346). -/
def launchParked (s : State) (lid : Nat) : Bool :=
  match s.dev.launches.find? lid with
  | none => false
  | some l =>
    pkDet l.packet && l.started && l.ended < l.bound && (strandsOf s lid).all (fun p => strandParked s p.2)

/-- LAUNCH_PARK (R346): from here on a stage of its run may bind. -/
def execLaunchPark (launch : Nat) (s : State) : Out :=
  .next (if launchParked s launch then modLaunch s launch (fun l => { l with parked := true }) else s)

/-- PARKED_RESUME (R346): once a strand's wait is satisfied the launch is parked no longer; each wait completes when its
sequencer is next tried. -/
def execParkedResume (launch : Nat) (s : State) : Out :=
  .next (if launchParked s launch then s else modLaunch s launch (fun l => { l with parked := false }))

/-! ### Deterministic launches -/

/-- Whether a launch is deterministic and has strands in slots. -/
def Launch.detHeld (l : Launch) : Bool := pkDet l.packet && l.ended < l.bound

/-- Whether a deterministic launch is bound (R345). -/
def detBound (s : State) : Bool := s.dev.launches.any (fun p => p.2.detHeld)

/-- Whether a deterministic launch is bound beside launch i and the stages of its runs. -/
def detBoundBeside (s : State) (i : Nat) : Bool :=
  s.dev.launches.any (fun p => p.2.detHeld && p.1 ≠ i && p.2.issuer ≠ some i)

/-- Whether R345 and R346 let a deterministic launch bind now: alone, or as a stage of a run whose issuing launch is
parked. -/
def detTurn (s : State) (l : Launch) : Bool :=
  match l.issuer with
  | some i => match s.dev.launches.find? i with
    | some li =>
      if l.stage.isSome && li.detHeld then li.parked && launchParked s i && !detBoundBeside s i else !detBound s
    | none => !detBound s
  | none => !detBound s

/-- Whether every die of a launch has enough free running slots (R77). -/
def detRoom (s : State) (l : Launch) : Bool :=
  (List.range Config.dies).all (fun die =>
    dieCount l.groups (pkStrands l.packet) die ≤ (freeRunning s die).length)

/-- The strands of a deterministic launch bound in index order, each to the lowest free running slot of its die (R77). -/
def bindAll (s : State) (lid : Nat) (l : Launch) : List Nat → State
  | [] => s
  | i :: rest =>
    match freeRunning s (dieOf l.groups (pkStrands l.packet) i) with
    | t :: _ => bindAll (bindStrand s lid i (runKey t)) lid l rest
    | [] => bindAll s lid l rest

/-- DETERMINISTIC_LAUNCH_START (R77): all strands bind together and start in schedule cycle 0; those of a gang wait for
their decision (R81). -/
def execDeterministicLaunchStart (launch : Nat) (s : State) : Out :=
  match s.dev.launches.find? launch with
  | none => .next s
  | some l =>
    if pkDet l.packet && l.bound = 0 && !l.killed && detTurn s l && detRoom s l then
      let s1 := bindAll s launch l (List.range (pkStrands l.packet))
      .next (ackGang (modLaunch s1 launch (fun l => { l with started := l.gang ≠ .armed })) launch)
    else .next s

/-! ### Gangs -/

/-- ARM_ACK (R81): the acknowledgement is held; one that comes in or after the decision tick counts as missing. One that finds
no armed launch of its gang, before its packet is accepted or after its decision, is held too, and counts for the next gang of
that identifier (DESIGN CHOICE, log entry 52). -/
def execArmAck (gang : BitVec 32) (port : BitVec 3) (s : State) : Out :=
  let late := s.dev.launches.any (fun p =>
    p.2.gang = .armed && pkGang p.2.packet = gang.toNat && decisionTick s p.2)
  if late || s.dev.armAcks.contains (gang.toNat, port.toNat) then .next s
  else .next (s.setDev { s.dev with armAcks := s.dev.armAcks ++ [(gang.toNat, port.toNat)] })

/-- Whether an acknowledgement is held from every port of GPORTS. -/
def acksHeld (s : State) (l : Launch) : Bool :=
  (List.range 8).all (fun p => !(pkPorts l.packet).testBit p || s.dev.armAcks.contains (pkGang l.packet, p))

/-- A strand of a committed gang starts. -/
def startStrand (s : State) (p : Nat × Strand) : State :=
  traceStrand (s.setStrand p.1 { p.2 with started := true }) p.1 p.2 2 0 0 0

/-- A gang commits: every strand starts in the tick (R81). -/
def commitGang (s : State) (lid : Nat) (l : Launch) : State :=
  let s1 := (modLaunch s lid (fun l => { l with gang := .committed, started := true }))
  let s2 := s1.setDev { s1.dev with armAcks := s1.dev.armAcks.filter (fun a => a.1 ≠ pkGang l.packet) }
  (strandsOf s2 lid).foldl startStrand s2

/-- GANG_DECISION (R81): commit or drop in the decision tick. A gang that holds every acknowledgement while its own strands
are not all bound is dropped, which R81 does not say (DESIGN CHOICE, log entry 52). -/
def execGangDecision (launch : Nat) (s : State) : Out :=
  match s.dev.launches.find? launch with
  | none => .next s
  | some l =>
    if l.gang ≠ .armed || !decisionTick s l || s.dev.stopped then .next s
    else if acksHeld s l && l.bound = pkStrands l.packet then .next (commitGang s launch l)
    else .next (dropGang s launch)

/-- DROP (R82): a committed member of the gang is lost. One that comes while the gang is still armed is ignored, as is a
partner's port that goes down then (DESIGN CHOICE, log entry 52). -/
def execDropMsg (gang : BitVec 32) (s : State) : Out :=
  .next (((s.dev.launches.filter (fun p => p.2.gang = .committed && pkGang p.2.packet = gang.toNat)).map (·.1)).foldl
    gangLost s)

/-! ### The end of a strand -/

/-- Whether a strand belongs to a stage of a plan run: its code is the planner's (R330; log entry 9). -/
def isStage (s : State) (st : Strand) : Bool :=
  match s.dev.launches.find? st.launch with
  | some l => l.stage.isSome
  | none => false

/-- Whether a strand has ended: all four streams, every operation and every access (R64). -/
def strandOver (s : State) (st : Strand) : Bool :=
  st.c.ended && st.l.ended && st.xs.ended && st.ss.ended && st.ops = [] && st.pendingFaults = []
    && strandStill s st

/-- Whether the strand in a slot has started and is over. -/
def slotOver (s : State) (key : Nat) : Bool :=
  match s.strands.find? key with
  | some st => st.started && strandOver s st
  | none => false

/-- The strand in a slot ends, if it is over. -/
def endSlot (s : State) (key : Nat) : State :=
  match s.strands.find? key with
  | some st => if st.started && strandOver s st then freeStrand s key st .normal else s
  | none => s

/-- STRAND_END (R64): the running strand of a tile ends, or else the resident one. -/
def execStrandEnd (tile : Nat) (s : State) : Out :=
  .next (if slotOver s (runKey tile) then endSlot s (runKey tile) else endSlot s (runKey tile + 1))

end Sys2Proof.Machine
end

