-- ==== Sys2Proof/Machine/Engine.lean ====
section
/-! DEFINITION. The engines of a strand: footprints and the race checker (R349), acceptance (R23, R32), the start of a
record (R39, R138), its issues and queue turns (R193, R194, R220), faults of records (R192, R360), completion (R104) and
retirement (R122, R137, R279). -/

namespace Sys2Proof.Machine

/-! ### Footprints (R349) -/

/-- Levels of an operand that its address runs over: distance per step and count. -/
abbrev Levels := List (Int × Nat)

/-- The three outer levels of an operand. -/
def outerLevels (r : Rec) (o : Opd) : Levels :=
  let u := unitOf r
  [(u * o.s3.toInt, r.t3.toNat), (u * o.s2.toInt, r.t2.toNat), (u * o.s1.toInt, r.t1.toNat)]

/-- All four levels of an operand. -/
def allLevels (r : Rec) (o : Opd) : Levels := (unitOf r * o.s0.toInt, r.t0.toNat) :: outerLevels r o

/-- The rows an operand reaches from its first address over levels, with `span` more bytes above each place and `below` more
beneath it; none where the first address lies in no SRAM window. -/
def regionRows (tile a0 : Nat) (lv : Levels) (span : Nat) (below : Nat := 0) : Option FootItem :=
  match decodeAddr tile a0 with
  | none => none
  | some p =>
    if p.win = 3 then none
    else
      let k : Int := (sliceKey p.tile p.off : Nat)
      let lo := lv.foldl (fun v l => v + min 0 (l.1 * (l.2 - 1 : Int))) (k - below)
      let hi := lv.foldl (fun v l => v + max 0 (l.1 * (l.2 - 1 : Int))) (k + span)
      some (.rows (lo.toNat / 128) (hi.toNat / 128))

/-- The rows an index-chosen operand could reach: its tile's slice, its cluster's or every one (R18, R349). -/
def windowRows (tile a0 : Nat) : Option FootItem :=
  match decodeAddr tile a0 with
  | none => none
  | some p =>
    match p.win with
    | 0 => some (.slices tile 1)
    | 1 => some (.slices (tile / 16 * 16) 16)
    | 2 => some (.slices 0 512)
    | _ => none

/-- A footprint item of a slot. -/
def footOf (sl : Slot) (w : Bool) : Option FootItem → List Foot
  | some i => [⟨sl, i, w⟩]
  | none => []

/-- A memory operand over levels. -/
def memFoot (tile : Nat) (o : Op) (sl : Slot) (lv : Levels) (span : Nat) (w : Bool) : List Foot :=
  footOf sl w (regionRows tile (o.addr sl ⟨0, 0, 0, 0⟩) lv span)

/-- A row operand over every level of the trip counts. -/
def rowFoot (tile : Nat) (o : Op) (sl : Slot) (w : Bool) : List Foot :=
  if kindOf o.r sl = 1 then memFoot tile o sl (allLevels o.r (opdOf o.r sl)) 0 w else []

/-- An operand of whole-window reach. -/
def windowFoot (tile : Nat) (o : Op) (sl : Slot) (w : Bool) : List Foot :=
  footOf sl w (windowRows tile (o.addr sl ⟨0, 0, 0, 0⟩))

/-- The register a code names (R134). -/
def regItem (code : Nat) : FootItem :=
  if code < 16 then .tile code else if code < 24 then .acc (code - 16) else .mask (code - 32)

/-- A register operand. -/
def regFoot (o : Op) (sl : Slot) (w : Bool) : List Foot :=
  if kindOf o.r sl = 2 then [⟨sl, regItem (opdOf o.r sl).base.toNat, w⟩] else []

/-- The mask register of slot M. -/
def mskFoot (o : Op) : List Foot := if o.r.msk = 0 then [] else [⟨.m, .mask o.r.msk.toNat, false⟩]

/-- Level 0 of an operand of element width w over n elements: bits for elements narrower than a byte (R217). -/
def elemLevel (o : Op) (sl : Slot) (w n : Nat) : Int × Nat :=
  let s0 := (opdOf o.r sl).s0.toInt
  if w < 8 then
    let last : Int := s0 * (w : Int) * (n - 1 : Nat) / 8
    (last, 2)
  else (unitOf o.r * s0, n)

/-- A vector operand of elements. -/
def elemFoot (tile : Nat) (o : Op) (sl : Slot) (w n : Nat) (wr : Bool) : List Foot :=
  match kindOf o.r sl with
  | 1 => memFoot tile o sl (elemLevel o sl w n :: outerLevels o.r (opdOf o.r sl)) 0 wr
  | 2 => regFoot o sl wr
  | _ => []

/-- A vector operand with a header row, the row that holds D's address, and `rows` rows after it. -/
def headerFoot (tile : Nat) (o : Op) (rows : Nat) : List Foot :=
  footOf .d true (regionRows tile (o.addr .d ⟨0, 0, 0, 0⟩) (outerLevels o.r o.r.d) (128 * rows))

/-- VCOMP's D: its header row, and its outputs 128 bytes beyond the places of R135 (R245). -/
def compFoot (tile : Nat) (o : Op) : List Foot :=
  let last : Int := unitOf o.r * o.r.d.s0.toInt * (o.r.t0.toNat - 1 : Int)
  footOf .d true (regionRows tile (o.addr .d ⟨0, 0, 0, 0⟩) (outerLevels o.r o.r.d) (128 + last.toNat)
    (-(128 + min 0 last)).toNat)

/-- The footprint of a vector record (R248). Where the entries, pairs, outputs or selected elements of VTOPK, VISECT, VCOMP and VEXPAND
are as many as the data says, it takes in the most that the record's fields allow (DESIGN CHOICE, log entry 28). -/
def vecFoot (tile : Nat) (o : Op) : List Foot :=
  let r := o.r
  let w := fmtWidth (vecF o.ins r)
  let t0 := r.t0.toNat
  let a := elemFoot tile o .a w t0 false
  let b := elemFoot tile o .b w t0 false
  let dOne := elemFoot tile o .d (vecDWidth o.ins r) 1 true
  let dAll := elemFoot tile o .d (vecDWidth o.ins r) (vecCount o.ins r) true
  match o.ins with
  | .vrsum _ | .vrmax _ | .vrmin _ => dOne ++ a ++ mskFoot o
  | .vtopk _ => headerFoot tile o (ceilDiv (min 1024 t0) 8) ++
      (if r.fn.getLsbD 1 then memFoot tile o .a ((16, t0) :: outerLevels r r.a) 8 false else a) ++ mskFoot o
  | .vdrop _ => dAll ++ memFoot tile o .a (outerLevels r r.a) 0 false
  | .visect _ => headerFoot tile o (ceilDiv t0 16) ++ a ++ b
  | .vcomp _ => compFoot tile o ++ a ++ elemFoot tile o .b 1 t0 false ++ mskFoot o
  | .vexpand _ => dAll ++ a ++ elemFoot tile o .b 1 t0 false ++ mskFoot o
  | .vcopy _ =>
    if r.fn = 1 then dAll ++ (if r.ak = 1 then windowFoot tile o .a false else [])
      ++ elemFoot tile o .b 32 t0 false ++ mskFoot o
    else dAll ++ a ++ mskFoot o
  | .vfill _ | .viota _ => dAll ++ mskFoot o
  | .vband _ | .vpopc _ => dAll ++ a ++ b
  | _ => dAll ++ a ++ b ++ mskFoot o

/-- Bytes beyond the first row of a tile row. -/
def tileSpan (o : Op) (f n : Nat) : Nat := 128 * (ceilDiv (tileRowBytes f (shWidth (o.shape n))) 128 - 1)

/-- The footprint of a record. HGATHER's list in D, whose length depends on data, counts with DTHRESH entries (DESIGN CHOICE, log
entry 28). -/
def footprint (tile : Nat) (st : Strand) (o : Op) : List Foot :=
  let r := o.r
  let reg3 : List Foot := regFoot o .d true ++ regFoot o .a false ++ regFoot o .b false
  let accD : List Foot := [⟨.d, .acc o.acc, true⟩]
  match o.ins with
  | .copy _ | .rst _ => rowFoot tile o .d true ++ rowFoot tile o .a false
  | .copyf _ | .rld _ => rowFoot tile o .d true ++ rowFoot tile o .a false
      ++ (if r.bk = 1 then memFoot tile o .b [] 0 false else [])
  | .tld _ => regFoot o .d true
      ++ memFoot tile o .a (allLevels r r.a) (tileSpan o r.fmt.toNat r.d.base.toNat) false
      ++ (if r.bk = 1 then memFoot tile o .b [] 0 false else [])
  | .kld _ => regFoot o .d true ++ rowFoot tile o .a false
  | .gather _ => rowFoot tile o .d true ++ windowFoot tile o .a false ++ rowFoot tile o .b false
  | .scatter _ => windowFoot tile o .d true ++ rowFoot tile o .b false
  | .rqld _ => rowFoot tile o .a false
  | .rmerge _ | .bqpush _ => []
  | .mma _ => accD ++ regFoot o .a false ++ regFoot o .b false
  | .mmanm _ | .mmak _ => accD ++ regFoot o .a false ++ regFoot o .b false ++ mskFoot o
  | .mmacb _ => accD ++ regFoot o .a false ++ [⟨.a, .book (r.fn.toNat / 2 % 4), false⟩] ++ regFoot o .b false
  | .mmag _ => accD ++ windowFoot tile o .a false ++ [⟨.a, .tile (r.fn.toNat % 16), false⟩] ++ regFoot o .b false
  | .azero _ => accD
  | .awrq _ => regFoot o .a o.clears
  | .awrm _ => memFoot tile o .d [(unitOf r * r.d.s1.toInt, r.t1.toNat)]
      (128 * (ceilDiv (r.t0.toNat * fmtWidth r.fmt.toNat) 1024 - 1)) true ++ regFoot o .a o.clears
  | .awrt _ => regFoot o .d true ++ regFoot o .a o.clears
  | .tlds _ => regFoot o .d true
      ++ memFoot tile o .a (allLevels r r.a) (tileSpan o r.fmt.toNat r.d.base.toNat) false
  | .tsts _ => memFoot tile o .d (allLevels r r.d)
      (tileSpan o (st.tile r.a.base.toNat).tag.toNat r.a.base.toNat) true ++ regFoot o .a false
  | .tqld _ => regFoot o .d true
  | .tstq _ => regFoot o .a false
  | .scommit _ => regFoot o .d true ++ [⟨.d, .acc (r.d.base.toNat - 20), true⟩]
  | .sdiscard _ => regFoot o .d true
  | .mnest _ =>
    let p := r.fn.toNat / 2 * 2
    let span (n : Nat) : Nat := shRows (o.shape n) * (128 * ceilDiv (tileRowBytes r.fmt.toNat (shWidth (o.shape n))) 128)
    accD ++ memFoot tile o .a (allLevels r r.a) (span p - 128) false ++ [⟨.a, .tile p, true⟩]
      ++ memFoot tile o .b (allLevels r r.b) (span (p + 1) - 128) false ++ [⟨.b, .tile (p + 1), true⟩]
  | .scout _ => memFoot tile o .d (allLevels r r.d) 0 true ++ regFoot o .a false ++ regFoot o .b false
  | .thresh _ => regFoot o .d true ++ memFoot tile o .a (allLevels r r.a) 0 false
  | .hcfg _ => memFoot tile o .a [] 0 false
  | .hproj _ => regFoot o .a false
  | .kstore _ => memFoot tile o .d [(unitOf r * r.d.s0.toInt, r.t0.toNat)]
      (128 * (ceilDiv (2 * (st.head o.head).dim) 128 - 1)) true ++ regFoot o .a false
  | .hgather _ => footOf .d true (regionRows tile (rowOf (o.addr .d ⟨0, 0, 0, 0⟩)) []
      (128 * ceilDiv (4 * (st.head o.head).dthresh) 128)) ++ regFoot o .a false
  | .hcount _ => memFoot tile o .d [] 0 true
  | .sreset _ | .hreset _ => []
  | _ => if r.eng = 5 then vecFoot tile o else reg3

/-- The first row at or above a row of the shared window that lies in a populated slice (R18, R88). -/
def populatedFrom (row : Nat) : Nat :=
  let r := max row (sharedBase / 128)
  let i := (r - sharedBase / 128) % 2 ^ 16
  if i < Config.sliceBytes / 128 then r else r - i + 2 ^ 16

/-- Whether an interval of rows holds a row of the slices of n tiles from one on. -/
def meetsSlices (lo hi tile n : Nat) : Bool :=
  let r := populatedFrom (max lo (sliceKey tile 0 / 128))
  r ≤ hi && r < sliceKey (tile + n) 0 / 128

/-- Whether two footprint items meet. -/
def itemsMeet : FootItem → FootItem → Bool
  | .rows a b, .rows c d => a ≤ d && c ≤ b
  | .rows a b, .slices t n | .slices t n, .rows a b => meetsSlices a b t n
  | .slices t n, .slices u m => t < u + m && u < t + n
  | a, b => a == b

/-- The interval of rows that a footprint item lies in. -/
def FootItem.span : FootItem → Option (Nat × Nat)
  | .rows lo hi => some (lo, hi)
  | .slices t n => some (sliceKey t 0 / 128, (sliceKey (t + n) 0 - 1) / 128)
  | _ => none

/-- Whether two items of footprints conflict: they meet, and one of them is written. -/
def footsClash (f g : Foot) : Bool := (f.write || g.write) && itemsMeet f.item g.item

/-- Whether a record has issued and not retired: what the race checker tracks. -/
def Op.tracked (o : Op) : Bool := !o.retired && !o.empty && o.phase ≠ .held && o.phase ≠ .accepted

/-- Records the race checker tracks. -/
def trackedCount (st : Strand) : Nat := (st.ops.filter Op.tracked).length

/-- The codebook that a CBLD of C is loading, as a footprint (R177, R262). -/
def bookFoot (st : Strand) : List Foot :=
  match st.c.wait with
  | .cbld n _ _ => [⟨.d, .book n, true⟩]
  | _ => []

/-- Whether a wait, SYNC or DRAIN that covers record e stands before record o in o's sequencer (R349). -/
def Strand.waited (st : Strand) (o e : Op) : Bool :=
  st.ordered.any (fun w => w.q = o.q && w.since ≤ o.seqno && w.e = e.q && w.n = e.seqno)

/-- The operand of Q that the race checker names, if any: the first in slot order D, A, B, M (R349). -/
def raceSlot (st : Strand) (o : Op) (foot : List Foot) : Option Slot :=
  let others := st.ops.filter (fun e =>
    e.tracked && !(e.q = o.q && e.seqno = o.seqno) && !st.waited o e)
  let theirs := others.flatMap (·.foot) ++ bookFoot st
  (foot.find? (fun f => theirs.any (footsClash f))).map (·.slot)

/-! ### Operations in the list -/

/-- Operations that are retired and complete leave the list, and orderings that name them with them. -/
def Strand.tidy (st : Strand) : Strand :=
  let ops := st.ops.filter (fun o => !(o.retired && o.phase = .complete))
  { st with ops := ops
            ordered := st.ordered.filter (fun p => ops.any (fun o => o.q = p.e && o.seqno = p.n)) }

/-- An operation replaced in the strand of a slot. -/
def putOp (s : State) (key : Nat) (o : Op) : State :=
  match s.strands.find? key with
  | some st => s.setStrand key (st.putOp o).tidy
  | none => s

/-- The engine of an operation. -/
def Op.eng (o : Op) : Nat := o.r.eng.toNat

/-- PRED: every record of the sequencer numbered n − p or below has retired (R138). -/
def predOk (st : Strand) (q : Seqr) (n p : Nat) : Bool :=
  p = 0 || !st.ops.any (fun o => o.q = q && !o.retired && o.seqno + p ≤ n)

/-- The number of issues of a record (R135, R216, and the matrix, Skipper and Hawkmoth statements). -/
def Op.total (o : Op) : Nat :=
  let r := o.r
  match o.ins with
  | .mmag _ | .scout _ | .thresh _ | .hgather _ => 1
  | .awrq _ | .awrm _ | .awrt _ => r.t1.toNat
  | _ => if r.eng = 5 then r.t3.toNat * r.t2.toNat * r.t1.toNat else r.total

/-- The queue a record pops rows from: 0 dq.lx, 1 dq.xs, 4 the merge slot. -/
def Op.pops (o : Op) : Option Nat :=
  match o.ins with
  | .rst _ | .scatter _ => some 1
  | .rmerge _ | .bqpush _ => some 4
  | .tqld _ => some 0
  | _ => if o.r.eng = 5 && (o.r.ak = 3 || o.r.bk = 3) then some 0 else none

/-- The queue a record pushes to. -/
def Op.pushes (o : Op) : Option Nat :=
  match o.ins with
  | .rld r => some (if r.dk = 3 then 0 else 4)
  | .gather r => if r.dk = 3 then some 0 else none
  | .rmerge _ => some 0
  | .bqpush _ => some 2
  | .rqld _ => some 3
  | .awrq _ | .tstq _ => some 1
  | _ => if o.r.eng = 5 && o.r.dk = 3 then some 1 else none

/-- Whether a record has made every issue, pop and push. -/
def Op.spent (o : Op) : Bool := o.empty || o.phase = .done || o.phase = .complete

/-- Rows the next issue pops. -/
def Op.need (o : Op) : Nat :=
  match o.ins with
  | .rst _ | .scatter _ | .rmerge _ | .bqpush _ => 1
  | .tqld _ => tqldNeed o
  | _ => if o.r.eng = 5 then vecNeed o else 0

/-- Whether a record has made every pop. -/
def Op.popsMade (o : Op) : Bool :=
  o.spent || (o.phase = .running && (o.total ≤ o.n || (o.total = o.n + 1 && o.need ≤ o.buf.length)))

/-- Whether a record has made every push. -/
def Op.pushesMade (o : Op) : Bool := o.spent || (o.phase = .running && o.total ≤ o.n && o.out = [])

/-- A record's turn to pop from its queue: every earlier record of its sequencer that pops from it has made all its pops
(R194, R220). -/
def popTurn (st : Strand) (o : Op) : Bool :=
  st.ops.all (fun e => e.q ≠ o.q || o.seqno ≤ e.seqno || e.pops ≠ o.pops || e.popsMade)

/-- A record's turn to push into its queue (R194, R220). -/
def pushTurn (st : Strand) (o : Op) : Bool :=
  st.ops.all (fun e => e.q ≠ o.q || o.seqno ≤ e.seqno || e.pushes ≠ o.pushes || e.pushesMade)

/-- Whether the first row that a record pops is there for it, or it pops none. -/
def popReady (st : Strand) (o : Op) : Bool :=
  match o.pops with
  | none => true
  | some q => popTurn st o && 0 < queueLen st q

/-! ### Rows of one sequencer (R95) -/

/-- The layout row that a record reads before its first issue, if it has one (R196). -/
def Op.layoutVa (o : Op) : Option Nat :=
  match o.ins with
  | .copyf _ | .rld _ | .tld _ => if o.r.bk = 1 then some (o.addr .b ⟨0, 0, 0, 0⟩) else none
  | _ => none

/-- The index that issue n of a gather or scatter finds now: none where its row cannot be read at once, which a row of the
host or a peer can once it has arrived for the issue under way. -/
def indexNow (s : State) (key : Nat) (o : Op) (n : Nat) : Option (Option Nat) :=
  let b := o.addrAt .b n
  match resolve s key o.tlb b false .b n with
  | .ok (.cell k, _) => some (rowIndex (o.r.fn.getLsbD 0) b (readRow s.mem k))
  | .ok (.far port a, _) =>
    if n = o.n then (farRow o.fetched port a).map (rowIndex (o.r.fn.getLsbD 0) b) else none
  | _ => none

/-- The rows an issue is known to touch while the index that chooses its others is not: its index row. -/
def Op.indexRow (o : Op) (n : Nat) : List (Nat × Bool) := [(o.addrAt .b n, false)]

/-- The addresses of the rows that issue n of a channel's or the gather feeder's record reads (false) and writes (true);
none where an index that chooses a row is not known. -/
def issueRows (s : State) (key : Nat) (o : Op) (n : Nat) : Option (List (Nat × Bool)) :=
  let a := o.addrAt .a n
  let d := o.addrAt .d n
  match o.ins with
  | .copy _ | .copyf _ => some [(a, false), (d, true)]
  | .rld _ | .rqld _ | .kld _ => some [(a, false)]
  | .rst _ => some [(d, true)]
  | .tld r => some ((List.range (ceilDiv (tileRowBytes r.fmt.toNat (shWidth (o.shape r.d.base.toNat))) 128)).map
      (fun j => (addrPlus a (128 * j : Nat), false)))
  | .gather r => (indexNow s key o n).map (fun x =>
      (o.addrAt .b n, false) :: (match x with
        | some v => [(addrPlus a (128 * v : Nat), false)]
        | none => []) ++ (if r.dk = 1 then [(d, true)] else []))
  | .scatter _ => (indexNow s key o n).map (fun x =>
      (o.addrAt .b n, false) :: (match x with
        | some v => [(addrPlus d (128 * v : Nat), true)]
        | none => []))
  | _ => some []

/-- The row that an address of a strand's global window or an SRAM window lies in; none where it has no translation. -/
def rowTarget (s : State) (key : Nat) (st : Strand) (tlb : Option Nat) (va : Nat) : Option Target :=
  match decodeAddr (key / 2) va with
  | none => none
  | some p =>
    if p.win ≠ 3 then some (.cell (rowOf (sliceKey p.tile p.off)))
    else match tlb with
      | none => none
      | some i => match translate s st i va with
        | .found e => (match e.target va with
          | .cell k => some (.cell (rowOf k))
          | .far port a => some (.far port (rowOf a)))
        | _ => none

/-- Whether two lists of accesses touch one row, one of them writing it. -/
def rowsClash (x y : List (Option Target × Bool)) : Bool :=
  x.any (fun p => y.any (fun q => (p.2 || q.2) && p.1.isSome && p.1 = q.1))

/-- The rows that accesses of a record reach, each with whether it is written. -/
def Op.reached (s : State) (key : Nat) (st : Strand) (e : Op) (l : List (Nat × Bool)) : List (Option Target × Bool) :=
  l.map (fun p => (rowTarget s key st e.tlb p.1, p.2))

/-- Whether an index chooses rows of a record (R203). -/
def Op.indexed (o : Op) : Bool :=
  match o.ins with
  | .gather _ | .scatter _ => true
  | _ => false

/-- Whether records of a sequencer, the latest first, have yet to write one of these rows. A record that an index chooses rows of
may write any of them while its index row is itself yet to be written. -/
def writeComing (s : State) (key : Nat) (st : Strand) : List Op → List (Option Target × Bool) → Bool
  | [], _ => false
  | e :: rest, rows =>
    (!e.spent && (List.range (e.total - e.n)).any (fun j =>
      match (if e.indexed && writeComing s key st rest (e.reached s key st (e.indexRow (e.n + j))) then none
        else issueRows s key e (e.n + j)) with
      | some l => rowsClash ((e.reached s key st l).filter (·.2)) rows
      | none => true)) || writeComing s key st rest rows

/-- The rows of an issue of a record as far as they are certain: none where an index chooses one and is not known, or where an
earlier record of the sequencer has yet to write the index row (R95). -/
def certainRows (s : State) (key : Nat) (st : Strand) (e : Op) (n : Nat) : Option (List (Nat × Bool)) :=
  let earlier := (st.ops.filter (fun f => f.q = e.q && f.seqno < e.seqno && (f.eng ≤ 3 || f.eng = 6))).reverse
  if e.indexed && writeComing s key st earlier (e.reached s key st (e.indexRow n)) then none
  else issueRows s key { e with shapes := if e.tracked then e.shapes else st.tshape } n

/-- Whether an earlier record of the same sequencer on another channel or feeder has yet to touch one of these rows, and
one of the two writes it: accesses of one sequencer to one row keep program order (R95). An earlier record whose row an index
will choose keeps back every later one while that index may still be written by the sequencer; the index row is otherwise
judged as it stands (DEDUCED, log entry 51). -/
def sameRowHeld (s : State) (key : Nat) (st : Strand) (o : Op) (mine : List (Nat × Bool)) : Bool :=
  o.q ≠ .x && st.ops.any (fun e =>
    e.q = o.q && e.seqno < o.seqno && e.eng ≠ o.eng && (e.eng ≤ 3 || e.eng = 6) && !e.spent &&
    ((match e.layoutVa with
      | some va => e.layout.isNone && rowsClash (e.reached s key st [(va, false)]) (o.reached s key st mine)
      | none => false) ||
    (List.range (e.total - e.n)).any (fun j =>
      match certainRows s key st e (e.n + j) with
      | some l => rowsClash (e.reached s key st l) (o.reached s key st mine)
      | none => true)))

/-! ### Start and issues -/

/-- The checks and captures of a record at its issue (R39, R41, and each record's statement). -/
def opStart (s : State) (key : Nat) (st : Strand) (o : Op) : IssueRes :=
  let check (r : Res Unit) : IssueRes := match r with
    | .ok _ => .ok (s, o)
    | .error e => .error e
  match o.ins with
  | .copyf _ | .rld _ => readLayout s key o
  | .tld _ | .tlds _ => tldStart s key st o o.total
  | .kld _ => kldStart s key st o
  | .awrq _ | .awrm _ => check (awrStart st o)
  | .awrt _ => match awrStart st o with
    | .ok _ => awrtStart s key st o
    | .error e => .error e
  | .tsts _ => check (tstCheck st o o.total)
  | .tstq _ => check (tstCheck st o o.r.t0.toNat)
  | .tqld _ => tqldStart s key st o
  | .hgather _ => hgatherStart s key st o
  | .hreset _ => hresetStart s st o
  | _ => if o.r.eng = 5 then check (vecStart st o) else .ok (s, o)

/-- The next issue of a record. -/
def opIssue (s : State) (key : Nat) (st : Strand) (o : Op) : IssueRes :=
  match o.ins with
  | .copy _ | .copyf _ => copyIssue s key o
  | .rld _ => rldIssue s key o
  | .rst _ => rstIssue s key o
  | .tld _ | .tlds _ => tldIssue s key o
  | .kld _ => kldIssue s key o
  | .gather _ => gatherIssue s key o
  | .scatter _ => scatterIssue s key o
  | .rmerge _ => rmergeIssue s key st o
  | .bqpush _ => bqpushIssue s o
  | .rqld _ => rqldIssue s key o
  | .mma _ => mmaIssue s key st o
  | .mmanm _ => mmanmIssue s key st o
  | .mmacb _ => mmacbIssue s key st o
  | .mmag _ => mmagIssue s key st o
  | .mmak _ => mmakIssue s key st o
  | .azero _ => azeroIssue s key st o
  | .awrq _ => awrqIssue s st o
  | .awrm _ => awrmIssue s key st o
  | .awrt _ => awrtIssue s key st o
  | .tsts _ => tstsIssue s key st o
  | .tqld _ => tqldIssue s key st o
  | .tstq _ => tstqIssue s st o
  | .scommit _ => scommitIssue s key st o
  | .sdiscard _ => sdiscardIssue s key st o
  | .mnest _ => mnestIssue s key o
  | .scout _ => scoutIssue s key st o
  | .thresh _ => threshIssue s key st o
  | .sreset _ => sresetIssue s key st o
  | .hcfg _ => hcfgIssue s key st o
  | .hproj _ => hprojIssue s key st o
  | .hreset _ => hresetIssue s key st o
  | .kstore _ => kstoreIssue s key st o
  | .hgather _ => hgatherIssue s key st o
  | .hcount _ => hcountIssue s key st o
  | _ => vecIssue s key st o

/-- A record decoded whose issue has not come. -/
def Op.unissued (o : Op) : Bool := !o.empty && (o.phase = .held || o.phase = .accepted)

/-- A record with what it would capture if it issued now (R26, R56). -/
def Op.capture (o : Op) (st : Strand) : Op :=
  { o with shapes := st.tshape, seed := st.srseed, ctr := st.srctr.toNat % 2 ^ 31 }

/-- Whether an earlier record of the same sequencer that has not issued conflicts with this one: the later one waits, so
that it sees the earlier one's tag and its rows in program order (R41, R95). -/
def behindUnissued (tile : Nat) (st : Strand) (o : Op) : Bool :=
  st.ops.any (fun e => e.q = o.q && e.seqno < o.seqno && e.unissued &&
    (footprint tile st (e.capture st)).any (fun g => (footprint tile st (o.capture st)).any (fun f => footsClash f g)))

/-- Whether an HCFG of X has yet to place the head of a later record (R290). -/
def headPending (st : Strand) (o : Op) : Bool :=
  st.ops.any (fun c => c.q = o.q && c.seqno < o.seqno && !c.empty && c.phase ≠ .complete && c.head = o.head && (match c.ins with
    | .hcfg _ => true
    | _ => false))

/-- The rows of its head's chain array, counted from HBASE, that a Hawkmoth record has yet to touch without an operand for them, and
whether it writes them: HRESET the control row and the bucket rows in order, from the first that its progress lists (R293), HCOUNT
the control row (R301), HGATHER the buckets and nodes it may read (R297, R298), and the links of KSTORE any row (R296). -/
def chainReach (st : Strand) (o : Op) : Option (Nat × Nat × Bool) :=
  let h := st.head o.head
  let buckets := ceilDiv (2 ^ h.bexp) 4
  let all := chainRows h.bexp h.nnodes - 1
  match o.ins with
  | .hreset _ => some (match o.hg with
      | some g => (g.todo.map (·.1)).headD 0
      | none => 0, buckets, true)
  | .hcount _ => some (0, 0, false)
  | .hgather _ => some (1, all, false)
  | .kstore _ => some (0, all, true)
  | _ => none

/-- Whether a KSTORE has made its issues and not completed: links of it may still be applied (R279). -/
def Op.linksOut (o : Op) : Bool :=
  match o.ins with
  | .kstore _ => o.phase = .done
  | _ => false

/-- Whether a Hawkmoth record has yet to touch a row of a footprint as it resets or reads a chain array, or by its links, one of the
two writing it. While its head has yet to be placed any row may be one. -/
def chainTouches (st : Strand) (o : Op) (foot : List Foot) : Bool :=
  match chainReach st o with
  | some (first, last, w) =>
    let k := (st.head o.head).key / 128
    let item := if headPending st o then .slices 0 512 else .rows (k + first) (k + last)
    (!o.spent || o.linksOut) && foot.any (fun f => (w || f.write) && itemsMeet item f.item)
  | none => false

/-- Whether an earlier record of X has yet to touch a row that this one touches, one of the two in a chain array: accesses of one
sequencer to one row keep program order (R95), and no footprint holds the rows that HRESET, the links of KSTORE and chain reads reach,
for which there is no operand (R349; log entry 51). Records of Hawkmoth keep their order among themselves (R279). -/
def behindChain (tile : Nat) (st : Strand) (o : Op) : Bool :=
  o.q = .x && st.ops.any (fun e => e.q = .x && e.seqno < o.seqno && e.eng ≠ o.eng &&
    (chainTouches st e (footprint tile st (o.capture st)) ||
      (!e.spent && chainTouches st o (if e.tracked then e.foot else footprint tile st (e.capture st)))))

/-- Whether a page of the shared window lies in the populated part of its slot: the table's entries of the others are ignored
(R96). -/
def livePage (i : Nat) : Bool := i % 128 < 96

/-- The live pages numbered below n. -/
def livePages (n : Nat) : Nat := n / 128 * 96 + min (n % 128) 96

/-- Whether a footprint holds a row of a page that the tile's replica makes SO (R96): some live page of its intervals is not
listed with another attribute. A page whose image entry has the reserved value 3 keeps it and is not SO (DESIGN CHOICE, log
entry 17). -/
def touchesSo (t : Tile) (foot : List Foot) : Bool :=
  foot.any (fun f => match f.item.span with
    | some (lo, hi) =>
      let a := (lo * 128 - sharedBase) / 2 ^ 16
      let b := (hi * 128 - sharedBase) / 2 ^ 16
      (t.attr.filter (fun p => a ≤ p.1 && p.1 ≤ b && livePage p.1)).length < livePages (b + 1) - livePages a
    | none => false)

/-- Whether SO order keeps a vector record behind an earlier one: both touch SO pages (R101). -/
def soBehind (s : State) (key : Nat) (st : Strand) (e o : Op) : Bool :=
  let t := s.tile (key / 2)
  touchesSo t (if e.tracked then e.foot else footprint (key / 2) st (e.capture st)) &&
    touchesSo t (footprint (key / 2) st (o.capture st))

/-- Whether an earlier record of the same engine keeps a record from issuing. A channel, the gather feeder and the matrix
engine carry their records out one after another (R193, R271), units 7 and 8 wait for completion (R279), as does a record
behind a pending clear or before a shadow copy (R266, R274), and the vector engine keeps SO order only (R101, R247). -/
def engineBehind (s : State) (key : Nat) (st : Strand) (e o : Op) : Bool :=
  if o.eng = 5 then !e.spent && soBehind s key st e o
  else if 7 ≤ o.eng || e.clears || o.copies then e.phase ≠ .complete
  else !e.spent

/-- Whether an accepted record may issue: PRED is met, the race checker has room, no earlier record keeps it back, and
the first row it pops is there (R138, R194, R349). The issue is the moment at which its engine can make its first single
issue (DESIGN CHOICE, log entry 51). -/
def canStart (s : State) (key : Nat) (st : Strand) (o : Op) : Bool :=
  predOk st o.q o.seqno o.r.pred.toNat && trackedCount st < Config.raceDepth && popReady st o &&
  st.ops.all (fun e => e.eng ≠ o.eng || e.empty || e.num = 0 || o.num ≤ e.num || !engineBehind s key st e o) &&
  !behindUnissued (key / 2) st o && !behindChain (key / 2) st o

/-- Whether a record rounds stochastically and so takes a value of SRCTR (R56, R224, R233, R266). -/
def roundsStoch (i : Instr) (r : Rec) : Bool :=
  match i with
  | .vadd _ | .vsub _ | .vmul _ | .vfma _ | .vdiv _ | .vmin _ | .vmax _ | .vabs _ | .vneg _ | .vexp _ | .vlog _
  | .vrcp _ | .vrsq _ | .vtanh _ | .vsigm _ | .vsqrt _ | .vrsum _ | .awrq _ | .awrm _ | .awrt _ => fnRnd r = 2
  | .vcvt _ => r.b.base.toNat % 4 = 2
  | _ => false

/-- SRCTR after a record that rounds stochastically: bit 31 stays 0 (R56). -/
def nextCtr (v : BitVec 32) : BitVec 32 := BitVec.ofNat 32 ((v.toNat + 1) % 2 ^ 31)

/-- An engine that carries its records out one after another has accepted the last single issue of those before the one that
issues now: without a token push they have retired (R122, R193, R271). -/
def retireBefore (st : Strand) (o : Op) : Strand :=
  if o.eng = 5 then st
  else { st with ops := st.ops.map (fun e =>
      if e.eng = o.eng && e.phase = .done && e.r.push = 0 && e.eng < 7 then { e with retired := true } else e) }

/-- The pages that the stream of an operation has touched forgotten: its record is a new one (R343). -/
def freshStream (st : Strand) (o : Op) : Strand :=
  match o.tlb with
  | some i => if h : i < 8 then { st with pages := st.pages.set i [] } else st
  | none => st

/-- The shadow copy that run-ahead makes before the first redirected record of an accumulator (R274). -/
def copyShadow (st : Strand) (o : Op) : Strand :=
  if o.copies then st.setAcc o.acc (st.accAt (o.acc - 4)) else st

/-- A record as it issues: it captures shapes and stochastic state, and is tracked from here on (R26, R56, R349). -/
def issued (s : State) (key : Nat) (st : Strand) (o : Op) : State × Op :=
  let o1 := o.capture st
  let st1 := freshStream (copyShadow (retireBefore st o) o1) o1
  (s.setStrand key { st1 with srctr := if roundsStoch o1.ins o1.r then nextCtr st1.srctr else st1.srctr },
    { o1 with phase := .starting, foot := footprint (key / 2) st o1 })

/-- A record issues, and the race checker looks at it (R349). Its own checks of formats and tags follow (`opStart`; when these are
made is log entry 51). -/
def startOp (s : State) (key : Nat) (st : Strand) (o : Op) : IssueRes :=
  let (s1, o1) := issued s key st o
  match raceSlot (retireBefore st o) o1 o1.foot with
  | some sl => raiseAt .race sl 0
  | none => .ok (s1, o1)

/-- The checks that follow a record's issue; the layout row keeps program order with earlier writes (R95, R196). -/
def checkOp (s : State) (key : Nat) (st : Strand) (o : Op) : IssueRes :=
  if (match o.layoutVa with
    | some va => sameRowHeld s key st o [(va, false)]
    | none => false) then .error .hold
  else match opStart s key st o with
    | .error e => .error e
    | .ok (s1, o1) => .ok (s1, { o1 with phase := .running })

/-- The address that an operand of issue n has, in the order of a record's issues. -/
def Op.placeAt (o : Op) (sl : Slot) (n : Nat) : Nat :=
  match o.ins with
  | .awrm _ => o.addr sl ⟨0, 0, n, 0⟩
  | _ => o.addrAt sl n

/-- The operands of a record whose addresses are known before its issues: in memory, and chosen by no index. -/
def Op.streamSlots (o : Op) : List Slot :=
  [Slot.d, .a, .b].filter (fun sl => kindOf o.r sl = 1 && (match o.ins with
    | .copyf _ | .rld _ | .tld _ => sl ≠ .b
    | .gather _ => sl ≠ .a
    | .mmag _ => sl ≠ .a
    | .scatter _ => sl ≠ .d
    | _ => true))

/-- The bytes that one issue reaches above the first row of a memory operand. -/
def Op.reach (o : Op) (st : Strand) (sl : Slot) : Nat :=
  let r := o.r
  let panel (n : Nat) : Nat := shRows (o.shape n) * (128 * ceilDiv (tileRowBytes r.fmt.toNat (shWidth (o.shape n))) 128) - 128
  match o.ins, sl with
  | .tld _, .a | .tlds _, .a => tileSpan o r.fmt.toNat r.d.base.toNat
  | .tsts _, .d => tileSpan o (st.tile r.a.base.toNat).tag.toNat r.a.base.toNat
  | .awrm _, .d => 128 * (ceilDiv (r.t0.toNat * fmtWidth r.fmt.toNat) 1024 - 1)
  | .mnest _, .a => panel (r.fn.toNat / 2 * 2)
  | .mnest _, .b => panel (r.fn.toNat / 2 * 2 + 1)
  | _, _ => 0

/-- The least and the greatest distance that levels give. -/
def boxEnds (lv : Levels) : Int × Int :=
  lv.foldl (fun p l => (p.1 + min 0 (l.1 * (l.2 - 1 : Int)), p.2 + max 0 (l.1 * (l.2 - 1 : Int)))) (0, 0)

/-- The first place, in the order of issues, that leaves the bytes lo to hi − 1: from a first place c over levels, the outermost
first, with `span` more bytes above each place. Below lo it is the place itself, above the end of the bytes. -/
def firstOut (lo hi span : Int) : Levels → Int → Option Int
  | [], c => if c < lo then some c else if hi ≤ c + span then some (max c hi) else none
  | l :: inner, c =>
    let e := boxEnds inner
    let i : Int :=
      if c + e.1 < lo || hi ≤ c + e.2 + span then 0
      else if 0 < l.1 then (hi - span - e.2 - c + l.1 - 1) / l.1
      else if l.1 < 0 then (c + e.1 - lo) / (-l.1) + 1
      else l.2
    if i < l.2 then firstOut lo hi span inner (c + l.1 * i) else none

/-- What is left of the issues after the one with these indices, as boxes in order: the first place and the levels of each. -/
def boxesAfter : Levels → List Nat → Int → List (Int × Levels)
  | l :: inner, i :: is, c =>
    boxesAfter inner is (c + l.1 * i) ++ [(c + l.1 * (i + 1 : Nat), (l.1, l.2 - i - 1) :: inner)]
  | _, _, _ => []

/-- The levels of an operand in the order of its record's issues, the outermost first, and the indices of issue n. -/
def Op.course (o : Op) (sl : Slot) (n : Nat) : Levels × List Nat :=
  let d := opdOf o.r sl
  match o.ins with
  | .awrm _ => ([(unitOf o.r * d.s1.toInt, o.r.t1.toNat)], [n])
  | _ => let i := idxOf o.r n
    (outerLevels o.r d ++ [(unitOf o.r * d.s0.toInt, o.r.t0.toNat)], [i.i3, i.i2, i.i1, i.i0])

/-- The first address outside a page that an operand reaches after issue n. -/
def Op.leaves (o : Op) (st : Strand) (sl : Slot) (e : TlbEntry) (n : Nat) : Option Nat :=
  let lo : Int := (e.page : Nat)
  let hi : Int := (e.after : Nat)
  let c := o.course sl n
  ((boxesAfter c.1 c.2 (o.placeAt sl 0 : Nat)).findSome? (fun b => firstOut lo hi (o.reach st sl) b.2 b.1)).map
    (fun v => addrPlus 0 v)

/-- The next page of a record fetched ahead: the first that one of its operands reaches after the page in which its present
issue ends (R113, R343; which page that is, is log entry 57). -/
def fetchAhead (s : State) (o : Op) (i : Nat) (st : Strand) (sl : Slot) : Strand :=
  let last := addrPlus (o.placeAt sl o.n) (o.reach st sl : Nat)
  match (if h : i < 8 then st.tlb[i].find? (fun e => e.covers last) else none) with
  | none => st
  | some e => match o.leaves st sl e o.n with
    | some va => fetchNext s st i va
    | none => st

/-- After an issue in which its record touched a page for the first time, its stream TLB fetches the next page ahead (R113,
R343). -/
def streamAhead (s : State) (key : Nat) (before : Strand) (o : Op) : State :=
  match o.tlb, s.strands.find? key with
  | some i, some st =>
    if st.pagesAt i = before.pagesAt i then s
    else s.setStrand key (o.streamSlots.foldl (fetchAhead s o i) st)
  | _, _ => s

/-- The next issue of a record, once earlier records of its sequencer have made their accesses to its rows (R95). -/
def issueOp (s : State) (key : Nat) (st : Strand) (o : Op) : IssueRes :=
  if (o.eng ≤ 3 || o.eng = 6) && sameRowHeld s key st o ((issueRows s key o o.n).getD (o.indexRow o.n)) then .error .hold
  else match opIssue s key st o with
    | .error e => .error e
    | .ok (s1, o1) => .ok (streamAhead s1 key st o, { o1 with cycle := st.scyc })

/-- The index a failing pop names. -/
def Op.popIndex (o : Op) : Nat := if o.eng = 5 then vecL0 o.r o.n else o.n

/-- One row popped for the next issue. -/
def popOne (s : State) (key : Nat) (st : Strand) (o : Op) : IssueRes :=
  if !popTurn st o then .error .hold
  else
    match o.pops with
    | some 4 =>
      match st.ms with
      | [] => .error .hold
      | r :: rest => .ok (s.setStrand key { st with ms := rest }, { o with buf := o.buf ++ [r] })
    | some q =>
      match (if o.eng = 5 then vecPopCheck st o else none) with
      | some r => .error (.raise r)
      | none =>
        match popDq st (q = 0) o.popIndex with
        | .error e => .error e
        | .ok (r, st1) => .ok (s.setStrand key st1, { o with buf := o.buf ++ [r] })
    | none => .error .hold

/-- One entry pushed. -/
def pushOne (s : State) (key : Nat) (st : Strand) (o : Op) (r : Row) (rest : List Row) : IssueRes :=
  match o.pushes with
  | none => .ok (s, { o with out := rest })
  | some q =>
    if pushTurn st o && queueLen st q < queueDepth q then
      .ok (s.setStrand key (pushEntry st q r), { o with out := rest })
    else .error .hold

/-- A record that has made every issue: its retirement is a move of its own, but for a record of engine 9, which is complete
(R122, R208). The engine has accepted the last single issue once its pushes are made and the host and peer rows it needs
have come (DESIGN CHOICE, log entry 55). -/
def opDone (o : Op) : Op :=
  if o.eng = 9 then { o with phase := .complete, retired := o.r.push = 0 } else { o with phase := .done }

/-- Whether a record without a token push retires once its engine has accepted its last single issue (R122), which units 7
and 8 override (R279), and stands there. -/
def Op.retiresEarly (o : Op) : Bool :=
  o.phase = .done && !o.retired && o.r.push = 0 && o.eng < 7 && o.late.isNone

/-- Whether a step of a record must wait. -/
def mustWait : IssueRes → Bool
  | .error .hold => true
  | _ => false

/-- Whether the first single issue of a record could not be made if it issued now: an earlier record of its sequencer has yet to
touch one of its rows, or an HBM stack is not trained (R95, R391). Such a record stands unissued (R192; log entry 51). -/
def firstHeld (s : State) (key : Nat) (st : Strand) (o : Op) : Bool :=
  let (s1, o1) := issued s key st o
  match checkOp s1 key (s1.strandAt key st) o1 with
  | .error e => mustWait (.error e)
  | .ok (s2, o2) => o2.hg.isNone && o2.n < o2.total && o2.need ≤ o2.buf.length && mustWait (issueOp s2 key (s2.strandAt key st) o2)

/-- One step of a record: a push, a pop, an issue, its start, or its end. A record that waits for a row of the host or a
peer makes none. -/
def opMicro (s : State) (key : Nat) (st : Strand) (o : Op) : IssueRes :=
  if o.waiting ≠ [] then .error .hold
  else
    match o.phase with
    | .accepted => if canStart s key st o && !firstHeld s key st o then startOp s key st o else .error .hold
    | .starting => checkOp s key st o
    | .running =>
      match o.out with
      | r :: rest => pushOne s key st o r rest
      | [] =>
        if o.n ≥ o.total then .ok (s, opDone o)
        else if o.buf.length < o.need then popOne s key st o
        else issueOp s key st o
    | _ => .error .hold

/-! ### Errors of a record's accesses (R342, R364) -/

/-- The memory operands that an issue reads: A and B in memory but for a layout row, and D where the record reads it. HCOUNT's
read of a control row is laid to slot A, in which its other faults stand (R289, R301; log entry 14). -/
def Op.readSlots (o : Op) : List Slot :=
  ([Slot.a, .b].filter (fun sl => kindOf o.r sl = 1 && !(sl = .b && o.layoutVa.isSome))) ++
    (match o.ins with
    | .hcount _ => [.a]
    | .vfma _ | .vtopk _ | .visect _ | .vcomp _ | .hgather _ | .awrm _ => if o.r.dk = 1 then [.d] else []
    | _ => [])

/-- The memory operands of an issue that an error of a health may befall: what is read, and for errors that are no
matter of the row also what is written. -/
def Op.healthSlots (o : Op) (h : Health) : List Slot :=
  match h with
  | .softEcc | .memLasting => o.readSlots
  | _ => o.readSlots ++ (if o.r.dk = 1 then [.d] else [])

/-- Whether a record's next step makes accesses. -/
def Op.accesses (o : Op) : Bool :=
  o.waiting = [] && (o.phase = .starting && o.layoutVa.isSome ||
    o.phase = .running && o.out = [] && o.n < o.total && o.need ≤ o.buf.length)

/-- The rows that an MMAG reads: an index of all ones reads nothing (R263). -/
def Op.gathered (o : Op) (st : Strand) : List Nat :=
  (List.range o.r.t0.toNat).filter (fun j => mmagIndex st o j ≠ 2 ^ 32 - 1)

/-- The elements that an error of the issue's accesses of an operand may name: the rows that MMAG gathers, the tile rows of MNEST's
image, the estimates of SCOUT and THRESH, the entries that HGATHER writes, or its header row, the elements of a vector record's
issue, and otherwise the issue itself (R191, R219, R263, R269, R286, R287, R297). -/
def Op.failElems (o : Op) (st : Strand) (h : Health) (sl : Slot) : List Nat :=
  match o.ins with
  | .mmag _ => o.gathered st
  | .mnest r => List.range (shRows (o.shape (r.fn.toNat / 2 * 2 + (if sl = .b then 1 else 0))))
  | .scout r | .thresh r => List.range (r.t0.toNat * r.t1.toNat)
  | .hgather _ =>
    match o.hg with
    | some g =>
      let (status, ts) := hgatherStatus (st.head o.head) g
      List.range (if h = .softEcc || h = .memLasting || status ≠ 0 then 1 else max 1 (max ts.length g.pad))
    | none => [0]
  | _ => if o.eng = 5 then (List.range o.r.t0.toNat).map (vecL0 o.r o.n + ·) else [o.n]

/-- The slot and element that an error of the next step's accesses names, by a free choice k among those accessed; none where
nothing is (log entry 14). -/
def Op.failPlace (o : Op) (st : Strand) (h : Health) (k : Nat) : Option (Slot × Nat) :=
  let slots := (o.healthSlots h).filter (fun sl => !(o.failElems st h sl).isEmpty)
  match slots[k % slots.length]? with
  | none => none
  | some sl =>
    let es := o.failElems st h sl
    es[k / slots.length % es.length]?.map (fun ix => (sl, ix))

/-- A record's accesses meet the health of the state: which of its operands and elements meets an error is a free value
(log entry 14); the layout row names slot B and index 0 (R191). -/
def opMeet (s : State) (key : Nat) (st : Strand) (o : Op) : State × Option Raise :=
  match (if o.phase = .starting then some (Slot.b, 0) else o.failPlace st s.health (Config.failedElement s.nfree)) with
  | none => (s, none)
  | some (sl, ix) =>
    meetHealth { s with nfree := s.nfree + 1 } key st o.q o.seqno sl ix (sl = .d && !o.readSlots.contains .d)

/-- The health that a record's next step meets, if the step can be made and makes accesses. -/
def opHealth (s : State) (key : Nat) (st : Strand) (o : Op) : State × Option Raise :=
  if s.health = .clean || !o.accesses then (s, none)
  else match opMicro s key st o with
    | .ok _ => opMeet s key st o
    | .error _ => (s, none)

/-! ### Faults of records -/

/-- Whether an instruction is HGATHER. -/
def isGather : Instr → Bool
  | .hgather _ => true
  | _ => false

/-- The held fault of an episode once a record of its path has met one: the fault of the earliest record (R274). -/
def holdFault (f : Option (Raise × Nat)) (r : Raise) (n : Nat) : Option (Raise × Nat) :=
  match f with
  | some (r0, n0) => if n0 ≤ n then some (r0, n0) else some (r, n)
  | none => some (r, n)

/-- A fault of a record that X's handler takes: a dense fallback (R299). -/
def fallbackTrap (st : Strand) (o : Op) (r : Raise) : Bool :=
  r.code = .denseFallback && (st.head o.head).fbvec ≠ 0 && !st.hfact

/-- A record's fault raised: sent to X's handler (R299), or the end of the strand (R360); TIMING is imprecise (R342). -/
def raiseOp (s : State) (key : Nat) (st : Strand) (o : Op) (r : Raise) : State :=
  if fallbackTrap st o r then
    let s1 := logRecord s r (st.at key o.q o.seqno) { delivered := true }
    let st1 := noteFallback st o r
    s1.setStrand key { st1 with
      hfret := resumeAt o, hfdep := st1.xs.loops.length, hfact := true
      xs := { st1.xs with pc := (st1.head o.head).fbvec, window := [] } }
  else endByFault s key st r o.q o.seqno (r.code = .timing)

/-- A fault raised by a record: held on a run-ahead path (R274), or raised. -/
def opFault (s : State) (key : Nat) (o : Op) (r : Raise) : State :=
  match s.strands.find? key with
  | none => s
  | some st =>
    match st.episode with
    | some e =>
      if o.redirect then
        s.setStrand key { st.putOp { o with phase := .done, late := some r } with
          episode := some { e with fault := holdFault e.fault r o.seqno } }
      else raiseOp s key st o r
    | none => raiseOp s key st o r

/-- The dense fallback of an HGATHER that has completed and retired is raised (R307). -/
def raiseLate (s : State) (key : Nat) (o : Op) : State :=
  match s.strands.find? key, o.late with
  | some st, some r => raiseOp s key st o r
  | _, _ => s

/-- A request for a row of the host or a peer that an issue needs. -/
def opAsk (s : State) (key : Nat) (st : Strand) (o : Op) (port : Option Nat) (addr : Nat) (sl : Slot) (ix : Nat) :
    State :=
  let (id, s1) := askRead s st.uid port addr 128 (.row o.q o.seqno addr sl ix)
  putOp s1 key { o with waiting := o.waiting ++ [id] }

/-- Whether a record's run pauses after a step: HRESET between two of its rows (R303). -/
def Op.pauses (o : Op) : Bool :=
  match o.ins with
  | .hreset _ => o.phase = .running && o.hg.isSome && o.n < o.total
  | _ => false

/-- A record runs until it must wait, for at most `fuel` steps. -/
def runOp (key : Nat) (q : Seqr) (n : Nat) : Nat → State → State
  | 0, s => s
  | fuel + 1, s =>
    match s.strands.find? key with
    | none => s
    | some st =>
      match st.findOp q n with
      | none => s
      | some o =>
        match opHealth s key st o with
        | (s0, some r) => opFault s0 key o r
        | (s0, none) =>
          match opMicro s0 key st o with
          | .ok (s1, o1) =>
            if o1.late.isSome && !isGather o1.ins then opFault (putOp s1 key o1) key o1 (o1.late.getD ⟨.compactOvf, .d, 0⟩)
            else if o1.pauses then putOp s1 key o1
            else runOp key q n fuel (putOp s1 key o1)
          | .error .hold => s0
          | .error (.raise r) => opFault s0 key o r
          | .error (.far port a sl ix) => opAsk s0 key st o port a sl ix

/-- Steps of a record taken together in one step of the model. -/
def runFuel : Nat := 65536

/-! ### Acceptance -/

/-- The first held record of a sequencer for an engine that PRED lets through (R23, R138). -/
def heldFirst (st : Strand) (q : Seqr) (e : Nat) : Option Op :=
  match st.ops.find? (fun o => o.q = q && o.eng = e && o.phase = .held) with
  | some o => if predOk st q o.seqno o.r.pred.toNat then some o else none
  | none => none

/-- A record takes the next number of its engine (R32). One of a mispredicted path ends as it takes it: its number completes
(R275). -/
def acceptOp (st : Strand) (o : Op) : Strand :=
  let t := (st.tlAt o.eng).take
  if o.empty then (st.setTl o.eng (t.finish t.issue)).dropOp o
  else (st.setTl o.eng t).putOp { o with num := t.issue, phase := .accepted }

/-- Whether an instruction is MNEST. -/
def isNest : Instr → Bool
  | .mnest _ => true
  | _ => false

/-- The nest tables in use (R270): the oldest is the active one, and a second stands in the shadow with its go bit set. -/
def nestTables (st : Strand) : List Op :=
  st.ops.filter (fun o => isNest o.ins && !o.empty && (o.phase = .accepted || o.phase = .starting || o.phase = .running))

/-- The matrix engine accepts the first of its records that stands held, unless that is an MNEST and both nest tables are
in use (R270, R271). -/
def acceptMatrix (st : Strand) : Strand :=
  match st.ops.find? (fun o => o.eng = 4 && o.phase = .held) with
  | some o => if isNest o.ins && 2 ≤ (nestTables st).length then st else acceptOp st o
  | none => st

/-- An engine accepts a record that stands held: the matrix engine in decode order, and a channel or the gather feeder,
between L and S, by the contest of R23. -/
def acceptHeld (st : Strand) (e : Nat) : Strand :=
  if e = 4 then acceptMatrix st
  else
  match heldFirst st .l e, heldFirst st .s e with
  | some l, some r =>
    if h : e < 4 then
      if st.contest[e] = some .s then acceptOp { st with contest := st.contest.set e (some .l) } r
      else acceptOp { st with contest := st.contest.set e (some .s) } l
    else acceptOp st l
  | some l, none => acceptOp st l
  | none, some r => acceptOp st r
  | none, none => st

/-- The state with an engine's held record accepted. -/
def acceptAt (s : State) (key e : Nat) : State :=
  match s.strands.find? key with
  | some st => s.setStrand key (acceptHeld st e)
  | none => s

/-- A record retried: accepted if it stands held, and run. -/
def retryOp (key : Nat) (s : State) (o : Op) : State :=
  runOp key o.q o.seqno runFuel (if o.phase = .held then acceptAt s key o.eng else s)

/-- Every record of a sequencer is retried, in the order of decode (R28). -/
def retryOps (s : State) (key : Nat) (q : Seqr) : State :=
  match s.strands.find? key with
  | none => s
  | some st => (st.ops.filter (fun o => o.q = q)).foldl (retryOp key) s

/-- STALL_RELEASE (R28, R105): what a sequencer's records wait for is looked at again, but not while the tile's slots exchange
(R362). -/
def execStallRelease (tile : Nat) (q : Seqr) (s : State) : Out :=
  .next (if (s.tile tile).exchanging then s else retryOps s (runKey tile) q)

/-! ### Completion and retirement -/

/-- Whether nothing an operation sent is still on its way: links, samples, rows of the host and peers (R195, R279). -/
def settled (s : State) (st : Strand) (o : Op) : Bool :=
  !s.dev.links.any (fun l => l.uid = st.uid && l.seqno = o.seqno && o.eng = 8) &&
  !s.planner.reqs.any (fun r => match r with
    | .sample u q n _ _ _ _ _ => u = st.uid && q = o.q && n = o.seqno
    | _ => false) && o.waiting = []

/-- The oldest operation of an engine that has made every issue and may complete. -/
def readyOp (s : State) (st : Strand) (e : Nat) : Option Op :=
  st.ops.find? (fun o => o.eng = e && o.num ≠ 0 && o.phase = .done && (o.late = none || isGather o.ins) && settled s st o)

/-- An operation completes (R32, R104, R266). -/
def finishOp (st : Strand) (o : Op) : Strand :=
  let st1 := (clearRect st o).setTl o.eng ((st.tlAt o.eng).finish o.num)
  (st1.putOp { o with phase := .complete, retired := o.retired || o.r.push = 0 }).tidy

/-- What an operation's completion finds of the accesses of its latest issue, whose cycle the event names (R384). -/
def completeMeet (s : State) (key : Nat) (st : Strand) (o : Op) (health : Health) : State × Option Raise :=
  let s1 := { s with nfree := s.nfree + 1 }
  if health = .clean then (s1, none)
  else
    match ({ o with n := o.n - 1 } : Op).failPlace st health (Config.failedElement s.nfree) with
    | none => (s1, none)
    | some (sl, ix) =>
      suffer s1 key { st with scyc := o.cycle } o.q o.seqno sl ix (sl = .d && !o.readSlots.contains .d) health

/-- ENGINE_OPERATION_COMPLETE (R104, R342, R364): the health says how the accesses fared that are performed only as the
operation completes; a fault on a run-ahead path is held (R274). A dense fallback is raised once its HGATHER has retired
(R307). -/
def execEngineOperationComplete (tile : Nat) (eng : Nat) (health : Health) (s : State) : Out :=
  let key := runKey tile
  match s.strands.find? key with
  | none => .next s
  | some st =>
    match readyOp s st eng with
    | none => .next s
    | some o =>
      match completeMeet s key st o health with
      | (s1, some r) => .next (opFault s1 key o r)
      | (s1, none) =>
        let s2 := s1.setStrand key (finishOp st o)
        .next (if o.retired || o.r.push = 0 then raiseLate s2 key o else s2)

/-- The FIFOs a record pushes to, as sequencer codes. -/
def pushList (m : BitVec 4) : List Nat := (List.range 4).filter (fun j => m.getLsbD j)

/-- Whether a complete record's turn to retire has come: every earlier record of its sequencer has retired (R104). -/
def retireTurn (st : Strand) (o : Op) : Bool :=
  st.ops.all (fun e => e.q ≠ o.q || o.seqno ≤ e.seqno || e.retired)

/-- A record retires and pushes its tokens (R137); it waits while one of the FIFOs is full (R28). -/
def retireOp (st : Strand) (o : Op) : Strand :=
  let js := pushList o.r.push
  if js.any (fun j => !st.tokenRoom o.q.code j) then st
  else ((js.foldl (fun st j => st.setTokens o.q.code j (st.tokensAt o.q.code j + 1)) st).putOp
    { o with retired := true }).tidy

/-- RECORD_RETIRE (R104, R122, R137, R307). -/
def execRecordRetire (tile : Nat) (q : Seqr) (seqno : Nat) (s : State) : Out :=
  let key := runKey tile
  match s.strands.find? key with
  | none => .next s
  | some st =>
    match st.findOp q seqno with
    | none => .next s
    | some o =>
      if o.retiresEarly || (o.phase = .complete && !o.retired && retireTurn st o) then
        let st1 := retireOp st o
        let s1 := s.setStrand key st1
        .next (if (st1.findOp q seqno).isNone then raiseLate s1 key o else s1)
      else .next s

/-! ### Links and chain reads -/

/-- The first link on its way that its strand sent to the owner of the k-th: links of one strand reach an owner in the
order in which they left, in arrival mode too (R295; DESIGN CHOICE, log entry 63). -/
def linkTurn (links : List LinkReq) (q : LinkReq) : Nat :=
  links.findIdx (fun e => e.uid = q.uid && e.base / 2 ^ 23 = q.base / 2 ^ 23)

/-- How an owner's access for a record of X fares, slot A and an index of its tile register (R342, R364; log entry 14); an
event names the cycle in which it was issued (R384). One whose strand has gone is performed all the same, and of its error the
event remains (R369; log entry 45). -/
def ownerMeet (s : State) (uid ix : Nat) (who : Where) : State × Option (Nat × Strand × Raise) :=
  match findUid s uid with
  | none => (eventMeet s who .a ix false, none)
  | some (key, st) =>
    match meetHealth s key { st with scyc := who.scyc } .x who.seqno .a ix false with
    | (s1, some r) => (s1, some (key, st, r))
    | (s1, none) => (s1, none)

/-- HAWKMOTH_LINK (R296): the owner applies a link, the first of those that the sender of the k-th has on their way to
it. -/
def execHawkmothLink (k : Nat) (s : State) : Out :=
  match s.dev.links[k]? with
  | none => .next s
  | some p =>
    let j := linkTurn s.dev.links p
    let q := s.dev.links.getD j p
    match ownerMeet (s.setDev { s.dev with links := s.dev.links.eraseIdx j }) q.uid q.index q.who with
    | (s1, some (key, st, r)) => .next (endByFault s1 key st r .x q.seqno (r.code = .timing))
    | (s1, none) => .next (s1.setMem (applyLink s1.mem q))

/-- CHAIN_READ (R298): the next bucket of the HGATHER of the strand that runs on a tile; an event names the cycle in which its reads
left (R384). -/
def execChainRead (tile : Nat) (s : State) : Out :=
  let key := runKey tile
  match s.strands.find? key with
  | none => .next s
  | some st =>
    match st.ops.find? (fun o => isGather o.ins && o.phase = .running) with
    | none => .next s
    | some o =>
      match o.hg with
      | none => .next s
      | some g =>
        match ownerMeet s st.uid ((g.todo.map (·.2)).headD 0) ({ st with scyc := o.cycle }.at key .x o.seqno) with
        | (s1, some (key, st, r)) => .next (endByFault s1 key st r .x o.seqno (r.code = .timing))
        | (s1, none) =>
          let o1 := { o with hg := some (hgatherRead s1.mem (st.head o.head) g) }
          .next (runOp key o.q o.seqno runFuel (putOp s1 key o1))

end Sys2Proof.Machine
end

