-- ==== Sys2Proof/Machine/SeqRec.lean ====
section
/-! DEFINITION. Decode of a record by L, X or S (R135 to R143), the records a sequencer carries out itself (R208 to
R213), and BRQ with its run-ahead episodes (R273 to R276). -/

namespace Sys2Proof.Machine

/-- The row that holds the body address of a sequencer's innermost open loop, which is fetched ahead (R130). -/
def RSeq.bodyRow (r : RSeq) (pc : Word) : Option Nat :=
  match r.loops with
  | l :: _ => if pc = l.last then some (rowOf l.body.toNat) else none
  | [] => none

/-- The rows fetched ahead that a sequencer keeps as it goes on at an address: those of its sequential path and of its
innermost loop's body (R130, R401). -/
def RSeq.rowsFrom (r : RSeq) (pc : Word) : List (Nat × Row) :=
  r.window.filter (fun p => (rowOf pc.toNat ≤ p.1 && p.1 ≤ rowOf pc.toNat + 128 * 4) || r.bodyRow pc = some p.1)

/-- The sequencer goes on elsewhere (R138); the record it stood at waits no longer. -/
def RSeq.jump (r : RSeq) (t : Word) : RSeq :=
  { r with pc := t, seqno := r.seqno + 1, wait := none, read := AtDecode.none, window := r.rowsFrom t }

/-- The sequencer goes on to the next record (R129, R138). -/
def RSeq.next (r : RSeq) : RSeq := r.jump (r.pc + 64)

/-- A record as its sequencer decodes it: the strand with its token pops made, the operation it forms, what it read at
decode, and what it waits for if it must. -/
structure Dec where
  key : Nat
  st : Strand
  o : Op
  read : AtDecode
  wait : Wait

/-- Whether its predicate held at decode. -/
def Dec.run (d : Dec) : Bool := d.read.run

/-- The stage predicate of a record (R139). -/
def stageHolds (st : Strand) (r : Rec) : Bool :=
  let g := r.stg.toNat
  !g.testBit 7 || st.s.getLsbD (bitsOf g 3 3) != g.testBit 6

/-- What a record reads of its strand in the cycle of its decode (R140). -/
def readAtDecode (st : Strand) (q : Seqr) (r : Rec) : AtDecode where
  run := stageHolds st r
  bd := st.rb (baseIndex (st.rseq q).rotb r.d.base.toNat)
  ba := st.rb (baseIndex (st.rseq q).rotb r.a.base.toNat)
  bb := st.rb (baseIndex (st.rseq q).rotb r.b.base.toNat)

/-- The operation a record forms at decode (R138, R140); what it captures at its issue comes then. -/
def formOp (st : Strand) (q : Seqr) (i : Instr) (d : AtDecode) : Op where
  q := q
  seqno := (st.rseq q).seqno + 1
  pc := (st.rseq q).pc
  ins := i
  bd := d.bd
  ba := d.ba
  bb := d.bb
  num := 0
  phase := .held
  retired := false
  empty := false
  n := 0
  buf := []
  out := []
  fetched := []
  waiting := []
  shapes := Vector.replicate 16 0
  layout := none
  seed := 0
  ctr := 0
  foot := []
  cycle := 0
  redirect := false
  copies := false
  hg := none
  late := none

/-- The token FIFOs a record pops from, as sequencer codes. -/
def popsReady (st : Strand) (q : Seqr) (r : Rec) : Bool :=
  (pushList r.pop).all (fun j => 0 < st.tokensAt j q.code)

/-- The token pops of a record (R137); an open run-ahead episode keeps those of its path (R275). -/
def popTokens (st : Strand) (q : Seqr) (r : Rec) : Strand :=
  let st1 := (pushList r.pop).foldl (fun st j => st.setTokens j q.code (st.tokensAt j q.code - 1)) st
  if q = .x then { st1 with episode := st.episode.map (fun e => { e with popped := e.popped ++ pushList r.pop }) } else st1

/-- Records that a run-ahead path may hold (R274). -/
def onPath (i : Instr) : Bool :=
  match i with
  | .mma _ | .mmanm _ | .mmacb _ | .mmag _ | .mmak _ | .azero _ => true
  | _ => false

/-- Whether X goes on decoding on its run-ahead path (R274). -/
def Episode.goesOn (e : Episode) : Bool := e.outcome = none && e.fault = none && e.count < 32

/-- Whether a record of X that has not made its first issue is to write accumulator n: the tag that a record decoded now would
see is still to come (R41). -/
def accPending (st : Strand) (n : Nat) : Bool :=
  st.ops.any (fun e => e.q = .x && !e.spent && e.n = 0 &&
    (footprint 0 st (e.capture st)).any (fun f => f.write && f.item = .acc n))

/-- Whether X may decode a record while an episode is open (R274). -/
def pathOk (st : Strand) (e : Episode) (i : Instr) (r : Rec) : Bool :=
  let j := r.d.base.toNat - 16
  onPath i && e.goesOn && r.dk = 2 && 16 ≤ r.d.base.toNat && j < 4 &&
    (e.redirected.contains j || ((st.accAt (j + 4)).tag = 0 && !accPending st (j + 4)))

/-- Whether a sequencer decodes at all now: not while a record it carries out itself is under way, and not after an HGATHER
until it completes and its dense fallback, if any, is raised (R208, R299, R307). -/
def seqOpen (st : Strand) (q : Seqr) : Bool :=
  !st.ops.any (fun o => o.q = q && o.eng = 9 && o.phase = .running) &&
  !(q = .x && st.ops.any (fun o => isGather o.ins && !o.empty && (o.phase ≠ .complete || o.late.isSome)))

/-- Whether the race checker has room for one more record (R349). -/
def raceRoom (st : Strand) : Bool := trackedCount st < Config.raceDepth

/-- Whether a sequencer decodes a record now: on a run-ahead path only what R274 allows. -/
def mayDecode (st : Strand) (q : Seqr) (i : Instr) (r : Rec) : Bool :=
  seqOpen st q && (q ≠ .x || match st.episode with
    | some e => pathOk st e i r
    | none => true)

/-- Whether a sequencer would decode now whatever stands at its pc. -/
def decodeOpen (st : Strand) (q : Seqr) : Bool :=
  q = .c || (seqOpen st q && (q ≠ .x || match st.episode with
    | some e => e.goesOn
    | none => true))

/-- A branch target of X must lie in its innermost open loop (R273, R299). -/
def inLoop (rs : RSeq) (t : Word) : Bool :=
  match rs.loops with
  | [] => true
  | l :: _ => l.body.toNat ≤ t.toNat && t.toNat ≤ l.last.toNat

/-- The target of BRQ at P (R273). -/
def brqTarget (pc : Word) (r : Rec) : Word := pc + 64 * r.d.off.signExtend 64

/-- The checks of a record that its sequencer makes at decode and that depend on its loop stack or on Hawkmoth's handler
state: the slot ILLEGAL_OP names, if any (R210, R273, R299, R300). They are made whether or not the stage predicate holds, HCFG's
return among them (DESIGN CHOICE, log entry 21). -/
def decodeBreaks (st : Strand) (q : Seqr) (i : Instr) (r : Rec) : Option Slot :=
  let rs := st.rseq q
  let atEnd : Bool := match rs.loops with
    | l :: _ => rs.pc == l.last
    | [] => false
  match i with
  | .endl _ => if atEnd then none else some .none
  | _ =>
    if atEnd then some .none
    else match i with
      | .brq _ => if inLoop rs (brqTarget rs.pc r) then none else some .d
      | .hgather _ =>
        if inLoop rs (rs.pc + 64 * (BitVec.ofNat 16 r.b.off.toNat).signExtend 64) then none else some .b
      | .hcfgRet _ => if st.hfact && rs.loops.length = st.hfdep then none else some .none
      | _ => none

/-- A record that keeps its place, its token pops made and what it read at decode kept. -/
def recStay (s : State) (d : Dec) (w : Wait) : Out :=
  .next (s.setStrand d.key (d.st.setRseq d.o.q { d.st.rseq d.o.q with wait := some w, read := d.read }))

/-- What a record that must wait takes with it from its decode cycle: the captured values of DRAIN, TLWAIT and SYNC
(R105, R212). -/
def waitAtDecode (st : Strand) (i : Instr) (r : Rec) (d : AtDecode) : Wait :=
  match i with
  | .drainRec _ => .drain r.fn.toNat (st.tlAt r.fn.toNat).issue
  | .tlwaitRec _ => .tl r.fn.toNat (d.ba + r.a.off.signExtend 64).toNat
  | .sync _ => .sync st.issues
  | _ => .again

/-- A fault of a record of X found before its decode, on an open run-ahead path: it is held (R274). The record is not counted, so
that the next one decoded after its fault is dropped takes the number that it would have had (DESIGN CHOICE, log entry 34). -/
def holdDecode (s : State) (key : Nat) (st : Strand) (e : Episode) (r : Raise) : State :=
  s.setStrand key { st with episode := some { e with fault := holdFault e.fault r (st.xs.seqno + 1) } }

/-- A fault that a sequencer finds in decoding or fetching a record: held on an open run-ahead path, otherwise the end of
the strand (R143, R274, R360). -/
def decodeFault (s : State) (key : Nat) (st : Strand) (q : Seqr) (r : Raise) : State :=
  match st.episode with
  | some e =>
    if q = .x then (if e.outcome = none then holdDecode s key st e r else s)
    else endByFault s key st r q ((st.rseq q).seqno + 1) (r.code = .timing)
  | none => endByFault s key st r q ((st.rseq q).seqno + 1) (r.code = .timing)

/-- Decode of a record by the current sequencer: the checks, the token pops, the reads of base registers and predicate,
and then what the record does. One that waits has been decoded and is not checked again. -/
def decodeRec (i : Instr) (r : Rec) (s : State) (body : State → Dec → Out) : Out :=
  let key := runKey s.curTile
  let q := s.curSeq
  match s.strands.find? key with
  | none => .refused .noSuchExecution
  | some st =>
    if q = .c || !st.started || (st.rseq q).ended then .refused .noSuchExecution
    else if !mayDecode st q i r then .next s
    else
      match (st.rseq q).wait with
      | some w => body s ⟨key, st, formOp st q i (st.rseq q).read, (st.rseq q).read, w⟩
      | none =>
        match decodeBreaks st q i r with
        | some sl => .next (decodeFault s key st q ⟨.illegalOp, sl, 0⟩)
        | none =>
          if popsReady st q r then
            let st1 := popTokens st q r
            let d := readAtDecode st1 q r
            body (s.setStrand key st1) ⟨key, st1, formOp st1 q i d, d, waitAtDecode st1 i r d⟩
          else .next s

/-! ### Records of the engines -/

/-- A record of a run-ahead path with its accumulator redirected (R274). -/
def redirectOp (st : Strand) (o : Op) : Strand × Op :=
  match st.episode with
  | some e =>
    if o.q = .x then
      let j := o.r.d.base.toNat - 16
      let first := !e.redirected.contains j
      ({ st with episode := some { e with
          redirected := if first then e.redirected ++ [j] else e.redirected
          count := e.count + 1 } }, { o with redirect := true, copies := first })
    else (st, o)
  | none => (st, o)

/-- An engine's record enters the list: accepted at once by the vector engine, Skipper and Hawkmoth, and held before a
channel, the gather feeder or the matrix engine until that accepts it (R247, R270, R271, R279). Where several sequencers share the
cycle a channel accepts only as it ends, one of the records presented (R23). -/
def enterOp (shared : Bool) (st : Strand) (o : Op) : Strand :=
  let (st2, o2) := redirectOp (st.setRseq o.q (st.rseq o.q).next) o
  let st3 := { st2 with ops := st2.ops ++ [o2] }
  if o.eng < 4 && shared then st3
  else if o.eng ≤ 4 || o.eng = 6 then acceptHeld st3 o.eng else acceptOp st3 o2

/-- A record that makes no issue retires, and if it pushes tokens it does so in its turn (R139). On a run-ahead path it
counts as one of its records, and its push waits for the outcome (R274, R275). -/
def enterEmpty (st : Strand) (o : Op) : Strand :=
  let st1 := st.setRseq o.q (st.rseq o.q).next
  let onPath := o.q = .x && st.episode.isSome
  let st2 := if onPath then { st1 with episode := st.episode.map (fun e => { e with count := e.count + 1 }) } else st1
  if o.r.push = 0 then st2
  else { st2 with ops := st2.ops ++ [{ o with empty := true, phase := .complete, redirect := onPath }] }

/-- A record of an engine: decoded, accepted where it can be, and run as far as it goes. One that makes issues stalls in its
decode while the race checker has no room for it, its token pops made (R349; log entry 28). -/
def engineRec (i : Instr) (r : Rec) (s : State) : Out :=
  decodeRec i r s fun s d =>
    if !d.run || r.total = 0 then .next (s.setStrand d.key (enterEmpty d.st d.o))
    else if !raceRoom d.st then recStay s d .again
    else .next (runOp d.key d.o.q d.o.seqno runFuel (s.setStrand d.key (enterOp s.cycle.isSome d.st d.o)))

/-! ### Records of the sequencer itself (R208) -/

/-- A record of engine 9 that has taken effect, with its sequencer's state after it: its pushes await their turn. -/
def ownDone (s : State) (d : Dec) (st : Strand) (rs : RSeq) : Out :=
  let st1 := st.setRseq d.o.q rs
  .next (s.setStrand d.key
    (if d.o.r.push = 0 then st1 else { st1 with ops := st1.ops ++ [{ d.o with empty := true, phase := .complete }] }))

/-- A record of engine 9 once PRED lets it go on; what it captures at decode it has captured before (R212). Such a record
makes no issue for PRED to hold back (R138): the model holds its effect, and with it its sequencer's decode, a predicated-off
record's too (DESIGN CHOICE, log entry 51). -/
def ownRec (i : Instr) (r : Rec) (s : State) (body : State → Dec → RSeq → Out) : Out :=
  decodeRec i r s fun s d =>
    if predOk d.st d.o.q d.o.seqno r.pred.toNat then body s d (d.st.rseq d.o.q)
    else recStay s d d.wait

/-- RMERGE and BQPUSH, which L carries out issue by issue (R205, R206). -/
def mergeRec (i : Instr) (r : Rec) (s : State) : Out :=
  ownRec i r s fun s d rs =>
    if !d.run || r.total = 0 then ownDone s d d.st rs.next
    else if !raceRoom d.st then recStay s d .again
    else
      let st1 := d.st.setRseq d.o.q rs.next
      let st2 := { st1 with ops := st1.ops ++ [{ d.o with phase := .running }] }
      .next (runOp d.key d.o.q d.o.seqno runFuel (s.setStrand d.key st2))

/-- The end address of a loop at P (R209). -/
def loopEnd (pc : Word) (r : Rec) : Word := pc + 64 * (BitVec.ofNat 64 r.t1.toNat + 1)

/-- A loop of a count opened or skipped (R209). -/
def loopEnter (s : State) (d : Dec) (st : Strand) (rs : RSeq) (count : BitVec 32) : Out :=
  let e := loopEnd rs.pc d.o.r
  if count = 0 then ownDone s d st (rs.jump (e + 64))
  else if rs.loops.length ≥ Config.loopDepth then
    .next (endByFault s d.key st ⟨.illegalOp, .none, 0⟩ d.o.q d.o.seqno false)
  else ownDone s d st { rs.next with loops := ⟨rs.pc + 64, e, count⟩ :: rs.loops }

/-- LOOP (R209). -/
def loopRec (i : Instr) (r : Rec) (s : State) : Out :=
  ownRec i r s fun s d rs =>
    loopEnter s d d.st rs (if d.run then r.t0.setWidth 32 else 0)

/-- LOOPQ (R209): a failing predicate pops nothing; an empty rq.lx stalls. -/
def loopqRec (i : Instr) (r : Rec) (s : State) : Out :=
  ownRec i r s fun s d rs =>
    if !d.run then loopEnter s d d.st rs 0
    else
      match d.st.rq with
      | [] => recStay s d .again
      | v :: rest =>
        let prev := d.st.lqprev
        let count := if r.fn = 0 then v else if prev.toNat ≤ v.toNat then v - prev else 0
        loopEnter s d { d.st with rq := rest, lqprev := v } rs count

/-- The base bumps of ENDL, D then A then B: each adds to what its register held at the record's decode, or to the bump
that this record made before it (R140, R210). -/
def endlBumps (st : Strand) (rotb : BitVec 4) (d : AtDecode) (r : Rec) : Strand :=
  ([(Slot.d, d.bd), (.a, d.ba), (.b, d.bb)].foldl (fun (p : Strand × List Nat) z =>
    if kindOf r z.1 = 1 then
      let n := baseIndex rotb (opdOf r z.1).base.toNat
      let v := if p.2.contains n then p.1.rb n else z.2
      (p.1.wb n (v + (opdOf r z.1).off.signExtend 64), n :: p.2)
    else p) (st, [])).1

/-- Whether a tile counts and takes snapshots (R380). -/
def bcOn (t : Tile) : Bool := t.bcctl.getLsbD 31

/-- The bank-conflict counter of requester r and bank b. -/
def bcmAt (t : Tile) (r b : Nat) : Nat := (cellGet (0 : BitVec 32) t.bcm (32 * r + b)).toNat

/-- BCM_SNAPSHOT (R381): 15 rows at SNAP × 128 of the tile's slice, when the ENDL of the chosen sequencer pops its
entry; none where a row would lie outside the populated slice. -/
def bcmSnapshot (s : State) (key : Nat) (st : Strand) (q : Seqr) (seqno : Nat) : State :=
  let tile := key / 2
  let t := s.tile tile
  let off := bitsOf t.bcctl.toNat 0 16 * 128
  if !bcOn t || bitsOf t.bcctl.toNat 28 2 ≠ q.code || off + 15 * 128 > Config.sliceBytes then s
  else
    let base := sliceKey tile off
    let stamp := if st.det then st.scyc % 2 ^ 64 else s.dev.devtime.toNat % 2 ^ 63 + 2 ^ 63
    let m1 := (List.range 14).foldl (fun m r =>
      writeNat m (base + 128 * (1 + r)) 128 (packElems 32 ((List.range 32).map (bcmAt t r)))) s.mem
    traceStrand (s.setMem (writeNat m1 base 128
      (stamp + 2 ^ 64 * (seqno % 2 ^ 64) + 2 ^ 128 * tile + 2 ^ 144 * q.code))) key st 8 q.code seqno 0

/-- ENDL (R210, R381). -/
def endlRec (i : Instr) (r : Rec) (s : State) : Out :=
  ownRec i r s fun s d rs =>
    match rs.loops with
    | [] => .next (endByFault s d.key d.st ⟨.illegalOp, .none, 0⟩ d.o.q d.o.seqno false)
    | l :: rest =>
      let st1 := endlBumps d.st rs.rotb d.read r
      if 1 < l.remaining.toNat then
        ownDone s d st1 { rs.jump l.body with loops := { l with remaining := l.remaining - 1 } :: rest }
      else ownDone (bcmSnapshot s d.key d.st d.o.q d.o.seqno) d st1 { rs.next with loops := rest }

/-- ROT (R211). -/
def rotRec (i : Instr) (r : Rec) (s : State) : Out :=
  ownRec i r s fun s d rs =>
    if !d.run then ownDone s d d.st rs.next
    else
      let ps := r.fn.getLsbD 1
      if r.fn.getLsbD 0 then
        let kc : BitVec 32 := r.t0.setWidth 32
        if ps then ownDone s d { d.st with s := if kc = 0 then 0 else 1 } { rs.next with rotb := 0, kc := kc }
        else ownDone s d d.st { rs.next with rotb := 0 }
      else
        let rs1 := { rs.next with rotb := rs.rotb - 1 }
        if ps then
          let kc := if rs.kc = 0 then rs.kc else rs.kc - 1
          ownDone s d { d.st with s := (d.st.s <<< 1) ||| (if kc = 0 then 0 else 1) } { rs1 with kc := kc }
        else ownDone s d d.st rs1

/-- DRAIN (R105, R212, R215). -/
def drainRec (i : Instr) (r : Rec) (s : State) : Out :=
  ownRec i r s fun s d rs =>
    if !d.run then ownDone s d d.st rs.next
    else
      let ch := r.fn.toNat
      let v := match d.wait with
        | .drain _ v => v
        | _ => (d.st.tlAt ch).issue
      if d.st.drained ch v then
        ownDone s d (d.st.order d.o.q d.o.seqno (fun e => e.eng = ch && e.num ≠ 0 && e.num ≤ v)) rs.next
      else recStay s d (.drain ch v)

/-- TLWAIT (R212). -/
def tlwaitRec (i : Instr) (r : Rec) (s : State) : Out :=
  ownRec i r s fun s d rs =>
    if !d.run then ownDone s d d.st rs.next
    else
      let c := r.fn.toNat
      let v := match d.wait with
        | .tl _ v => v
        | _ => (d.o.ba + r.a.off.signExtend 64).toNat
      if v ≤ (counterValue s d.st c).2 then
        ownDone s d (d.st.order d.o.q d.o.seqno (fun e => e.eng = c && e.num ≠ 0 && e.num ≤ v)) rs.next
      else recStay s d (.tl c v)

/-- SYNC (R212). -/
def syncRec (i : Instr) (r : Rec) (s : State) : Out :=
  ownRec i r s fun s d rs =>
    if !d.run then ownDone s d d.st rs.next
    else
      let vs := match d.wait with
        | .sync vs => vs
        | _ => d.st.issues
      if d.st.reached vs && d.st.ops.all (fun e => e.q ≠ d.o.q || e.retired) then
        ownDone s d (d.st.order d.o.q d.o.seqno (fun e => e.num ≠ 0 && e.num ≤ vs.getD e.eng 0)) rs.next
      else recStay s d (.sync vs)

/-- END (R210, R213). -/
def endRecord (i : Instr) (r : Rec) (s : State) : Out :=
  ownRec i r s fun s d rs => ownDone s d d.st { rs.next with ended := true, loops := [] }

/-- Whether Hawkmoth has a record of X that is not complete (R279). -/
def hawkmothBusy (st : Strand) : Bool := st.ops.any (fun e => e.eng = 8 && !e.empty && e.phase ≠ .complete)

/-- HCFG with RET = 1 (R300): a record of Hawkmoth, it waits for the completion of those before it (R279). -/
def hcfgReturn (i : Instr) (r : Rec) (s : State) : Out :=
  ownRec i r s fun s d rs =>
    if !d.run then ownDone s d d.st rs.next
    else if hawkmothBusy d.st then recStay s d .again
    else ownDone s d { d.st with hfact := false } (rs.jump d.st.hfret)

/-! ### Branches and run-ahead -/

/-- Whether an outcome takes a BRQ (R273). -/
def brqTaken (r : Rec) (v : BitVec 16) : Bool := v &&& BitVec.ofNat 16 r.a.off.toNat ≠ 0

/-- Where a BRQ at P goes. -/
def brqNext (pc : Word) (r : Rec) (taken : Bool) : Word := if taken then brqTarget pc r else pc + 64

/-- The sequencer after a branch: the next record, or elsewhere. -/
def RSeq.branch (rs : RSeq) (t : Word) : RSeq := if t = rs.pc + 64 then rs.next else rs.jump t

/-- BRQ (R273, R274): an empty bq.lx stalls it, or opens an episode under SPEC. -/
def brqRec (i : Instr) (r : Rec) (s : State) : Out :=
  ownRec i r s fun s d rs =>
    match d.st.bq with
    | v :: rest => ownDone s d { d.st with bq := rest } (rs.branch (brqNext rs.pc r (brqTaken r v)))
    | [] =>
      if r.fn.getLsbD 0 then
        let st1 := d.st.setRseq .x (rs.branch (brqNext rs.pc r (r.fn.getLsbD 1)))
        .next (s.setStrand d.key { st1 with
          episode := some ⟨rs.pc, d.o.seqno, r, [], 0, [], none, none⟩
          ops := st1.ops ++ [{ d.o with empty := true, phase := .done }] })
      else recStay s d .again

/-- The shadows of an episode are committed. -/
def commitShadows (st : Strand) (js : List Nat) : Strand :=
  js.foldl (fun st j => (st.setAcc j (st.accAt (j + 4))).setAcc (j + 4) { st.accAt (j + 4) with tag := 0 }) st

/-- Whether the records of an episode have completed. -/
def pathSettled (st : Strand) : Bool := st.ops.all (fun o => !o.redirect || o.phase = .complete)

/-- A path's records belong to it no longer. -/
def releasePath (st : Strand) : Strand := { st with ops := st.ops.map (fun o => { o with redirect := false }) }

/-- Whether the records of an episode before number n have completed, so that none of them can still meet a fault. -/
def settledBefore (st : Strand) (n : Nat) : Bool := st.ops.all (fun o => !o.redirect || n ≤ o.seqno || o.phase = .complete)

/-- The settlement of an episode whose outcome is known (R275): after a misprediction the path is dropped at once; otherwise a held
fault is raised once no record before its own can meet one, or the shadows are committed once the path's records have
completed. -/
def settleEpisode (s : State) (key : Nat) (st : Strand) (e : Episode) : State :=
  match e.outcome, e.fault with
  | none, _ => s
  | some (false, _), _ => s.setStrand key { undoPath st e with episode := none }
  | some (true, _), some (r, n) =>
    if settledBefore st n then endByFault s key (dropShadows st e.redirected) r .x n (r.code = .timing) else s
  | some (true, _), none =>
    if pathSettled st then s.setStrand key { releasePath (commitShadows st e.redirected) with episode := none } else s

/-- The outcome an episode waits for is popped: the BRQ retires, and after a misprediction X decodes the other path
(R275). -/
def popOutcome (st : Strand) (e : Episode) : Strand :=
  match st.bq with
  | [] => st
  | v :: rest =>
    let taken := brqTaken e.r v
    let correct := taken = e.r.fn.getLsbD 1
    let st1 := { st with bq := rest, episode := some { e with outcome := some (correct, brqNext e.pc e.r taken) } }
    let st2 := match st1.findOp .x e.seqno with
      | some o => (st1.putOp { o with phase := .complete, retired := e.r.push = 0 }).tidy
      | none => st1
    if correct then st2
    else { st2 with xs := { st2.xs with pc := brqNext e.pc e.r taken, wait := none, read := AtDecode.none, window := [] } }

/-- RUNAHEAD_RESOLUTION (R275). -/
def execRunaheadResolution (tile : Nat) (s : State) : Out :=
  let key := runKey tile
  match s.strands.find? key with
  | none => .next s
  | some st =>
    match st.episode with
    | none => .next s
    | some e =>
      let st1 := if e.outcome = none then popOutcome st e else st
      match st1.episode with
      | some e1 => .next (settleEpisode (s.setStrand key st1) key st1 e1)
      | none => .next s

end Sys2Proof.Machine
end

