-- ==== Sys2Proof/Machine/Preempt.lean ====
section
/-! DEFINITION. Pre-emption (R86, R361 to R363), the watchdog (R365, R366), delivery of imprecise faults (R359, R360),
invalidation requests (R118 to R120) and the answers to page requests (R117). -/

namespace Sys2Proof.Machine

/-! ### Swap requests -/

/-- QUANTUM_EXPIRY (R86): a swap is requested where both slots hold arrival-mode strands and the running one has had its
QUANTUM. -/
def execQuantumExpiry (tile : Nat) (s : State) : Out :=
  match s.strands.find? (2 * tile), s.strands.find? (2 * tile + 1) with
  | some a, some b =>
    if !a.det && !b.det && a.started && s.dev.quantum.toNat ≤ a.quantum && (s.tile tile).swap.isNone && !s.dev.stopped then
      .next (s.setTile tile { s.tile tile with swap := some false })
    else .next s
  | _, _ => .next s

/-- SWAPREQ (R362, R363): ignored while GO reads 1; while a swap of the tile is in progress the request is absorbed by
it. -/
def swapWrite (s : State) (v : BitVec 32) : State :=
  if s.dev.swapreq.getLsbD 31 then s
  else
    let tile := bitsOf v.toNat 0 9
    let s1 := s.setDev { s.dev with swapreq := v &&& 0x800001FF#32 }
    if v.getLsbD 31 && (s1.tile tile).swap.isNone then s1.setTile tile { s1.tile tile with swap := some true } else s1

/-- SWAPREQ (R362). -/
def execSwapreq (v : BitVec 32) (s : State) : Out := .next (swapWrite s v)

/-! ### The swap -/

/-- Whether a record has begun its issues and is not complete (R192, R362): it has made one, has popped a row for its first,
waits for a row of the host or a peer or has one, has its layout row, or is an HGATHER or HRESET in its reads or writes. One that has not begun stands
unissued (`firstHeld`). -/
def Op.begun (o : Op) : Bool :=
  match o.phase with
  | .starting => !(o.waiting = [] && o.fetched = [])
  | .running => !(o.n = 0 && o.buf = [] && o.out = [] && o.waiting = [] && o.fetched = [] && o.layout.isNone && o.hg.isNone)
  | .done => true
  | _ => false

/-- Whether an instruction is BRQ; that of an open episode stands in the list until its outcome is popped. -/
def isBranch : Instr → Bool
  | .brq _ => true
  | _ => false

/-- Whether a strand stands where a swap may take it: C at a boundary or in a word that R157 names, the records that have
begun complete but for those of an open path, which the swap drops (R276), no episode whose outcome has been popped, no
dense fallback still to be raised, no atomic on its way. -/
def swapReady (s : State) (st : Strand) : Bool :=
  (st.c.ended || st.c.wait.swappable)
    && st.ops.all (fun o => (!o.begun && o.late.isNone) || o.redirect || isBranch o.ins)
    && (match st.episode with
      | some e => e.outcome.isNone
      | none => true)
    && !s.dev.atoms.any (fun a => a.uid = st.uid)

/-- Shadow accumulators with tag 0 hold +0 in a saved context (R278). -/
def blankShadows (st : Strand) : Strand :=
  [4, 5, 6, 7].foldl (fun st j => if (st.accAt j).tag = 0 then st.setAcc j AccReg.start else st) st

/-- The outgoing strand as it is saved: its episode settled as a misprediction, nothing tracked (R276, R278, R361). -/
def saved (st : Strand) : Strand :=
  let st1 := blankShadows (abandonEpisode st)
  { st1 with ops := st1.ops.map (fun o => { o with foot := [] }) }

/-- A host pre-emption of a deterministic strand desynchronises its launch (R347, R363). -/
def desyncOf (s : State) (st : Strand) : State :=
  if st.det then modLaunch s st.launch (fun l => { l with desync := true }) else s

/-- The outgoing strand leaves the running slot, applying a request in progress as a resident strand does (R119). -/
def swapOut (s : State) (tile : Nat) (st : Strand) : State :=
  let key := runKey tile
  let s1 := s.setStrand key (saved st)
  desyncOf (traceStrand (ackOrHold s1 key) key st 4 0 st.c.seqno 0) st

/-- The slots of a tile exchange roles: in the model the strands change places as the exchange begins, and neither runs until it
ends (R362, R383). -/
def exchange (s : State) (tile : Nat) : State :=
  let a := s.strands.find? (2 * tile)
  let b := s.strands.find? (2 * tile + 1)
  let m := (s.strands.erase (2 * tile)).erase (2 * tile + 1)
  let m1 := match b with
    | some st => m.insert (2 * tile) { st with quantum := 0 }
    | none => m
  let m2 := match a with
    | some st => m1.insert (2 * tile + 1) st
    | none => m1
  beginExchange { s with strands := m2 } tile

/-- The exchange of a tile's slots ends: the strand in the running slot, if there is one, runs from now on (R362, R379). -/
def endExchange (s : State) (tile : Nat) : State :=
  let s1 := swapDone s tile
  match s1.strands.find? (2 * tile) with
  | some st => traceStrand s1 (2 * tile) st 5 0 st.c.seqno 0
  | none => s1

/-- Whether a swap by quantum is due between a tile's strands (R86). -/
def quantumDue (s : State) (a : Strand) (b : Option Strand) : Bool :=
  match b with
  | some b => !a.det && !b.det && a.started && s.dev.quantum.toNat ≤ a.quantum
  | none => false

/-- SWAP (R362): once every sequencer stands at a boundary the slots exchange roles, and a further SWAP ends that exchange. A
swap by quantum that is no longer due is not made (R86). -/
def execSwap (tile : Nat) (s : State) : Out :=
  if (s.tile tile).exchanging then .next (endExchange s tile)
  else
  match (s.tile tile).swap with
  | none => .next s
  | some byHost =>
    match s.strands.find? (2 * tile), s.strands.find? (2 * tile + 1) with
    | some a, b =>
      if !byHost && !quantumDue s a b then .next (swapDone s tile)
      else if swapReady s a then .next (exchange (swapOut s tile a) tile)
      else .next s
    | none, some _ => .next (exchange s tile)
    | none, none => .next (swapDone s tile)

/-! ### Watchdog and imprecise faults -/

/-- WATCHDOG (R366). -/
def execWatchdog (tile : Nat) (s : State) : Out :=
  let key := runKey tile
  match s.strands.find? key with
  | none => .next s
  | some st =>
    if st.wdlimit ≠ 0 && st.wdlimit ≤ st.wdcount then .next (endByFault s key st ⟨.watchdog, .none, 0⟩ .c 0 true)
    else .next s

/-- Whether C stands where an imprecise fault is delivered: at a boundary, or in a word that R157 allows a swap inside;
one that has ended is ended at once (R359, R360). -/
def Strand.atBoundary (st : Strand) : Bool := st.c.ended || st.c.wait.swappable

/-- Whether the first imprecise fault that waits can go to no handler: it ends the strand, wherever that stands, with no wait for
a boundary (R360, R369). -/
def Strand.doomed (st : Strand) : Bool :=
  match st.pendingFaults with
  | [] => false
  | (r, _) :: _ => st.c.ended || !st.handles r.code

/-- The first imprecise fault that waits is delivered, or ends the strand (R359, R360). -/
def deliverFirst (s : State) (key : Nat) (st : Strand) : State :=
  match st.pendingFaults with
  | [] => s
  | (r, n) :: rest => takeImprecise s key { st with pendingFaults := rest } r n

/-- Whether the first imprecise fault of the strand in a slot has its effect now: it ends the strand at once, or C of the running
strand stands where it is delivered (R359, R360). -/
def faultDue (s : State) (key : Nat) : Bool :=
  match s.strands.find? key with
  | none => false
  | some st => st.doomed ||
      (key % 2 = 0 && st.pendingFaults ≠ [] && st.atBoundary && st.started && !(s.tile (key / 2)).exchanging)

/-- The first imprecise fault of the strand in a slot has its effect. -/
def deliverAt (s : State) (key : Nat) : State :=
  match s.strands.find? key with
  | none => s
  | some st => deliverFirst s key st

/-- IMPRECISE_FAULT_DELIVERY (R359, R360): for the running strand of a tile, or else the end of the resident one. -/
def execImpreciseFaultDelivery (tile : Nat) (s : State) : Out :=
  .next (if faultDue s (runKey tile) then deliverAt s (runKey tile)
    else if faultDue s (runKey tile + 1) then deliverAt s (runKey tile + 1)
    else s)

/-! ### Invalidation -/

/-- Whether a slot applies a request at once: it is empty or resident, or its strand belongs to another function and the
request concerns translations (R119). -/
def ivAtOnce (s : State) (key : Nat) : Bool :=
  match s.strands.find? key with
  | none => true
  | some st => key % 2 = 1 || (!s.dev.ivctl.getLsbD 29 && st.fn ≠ bitsOf s.dev.ivctl.toNat 24 4)

/-- Every slot that applies the request at once does so; none during a stop (R374). -/
def settleIv (s : State) : State :=
  if attrReady s.dev && !s.dev.stopped then
    (s.dev.ivpending.map (·.1)).foldl (fun s k => if ivAtOnce s k then ackSlot s k else s) s
  else s

/-- A write of IVCTL: ignored while GO reads 1; TOUT is cleared by a 1; GO sends the request to every slot (R118,
R119). The request keeps IVADDR and IVLEN as they stand at GO, while SATTRBASE is read at each reload (DESIGN CHOICE, log
entry 53). -/
def ivWrite (s : State) (v : BitVec 32) : State :=
  if !s.dev.ivpending.isEmpty then s
  else
    let tout := s.dev.ivctl.getLsbD 30 && !v.getLsbD 30
    let word := (v &&& 0x3F000000#32) ||| (if tout then 0x40000000#32 else 0)
    let s1 := s.setDev { s.dev with ivctl := word }
    if v.getLsbD 31 then
      settleIv (s1.setDev { s1.dev with
        ivpending := (List.range (2 * Config.tiles)).map (fun k => (k, 0))
        ivfrom := s1.dev.ivaddr.toNat
        ivsize := s1.dev.ivlen.toNat })
    else s1

/-- IVCTL_GO (R118). -/
def execIvctlGo (v : BitVec 32) (s : State) : Out := .next (ivWrite s v)

/-- QUIESCE_TIMEOUT (R120): the running strand that has not acknowledged in IVLIMIT ticks is ended; its slot then
acknowledges. -/
def execQuiesceTimeout (tile : Nat) (s : State) : Out :=
  let key := runKey tile
  match s.strands.find? key, s.dev.ivpending.find? key with
  | some st, some age =>
    if s.dev.ivlimit.toNat ≤ age then
      let s1 := s.setDev { s.dev with ivctl := s.dev.ivctl ||| 0x40000000#32 }
      .next (endByFault s1 key st ⟨.quiesceTimeout, .none, 0⟩ .c 0 true)
    else .next s
  | _, _ => .next s

/-! ### Page requests -/

/-- A write of PRQACK for a function: its request of that tag is answered; other tags are ignored (R117). -/
def prqWrite (s : State) (fn : Nat) (v : Word) : State :=
  s.setDev { s.dev with pageReqs := s.dev.pageReqs.map (fun r =>
    if r.fn = fn && r.tag = bitsOf v.toNat 0 32 && r.answer.isNone then { r with answer := some (v.getLsbD 32) } else r) }

/-- Whether a request of a function comes over the link that carries it (R386). -/
def onLink (d : Device) (link : BitVec 1) (fn : Nat) : Bool := d.linkmap.getLsbD fn = link.getLsbD 0

/-- PRQACK (R117, R386, R389): through its own slot a function answers only its own requests; the physical function's slot
takes FN as written. -/
def execPrqack (via : Via) (own : Bool) (v : Word) (s : State) : Out :=
  .next (if !onLink s.dev via.link via.fn.toNat then s.send .unsupported
    else if own then prqWrite s via.fn.toNat v
    else if via.fn = 0 then prqWrite s (bitsOf v.toNat 33 4) v
    else s)

end Sys2Proof.Machine
end

