-- ==== Sys2Proof/Machine/Kill.lean ====
section
/-! DEFINITION. The kill sequence (R367 to R370). -/

namespace Sys2Proof.Machine

/-- What a kill remembers of a strand for its KILLED record: name, queue, packet, tile, schedule cycle, function. -/
def killNote (key : Nat) (st : Strand) : Nat × Nat × Nat × Nat × Nat × Nat :=
  (st.uid, st.queue, st.pkt, key / 2, if st.det then st.scyc else ones64, st.fn)

/-- Plan runs of a strand learn that it was killed (R334). -/
def killRuns (s : State) (uid : Nat) : State :=
  s.setPlanner { s.planner with runs := s.planner.runs.map (fun r => if r.uid = uid then { r with killed := true } else r) }

/-- A strand that is still in a slot is killed (R369). -/
def killOne (s : State) (uid : Nat) : State :=
  match findUid s uid with
  | none => s
  | some (key, st) => freeStrand (killRuns s uid) key st .kill

/-- The strands a KILLCTL value names, in slot order (R367). -/
def killTargets (s : State) (v : Nat) : List (Nat × Strand) :=
  if v.testBit 30 then
    s.strands.filter (fun p => p.2.queue = bitsOf v 9 8 && p.2.pkt = s.dev.killpkt.toNat)
  else s.strands.filter (fun p => p.1 = 2 * bitsOf v 0 9 + bitsOf v 29 1)

/-- A launch whose kill begins: it binds no further strands, or is dropped where its gang has not committed (R368). -/
def killLaunchOf (s : State) (whole : Bool) (lid : Nat) : State :=
  match s.dev.launches.find? lid with
  | none => s
  | some l =>
    if l.gang = .armed then dropGang s lid
    else if whole then modLaunch (leaveUnbound s l lid) lid (fun l => { l with killed := true })
    else s

/-- The launches of strands, each once, in order. -/
def launchesOf (ps : List (Nat × Strand)) : List Nat :=
  ps.foldl (fun acc p => if acc.contains p.2.launch then acc else acc ++ [p.2.launch]) []

/-- The launches that a KILLCTL value names and that have no strand in a slot (R367, R368). -/
def idleTargets (s : State) (v : Nat) : List Nat :=
  if v.testBit 30 then
    (s.dev.launches.filter (fun p =>
      p.2.queue = bitsOf v 9 8 && p.2.pkt = s.dev.killpkt.toNat && (strandsOf s p.1).isEmpty)).map (·.1)
  else []

/-- A launch without a strand in a slot is killed: it binds no more, its gang is dropped before commit, and with no strand of it
left it stores status 4 at once (R79, R368). -/
def killIdle (s : State) (lid : Nat) : State :=
  launchCheck (modLaunch (killLaunchOf s true lid) lid (fun l => { l with status := 4 })) lid

/-- A kill started on the launches and strands it names; one that names no strand in a slot completes at once, with no record
(R367 to R369). -/
def killStart (s0 : State) (v : Nat) : State :=
  let ts := killTargets s0 v
  let s := (idleTargets s0 v).foldl killIdle s0
  if ts = [] then s.setDev { s.dev with killctl := BitVec.ofNat 32 (setBits s.dev.killctl.toNat 31 1 0) }
  else
    let ls := launchesOf ts
    let s1 := s.setDev { s.dev with killing := ts.map (fun p => killNote p.1 p.2), killedLaunches := ls }
    let s2 := ls.foldl (fun s l => killLaunchOf s (v.testBit 30) l) (ts.foldl (fun s p => killRuns s p.2.uid) s1)
    (ts.map (fun p => p.2.uid)).foldl killOne s2

/-- A write of KILLCTL: ignored while GO reads 1; a kill requested during a stop begins at the resume (R367, R374). -/
def killWrite (s : State) (v : BitVec 32) : State :=
  if s.dev.killctl.getLsbD 31 then s
  else
    let s1 := s.setDev { s.dev with killctl := v &&& 0xE001FFFF#32 }
    if v.getLsbD 31 && !s.dev.stopped then killStart s1 v.toNat else s1

/-- KILL_STRAND (R369): KILLCTL written with LNCH = 0. -/
def execKillStrand (v : BitVec 32) (s : State) : Out := .next (killWrite s v)

/-- KILL_LAUNCH (R368): KILLCTL written with LNCH = 1. -/
def execKillLaunch (v : BitVec 32) (s : State) : Out := .next (killWrite s v)

/-- Whether an atomic, a link or an atomic at the host or a peer of a killed strand is still on its way (R370). -/
def killWaits (s : State) : Bool :=
  let mine (uid : Nat) : Bool := s.dev.killing.any (fun k => k.1 = uid)
  s.dev.atoms.any (fun a => mine a.uid) || s.dev.links.any (fun l => mine l.uid)
    || s.dev.far.any (fun f => mine f.uid && (match f.use with
      | .atom _ _ _ => true
      | _ => false))

/-- The KILLED record of a strand; its SEQ and SEQNO are free values (log entry 16). -/
def killedRecord (s : State) (k : Nat × Nat × Nat × Nat × Nat × Nat) : State :=
  let (_, queue, pkt, tile, scyc, fn) := k
  logRecord s ⟨.killed, .none, 0⟩
    { fn := fn, seq := openField s 2 % 5, seqno := openField s 3, queue := queue, tile := tile, pkt := pkt, scyc := scyc }
    { imprecise := true, ended := true }

/-- KILL_DONE (R370): records, GO cleared, and the status of each launch whose strands have all ended. -/
def execKillDone (s : State) : Out :=
  if !s.dev.killctl.getLsbD 31 || killWaits s then .next s
  else
    match s.dev.killing with
    | [] => .next s
    | (_, queue, pkt, _, _, fn) :: _ =>
      let s1 := s.dev.killing.foldl killedRecord s
      let s2 := logRecord s1 ⟨.killDone, .none, 0⟩ (procAt s1 fn queue pkt) {}
      let ls := s2.dev.killedLaunches
      let s3 := s2.setDev { s2.dev with
        killctl := BitVec.ofNat 32 (setBits s2.dev.killctl.toNat 31 1 0), killing := [], killedLaunches := [] }
      .next (ls.foldl launchCheck s3)

end Sys2Proof.Machine
end

