-- ==== Sys2Proof/Machine/Debug.lean ====
section
/-! DEFINITION. Chrysalis stops (R373 to R375), the Cocoon image (R376 to R378, R382), trace samples (R379) and the
bank-conflict matrix (R380). -/

namespace Sys2Proof.Machine

/-! ### Chrysalis -/

/-- CHRYSALIS_STOP_REQUEST (R373): ignored while stopped or while a stop is pending. -/
def execChrysalisStopRequest (s : State) : Out := .next (requestStop s)

/-- A record of the device as a whole goes to the physical function's log (log entry 16). -/
def deviceRecord (s : State) (c : Code) (index : Nat) : State :=
  logRecord s ⟨c, .none, index⟩ (procAt s 0 (openField s 1) (openField s 2)) {}

/-- CHRYSALIS_STOP (R374): the stop edge; DROPS is set to 0 and a STOPPED record is logged. -/
def execChrysalisStop (s : State) : Out :=
  if s.dev.stopPending then
    .next (deviceRecord (s.setDev { s.dev with
      stopPending := false, stopped := true, stopTime := s.dev.devtime
      chryctl := s.dev.chryctl &&& 0x20000000#32 }) .stopped 0)
  else .next s

/-- Armed gangs whose DEADLINE passed during a stop are dropped (R375). -/
def dropLate (s : State) : State :=
  ((s.dev.launches.filter (fun p => p.2.gang = .armed && decisionTick s p.2)).map (·.1)).foldl dropGang s

/-- The device runs on; requests that register writes made during the stop take effect (R374, R375). -/
def resume (s : State) : State :=
  let s1 := settleIv (dropLate (s.setDev { s.dev with stopped := false }))
  if s1.dev.killctl.getLsbD 31 && s1.dev.killing = [] then killStart s1 s1.dev.killctl.toNat else s1

/-- A write of RESUME: ignored while a dump is under way (R373, R382). -/
def resumeWrite (s : State) : State :=
  if s.dev.stopped && !s.dev.cocctl.getLsbD 31 then resume s else s

/-- CHRYSALIS_RESUME (R375). -/
def execChrysalisResume (s : State) : Out := .next (resumeWrite s)

/-- A host write that is discarded, or an AtomicOp that is refused, during a stop is counted; the count saturates
(R373). -/
def countDrop (s : State) : State :=
  let n := bitsOf s.dev.chryctl.toNat 0 16
  s.setDev { s.dev with chryctl := BitVec.ofNat 32 (setBits s.dev.chryctl.toNat 0 16 (min (n + 1) 65535)) }

/-! ### Cocoon -/

/-- GO of COCCTL (R376, R382): ignored when not stopped and while GO reads 1. -/
def cocoonGo (s : State) : State :=
  if s.dev.stopped && !s.dev.cocctl.getLsbD 31 then s.setDev { s.dev with cocctl := s.dev.cocctl ||| 0x80000000#32 } else s

/-- COCOON_DUMP (R377). -/
def execCocoonDump (s : State) : Out := .next (cocoonGo s)

/-- A record of an image: TYPE, UNIT, LEN, REMAIN and the body. -/
structure ImageRec where
  type : Nat
  unit : Nat
  len : Nat
  remain : Nat
  body : ImageBody
deriving DecidableEq, Repr

/-- The bytes of a tile's bank-conflict matrix: 14 rows of 32 counters (R380, R381). -/
def bcmBytes (t : Tile) : List Byte :=
  (List.range 14).flatMap (fun r => leBytes 128 (packElems 32 ((List.range 32).map (bcmAt t r))))

/-- LEN of a context: that of one whose shadow accumulators are untagged, and the elements of each tagged one (R278, R377;
log entry 10). -/
def contextLen (st : Strand) : Nat :=
  Config.contextBytes + 12 * 128 * 128 * ((List.range 4).filter (fun j => (st.accAt (j + 4)).tag ≠ 0)).length

/-- The tile of a strand by its name, 0 for one that has gone and for no strand. -/
def tileUnit (s : State) (uid : Nat) : Nat :=
  match findUid s uid with
  | some (key, _) => key / 2
  | none => 0

/-- Whether an answer goes to a command processor or the planner. -/
def FarFor.ofDevice : FarFor → Bool
  | .proc | .claim _ => true
  | _ => false

/-- UNIT and TYPE of what is on its way: a host row is an in-flight row, of the tile it goes to or of die 0's command processor,
what a peer port holds TYPE 6, what an HBM stack must serve TYPE 7 at the stack's die, and the rest a landing at its tile
(DESIGN CHOICE, log entry 10). -/
def Flight.head (s : State) : Flight → Nat × Nat
  | .atom a => if a.addr < Config.hbmLimit then (512 + stackOf a.addr / 2, 7) else ((a.addr - sharedBase) / 2 ^ 23, 3)
  | .link k => ((k.base - sharedBase) / 2 ^ 23, 3)
  | .setReq r => (tileUnit s r.uid, 3)
  | .setAns a => (tileUnit s a.uid, 3)
  | .far f => if f.port.isSome then (512, 6) else (if f.use.ofDevice then 512 else tileUnit s f.uid, 2)
  | .outer (.peerAccess _ _ _) => (512, 6)
  | .outer _ => (512, 7)

/-- Everything on its way. -/
def flights (s : State) : List Flight :=
  s.dev.far.map .far ++ s.dev.atoms.map .atom ++ s.dev.links.map .link ++ s.dev.setReqs.map .setReq
    ++ s.dev.setAnswers.map .setAns ++ s.dev.outer.map .outer

/-- The records of a unit and a type for what is on its way: an in-flight row has 144 bytes, the other lengths and every
REMAIN are free values. -/
def flightRecords (s : State) (unit type : Nat) : List ImageRec :=
  ((flights s).zipIdx.filter (fun x => x.1.head s = (unit, type))).map (fun x =>
    ⟨type, unit, if type = 2 then 144 else 16 * Config.cocoonUnits (4 + x.2), Config.cocoonRemain x.2, .flight x.1⟩)

/-- The records of a tile: a context for each strand it holds, what is on its way there, then the matrix (R377). A context holds the
contents of a shadow accumulator only where its tag is not 0 (R278). -/
def tileRecords (s : State) (t : Nat) : List ImageRec :=
  ([2 * t, 2 * t + 1].filterMap (fun k => (s.strands.find? k).map (fun st =>
      (⟨1, t, contextLen st, 0, .context (blankShadows st)⟩ : ImageRec))))
    ++ flightRecords s t 2 ++ flightRecords s t 3 ++ [⟨8, t, 1792, 0, .matrix (bcmBytes (s.tile t))⟩]

/-- The die-level records of a die: its command processor's state, on die 0 the planner's requests, and what is on its way
(R377; log entry 10). -/
def dieRecords (s : State) (d : Nat) : List ImageRec :=
  let u := 512 + d
  flightRecords s u 2 ++ ⟨4, u, 16 * Config.cocoonUnits d, 0, .processor s.dev.lseed s.dev.drawing.isSome s.dev.held s.dev.sets⟩ ::
    ((if d = 0 then s.planner.reqs.zipIdx.map (fun x =>
        (⟨5, u, 16 * Config.cocoonUnits (4 + (flights s).length + x.2), Config.cocoonRemain ((flights s).length + x.2),
          .request x.1⟩ : ImageRec)) else [])
      ++ flightRecords s u 6 ++ flightRecords s u 7)

/-- The records of the full image: by die, then tile, then type. -/
def imageRecords (s : State) : List ImageRec :=
  (List.range Config.dies).flatMap (fun d =>
    (List.range 128).flatMap (fun t => tileRecords s (128 * d + t)) ++ dieRecords s d)

/-- Bytes of records with their heads. -/
def imageBytes (rs : List ImageRec) : Nat := (rs.map (fun r => 16 + r.len)).sum

/-- The records that fit before an end, from an offset. -/
def fitting (stop : Nat) : Nat → List ImageRec → List ImageRec
  | _, [] => []
  | o, r :: rs => if o + 16 + r.len ≤ stop then r :: fitting stop (o + 16 + r.len) rs else []

/-- Records written one after another (R377). -/
def sendRecords (s : State) : Nat → List ImageRec → State
  | _, [] => s
  | a, r :: rs => sendRecords (s.send (.imageRecord a r.remain r.len r.unit r.type r.body)) (a + 16 + r.len) rs

/-- The schedule cycle of the bound deterministic launch, all ones if none (R377). Where a stage of a plan run is bound beside the
parked launch that issued it, that is the issuing launch's; a stage that is bound alone is the bound launch itself (R346). -/
def imageScyc (s : State) : Nat :=
  let bound : List (Nat × Launch) := s.dev.launches.filter (fun p => p.2.detHeld)
  match bound.find? (fun p => p.2.stage.isNone), bound with
  | some p, _ => p.2.scyc
  | none, p :: _ => p.2.scyc
  | none, [] => ones64

/-- The header row (R377). -/
def imageHeader (s : State) (status : Nat) (done all : List ImageRec) : Nat :=
  status + 2 ^ 32 + 2 ^ 64 * done.length + 2 ^ 128 * imageBytes all + 2 ^ 192 * imageBytes done
    + 2 ^ 256 * imageScyc s + 2 ^ 320 * s.dev.stopTime.toNat

/-- A dump that ends: its records, its header unless that cannot be written, and STATUS (R378). -/
def dumpOver (s : State) (status : Nat) (done all : List ImageRec) (header : Bool) : State :=
  let base := s.dev.cocbase.toNat
  let s1 := sendRecords s (base + 128) done
  let s2 := if header then sendPieces s1 none (hostPieces base (leBytes 128 (imageHeader s status done all)) 16) else s1
  deviceRecord (s2.setDev { s2.dev with cocctl := BitVec.ofNat 32 status }) .dumped status

/-- COCOON_DUMP_END (R378, R382): the dump stops at the record whose write met an error, counting the whole records before
it; the header is written if it can be. -/
def execCocoonDumpEnd (fate : DumpFate) (s : State) : Out :=
  if !s.dev.cocctl.getLsbD 31 then .next s
  else
    let all := imageRecords s
    let fit := fitting s.dev.coclen.toNat 128 all
    match fate.fail with
    | none => .next (dumpOver s (if !fate.header then 3 else if fit.length = all.length then 1 else 2) fit all fate.header)
    | some n => .next (dumpOver s 3 (fit.take (n - 1)) all fate.header)

/-! ### Trace samples and the bank-conflict matrix -/

/-- The sample record of one sequencer that has not ended (R379). -/
def sampleSeq (s : State) (key : Nat) (st : Strand) (q : Seqr) (ended : Bool) (seqno : Nat) (pc : Word) : State :=
  if ended then s else traceStrand s key st 7 q.code seqno pc.toNat

/-- The sample records of a strand of a plan stage, whose code is the planner's: which of its sequencers have not ended, at least
one, and where they stand are free values (R379; log entry 9). -/
def sampleStage (s : State) (key : Nat) (st : Strand) : State :=
  let v (i : Nat) : Nat := Config.stageSample s.nfree i
  (List.range 4).foldl (fun s q => if v (3 * q) % 2 = 0 || q = v 12 % 4 then
      traceStrand s key st 7 q (v (3 * q + 1)) (v (3 * q + 2)) else s) { s with nfree := s.nfree + 1 }

/-- The sample records of a running strand: one for each sequencer that has not ended. -/
def sampleStrand (s : State) (p : Nat × Strand) : State :=
  let st := p.2
  if isStage s st then sampleStage s p.1 st else
  let s1 := sampleSeq s p.1 st .c st.c.ended st.c.seqno st.c.pc
  let s2 := sampleSeq s1 p.1 st .l st.l.ended st.l.seqno st.l.pc
  let s3 := sampleSeq s2 p.1 st .x st.xs.ended st.xs.seqno st.xs.pc
  sampleSeq s3 p.1 st .s st.ss.ended st.ss.seqno st.ss.pc

/-- TRACE_SAMPLE (R379). -/
def execTraceSample (s : State) : Out :=
  if s.dev.stopped || !s.dev.trcctl.getLsbD 31 || bitsOf s.dev.trcctl.toNat 0 16 = 0 then .next s
  else
    .next ((s.strands.filter (fun p =>
      p.1 % 2 = 0 && p.2.started && p.2.fn = bitsOf s.dev.trcctl.toNat 16 4)).foldl sampleStrand s)

/-- A write of BCCTLt: CLR sets every counter to 0 (R380). -/
def bcWrite (s : State) (tile : Nat) (v : BitVec 32) : State :=
  let t := s.tile tile
  if tile < Config.tiles then
    s.setTile tile { t with bcctl := v &&& 0xB000FFFF#32, bcm := if v.getLsbD 30 then [] else t.bcm }
  else s

/-- BCM_CLEAR (R380). -/
def execBcmClear (tile : Nat) (v : BitVec 32) (s : State) : Out := .next (bcWrite s tile v)

end Sys2Proof.Machine
end

