-- ==== Sys2Proof/Machine/Far.lean ====
section
/-! DEFINITION. Answers from the host and from peers (R108, R115, R357, R393), and rows fetched ahead (R155, R401). -/

namespace Sys2Proof.Machine

/-! ### C -/

/-- The 8 bytes of a row that an address selects (R93). -/
def rowWord (r : Row) (a : Nat) : Nat := rowNat r (a % 128 / 8 * 8) 8

/-- A row that a word of C waited for (R177, R178). -/
def wordRow (s : State) (key : Nat) (st : Strand) (id addr : Nat) (row : Row) : State :=
  match st.c.wait with
  | .cbld n rows (some i) => if i = id then s.setStrand key (st.cStay (.cbld n (rows ++ [row]) none)) else s
  | .packet i => if i = id then s.setStrand key (st.cStay (.gotPacket (halfRow row addr))) else s
  | .readIndex i p w =>
    if i = id then
      s.setStrand key (st.cStay (if slotFree p.size w (rowWord row addr) then .store p w else .launch p w))
    else s
  | _ => s

/-- An atomic's old value for a word of C: the word completes, or LAUNCH takes its claimed index (R166, R178). -/
def atomValue (s : State) (key : Nat) (st : Strand) (id : Nat) (xd : Reg) (old : Nat) : State :=
  let v : Word := BitVec.ofNat 64 old
  match st.c.wait with
  | .answer i => if i = id then s.setStrand key ((st.wx xd v).cNext) else s
  | .claim i p => if i = id then s.setStrand key ((st.wx xd v).cStay (.launch p old)) else s
  | _ => s

/-- Whether C waits for this request. -/
def CWait.awaits (w : CWait) (id : Nat) : Bool :=
  match w with
  | .answer i | .claim i _ | .readIndex i _ _ | .packet i => i = id
  | .cbld _ _ (some i) => i = id
  | _ => false

/-- A request of C answered with an error: its word faults, slot A (R108, R156, R357). -/
def wordError (s : State) (key : Nat) (st : Strand) (id : Nat) (c : Code) : State :=
  if st.c.wait.awaits id then takeFault s key st ⟨c, .a, 0⟩ else s

/-! ### Records, fetches, the command processors and the planner -/

/-- A row that a record waited for. -/
def opRow (s : State) (key : Nat) (st : Strand) (q : Seqr) (n id : Nat) (port : Option Nat) (addr : Nat) (row : Row) : State :=
  match st.findOp q n with
  | none => s
  | some o =>
    runOp key q n runFuel (putOp s key { o with
      fetched := o.fetched ++ [⟨port, rowOf addr, row⟩], waiting := o.waiting.filter (· ≠ id) })

/-- A record's read answered with an error: the record faults at the slot and index of the read. -/
def opError (s : State) (key : Nat) (st : Strand) (q : Seqr) (n id : Nat) (c : Code) (sl : Slot) (ix : Nat) : State :=
  match st.findOp q n with
  | none => s
  | some o =>
    let o1 := { o with waiting := o.waiting.filter (· ≠ id) }
    opFault (putOp s key o1) key o1 ⟨c, sl, ix⟩

/-- Rows a sequencer keeps beside the one it decodes from: 2 for C, 4 for L, X and S (R401). -/
def aheadRows (q : Seqr) : Nat := if q = .c then 2 else 4

/-- Whether a row has a place in a sequencer's window: the one it decodes from and those ahead along its sequential path as far as
R401 allows, and the others given, of a loop's body (R130) or along the targets of branches (R155). Rows that are kept or on their
way are distinct, so that there are never more of them. -/
def inWindow (pc : Word) (q : Seqr) (others : List Nat) (a : Nat) : Bool :=
  (rowOf pc.toNat ≤ a && a ≤ rowOf pc.toNat + 128 * aheadRows q) || others.contains a

/-- A window with a row in it, if the row has a place there (R130, R155, R401). -/
def addRow (pc : Word) (q : Seqr) (others : List Nat) (w : List (Nat × Row)) (a : Nat) (row : Row) : List (Nat × Row) :=
  if inWindow pc q others a && !w.any (fun p => p.1 = a) then
    w ++ [(a, row)]
  else w

/-- The rows that a sequencer fetches beside its sequential path: C along the targets of branches (R155), L, X and S at the body of
a loop (R130). -/
def Strand.sideRows (st : Strand) : Seqr → List Nat
  | .c => targetRows st.c.targets
  | q => ((st.rseq q).bodyRow (st.rseq q).pc).toList

/-- A fetched row arrives at a sequencer. -/
def landRow (st : Strand) (q : Seqr) (a : Nat) (row : Row) : Strand :=
  match q with
  | .c => { st with c := { st.c with window := addRow st.c.pc .c (st.sideRows .c) st.c.window a row } }
  | _ =>
    let r := st.rseq q
    st.setRseq q { r with window := addRow r.pc q (st.sideRows q) r.window a row }

/-- The pc of a sequencer. -/
def Strand.pcOf (st : Strand) : Seqr → Word
  | .c => st.c.pc
  | q => (st.rseq q).pc

/-- The rows a sequencer has fetched. -/
def Strand.windowOf (st : Strand) : Seqr → List (Nat × Row)
  | .c => st.c.window
  | q => (st.rseq q).window

/-- Whether a sequencer fetches the row at an address ahead of need: its window has room for it, and it is not there (R155, R401). -/
def Strand.wantsRow (st : Strand) (q : Seqr) (va : Nat) : Bool :=
  inWindow (st.pcOf q) q (st.sideRows q) (rowOf va) && !(st.windowOf q).any (fun p => p.1 = rowOf va)

/-- Whether a sequencer has ended. -/
def Strand.endedOf (st : Strand) : Seqr → Bool
  | .c => st.c.ended
  | q => (st.rseq q).ended

/-- A fault found in fetching the word or record at a sequencer's pc: precise, with no slot. It is raised when the record
is reached: a sequencer that does not decode now has not reached it, and one on a run-ahead path holds it (R130, R155,
R274). -/
def fetchFault (s : State) (key : Nat) (st : Strand) (q : Seqr) (c : Code) : State :=
  match q with
  | .c => takeFault s key st ⟨c, .none, 0⟩
  | _ => if decodeOpen st q then decodeFault s key st q ⟨c, .none, 0⟩ else s

/-- A fetch answered with an error: a fault if the sequencer of a running strand stands at a word of that row. -/
def fetchError (s : State) (key : Nat) (st : Strand) (q : Seqr) (va : Nat) (c : Code) : State :=
  if key % 2 = 0 && !(s.tile (key / 2)).exchanging && rowOf (st.pcOf q).toNat = rowOf va && !st.endedOf q then fetchFault s key st q c else s

/-- The requests outstanding without one. -/
def dropFar (s : State) (id : Nat) : State :=
  s.setDev { s.dev with far := s.dev.far.filter (fun f => f.id ≠ id) }

/-- The requests outstanding without any of a read, and what has arrived of it forgotten. -/
def dropRead (s : State) (lead : Nat) : State :=
  s.setDev { s.dev with
    far := s.dev.far.filter (fun f => f.lead ≠ lead), parts := s.dev.parts.filter (fun p => p.lead ≠ lead) }

/-- Whether a request is an atomic, whose answer is the old value. -/
def FarFor.isAtomic : FarFor → Bool
  | .atom _ _ _ | .claim _ => true
  | _ => false

/-- Parts of a row in their places. -/
def joinParts : List FarPart → Row
  | [] => 0
  | p :: ps => joinParts ps ||| BitVec.ofNat 1024 (p.word.toNat * 2 ^ (8 * (p.addr % 128)))

/-- An answer's data: those of an atomic or a peer's row at once; eight bytes of a host row once the others of its read have
arrived (R94). -/
def landPart (s : State) (f : FarReq) (data : Row) : State × Option Row :=
  let s1 := dropFar s f.id
  if f.use.isAtomic || f.port.isSome then (s1, some data)
  else
    let ps := ⟨f.lead, f.addr, data.setWidth 64⟩ :: s1.dev.parts
    if s1.dev.far.any (fun g => g.lead = f.lead) then (s1.setDev { s1.dev with parts := ps }, none)
    else (dropRead s1 f.lead, some (joinParts (ps.filter (fun p => p.lead = f.lead))))

/-- A row for a command processor or the planner: none for an error. -/
def procLand (s : State) (f : FarReq) (row : Option Row) : State :=
  let s1 := s.setDev { s.dev with procRows := s.dev.procRows ++ [⟨f.port, rowOf f.addr, row⟩] }
  flushAll s1

/-- The planner's claim answered: the slot of this index is claimed (R332); a run whose strand has been killed since ends with
it, and the slot keeps TYPE 0 (R179, R334). -/
def claimLand (s : State) (run : Nat) (w : Option Nat) : State :=
  match findRun s run with
  | none => s
  | some r => match r.phase, w with
    | .asked _ base size, some v => if r.killed then endRun s r 4 else putRun s { r with phase := .store base size v }
    | _, some _ => s
    | _, none => runLost s r

/-- A request answered with its row; for an atomic, the old value in the low bytes (R107, R108). -/
def farOk (s : State) (f : FarReq) (row : Row) : State :=
  match f.use with
  | .proc => procLand s f (some row)
  | .claim run => claimLand s run (some (rowNat row 0 8))
  | use =>
    match findUid s f.uid with
    | none => s
    | some (key, st) =>
      match use with
      | .load xd a =>
        if st.c.wait = .answer f.lead then s.setStrand key ((st.wx xd (BitVec.ofNat 64 (rowWord row a))).cNext) else s
      | .atom xd k _ => atomValue s key st f.lead xd (rowNat row 0 k.bytes)
      | .word a => wordRow s key st f.lead a row
      | .row q n a _ _ => opRow s key st q n f.lead f.port a row
      | .fetch q va => s.setStrand key (landRow st q (rowOf va) row)
      | _ => s

/-- A request that comes to an error: ATOMIC for an atomic of C or the claim of LAUNCH, otherwise the code given (R108,
R357). -/
def farError (s : State) (f : FarReq) (onAtomic other : Code) : State :=
  match f.use with
  | .proc => procLand s f none
  | .claim run => claimLand s run none
  | use =>
    match findUid s f.uid with
    | none => s
    | some (key, st) =>
      match use with
      | .atom _ _ _ => wordError s key st f.lead onAtomic
      | .row q n _ sl ix => opError s key st q n f.lead other sl ix
      | .fetch q va => fetchError s key st q va other
      | _ => wordError s key st f.lead other

/-- An answer of error: ATOMIC or HOST_ABORT from the host (R108, R357). For a peer's the manual names no code, and the
model takes PEER_DOWN (DESIGN CHOICE, log entry 24). -/
def farRefused (s : State) (f : FarReq) : State :=
  match f.port with
  | none => farError (dropRead s f.lead) f .atomic .hostAbort
  | some _ => farError (dropRead s f.lead) f .peerDown .peerDown

/-- HOST_COMPLETION (R94, R108, R357): an answer to a request of the device; one that is not outstanding is ignored. -/
def execHostCompletion (id : Nat) (status : FarStatus) (data : Row) (s : State) : Out :=
  match s.dev.far.find? (fun f => f.id = id) with
  | none => .next s
  | some f => .next (match status with
    | .success =>
      match landPart s f data with
      | (s1, some row) => farOk s1 f row
      | (s1, none) => s1
    | .error => farRefused s f)

/-! ### Fetching -/

/-- What a fetch of the row at an address comes to. -/
inductive Fetched where
  | row (r : Row) (s : State)
  | fault (c : Code) (s : State)
  /-- the row lies on a host or peer page -/
  | far (port : Option Nat) (addr : Nat)
  | hold
deriving DecidableEq, Repr

/-- The TLB a sequencer fetches through (R113, R130). -/
def fetchTlb (q : Seqr) : Nat := if q = .c then 0 else 7

/-- The sequence number that a sequencer's next word or record takes. -/
def Strand.nextSeqno (st : Strand) : Seqr → Nat
  | .c => st.c.seqno + 1
  | q => (st.rseq q).seqno + 1

/-- A row fetched at an address, with the health of its access: only the global window holds words and records (R130,
R155, R364). -/
def fetchAt (s : State) (key : Nat) (st : Strand) (q : Seqr) (va : Nat) : Fetched :=
  if va ≥ 2 ^ 56 then .fault .address s
  else
    match readRowAt s key (some (fetchTlb q)) va .none 0 [] with
    | .ok (r, s1) =>
      match meetHealth s1 key (s1.strandAt key st) q (st.nextSeqno q) .none 0 false with
      | (s2, some f) => .fault f.code s2
      | (s2, none) => .row r s2
    | .error (.raise f) => .fault f.code s
    | .error (.far port a _ _) => .far port a
    | .error .hold => .hold

/-- A request for a row of a host or peer page that a sequencer needs, unless it is on its way: what its access meets on the
link, if that lasts, and the state. -/
def fetchAsk (s : State) (key : Nat) (st : Strand) (q : Seqr) (va : Nat) (port : Option Nat) (a : Nat) :
    Option Code × State :=
  if s.dev.far.any (fun f => f.uid = st.uid && f.use = .fetch q (rowOf va)) then (none, s)
  else
    match meetHealth s key st q (st.nextSeqno q) .none 0 false with
    | (s1, some f) => (some f.code, s1)
    | (s1, none) => (none, (askRead s1 st.uid port a 128 (.fetch q (rowOf va))).2)

/-- INSTRUCTION_FETCH_RETURN (R155, R401): the row at an address, for which the window of a sequencer has room, is fetched into it;
a fetch ahead that finds nothing does not fault. -/
def execInstructionFetchReturn (tile : Nat) (q : Seqr) (va : Word) (s : State) : Out :=
  let key := runKey tile
  match s.strands.find? key with
  | none => .next s
  | some st =>
    if st.endedOf q || !st.started || !st.wantsRow q va.toNat then .next s
    else
      match fetchAt s key st q va.toNat with
      | .row r s1 => .next (s1.setStrand key (landRow (s1.strandAt key st) q (rowOf va.toNat) r))
      | .fault _ s1 => .next s1
      | .far port a => .next (fetchAsk s key st q va.toNat port a).2
      | _ => .next s

end Sys2Proof.Machine
end

