-- ==== Sys2Proof/Machine/Host.lean ====
section
/-! DEFINITION. The host's and the peers' side: the register window (R8, R389), BAR2 (R387, R388), peers (R393 to R395),
bring-up and reset (R337, R390 to R392), power, cooling and status (R397, R398). -/

namespace Sys2Proof.Machine

/-! ### Register writes -/

/-- QCTLn written by the host (R68): EN with LOGSZ outside 4 to 16 writes nothing; LOGSZ keeps its value while EN
reads 1. -/
def qctlHost (s : State) (n : Nat) (v : BitVec 32) : State :=
  if !qctlOk v.toNat then s
  else
    let v1 := (v &&& 0x9FF0FFFF#32).toNat
    let v2 := if queueEn s.dev n then setBits v1 24 5 (queueLogsz s.dev n) else v1
    s.setDev { s.dev with qctl := cellSet 0 s.dev.qctl n (BitVec.ofNat 32 v2) }

/-- QBASEn written by the host: it keeps its value while EN reads 1 (R68). -/
def qbaseHost (s : State) (n : Nat) (v : Word) : State :=
  if queueEn s.dev n then s else s.setDev { s.dev with qbase := cellSet 0 s.dev.qbase n (v &&& ~~~127#64) }

/-- PWRCTL: the cap is clamped to 600 to 2400 W (R398). -/
def pwrHost (s : State) (v : BitVec 32) : State :=
  s.setDev { s.dev with pwrctl := BitVec.ofNat 32 (min (max (bitsOf v.toNat 0 12) 600) 2400) }

/-- LINKMAP: bit f changes only while no queue of function f is enabled (R386). -/
def linkHost (s : State) (v : BitVec 32) : State :=
  let busy (f : Nat) : Bool := s.dev.qctl.any (fun c => queueEn s.dev c.1 && queueFn s.dev c.1 = f)
  s.setDev { s.dev with linkmap := BitVec.ofNat 32 ((List.range 16).map (fun f =>
    if (if busy f then s.dev.linkmap.getLsbD f else v.getLsbD f) then 2 ^ f else 0)).sum }

/-- CHRYCTL: FSTOP is stored; STOP requests a stop, RESUME resumes (R373). -/
def chryHost (s : State) (v : BitVec 32) : State :=
  let s1 := s.setDev { s.dev with
    chryctl := BitVec.ofNat 32 (setBits s.dev.chryctl.toNat 29 1 (bitsOf v.toNat 29 1)) }
  if s1.dev.stopped then (if v.getLsbD 30 then resumeWrite s1 else s1)
  else if v.getLsbD 31 then requestStop s1 else s1

/-- BPCFGn: a MATCH of 3 is ignored in its field (R371). -/
def bpcfgHost (s : State) (n : Nat) (v : BitVec 32) : State :=
  let m := if bitsOf v.toNat 28 2 = 3 then bitsOf (vget s.dev.bpcfg n) 28 2 else bitsOf v.toNat 28 2
  s.setDev { s.dev with
    bpcfg := vset s.dev.bpcfg n (BitVec.ofNat 32 (setBits (v &&& 0xC00000FF#32).toNat 28 2 m)) }

/-- DEVSTAT: LOGERR is cleared by a 1 (R398). -/
def devstatHost (s : State) (v : BitVec 32) : State :=
  if v.getLsbD 28 then s.setDev { s.dev with devstat := s.dev.devstat &&& 0xEFFFFFFF#32 } else s

/-- The log, trace and page-request bases of a function: 0 FLTBASE, 1 TRCBASE, 2 PRQBASE. -/
def baseHost (s : State) (which fn : Nat) (v : Word) : State :=
  let w := v &&& ~~~127#64
  match which with
  | 0 => s.setDev { s.dev with fltbase := vset s.dev.fltbase fn w }
  | 1 => s.setDev { s.dev with trcbase := vset s.dev.trcbase fn w }
  | _ => s.setDev { s.dev with prqbase := vset s.dev.prqbase fn w }

/-- A write of a function's own slot at an offset below 0x1000 (R389). -/
def ownWrite (s : State) (fn off : Nat) (v : Word) : State :=
  let h : BitVec 32 := v.setWidth 32
  match off with
  | 0x0010 => devstatHost s h
  | 0x0018 => if fn = 0 then pwrHost s h else s
  | 0x0100 => baseHost s 0 fn v
  | 0x0108 => baseHost s 1 fn v
  | 0x0110 => baseHost s 2 fn v
  | 0x0118 => prqWrite s fn v
  | _ => s

/-- A write of a single register of the physical function (R389). -/
def pfWrite (s : State) (off : Nat) (v : Word) : State :=
  let h : BitVec 32 := v.setWidth 32
  match off with
  | 0x2000 => s.setDev { s.dev with lseed := if v = 0 then 1 else v }
  | 0x2008 => s.setDev { s.dev with quantum := if h = 0 then 1 else h }
  | 0x2010 => s.setDev { s.dev with ivaddr := v &&& ~~~0xFFFF#64 }
  | 0x2018 => s.setDev { s.dev with ivlen := v &&& ~~~0xFFFF#64 }
  | 0x2020 => ivWrite s h
  | 0x2028 => s.setDev { s.dev with sattrbase := v &&& ~~~0x3FFF#64 }
  | 0x2030 => s.setDev { s.dev with ivlimit := if h = 0 then 1 else h }
  | 0x2038 => swapWrite s h
  | 0x2040 => killWrite s h
  | 0x2048 => s.setDev { s.dev with killpkt := v }
  | 0x2050 => if h.getLsbD 31 then bpResume s else s
  | 0x20A0 => chryHost s h
  | 0x20A8 => s.setDev { s.dev with cocbase := v &&& ~~~0x7F#64 }
  | 0x20B0 => s.setDev { s.dev with coclen := v &&& ~~~0x7F#64 }
  | 0x20B8 => if h.getLsbD 31 then cocoonGo s else s
  | 0x20C0 => s.setDev { s.dev with trcctl := h &&& 0x800FFFFF#32 }
  | 0x20C8 => linkHost s h
  | 0x20D0 => s.setDev { s.dev with peerfn := h }
  | 0x20D8 => prqWrite s (bitsOf v.toNat 33 4) v
  | _ => s

/-- A write of an array of registers of the physical function (R389). -/
def pfArray (s : State) (off : Nat) (v : Word) : State :=
  let h : BitVec 32 := v.setWidth 32
  let i (base : Nat) : Nat := (off - base) / 8
  if 0x1000 ≤ off && off < 0x1800 then qbaseHost s (i 0x1000) v
  else if 0x1800 ≤ off && off < 0x2000 then qctlHost s (i 0x1800) h
  else if 0x2060 ≤ off && off < 0x2080 then
    s.setDev { s.dev with bpaddr := vset s.dev.bpaddr (i 0x2060) (v &&& ~~~0x3F#64) }
  else if 0x2080 ≤ off && off < 0x20A0 then bpcfgHost s (i 0x2080) h
  else if 0x2100 ≤ off && off < 0x2180 then
    s.setDev { s.dev with ptbase := vset s.dev.ptbase (i 0x2100) (v &&& ~~~0x7FF#64) }
  else if 0x2180 ≤ off && off < 0x2200 then baseHost s 0 (i 0x2180) v
  else if 0x2200 ≤ off && off < 0x2280 then baseHost s 1 (i 0x2200) v
  else if 0x2280 ≤ off && off < 0x2300 then baseHost s 2 (i 0x2280) v
  else if 0x2300 ≤ off && off < 0x2380 then
    s.setDev { s.dev with hwin := vset s.dev.hwin (i 0x2300) (v &&& ~~~0xFFFFFFFFF#64) }
  else if 0x3000 ≤ off && off < 0x4000 then bcWrite s (i 0x3000) h
  else pfWrite s off v

/-- A host write of the BAR0 slot at an offset; offsets that the table does not list, and those from 0x1000 in a virtual
function, ignore it (R389). -/
def barWrite (s : State) (fn off : Nat) (v : Word) : State :=
  if off % 8 ≠ 0 then s
  else if off < 0x1000 then ownWrite s fn off v
  else if fn = 0 then pfArray s off v
  else s

/-- REGISTER_WRITE (R8, R389). -/
def execRegisterWrite (link : BitVec 1) (fn : BitVec 4) (off : Nat) (v : Word) (s : State) : Out :=
  if onLink s.dev link fn.toNat then .next (barWrite s fn.toNat off v) else .next (s.send .unsupported)

/-- QCTL_WRITE (R68). -/
def execQctlWrite (n : BitVec 8) (v : BitVec 32) (s : State) : Out := .next (qctlHost s n.toNat v)

/-- QBASE_WRITE (R68). -/
def execQbaseWrite (n : BitVec 8) (v : Word) (s : State) : Out := .next (qbaseHost s n.toNat v)

/-- PWRCTL_WRITE (R398). -/
def execPwrctlWrite (v : BitVec 32) (s : State) : Out := .next (pwrHost s v)

/-! ### Register reads -/

/-- What a function's own slot reads as (R389). -/
def ownRead (s : State) (fn off : Nat) : Nat :=
  if 0x20 ≤ off && off < 0x60 && off % 8 = 0 then bitsOf s.dev.tilefail.toNat ((off - 0x20) * 8) 64
  else
    match off with
    | 0x0000 => readyWord s.dev
    | 0x0008 => s.dev.devtime.toNat
    | 0x0010 => s.dev.devstat.toNat
    | 0x0018 => s.dev.pwrctl.toNat
    | 0x0100 => vget s.dev.fltbase fn
    | 0x0108 => vget s.dev.trcbase fn
    | 0x0110 => vget s.dev.prqbase fn
    | _ => 0

/-- What a single register of the physical function reads as. -/
def pfRead (s : State) (off : Nat) : Nat :=
  match off with
  | 0x2000 => s.dev.lseed.toNat
  | 0x2008 => s.dev.quantum.toNat
  | 0x2010 => s.dev.ivaddr.toNat
  | 0x2018 => s.dev.ivlen.toNat
  | 0x2020 => setBits s.dev.ivctl.toNat 31 1 (if s.dev.ivpending.isEmpty then 0 else 1)
  | 0x2028 => s.dev.sattrbase.toNat
  | 0x2030 => s.dev.ivlimit.toNat
  | 0x2038 => s.dev.swapreq.toNat
  | 0x2040 => s.dev.killctl.toNat
  | 0x2048 => s.dev.killpkt.toNat
  | 0x2050 => s.dev.bpstat.toNat
  | 0x20A0 => setBits s.dev.chryctl.toNat 31 1 s.dev.stopped.toNat
  | 0x20A8 => s.dev.cocbase.toNat
  | 0x20B0 => s.dev.coclen.toNat
  | 0x20B8 => s.dev.cocctl.toNat
  | 0x20C0 => s.dev.trcctl.toNat
  | 0x20C8 => s.dev.linkmap.toNat
  | 0x20D0 => s.dev.peerfn.toNat
  | _ => 0

/-- What the BAR0 slot at an offset reads as for a function: registers that are write-only, offsets not listed, and those
from 0x1000 in a virtual function read 0 (R7, R389). Reading changes nothing. -/
def barRead (s : State) (fn off : Nat) : Nat :=
  let i (base : Nat) : Nat := (off - base) / 8
  if off % 8 ≠ 0 then 0
  else if off < 0x1000 then ownRead s fn off
  else if fn ≠ 0 then 0
  else if off < 0x1800 then queueBase s.dev (i 0x1000)
  else if off < 0x2000 then (cellGet (0 : BitVec 32) s.dev.qctl (i 0x1800)).toNat
  else if 0x2060 ≤ off && off < 0x2080 then vget s.dev.bpaddr (i 0x2060)
  else if 0x2080 ≤ off && off < 0x20A0 then vget s.dev.bpcfg (i 0x2080)
  else if 0x2100 ≤ off && off < 0x2180 then vget s.dev.ptbase (i 0x2100)
  else if 0x2180 ≤ off && off < 0x2200 then vget s.dev.fltbase (i 0x2180)
  else if 0x2200 ≤ off && off < 0x2280 then vget s.dev.trcbase (i 0x2200)
  else if 0x2280 ≤ off && off < 0x2300 then vget s.dev.prqbase (i 0x2280)
  else if 0x2300 ≤ off && off < 0x2380 then vget s.dev.hwin (i 0x2300)
  else if 0x3000 ≤ off && off < 0x4000 then (s.tile (i 0x3000)).bcctl.toNat
  else pfRead s off

/-! ### BAR2 -/

/-- The pieces of a request, one for each row it touches: address and length (R388). -/
def rowPieces : Nat → Nat → Nat → List (Nat × Nat)
  | 0, _, _ => []
  | fuel + 1, a, n =>
    if n = 0 then []
    else
      let k := min n (128 - a % 128)
      (a, k) :: rowPieces fuel (a + k) (n - k)

/-- The memory key of an address in a function's space for the host or a peer: only HBM pages are served (R387,
R393). -/
def outerKey (s : State) (fn va : Nat) (write : Bool) : Res Nat :=
  match procTarget s fn va write with
  | .error e => .error e
  | .ok (.cell k) => if stackReady s.dev.ready k then .ok k else .error .hold
  | .ok _ => raiseAt .address .none 0

/-- The keys of the pieces of a request. -/
def outerKeys (s : State) (fn : Nat) (write : Bool) : List (Nat × Nat) → Res (List (Nat × Nat))
  | [] => .ok []
  | (a, n) :: rest =>
    match outerKey s fn a write, outerKeys s fn write rest with
    | .ok k, .ok ks => .ok ((k, n) :: ks)
    | .error .hold, _ => .error .hold
    | .error e, .error .hold => .error (match e with
        | .raise _ => .hold
        | e => e)
    | .error e, _ => .error e
    | _, .error e => .error e

/-- The address of an offset in BAR2 (R387). -/
def barAddr (s : State) (fn off : Nat) : Nat := (vget s.dev.hwin fn + off) % 2 ^ 64

/-- The record of a host access that cannot be served (R387). -/
def hostFault (s : State) (fn : Nat) : State :=
  logRecord s ⟨.address, .none, 0⟩ (procAt s fn (openField s 1) (openField s 2)) {}

/-- Whose requests are served in their order: a function's of the host, or a peer port's (R388). -/
def outerSource : Instr → Option (Bool × Nat)
  | .hostRead _ fn _ _ => some (false, fn.toNat)
  | .hostWrite _ fn _ _ => some (false, fn.toNat)
  | .hostAtomicop _ fn _ _ _ _ => some (false, fn.toNat)
  | .peerAccess port _ _ => some (true, port.toNat)
  | _ => none

/-- Whether a request is a write of the host. -/
def isHostWrite : Instr → Bool
  | .hostWrite _ _ _ _ => true
  | _ => false

/-- Whether a held request keeps a later one waiting: one of its own source does, and writes of the host are performed in the
order in which they came, whatever their function (R388, R391). -/
def outerBehind (s : State) (i : Instr) : Bool :=
  s.dev.outer.any (fun j => outerSource j = outerSource i || (isHostWrite i && isHostWrite j))

/-- A request held until the stack it needs is trained (R391). -/
def holdOuter (s : State) (i : Instr) : State := s.setDev { s.dev with outer := s.dev.outer ++ [i] }

/-- A host read of memory served. -/
def serveRead (i : Instr) (fn off n : Nat) (s : State) : State :=
  match outerKeys s fn false (rowPieces n (barAddr s fn off) n) with
  | .ok ks => (outerMeet s fn false).send (.readDone (ks.flatMap (fun k => readBytes s.mem k.1 k.2)))
  | .error .hold => holdOuter s i
  | .error _ => (hostFault s fn).send .unsupported

/-- HOST_READ (R386 to R389): a register of BAR0, or memory through BAR2; held while a row's stack is untrained; served from
the frozen contents during a stop, whatever is held. -/
def execHostRead (link : BitVec 1) (fn : BitVec 4) (place : BarPlace) (n : Nat) (s : State) : Out :=
  let i := Instr.hostRead link fn place n
  if !onLink s.dev link fn.toNat then .next (s.send .unsupported)
  else match place with
    | .reg off => .next (s.send (.readDone ((leBytes 8 (barRead s fn.toNat off)).take n)))
    | .mem off =>
      if outerBehind s i && !s.dev.stopped then .next (holdOuter s i)
      else .next (serveRead i fn.toNat off n s)

/-- Bytes written piece by piece, each one row operation (R388). -/
def writePieces (m : List Host.Cell) : List (Nat × Nat) → List Byte → List Host.Cell
  | [], _ => m
  | (k, n) :: rest, bs => writePieces (writeBytes m k (bs.take n)) rest (bs.drop n)

/-- A host write served. -/
def serveWrite (i : Instr) (fn off : Nat) (bytes : List Byte) (s : State) : State :=
  match outerKeys s fn true (rowPieces bytes.length (barAddr s fn off) bytes.length) with
  | .ok ks => outerMeet (s.setMem (writePieces s.mem ks bytes)) fn true
  | .error .hold => holdOuter s i
  | .error _ => hostFault s fn

/-- HOST_WRITE (R374, R387, R388, R391): discarded and counted during a stop; held while a row's stack is untrained. -/
def execHostWrite (link : BitVec 1) (fn : BitVec 4) (off : Nat) (bytes : List Byte) (s : State) : Out :=
  let i := Instr.hostWrite link fn off bytes
  if !onLink s.dev link fn.toNat then .next (s.send .unsupported)
  else if s.dev.stopped then .next (countDrop s)
  else if outerBehind s i then .next (holdOuter s i)
  else .next (serveWrite i fn.toNat off bytes s)

/-- The atomic of an AtomicOp (R388). -/
def HostAtomic.kind : HostAtomic → AtomKind
  | .fetchAdd => .add
  | .swap => .xchg
  | .cas => .cas

/-- A host AtomicOp served. -/
def serveAtomic (i : Instr) (fn : Nat) (op : HostAtomic) (off : Nat) (v expected : Word) (s : State) : State :=
  match outerKey s fn (barAddr s fn off) true with
  | .ok k =>
    let (old, m) := atomicMem s.mem (HostAtomic.kind op) k v.toNat expected.toNat
    (outerMeet (s.setMem m) fn false).send (.atomicDone (BitVec.ofNat 64 old))
  | .error .hold => holdOuter s i
  | .error _ => (hostFault s fn).send .unsupported

/-- HOST_ATOMICOP (R188, R374, R387, R388, R391): refused and counted during a stop; held while the row's stack is
untrained. -/
def execHostAtomicop (link : BitVec 1) (fn : BitVec 4) (op : HostAtomic) (off : Nat) (v expected : Word) (s : State) :
    Out :=
  let i := Instr.hostAtomicop link fn op off v expected
  if !onLink s.dev link fn.toNat then .next (s.send .unsupported)
  else if s.dev.stopped then .next ((countDrop s).send .abort)
  else if outerBehind s i then .next (holdOuter s i)
  else .next (serveAtomic i fn.toNat op off v expected s)

/-! ### Peers -/

/-- The atomic of a peer's request by its number (R107). -/
def peerKind (k : BitVec 4) : Option AtomKind :=
  match k.toNat with
  | 0 => some .add
  | 1 => some .min
  | 2 => some .max
  | 3 => some .minu
  | 4 => some .maxu
  | 5 => some .xchg
  | 6 => some .cas
  | 7 => some .fadd32
  | 8 => some .fadd16
  | _ => none

/-- Bytes of a row written where the mask says so. -/
def maskedWrite (m : List Host.Cell) (k : Nat) (row : Row) (mask : BitVec 128) : List Host.Cell :=
  (List.range 128).foldl (fun m i =>
    if mask.getLsbD i then writeByte m (rowOf k + i) (BitVec.ofNat 8 (rowNat row i 1)) else m) m

/-- Whether a peer's access writes. -/
def PeerOp.writes : PeerOp → Bool
  | .read => false
  | _ => true

/-- A peer's access performed at its row (R92, R107, R393). -/
def peerPerform (s : State) (fn port k : Nat) (op : PeerOp) : State :=
  match op with
  | .read => (outerMeet s fn false).send (.peerDone port (some (readRow s.mem k)))
  | .write row mask => outerMeet (s.setMem (maskedWrite s.mem k row mask)) fn true
  | .atomic kind v expected =>
    match peerKind kind with
    | some a =>
      let (old, m) := atomicMem s.mem a k v.toNat expected.toNat
      (outerMeet (s.setMem m) fn false).send (.peerDone port (some (BitVec.ofNat 1024 old)))
    | none => s.send (.peerDone port none)

/-- A peer's access served: translated in the space of the function that PEERFN names; refused with an error status where
that fails (R393). -/
def servePeer (i : Instr) (port : Nat) (va : Word) (op : PeerOp) (s : State) : State :=
  let fn := bitsOf s.dev.peerfn.toNat (4 * port) 4
  match outerKey s fn va.toNat (PeerOp.writes op) with
  | .ok k => peerPerform s fn port k op
  | .error .hold => holdOuter s i
  | .error _ => s.send (.peerDone port none)

/-- PEER_ACCESS (R391, R393): held while the row's stack is untrained. None arrives during a stop (R374). -/
def execPeerAccess (port : BitVec 3) (va : Word) (op : PeerOp) (s : State) : Out :=
  let i := Instr.peerAccess port va op
  if s.dev.stopped || !s.dev.ready.getLsbD (15 + port.toNat) then .next s
  else if outerBehind s i then .next (holdOuter s i)
  else .next (servePeer i port.toNat va op s)

/-- A held request tried again, behind those before it that are held still. -/
def tryOuter (s : State) (i : Instr) : State :=
  if outerBehind s i then holdOuter s i
  else match i with
    | .hostRead _ fn (.mem off) n => serveRead i fn.toNat off n s
    | .hostWrite _ fn off bytes => serveWrite i fn.toNat off bytes s
    | .hostAtomicop _ fn op off v x => serveAtomic i fn.toNat op off v x s
    | .peerAccess port va op => servePeer i port.toNat va op s
    | _ => s

/-- The held requests tried again in their order (R391). -/
def flushOuter (s : State) : State := s.dev.outer.foldl tryOuter (s.setDev { s.dev with outer := [] })

/-- A READY bit set or cleared. -/
def setReady (s : State) (i : Nat) (on : Bool) : State :=
  s.setDev { s.dev with ready := BitVec.ofNat 32 (setBits s.dev.ready.toNat i 1 on.toNat) }

/-- A peer port trains: the device sends its beacon, and DEVTIME takes the maximum of its own value and the partner's with the
delay added (R390, R395). -/
def trainPort (s : State) (port : BitVec 3) (devtime delay : Word) : State :=
  let s1 := (setReady s (15 + port.toNat) true).send (.beacon port.toNat s.dev.devtime)
  s1.setDev { s1.dev with
    devtime := BitVec.ofNat 64 (max s1.dev.devtime.toNat (min (devtime.toNat + delay.toNat) (2 ^ 64 - 1))) }

/-- PEER_PORT_TRAIN (R390, R395). -/
def execPeerPortTrain (port : BitVec 3) (devtime delay : Word) (s : State) : Out := .next (trainPort s port devtime delay)

/-- Requests outstanding at a port that has gone down come to PEER_DOWN. -/
def downRequests (s : State) : List FarReq → State
  | [] => s
  | f :: rest => downRequests (farError (dropRead s f.lead) f .peerDown .peerDown) rest

/-- PEER_PORT_DOWN (R82, R391): the READY bit clears, committed gangs with a partner there are lost, and requests
outstanding there fail. -/
def execPeerPortDown (port : BitVec 3) (s : State) : Out :=
  let s1 := setReady s (15 + port.toNat) false
  let lost := (s1.dev.launches.filter (fun p =>
    p.2.gang = .committed && (pkPorts p.2.packet).testBit port.toNat)).map (·.1)
  let s2 := lost.foldl gangLost s1
  .next (downRequests s2 (s2.dev.far.filter (fun f => f.port = some port.toNat)))

/-! ### Bring-up and reset -/

/-- RESET (R337 and the reset values of the register statements): memory and the tiles' slices keep their contents; what
the model itself adds goes on. -/
def execReset (s : State) : Out :=
  .next { State.reset with
    mem := s.mem
    agenda := s.agenda
    turn := s.turn
    nfree := s.nfree
    outbox := s.outbox
    records := s.records
    dev := { Device.reset with
      nextUid := s.dev.nextUid, nextId := s.dev.nextId, nextLaunch := s.dev.nextLaunch, nextTag := s.dev.nextTag } }

/-- The READY bit of a part (R390). -/
def Part.bit : Part → Nat
  | .die d => d.toNat
  | .planner => 4
  | .hbm h => 5 + h.toNat
  | .link l => 13 + l.toNat
  | .peer p _ _ => 15 + p.toNat

/-- What waited for a part goes on: ring records, statuses, and requests of the host and of peers (R391). -/
def flushHeld (s : State) : State :=
  let s1 := flushStatuses (flushAll s)
  flushOuter (settleIv s1)

/-- PART_READY (R390 to R392): a die's TILEFAIL bits are final when its bit sets; a stack's row accesses go on; a peer port
trains. -/
def execPartReady (part : Part) (failed : BitVec 128) (s : State) : Out :=
  let s1 := match part with
    | .die d =>
      if s.dev.ready.getLsbD d.toNat then s
      else s.setDev { s.dev with
        tilefail := BitVec.ofNat 512 (setBits s.dev.tilefail.toNat (128 * d.toNat) 128 failed.toNat) }
    | _ => s
  .next (match part with
    | .peer p devtime delay => trainPort s1 p devtime delay
    | _ => flushHeld (setReady s1 (Part.bit part) true))

/-! ### Power and cooling -/

/-- The clocks stop and both host links drop (R397). -/
def shutDown (s : State) : State :=
  let s1 := setReady (setReady s 13 false) 14 false
  s1.setDev { s1.dev with shutdown := true }

/-- What the power controller finds: the clock is low while the power exceeds the cap or a junction is at 95 °C; the
registers show it (R397, R398). -/
def measure (s : State) (temp : Nat) (power : BitVec 12) : State :=
  let hot : Bool := 95 ≤ temp
  let low : Bool := hot || bitsOf s.dev.pwrctl.toNat 0 12 < power.toNat
  s.setDev { s.dev with
    devstat := BitVec.ofNat 32 (bitsOf s.dev.devstat.toNat 28 2 * 2 ^ 28 + low.toNat * 2 ^ 31 + hot.toNat * 2 ^ 30
      + temp * 2 ^ 12 + power.toNat) }

/-- POWER_THROTTLE (R397, R398): at 105 °C the clocks stop. -/
def execPowerThrottle (dies hbm rest : BitVec 8) (power : BitVec 12) (s : State) : Out :=
  let temp := max dies.toNat (max hbm.toNat rest.toNat)
  .next (if 105 ≤ temp then shutDown (measure s temp power) else measure s temp power)

/-- THERMAL_SHUTDOWN (R397). -/
def execThermalShutdown (s : State) : Out := .next (shutDown s)

/-- COOLANT_ENVELOPE_CHANGE (R398). -/
def execCoolantEnvelopeChange (outside : Bool) (s : State) : Out :=
  .next (s.setDev { s.dev with devstat := BitVec.ofNat 32 (setBits s.dev.devstat.toNat 29 1 outside.toNat) })

end Sys2Proof.Machine
end

