-- ==== Sys2Proof/Machine/Records.lean ====
section
/-! DEFINITION. The records by name (R141): each is decoded by its sequencer, and takes effect through its own engine or in
the sequencer itself. What one issue of it does stands under its name in Move, Vector, Matrix and Attn. -/

namespace Sys2Proof.Machine

/-- COPY (R198). -/
def execCopy (r : Rec) (s : State) : Out := engineRec (.copy r) r s

/-- COPYF (R198). -/
def execCopyf (r : Rec) (s : State) : Out := engineRec (.copyf r) r s

/-- RLD (R199). -/
def execRld (r : Rec) (s : State) : Out := engineRec (.rld r) r s

/-- RST (R200). -/
def execRst (r : Rec) (s : State) : Out := engineRec (.rst r) r s

/-- TLD (R201). -/
def execTld (r : Rec) (s : State) : Out := engineRec (.tld r) r s

/-- KLD (R202). -/
def execKld (r : Rec) (s : State) : Out := engineRec (.kld r) r s

/-- GATHER (R203). -/
def execGather (r : Rec) (s : State) : Out := engineRec (.gather r) r s

/-- SCATTER (R203). -/
def execScatter (r : Rec) (s : State) : Out := engineRec (.scatter r) r s

/-- RMERGE (R205). -/
def execRmerge (r : Rec) (s : State) : Out := mergeRec (.rmerge r) r s

/-- BQPUSH (R206). -/
def execBqpush (r : Rec) (s : State) : Out := mergeRec (.bqpush r) r s

/-- RQLD (R207). -/
def execRqld (r : Rec) (s : State) : Out := engineRec (.rqld r) r s

/-- LOOP (R209). -/
def execLoop (r : Rec) (s : State) : Out := loopRec (.loop r) r s

/-- LOOPQ (R209). -/
def execLoopq (r : Rec) (s : State) : Out := loopqRec (.loopq r) r s

/-- ENDL (R210). -/
def execEndl (r : Rec) (s : State) : Out := endlRec (.endl r) r s

/-- ROT (R211). -/
def execRot (r : Rec) (s : State) : Out := rotRec (.rot r) r s

/-- DRAIN_RECORD (R212). -/
def execDrainRec (r : Rec) (s : State) : Out := drainRec (.drainRec r) r s

/-- TLWAIT_RECORD (R212). -/
def execTlwaitRec (r : Rec) (s : State) : Out := tlwaitRec (.tlwaitRec r) r s

/-- SYNC (R212). -/
def execSync (r : Rec) (s : State) : Out := syncRec (.sync r) r s

/-- END_RECORD (R213). -/
def execEndRec (r : Rec) (s : State) : Out := endRecord (.endRec r) r s

/-- BRQ (R273). -/
def execBrq (r : Rec) (s : State) : Out := brqRec (.brq r) r s

/-- VADD (R229). -/
def execVadd (r : Rec) (s : State) : Out := engineRec (.vadd r) r s

/-- VSUB (R229). -/
def execVsub (r : Rec) (s : State) : Out := engineRec (.vsub r) r s

/-- VMUL (R229). -/
def execVmul (r : Rec) (s : State) : Out := engineRec (.vmul r) r s

/-- VFMA (R229). -/
def execVfma (r : Rec) (s : State) : Out := engineRec (.vfma r) r s

/-- VDIV (R229). -/
def execVdiv (r : Rec) (s : State) : Out := engineRec (.vdiv r) r s

/-- VMIN (R229). -/
def execVmin (r : Rec) (s : State) : Out := engineRec (.vmin r) r s

/-- VMAX (R229). -/
def execVmax (r : Rec) (s : State) : Out := engineRec (.vmax r) r s

/-- VABS (R229). -/
def execVabs (r : Rec) (s : State) : Out := engineRec (.vabs r) r s

/-- VNEG (R229). -/
def execVneg (r : Rec) (s : State) : Out := engineRec (.vneg r) r s

/-- VEXP (R230). -/
def execVexp (r : Rec) (s : State) : Out := engineRec (.vexp r) r s

/-- VLOG (R230). -/
def execVlog (r : Rec) (s : State) : Out := engineRec (.vlog r) r s

/-- VRCP (R230). -/
def execVrcp (r : Rec) (s : State) : Out := engineRec (.vrcp r) r s

/-- VRSQ (R230). -/
def execVrsq (r : Rec) (s : State) : Out := engineRec (.vrsq r) r s

/-- VTANH (R230). -/
def execVtanh (r : Rec) (s : State) : Out := engineRec (.vtanh r) r s

/-- VSIGM (R230). -/
def execVsigm (r : Rec) (s : State) : Out := engineRec (.vsigm r) r s

/-- VCMP (R231). -/
def execVcmp (r : Rec) (s : State) : Out := engineRec (.vcmp r) r s

/-- VSEL (R232). -/
def execVsel (r : Rec) (s : State) : Out := engineRec (.vsel r) r s

/-- VCVT (R233). -/
def execVcvt (r : Rec) (s : State) : Out := engineRec (.vcvt r) r s

/-- VRSUM (R234). -/
def execVrsum (r : Rec) (s : State) : Out := engineRec (.vrsum r) r s

/-- VRMAX (R236). -/
def execVrmax (r : Rec) (s : State) : Out := engineRec (.vrmax r) r s

/-- VRMIN (R236). -/
def execVrmin (r : Rec) (s : State) : Out := engineRec (.vrmin r) r s

/-- VSCAN (R237). -/
def execVscan (r : Rec) (s : State) : Out := engineRec (.vscan r) r s

/-- VTOPK (R238). -/
def execVtopk (r : Rec) (s : State) : Out := engineRec (.vtopk r) r s

/-- VDROP (R239). -/
def execVdrop (r : Rec) (s : State) : Out := engineRec (.vdrop r) r s

/-- VAND (R240). -/
def execVand (r : Rec) (s : State) : Out := engineRec (.vand r) r s

/-- VOR (R240). -/
def execVor (r : Rec) (s : State) : Out := engineRec (.vor r) r s

/-- VXOR (R240). -/
def execVxor (r : Rec) (s : State) : Out := engineRec (.vxor r) r s

/-- VNOT (R240). -/
def execVnot (r : Rec) (s : State) : Out := engineRec (.vnot r) r s

/-- VSHL (R240). -/
def execVshl (r : Rec) (s : State) : Out := engineRec (.vshl r) r s

/-- VSHR (R240). -/
def execVshr (r : Rec) (s : State) : Out := engineRec (.vshr r) r s

/-- VBAND (R242). -/
def execVband (r : Rec) (s : State) : Out := engineRec (.vband r) r s

/-- VPOPC (R243). -/
def execVpopc (r : Rec) (s : State) : Out := engineRec (.vpopc r) r s

/-- VISECT (R244). -/
def execVisect (r : Rec) (s : State) : Out := engineRec (.visect r) r s

/-- VCLMUL (R241). -/
def execVclmul (r : Rec) (s : State) : Out := engineRec (.vclmul r) r s

/-- VCOMP (R245). -/
def execVcomp (r : Rec) (s : State) : Out := engineRec (.vcomp r) r s

/-- VEXPAND (R245). -/
def execVexpand (r : Rec) (s : State) : Out := engineRec (.vexpand r) r s

/-- VCOPY (R246). -/
def execVcopy (r : Rec) (s : State) : Out := engineRec (.vcopy r) r s

/-- VFILL (R246). -/
def execVfill (r : Rec) (s : State) : Out := engineRec (.vfill r) r s

/-- VIOTA (R246). -/
def execViota (r : Rec) (s : State) : Out := engineRec (.viota r) r s

/-- VSQRT (R230). -/
def execVsqrt (r : Rec) (s : State) : Out := engineRec (.vsqrt r) r s

/-- MMA (R260). -/
def execMma (r : Rec) (s : State) : Out := engineRec (.mma r) r s

/-- MMANM (R261). -/
def execMmanm (r : Rec) (s : State) : Out := engineRec (.mmanm r) r s

/-- MMACB (R262). -/
def execMmacb (r : Rec) (s : State) : Out := engineRec (.mmacb r) r s

/-- MMAG (R263). -/
def execMmag (r : Rec) (s : State) : Out := engineRec (.mmag r) r s

/-- MMAK (R264). -/
def execMmak (r : Rec) (s : State) : Out := engineRec (.mmak r) r s

/-- AZERO (R265). -/
def execAzero (r : Rec) (s : State) : Out := engineRec (.azero r) r s

/-- AWRQ (R266). -/
def execAwrq (r : Rec) (s : State) : Out := engineRec (.awrq r) r s

/-- AWRM (R266). -/
def execAwrm (r : Rec) (s : State) : Out := engineRec (.awrm r) r s

/-- AWRT (R266). -/
def execAwrt (r : Rec) (s : State) : Out := engineRec (.awrt r) r s

/-- TLDS (R267). -/
def execTlds (r : Rec) (s : State) : Out := engineRec (.tlds r) r s

/-- TSTS (R267). -/
def execTsts (r : Rec) (s : State) : Out := engineRec (.tsts r) r s

/-- TQLD (R268). -/
def execTqld (r : Rec) (s : State) : Out := engineRec (.tqld r) r s

/-- TSTQ (R268). -/
def execTstq (r : Rec) (s : State) : Out := engineRec (.tstq r) r s

/-- SCOMMIT (R277). -/
def execScommit (r : Rec) (s : State) : Out := engineRec (.scommit r) r s

/-- SDISCARD (R277). -/
def execSdiscard (r : Rec) (s : State) : Out := engineRec (.sdiscard r) r s

/-- MNEST (R269). -/
def execMnest (r : Rec) (s : State) : Out := engineRec (.mnest r) r s

/-- SCOUT (R286). -/
def execScout (r : Rec) (s : State) : Out := engineRec (.scout r) r s

/-- THRESH (R287). -/
def execThresh (r : Rec) (s : State) : Out := engineRec (.thresh r) r s

/-- SRESET (R284). -/
def execSreset (r : Rec) (s : State) : Out := engineRec (.sreset r) r s

/-- HCFG (R290). -/
def execHcfg (r : Rec) (s : State) : Out := engineRec (.hcfg r) r s

/-- HCFG_RET (R300). -/
def execHcfgRet (r : Rec) (s : State) : Out := hcfgReturn (.hcfgRet r) r s

/-- HPROJ (R292). -/
def execHproj (r : Rec) (s : State) : Out := engineRec (.hproj r) r s

/-- HRESET (R293). -/
def execHreset (r : Rec) (s : State) : Out := engineRec (.hreset r) r s

/-- KSTORE (R295). -/
def execKstore (r : Rec) (s : State) : Out := engineRec (.kstore r) r s

/-- HGATHER (R297). -/
def execHgather (r : Rec) (s : State) : Out := engineRec (.hgather r) r s

/-- HCOUNT (R301). -/
def execHcount (r : Rec) (s : State) : Out := engineRec (.hcount r) r s

end Sys2Proof.Machine
end

