-- ==== Sys2Proof/Machine/Dispatch.lean ====
section
/-! DEFINITION. The meaning of every instruction: one arm for each constructor, each a direct call. -/

namespace Sys2Proof.Machine

def exec (i : Instr) (s : State) : Host.Outcome State Fault Refusal :=
  match i with
  | .add xd xa xb => Sys2Proof.Machine.execAdd xd xa xb s
  | .sub xd xa xb => Sys2Proof.Machine.execSub xd xa xb s
  | .adds xd xa xb => Sys2Proof.Machine.execAdds xd xa xb s
  | .subs xd xa xb => Sys2Proof.Machine.execSubs xd xa xb s
  | .mul xd xa xb => Sys2Proof.Machine.execMul xd xa xb s
  | .mulh xd xa xb => Sys2Proof.Machine.execMulh xd xa xb s
  | .mulhu xd xa xb => Sys2Proof.Machine.execMulhu xd xa xb s
  | .div xd xa xb => Sys2Proof.Machine.execDiv xd xa xb s
  | .divu xd xa xb => Sys2Proof.Machine.execDivu xd xa xb s
  | .rem xd xa xb => Sys2Proof.Machine.execRem xd xa xb s
  | .remu xd xa xb => Sys2Proof.Machine.execRemu xd xa xb s
  | .and xd xa xb => Sys2Proof.Machine.execAnd xd xa xb s
  | .or xd xa xb => Sys2Proof.Machine.execOr xd xa xb s
  | .xor xd xa xb => Sys2Proof.Machine.execXor xd xa xb s
  | .sll xd xa xb => Sys2Proof.Machine.execSll xd xa xb s
  | .srl xd xa xb => Sys2Proof.Machine.execSrl xd xa xb s
  | .sra xd xa xb => Sys2Proof.Machine.execSra xd xa xb s
  | .min xd xa xb => Sys2Proof.Machine.execMin xd xa xb s
  | .max xd xa xb => Sys2Proof.Machine.execMax xd xa xb s
  | .minu xd xa xb => Sys2Proof.Machine.execMinu xd xa xb s
  | .maxu xd xa xb => Sys2Proof.Machine.execMaxu xd xa xb s
  | .slt xd xa xb => Sys2Proof.Machine.execSlt xd xa xb s
  | .sltu xd xa xb => Sys2Proof.Machine.execSltu xd xa xb s
  | .addi xd xa imm => Sys2Proof.Machine.execAddi xd xa imm s
  | .andi xd xa imm => Sys2Proof.Machine.execAndi xd xa imm s
  | .ori xd xa imm => Sys2Proof.Machine.execOri xd xa imm s
  | .xori xd xa imm => Sys2Proof.Machine.execXori xd xa imm s
  | .slli xd xa sh => Sys2Proof.Machine.execSlli xd xa sh s
  | .srli xd xa sh => Sys2Proof.Machine.execSrli xd xa sh s
  | .srai xd xa sh => Sys2Proof.Machine.execSrai xd xa sh s
  | .slti xd xa imm => Sys2Proof.Machine.execSlti xd xa imm s
  | .movi xd imm => Sys2Proof.Machine.execMovi xd imm s
  | .movhi xd xa imm => Sys2Proof.Machine.execMovhi xd xa imm s
  | .cvta xd xa win => Sys2Proof.Machine.execCvta xd xa win s
  | .isap xd xa win => Sys2Proof.Machine.execIsap xd xa win s
  | .movb bn xa => Sys2Proof.Machine.execMovb bn xa s
  | .movxb xd bn => Sys2Proof.Machine.execMovxb xd bn s
  | .pset sn xa => Sys2Proof.Machine.execPset sn xa s
  | .pget xd sn => Sys2Proof.Machine.execPget xd sn s
  | .beq xa xb off => Sys2Proof.Machine.execBeq xa xb off s
  | .bne xa xb off => Sys2Proof.Machine.execBne xa xb off s
  | .blt xa xb off => Sys2Proof.Machine.execBlt xa xb off s
  | .bge xa xb off => Sys2Proof.Machine.execBge xa xb off s
  | .bltu xa xb off => Sys2Proof.Machine.execBltu xa xb off s
  | .bgeu xa xb off => Sys2Proof.Machine.execBgeu xa xb off s
  | .jmp off => Sys2Proof.Machine.execJmp off s
  | .call xd off => Sys2Proof.Machine.execCall xd off s
  | .jr xd xa => Sys2Proof.Machine.execJr xd xa s
  | .ld xd xa scope ord off => Sys2Proof.Machine.execLd xd xa scope ord off s
  | .st xb xa scope ord off => Sys2Proof.Machine.execSt xb xa scope ord off s
  | .aadd xd xa xb scope ord off => Sys2Proof.Machine.execAadd xd xa xb scope ord off s
  | .amin xd xa xb scope ord off => Sys2Proof.Machine.execAmin xd xa xb scope ord off s
  | .amax xd xa xb scope ord off => Sys2Proof.Machine.execAmax xd xa xb scope ord off s
  | .aminu xd xa xb scope ord off => Sys2Proof.Machine.execAminu xd xa xb scope ord off s
  | .amaxu xd xa xb scope ord off => Sys2Proof.Machine.execAmaxu xd xa xb scope ord off s
  | .axchg xd xa xb scope ord off => Sys2Proof.Machine.execAxchg xd xa xb scope ord off s
  | .acas xd xa xb scope ord off => Sys2Proof.Machine.execAcas xd xa xb scope ord off s
  | .afadd32 xd xa xb scope ord off => Sys2Proof.Machine.execAfadd32 xd xa xb scope ord off s
  | .afadd16 xd xa xb scope ord off => Sys2Proof.Machine.execAfadd16 xd xa xb scope ord off s
  | .atomicPerform k => Sys2Proof.Machine.execAtomicPerform k s
  | .fence scope kind => Sys2Proof.Machine.execFence scope kind s
  | .join xa imm => Sys2Proof.Machine.execJoin xa imm s
  | .leave xa imm => Sys2Proof.Machine.execLeave xa imm s
  | .sbar xa imm => Sys2Proof.Machine.execSbar xa imm s
  | .setRequestApply k => Sys2Proof.Machine.execSetRequestApply k s
  | .setAnswerArrival k => Sys2Proof.Machine.execSetAnswerArrival k s
  | .tlwait xa ctr => Sys2Proof.Machine.execTlwait xa ctr s
  | .tlread xd ctr cmp => Sys2Proof.Machine.execTlread xd ctr cmp s
  | .drain ch => Sys2Proof.Machine.execDrain ch s
  | .qpush dst => Sys2Proof.Machine.execQpush dst s
  | .qpop src => Sys2Proof.Machine.execQpop src s
  | .csrr xd csr => Sys2Proof.Machine.execCsrr xd csr s
  | .csrw xd xa csr => Sys2Proof.Machine.execCsrw xd xa csr s
  | .csrs xd xa csr => Sys2Proof.Machine.execCsrs xd xa csr s
  | .csrc xd xa csr => Sys2Proof.Machine.execCsrc xd xa csr s
  | .cbld cb xa imm => Sys2Proof.Machine.execCbld cb xa imm s
  | .launch xd xa xc => Sys2Proof.Machine.execLaunch xd xa xc s
  | .probe xd xa xc w => Sys2Proof.Machine.execProbe xd xa xc w s
  | .quiesce => Sys2Proof.Machine.execQuiesce s
  | .trap imm => Sys2Proof.Machine.execTrap imm s
  | .tret => Sys2Proof.Machine.execTret s
  | .nop => Sys2Proof.Machine.execNop s
  | .endC => Sys2Proof.Machine.execEndC s
  | .tregReg xd xa => Sys2Proof.Machine.execTregReg xd xa s
  | .tregUpd xd xa => Sys2Proof.Machine.execTregUpd xd xa s
  | .tregRst xd xa => Sys2Proof.Machine.execTregRst xd xa s
  | .tregDel xd xa => Sys2Proof.Machine.execTregDel xd xa s
  | .plan xd xa xc hints n => Sys2Proof.Machine.execPlan xd xa xc hints n s
  | .phint xd xa hints => Sys2Proof.Machine.execPhint xd xa hints s
  | .ppinOn xa => Sys2Proof.Machine.execPpinOn xa s
  | .ppinOff xa => Sys2Proof.Machine.execPpinOff xa s
  | .prun xd xa xc => Sys2Proof.Machine.execPrun xd xa xc s
  | .prel xa => Sys2Proof.Machine.execPrel xa s
  | .statrd xd xa xc => Sys2Proof.Machine.execStatrd xd xa xc s
  | .pfpr xd xa sel => Sys2Proof.Machine.execPfpr xd xa sel s
  | .planBreak run => Sys2Proof.Machine.execPlanBreak run s
  | .atlasSampleApply => Sys2Proof.Machine.execAtlasSampleApply s
  | .copy r => Sys2Proof.Machine.execCopy r s
  | .copyf r => Sys2Proof.Machine.execCopyf r s
  | .rld r => Sys2Proof.Machine.execRld r s
  | .rst r => Sys2Proof.Machine.execRst r s
  | .tld r => Sys2Proof.Machine.execTld r s
  | .kld r => Sys2Proof.Machine.execKld r s
  | .gather r => Sys2Proof.Machine.execGather r s
  | .scatter r => Sys2Proof.Machine.execScatter r s
  | .rmerge r => Sys2Proof.Machine.execRmerge r s
  | .bqpush r => Sys2Proof.Machine.execBqpush r s
  | .rqld r => Sys2Proof.Machine.execRqld r s
  | .loop r => Sys2Proof.Machine.execLoop r s
  | .loopq r => Sys2Proof.Machine.execLoopq r s
  | .endl r => Sys2Proof.Machine.execEndl r s
  | .rot r => Sys2Proof.Machine.execRot r s
  | .drainRec r => Sys2Proof.Machine.execDrainRec r s
  | .tlwaitRec r => Sys2Proof.Machine.execTlwaitRec r s
  | .sync r => Sys2Proof.Machine.execSync r s
  | .endRec r => Sys2Proof.Machine.execEndRec r s
  | .brq r => Sys2Proof.Machine.execBrq r s
  | .runaheadResolution tile => Sys2Proof.Machine.execRunaheadResolution tile s
  | .vadd r => Sys2Proof.Machine.execVadd r s
  | .vsub r => Sys2Proof.Machine.execVsub r s
  | .vmul r => Sys2Proof.Machine.execVmul r s
  | .vfma r => Sys2Proof.Machine.execVfma r s
  | .vdiv r => Sys2Proof.Machine.execVdiv r s
  | .vmin r => Sys2Proof.Machine.execVmin r s
  | .vmax r => Sys2Proof.Machine.execVmax r s
  | .vabs r => Sys2Proof.Machine.execVabs r s
  | .vneg r => Sys2Proof.Machine.execVneg r s
  | .vexp r => Sys2Proof.Machine.execVexp r s
  | .vlog r => Sys2Proof.Machine.execVlog r s
  | .vrcp r => Sys2Proof.Machine.execVrcp r s
  | .vrsq r => Sys2Proof.Machine.execVrsq r s
  | .vtanh r => Sys2Proof.Machine.execVtanh r s
  | .vsigm r => Sys2Proof.Machine.execVsigm r s
  | .vcmp r => Sys2Proof.Machine.execVcmp r s
  | .vsel r => Sys2Proof.Machine.execVsel r s
  | .vcvt r => Sys2Proof.Machine.execVcvt r s
  | .vrsum r => Sys2Proof.Machine.execVrsum r s
  | .vrmax r => Sys2Proof.Machine.execVrmax r s
  | .vrmin r => Sys2Proof.Machine.execVrmin r s
  | .vscan r => Sys2Proof.Machine.execVscan r s
  | .vtopk r => Sys2Proof.Machine.execVtopk r s
  | .vdrop r => Sys2Proof.Machine.execVdrop r s
  | .vand r => Sys2Proof.Machine.execVand r s
  | .vor r => Sys2Proof.Machine.execVor r s
  | .vxor r => Sys2Proof.Machine.execVxor r s
  | .vnot r => Sys2Proof.Machine.execVnot r s
  | .vshl r => Sys2Proof.Machine.execVshl r s
  | .vshr r => Sys2Proof.Machine.execVshr r s
  | .vband r => Sys2Proof.Machine.execVband r s
  | .vpopc r => Sys2Proof.Machine.execVpopc r s
  | .visect r => Sys2Proof.Machine.execVisect r s
  | .vclmul r => Sys2Proof.Machine.execVclmul r s
  | .vcomp r => Sys2Proof.Machine.execVcomp r s
  | .vexpand r => Sys2Proof.Machine.execVexpand r s
  | .vcopy r => Sys2Proof.Machine.execVcopy r s
  | .vfill r => Sys2Proof.Machine.execVfill r s
  | .viota r => Sys2Proof.Machine.execViota r s
  | .vsqrt r => Sys2Proof.Machine.execVsqrt r s
  | .mma r => Sys2Proof.Machine.execMma r s
  | .mmanm r => Sys2Proof.Machine.execMmanm r s
  | .mmacb r => Sys2Proof.Machine.execMmacb r s
  | .mmag r => Sys2Proof.Machine.execMmag r s
  | .mmak r => Sys2Proof.Machine.execMmak r s
  | .azero r => Sys2Proof.Machine.execAzero r s
  | .awrq r => Sys2Proof.Machine.execAwrq r s
  | .awrm r => Sys2Proof.Machine.execAwrm r s
  | .awrt r => Sys2Proof.Machine.execAwrt r s
  | .tlds r => Sys2Proof.Machine.execTlds r s
  | .tsts r => Sys2Proof.Machine.execTsts r s
  | .tqld r => Sys2Proof.Machine.execTqld r s
  | .tstq r => Sys2Proof.Machine.execTstq r s
  | .scommit r => Sys2Proof.Machine.execScommit r s
  | .sdiscard r => Sys2Proof.Machine.execSdiscard r s
  | .mnest r => Sys2Proof.Machine.execMnest r s
  | .scout r => Sys2Proof.Machine.execScout r s
  | .thresh r => Sys2Proof.Machine.execThresh r s
  | .sreset r => Sys2Proof.Machine.execSreset r s
  | .hcfg r => Sys2Proof.Machine.execHcfg r s
  | .hcfgRet r => Sys2Proof.Machine.execHcfgRet r s
  | .hproj r => Sys2Proof.Machine.execHproj r s
  | .hreset r => Sys2Proof.Machine.execHreset r s
  | .kstore r => Sys2Proof.Machine.execKstore r s
  | .hgather r => Sys2Proof.Machine.execHgather r s
  | .hcount r => Sys2Proof.Machine.execHcount r s
  | .hawkmothLink k => Sys2Proof.Machine.execHawkmothLink k s
  | .chainRead tile => Sys2Proof.Machine.execChainRead tile s
  | .engineOperationComplete tile eng health => Sys2Proof.Machine.execEngineOperationComplete tile eng health s
  | .recordRetire tile q seqno => Sys2Proof.Machine.execRecordRetire tile q seqno s
  | .stallRelease tile q => Sys2Proof.Machine.execStallRelease tile q s
  | .instructionFetchReturn tile q va => Sys2Proof.Machine.execInstructionFetchReturn tile q va s
  | .lotteryDraw => Sys2Proof.Machine.execLotteryDraw s
  | .armAck gang port => Sys2Proof.Machine.execArmAck gang port s
  | .gangDecision launch => Sys2Proof.Machine.execGangDecision launch s
  | .dropMsg gang => Sys2Proof.Machine.execDropMsg gang s
  | .strandBind die => Sys2Proof.Machine.execStrandBind die s
  | .deterministicLaunchStart launch => Sys2Proof.Machine.execDeterministicLaunchStart launch s
  | .strandEnd tile => Sys2Proof.Machine.execStrandEnd tile s
  | .launchPark launch => Sys2Proof.Machine.execLaunchPark launch s
  | .parkedResume launch => Sys2Proof.Machine.execParkedResume launch s
  | .quantumExpiry tile => Sys2Proof.Machine.execQuantumExpiry tile s
  | .swapreq v => Sys2Proof.Machine.execSwapreq v s
  | .swap tile => Sys2Proof.Machine.execSwap tile s
  | .watchdog tile => Sys2Proof.Machine.execWatchdog tile s
  | .impreciseFaultDelivery tile => Sys2Proof.Machine.execImpreciseFaultDelivery tile s
  | .ivctlGo v => Sys2Proof.Machine.execIvctlGo v s
  | .quiesceTimeout tile => Sys2Proof.Machine.execQuiesceTimeout tile s
  | .prqack via own v => Sys2Proof.Machine.execPrqack via own v s
  | .killStrand v => Sys2Proof.Machine.execKillStrand v s
  | .killLaunch v => Sys2Proof.Machine.execKillLaunch v s
  | .killDone => Sys2Proof.Machine.execKillDone s
  | .breakpointResume => Sys2Proof.Machine.execBreakpointResume s
  | .chrysalisStopRequest => Sys2Proof.Machine.execChrysalisStopRequest s
  | .chrysalisStop => Sys2Proof.Machine.execChrysalisStop s
  | .chrysalisResume => Sys2Proof.Machine.execChrysalisResume s
  | .cocoonDump => Sys2Proof.Machine.execCocoonDump s
  | .cocoonDumpEnd fate => Sys2Proof.Machine.execCocoonDumpEnd fate s
  | .traceSample => Sys2Proof.Machine.execTraceSample s
  | .bcmClear tile v => Sys2Proof.Machine.execBcmClear tile v s
  | .qctlWrite n v => Sys2Proof.Machine.execQctlWrite n v s
  | .qbaseWrite n v => Sys2Proof.Machine.execQbaseWrite n v s
  | .pwrctlWrite v => Sys2Proof.Machine.execPwrctlWrite v s
  | .registerWrite link fn off v => Sys2Proof.Machine.execRegisterWrite link fn off v s
  | .hostRead link fn place n => Sys2Proof.Machine.execHostRead link fn place n s
  | .hostWrite link fn off bytes => Sys2Proof.Machine.execHostWrite link fn off bytes s
  | .hostAtomicop link fn op off v expected => Sys2Proof.Machine.execHostAtomicop link fn op off v expected s
  | .peerAccess port va op => Sys2Proof.Machine.execPeerAccess port va op s
  | .peerPortTrain port devtime delay => Sys2Proof.Machine.execPeerPortTrain port devtime delay s
  | .peerPortDown port => Sys2Proof.Machine.execPeerPortDown port s
  | .reset => Sys2Proof.Machine.execReset s
  | .partReady part failed => Sys2Proof.Machine.execPartReady part failed s
  | .powerThrottle dies hbm rest power => Sys2Proof.Machine.execPowerThrottle dies hbm rest power s
  | .thermalShutdown => Sys2Proof.Machine.execThermalShutdown s
  | .plannerRequestApply => Sys2Proof.Machine.execPlannerRequestApply s
  | .hostCompletion id status data => Sys2Proof.Machine.execHostCompletion id status data s
  | .coolantEnvelopeChange outside => Sys2Proof.Machine.execCoolantEnvelopeChange outside s

end Sys2Proof.Machine
end

