-- ==== Sys2Proof/WellFormed.lean ====
section
/-! DEFINITION. Well-formed instructions: those whose encoding a sequencer's decoder accepts (R125, R128, R142). -/

namespace Sys2Proof

/-- Whether an instruction is a control word of C. -/
def Instr.isWord (i : Instr) : Bool :=
  match i with
  | .atomicPerform _ | .setRequestApply _ | .setAnswerArrival _ | .planBreak _ | .atlasSampleApply
  | .runaheadResolution _ | .hawkmothLink _ | .chainRead _ | .engineOperationComplete _ _ _
  | .recordRetire _ _ _ | .stallRelease _ _ | .instructionFetchReturn _ _ _ | .lotteryDraw | .armAck _ _
  | .gangDecision _ | .dropMsg _ | .strandBind _ | .deterministicLaunchStart _ | .strandEnd _
  | .launchPark _ | .parkedResume _ | .quantumExpiry _ | .swapreq _ | .swap _ | .watchdog _
  | .impreciseFaultDelivery _ | .ivctlGo _ | .quiesceTimeout _ | .prqack _ _ _ | .killStrand _
  | .killLaunch _ | .killDone | .breakpointResume | .chrysalisStopRequest | .chrysalisStop
  | .chrysalisResume | .cocoonDump | .cocoonDumpEnd _ | .traceSample | .bcmClear _ _ | .qctlWrite _ _
  | .qbaseWrite _ _ | .pwrctlWrite _ | .registerWrite _ _ _ _ | .hostRead _ _ _ _ | .hostWrite _ _ _ _
  | .hostAtomicop _ _ _ _ _ _ | .peerAccess _ _ _ | .peerPortTrain _ _ _ | .peerPortDown _ | .reset
  | .partReady _ _ | .powerThrottle _ _ _ _ | .thermalShutdown | .plannerRequestApply
  | .hostCompletion _ _ _ | .coolantEnvelopeChange _ => false
  | i => i.rec?.isNone

/-- What sequencer q finds wrong in an instruction: C takes control words, L, X and S take records. -/
def Instr.reject (q : Seqr) (i : Instr) : Option Reject :=
  match i.rec?, recSpec i with
  | some r, some sp => sp.reject q r
  | _, _ => if i.isWord && q == .c then wordReject i else some .unassigned

/-- An instruction that sequencer q may execute. -/
def Instr.wf (q : Seqr) (i : Instr) : Bool := (i.reject q).isNone

end Sys2Proof
end

