-- ==== Sys2Proof/Decode.lean ====
section
/-! DEFINITION. The decoder and the encoder (R123 to R142): total functions between bits and instructions. A refusal
carries its reason; every reason raises ILLEGAL_OP. -/

namespace Sys2Proof

/-- Bits of a control word (R124). -/
def wOpc (w : Word) : BitVec 8 := w.extractLsb' 56 8
/-- Field xd, bits [55:50]. -/
def wXd (w : Word) : Reg := w.extractLsb' 50 6
/-- Field xa, bits [49:44]. -/
def wXa (w : Word) : Reg := w.extractLsb' 44 6
/-- Field xb or xc, bits [43:38]. -/
def wXb (w : Word) : Reg := w.extractLsb' 38 6
/-- Bits [37:0]: reserved in F3, the offset in FB. -/
def wLow (w : Word) : BitVec 38 := w.extractLsb' 0 38
/-- Field SEL of FI, bits [37:32]. -/
def wSel (w : Word) : BitVec 6 := w.extractLsb' 32 6
/-- Field IMM of FI, bits [31:0]. -/
def wImm (w : Word) : BitVec 32 := w.extractLsb' 0 32
/-- Field SCOPE of FM, bits [37:35]. -/
def wScope (w : Word) : BitVec 3 := w.extractLsb' 35 3
/-- Field ORD of FM, bits [34:33]. -/
def wOrd (w : Word) : BitVec 2 := w.extractLsb' 33 2
/-- The offset of FM, bits [32:0]. -/
def wOff (w : Word) : BitVec 33 := w.extractLsb' 0 33

/-- An instruction, if the fields it does not use are zero. -/
def ifZero (ok : Bool) (i : Instr) : Except Reject Instr := if ok then .ok i else .error .unused

/-- An instruction, if a selector lies in its set and the unused fields are zero. -/
def ifSel (sel ok : Bool) (i : Instr) : Except Reject Instr :=
  if !sel then .error .selector else ifZero ok i

/-- The fields of a control word as an instruction, before the checks of `wordReject`. -/
def wordFields (w : Word) : Except Reject Instr :=
  let xd := wXd w
  let xa := wXa w
  let xb := wXb w
  let sel := wSel w
  let imm := wImm w
  let n := sel.toNat
  let d0 := xd == 0
  let a0 := xa == 0
  let b0 := xb == 0
  let s0 := sel == 0
  let i0 := imm == 0
  let hi0 := imm.toNat < 2 ^ 16
  match (wOpc w).toNat with
  | 0x01 => ifZero (wLow w == 0) (.add xd xa xb)
  | 0x02 => ifZero (wLow w == 0) (.sub xd xa xb)
  | 0x03 => ifZero (wLow w == 0) (.adds xd xa xb)
  | 0x04 => ifZero (wLow w == 0) (.subs xd xa xb)
  | 0x05 => ifZero (wLow w == 0) (.mul xd xa xb)
  | 0x06 => ifZero (wLow w == 0) (.mulh xd xa xb)
  | 0x07 => ifZero (wLow w == 0) (.mulhu xd xa xb)
  | 0x08 => ifZero (wLow w == 0) (.div xd xa xb)
  | 0x09 => ifZero (wLow w == 0) (.divu xd xa xb)
  | 0x0A => ifZero (wLow w == 0) (.rem xd xa xb)
  | 0x0B => ifZero (wLow w == 0) (.remu xd xa xb)
  | 0x0C => ifZero (wLow w == 0) (.and xd xa xb)
  | 0x0D => ifZero (wLow w == 0) (.or xd xa xb)
  | 0x0E => ifZero (wLow w == 0) (.xor xd xa xb)
  | 0x0F => ifZero (wLow w == 0) (.sll xd xa xb)
  | 0x10 => ifZero (wLow w == 0) (.srl xd xa xb)
  | 0x11 => ifZero (wLow w == 0) (.sra xd xa xb)
  | 0x12 => ifZero (wLow w == 0) (.min xd xa xb)
  | 0x13 => ifZero (wLow w == 0) (.max xd xa xb)
  | 0x14 => ifZero (wLow w == 0) (.minu xd xa xb)
  | 0x15 => ifZero (wLow w == 0) (.maxu xd xa xb)
  | 0x16 => ifZero (wLow w == 0) (.slt xd xa xb)
  | 0x17 => ifZero (wLow w == 0) (.sltu xd xa xb)
  | 0x20 => ifZero (b0 && s0) (.addi xd xa imm)
  | 0x21 => ifZero (b0 && s0) (.andi xd xa imm)
  | 0x22 => ifZero (b0 && s0) (.ori xd xa imm)
  | 0x23 => ifZero (b0 && s0) (.xori xd xa imm)
  | 0x24 => ifZero (b0 && s0 && imm.toNat < 64) (.slli xd xa (imm.extractLsb' 0 6))
  | 0x25 => ifZero (b0 && s0 && imm.toNat < 64) (.srli xd xa (imm.extractLsb' 0 6))
  | 0x26 => ifZero (b0 && s0 && imm.toNat < 64) (.srai xd xa (imm.extractLsb' 0 6))
  | 0x27 => ifZero (b0 && s0) (.slti xd xa imm)
  | 0x28 => ifZero (a0 && b0 && s0) (.movi xd imm)
  | 0x29 => ifZero (b0 && s0) (.movhi xd xa imm)
  | 0x2A => ifSel (n ≤ 3) (b0 && i0) (.cvta xd xa (sel.extractLsb' 0 2))
  | 0x2B => ifSel (n ≤ 3) (b0 && i0) (.isap xd xa (sel.extractLsb' 0 2))
  | 0x2C => ifSel (xd.toNat < 32) (b0 && s0 && i0) (.movb (xd.extractLsb' 0 5) xa)
  | 0x2D => ifSel (xa.toNat < 32) (b0 && s0 && i0) (.movxb xd (xa.extractLsb' 0 5))
  | 0x2E => ifSel (n < 8) (d0 && b0 && i0) (.pset (sel.extractLsb' 0 3) xa)
  | 0x2F => ifSel (n < 8) (a0 && b0 && i0) (.pget xd (sel.extractLsb' 0 3))
  | 0x40 => ifZero d0 (.beq xa xb (wLow w))
  | 0x41 => ifZero d0 (.bne xa xb (wLow w))
  | 0x42 => ifZero d0 (.blt xa xb (wLow w))
  | 0x43 => ifZero d0 (.bge xa xb (wLow w))
  | 0x44 => ifZero d0 (.bltu xa xb (wLow w))
  | 0x45 => ifZero d0 (.bgeu xa xb (wLow w))
  | 0x46 => ifZero (d0 && a0 && b0) (.jmp (wLow w))
  | 0x47 => ifZero (a0 && b0) (.call xd (wLow w))
  | 0x48 => ifZero (b0 && wLow w == 0) (.jr xd xa)
  | 0x60 => ifZero b0 (.ld xd xa (wScope w) (wOrd w) (wOff w))
  | 0x61 => ifZero d0 (.st xb xa (wScope w) (wOrd w) (wOff w))
  | 0x62 => .ok (.aadd xd xa xb (wScope w) (wOrd w) (wOff w))
  | 0x63 => .ok (.amin xd xa xb (wScope w) (wOrd w) (wOff w))
  | 0x64 => .ok (.amax xd xa xb (wScope w) (wOrd w) (wOff w))
  | 0x65 => .ok (.aminu xd xa xb (wScope w) (wOrd w) (wOff w))
  | 0x66 => .ok (.amaxu xd xa xb (wScope w) (wOrd w) (wOff w))
  | 0x67 => .ok (.axchg xd xa xb (wScope w) (wOrd w) (wOff w))
  | 0x68 => .ok (.acas xd xa xb (wScope w) (wOrd w) (wOff w))
  | 0x69 => .ok (.afadd32 xd xa xb (wScope w) (wOrd w) (wOff w))
  | 0x6A => .ok (.afadd16 xd xa xb (wScope w) (wOrd w) (wOff w))
  | 0x6B => ifZero (d0 && a0 && b0 && wOff w == 0) (.fence (wScope w) (wOrd w))
  | 0x70 => ifZero (d0 && b0 && s0 && hi0) (.join xa (imm.extractLsb' 0 16))
  | 0x71 => ifZero (d0 && b0 && s0 && hi0) (.leave xa (imm.extractLsb' 0 16))
  | 0x72 => ifZero (d0 && b0 && s0 && hi0) (.sbar xa (imm.extractLsb' 0 16))
  | 0x74 => ifSel (n < 16) (d0 && b0 && i0) (.tlwait xa (sel.extractLsb' 0 4))
  | 0x75 => ifSel (n < 16) (a0 && b0 && imm.toNat < 2) (.tlread xd (sel.extractLsb' 0 4) (imm.extractLsb' 0 1))
  | 0x76 => ifSel (n < 4) (d0 && a0 && b0 && i0) (.drain (sel.extractLsb' 0 2))
  | 0x78 => ifSel (n < 4) (d0 && a0 && b0 && i0) (.qpush (sel.extractLsb' 0 2))
  | 0x79 => ifSel (n < 16 && n % 4 == 0) (d0 && a0 && b0 && i0) (.qpop (sel.extractLsb' 2 2))
  | 0x7A => ifSel (n < 4) (d0 && b0) (.cbld (sel.extractLsb' 0 2) xa imm)
  | 0x7C => ifZero (a0 && b0 && s0 && hi0) (.csrr xd (imm.extractLsb' 0 16))
  | 0x7D => ifZero (b0 && s0 && hi0) (.csrw xd xa (imm.extractLsb' 0 16))
  | 0x7E => ifZero (b0 && s0 && hi0) (.csrs xd xa (imm.extractLsb' 0 16))
  | 0x7F => ifZero (b0 && s0 && hi0) (.csrc xd xa (imm.extractLsb' 0 16))
  | 0x80 => ifZero (s0 && i0) (.launch xd xa xb)
  | 0x90 => ifSel (n < 2) i0 (.probe xd xa xb (sel.extractLsb' 0 1))
  | 0x91 => ifZero (d0 && a0 && b0 && s0 && i0) .quiesce
  | 0x92 => ifZero (d0 && a0 && b0 && s0) (.trap imm)
  | 0x93 => ifZero (d0 && a0 && b0 && s0 && i0) .tret
  | 0x94 => ifZero (d0 && a0 && b0 && s0 && i0) .nop
  | 0x95 => ifZero (d0 && a0 && b0 && s0 && i0) .endC
  | 0xA0 =>
    match n with
    | 0 => ifZero (b0 && i0) (.tregReg xd xa)
    | 1 => ifZero (b0 && i0) (.tregUpd xd xa)
    | 2 => ifZero (b0 && i0) (.tregRst xd xa)
    | 3 => ifZero (b0 && i0) (.tregDel xd xa)
    | _ => .error .selector
  | 0xA1 => ifZero (s0 && bitsOf imm.toNat 4 12 == 0)
      (.plan xd xa xb (imm.extractLsb' 0 4) (imm.extractLsb' 16 16))
  | 0xA2 => ifZero (s0 && b0 && imm.toNat < 16) (.phint xd xa (imm.extractLsb' 0 4))
  | 0xA3 =>
    if d0 && b0 && s0 then
      if i0 then .ok (.ppinOff xa) else if imm == 1 then .ok (.ppinOn xa) else .error .unused
    else .error .unused
  | 0xA4 => ifZero (s0 && i0) (.prun xd xa xb)
  | 0xA5 => ifZero (d0 && b0 && s0 && i0) (.prel xa)
  | 0xA6 => ifZero (s0 && i0) (.statrd xd xa xb)
  | 0xA7 => ifSel (n < 8) (b0 && i0) (.pfpr xd xa (sel.extractLsb' 0 3))
  | _ => .error .unassigned

/-- C's decoder: the instruction of a control word, or why there is none (R127, R128). -/
def decodeWord (w : Word) : Except Reject Instr :=
  match wordFields w with
  | .error r => .error r
  | .ok i =>
    match wordReject i with
    | some r => .error r
    | none => .ok i

/-- An operand field from its 120 bits (R133). -/
def opdOf (v : BitVec 120) : Opd where
  base := v.extractLsb' 114 6
  off := v.extractLsb' 80 34
  s3 := v.extractLsb' 60 20
  s2 := v.extractLsb' 40 20
  s1 := v.extractLsb' 20 20
  s0 := v.extractLsb' 0 20

/-- The fields of a record (R131, R132). -/
def recOf (w : RecWord) : Rec where
  eng := w.extractLsb' 500 4
  fmt := w.extractLsb' 496 4
  push := w.extractLsb' 492 4
  pop := w.extractLsb' 488 4
  pred := w.extractLsb' 472 16
  stg := w.extractLsb' 464 8
  msk := w.extractLsb' 460 4
  dk := w.extractLsb' 458 2
  ak := w.extractLsb' 456 2
  bk := w.extractLsb' 454 2
  su := w.extractLsb' 453 1
  fn := w.extractLsb' 448 5
  t3 := w.extractLsb' 432 16
  t2 := w.extractLsb' 416 16
  t1 := w.extractLsb' 400 16
  t0 := w.extractLsb' 384 16
  d := opdOf (w.extractLsb' 264 120)
  a := opdOf (w.extractLsb' 144 120)
  b := opdOf (w.extractLsb' 24 120)
  moda := w.extractLsb' 12 12
  modb := w.extractLsb' 0 12

/-- The record of an opcode of the map (R141); HCFG with RET, FN bit 4, is the return of R300. -/
def recordFields (w : RecWord) : Option Instr :=
  let r := recOf w
  match (w.extractLsb' 504 8).toNat with
  | 0x01 => some (.copy r)
  | 0x02 => some (.copyf r)
  | 0x03 => some (.rld r)
  | 0x04 => some (.rst r)
  | 0x05 => some (.tld r)
  | 0x06 => some (.kld r)
  | 0x07 => some (.gather r)
  | 0x08 => some (.scatter r)
  | 0x09 => some (.rmerge r)
  | 0x0A => some (.bqpush r)
  | 0x0B => some (.rqld r)
  | 0x10 => some (.loop r)
  | 0x11 => some (.loopq r)
  | 0x12 => some (.endl r)
  | 0x13 => some (.rot r)
  | 0x14 => some (.drainRec r)
  | 0x15 => some (.tlwaitRec r)
  | 0x16 => some (.sync r)
  | 0x17 => some (.endRec r)
  | 0x18 => some (.brq r)
  | 0x20 => some (.vadd r)
  | 0x21 => some (.vsub r)
  | 0x22 => some (.vmul r)
  | 0x23 => some (.vfma r)
  | 0x24 => some (.vdiv r)
  | 0x25 => some (.vmin r)
  | 0x26 => some (.vmax r)
  | 0x27 => some (.vabs r)
  | 0x28 => some (.vneg r)
  | 0x29 => some (.vexp r)
  | 0x2A => some (.vlog r)
  | 0x2B => some (.vrcp r)
  | 0x2C => some (.vrsq r)
  | 0x2D => some (.vtanh r)
  | 0x2E => some (.vsigm r)
  | 0x2F => some (.vcmp r)
  | 0x30 => some (.vsel r)
  | 0x31 => some (.vcvt r)
  | 0x32 => some (.vrsum r)
  | 0x33 => some (.vrmax r)
  | 0x34 => some (.vrmin r)
  | 0x35 => some (.vscan r)
  | 0x36 => some (.vtopk r)
  | 0x37 => some (.vdrop r)
  | 0x38 => some (.vand r)
  | 0x39 => some (.vor r)
  | 0x3A => some (.vxor r)
  | 0x3B => some (.vnot r)
  | 0x3C => some (.vshl r)
  | 0x3D => some (.vshr r)
  | 0x3E => some (.vband r)
  | 0x3F => some (.vpopc r)
  | 0x40 => some (.visect r)
  | 0x41 => some (.vclmul r)
  | 0x42 => some (.vcomp r)
  | 0x43 => some (.vexpand r)
  | 0x44 => some (.vcopy r)
  | 0x45 => some (.vfill r)
  | 0x46 => some (.viota r)
  | 0x47 => some (.vsqrt r)
  | 0x50 => some (.mma r)
  | 0x51 => some (.mmanm r)
  | 0x52 => some (.mmacb r)
  | 0x53 => some (.mmag r)
  | 0x54 => some (.mmak r)
  | 0x55 => some (.azero r)
  | 0x56 => some (.awrq r)
  | 0x57 => some (.awrm r)
  | 0x58 => some (.awrt r)
  | 0x59 => some (.tlds r)
  | 0x5A => some (.tsts r)
  | 0x5B => some (.tqld r)
  | 0x5C => some (.tstq r)
  | 0x5D => some (.scommit r)
  | 0x5E => some (.sdiscard r)
  | 0x5F => some (.mnest r)
  | 0x60 => some (.scout r)
  | 0x61 => some (.thresh r)
  | 0x62 => some (.sreset r)
  | 0x64 => some (.hproj r)
  | 0x65 => some (.hreset r)
  | 0x66 => some (.kstore r)
  | 0x67 => some (.hgather r)
  | 0x68 => some (.hcount r)
  | 0x63 => some (if r.fn.getLsbD 4 then .hcfgRet r else .hcfg r)
  | _ => none

/-- The decoder of L, X and S: the instruction of a record, or why there is none (R142). -/
def decodeRecord (q : Seqr) (w : RecWord) : Except Reject Instr :=
  match recordFields w with
  | none => .error .unassigned
  | some i =>
    match i.reject q with
    | some r => .error r
    | none => .ok i

/-- The instruction sequencer q reads from bits numbered as R123 and R129 number them. -/
def decodeAt (q : Seqr) (v : Nat) : Except Reject Instr :=
  match q with
  | .c => decodeWord (BitVec.ofNat 64 v)
  | q => decodeRecord q (BitVec.ofNat 512 v)

/-- The bytes sequencer q fetches for one instruction (R123, R129). -/
def fetchBytes : Seqr → Nat
  | .c => 8
  | _ => 64

/-- The decoder on any bytes: the instruction at their start and the bytes that follow it. -/
def decodeBytes (q : Seqr) (bs : List Byte) : Except Reject (Instr × List Byte) :=
  let n := fetchBytes q
  if bs.length < n then .error .length
  else match decodeAt q (leNat (bs.take n)) with
    | .ok i => .ok (i, bs.drop n)
    | .error r => .error r

/-- A sequencer that may issue the record of this opcode: X for the engines only it feeds, S for the drains of its
queue, L otherwise (R141). -/
def recordSeqr (opc : Nat) : Seqr :=
  if opc = 0x04 ∨ opc = 0x08 then .s
  else if opc = 0x11 ∨ 0x18 ≤ opc then .x
  else .l

/-- The decoder over the opcode table's numbering: a control word for 64 bits or fewer, a record beyond. -/
def decodeTableWord (nbits w : Nat) : Option Instr :=
  if nbits ≤ 64 then (decodeWord (BitVec.ofNat 64 w)).toOption
  else (decodeRecord (recordSeqr (bitsOf w 504 8)) (BitVec.ofNat 512 w)).toOption

/-! ### The encoder -/

/-- Form F3 (R124). -/
def encF3 (opc : BitVec 8) (xd xa xb : Reg) : Word := opc ++ xd ++ xa ++ xb ++ (0 : BitVec 38)
/-- Form FI (R124). -/
def encFI (opc : BitVec 8) (xd xa xc sel : Reg) (imm : BitVec 32) : Word :=
  opc ++ xd ++ xa ++ xc ++ sel ++ imm
/-- Form FM (R124). -/
def encFM (opc : BitVec 8) (xd xa xb : Reg) (scope : BitVec 3) (ord : BitVec 2) (off : BitVec 33) : Word :=
  opc ++ xd ++ xa ++ xb ++ scope ++ ord ++ off
/-- Form FB (R124). -/
def encFB (opc : BitVec 8) (xd xa xb : Reg) (off : BitVec 38) : Word := opc ++ xd ++ xa ++ xb ++ off

/-- The control word of an instruction of C (R127); none for what is no control word. -/
def encodeWord : Instr → Option Word
  | .add xd xa xb => some (encF3 0x01 xd xa xb)
  | .sub xd xa xb => some (encF3 0x02 xd xa xb)
  | .adds xd xa xb => some (encF3 0x03 xd xa xb)
  | .subs xd xa xb => some (encF3 0x04 xd xa xb)
  | .mul xd xa xb => some (encF3 0x05 xd xa xb)
  | .mulh xd xa xb => some (encF3 0x06 xd xa xb)
  | .mulhu xd xa xb => some (encF3 0x07 xd xa xb)
  | .div xd xa xb => some (encF3 0x08 xd xa xb)
  | .divu xd xa xb => some (encF3 0x09 xd xa xb)
  | .rem xd xa xb => some (encF3 0x0A xd xa xb)
  | .remu xd xa xb => some (encF3 0x0B xd xa xb)
  | .and xd xa xb => some (encF3 0x0C xd xa xb)
  | .or xd xa xb => some (encF3 0x0D xd xa xb)
  | .xor xd xa xb => some (encF3 0x0E xd xa xb)
  | .sll xd xa xb => some (encF3 0x0F xd xa xb)
  | .srl xd xa xb => some (encF3 0x10 xd xa xb)
  | .sra xd xa xb => some (encF3 0x11 xd xa xb)
  | .min xd xa xb => some (encF3 0x12 xd xa xb)
  | .max xd xa xb => some (encF3 0x13 xd xa xb)
  | .minu xd xa xb => some (encF3 0x14 xd xa xb)
  | .maxu xd xa xb => some (encF3 0x15 xd xa xb)
  | .slt xd xa xb => some (encF3 0x16 xd xa xb)
  | .sltu xd xa xb => some (encF3 0x17 xd xa xb)
  | .addi xd xa imm => some (encFI 0x20 xd xa 0 0 imm)
  | .andi xd xa imm => some (encFI 0x21 xd xa 0 0 imm)
  | .ori xd xa imm => some (encFI 0x22 xd xa 0 0 imm)
  | .xori xd xa imm => some (encFI 0x23 xd xa 0 0 imm)
  | .slli xd xa sh => some (encFI 0x24 xd xa 0 0 (sh.zeroExtend 32))
  | .srli xd xa sh => some (encFI 0x25 xd xa 0 0 (sh.zeroExtend 32))
  | .srai xd xa sh => some (encFI 0x26 xd xa 0 0 (sh.zeroExtend 32))
  | .slti xd xa imm => some (encFI 0x27 xd xa 0 0 imm)
  | .movi xd imm => some (encFI 0x28 xd 0 0 0 imm)
  | .movhi xd xa imm => some (encFI 0x29 xd xa 0 0 imm)
  | .cvta xd xa win => some (encFI 0x2A xd xa 0 (win.zeroExtend 6) 0)
  | .isap xd xa win => some (encFI 0x2B xd xa 0 (win.zeroExtend 6) 0)
  | .movb bn xa => some (encFI 0x2C (bn.zeroExtend 6) xa 0 0 0)
  | .movxb xd bn => some (encFI 0x2D xd (bn.zeroExtend 6) 0 0 0)
  | .pset sn xa => some (encFI 0x2E 0 xa 0 (sn.zeroExtend 6) 0)
  | .pget xd sn => some (encFI 0x2F xd 0 0 (sn.zeroExtend 6) 0)
  | .beq xa xb off => some (encFB 0x40 0 xa xb off)
  | .bne xa xb off => some (encFB 0x41 0 xa xb off)
  | .blt xa xb off => some (encFB 0x42 0 xa xb off)
  | .bge xa xb off => some (encFB 0x43 0 xa xb off)
  | .bltu xa xb off => some (encFB 0x44 0 xa xb off)
  | .bgeu xa xb off => some (encFB 0x45 0 xa xb off)
  | .jmp off => some (encFB 0x46 0 0 0 off)
  | .call xd off => some (encFB 0x47 xd 0 0 off)
  | .jr xd xa => some (encF3 0x48 xd xa 0)
  | .ld xd xa sc o off => some (encFM 0x60 xd xa 0 sc o off)
  | .st xb xa sc o off => some (encFM 0x61 0 xa xb sc o off)
  | .aadd xd xa xb sc o off => some (encFM 0x62 xd xa xb sc o off)
  | .amin xd xa xb sc o off => some (encFM 0x63 xd xa xb sc o off)
  | .amax xd xa xb sc o off => some (encFM 0x64 xd xa xb sc o off)
  | .aminu xd xa xb sc o off => some (encFM 0x65 xd xa xb sc o off)
  | .amaxu xd xa xb sc o off => some (encFM 0x66 xd xa xb sc o off)
  | .axchg xd xa xb sc o off => some (encFM 0x67 xd xa xb sc o off)
  | .acas xd xa xb sc o off => some (encFM 0x68 xd xa xb sc o off)
  | .afadd32 xd xa xb sc o off => some (encFM 0x69 xd xa xb sc o off)
  | .afadd16 xd xa xb sc o off => some (encFM 0x6A xd xa xb sc o off)
  | .fence sc k => some (encFM 0x6B 0 0 0 sc k 0)
  | .join xa imm => some (encFI 0x70 0 xa 0 0 (imm.zeroExtend 32))
  | .leave xa imm => some (encFI 0x71 0 xa 0 0 (imm.zeroExtend 32))
  | .sbar xa imm => some (encFI 0x72 0 xa 0 0 (imm.zeroExtend 32))
  | .tlwait xa c => some (encFI 0x74 0 xa 0 (c.zeroExtend 6) 0)
  | .tlread xd c cmp => some (encFI 0x75 xd 0 0 (c.zeroExtend 6) (cmp.zeroExtend 32))
  | .drain ch => some (encFI 0x76 0 0 0 (ch.zeroExtend 6) 0)
  | .qpush d => some (encFI 0x78 0 0 0 (d.zeroExtend 6) 0)
  | .qpop d => some (encFI 0x79 0 0 0 ((0 : BitVec 2) ++ d ++ (0 : BitVec 2)) 0)
  | .cbld cb xa imm => some (encFI 0x7A 0 xa 0 (cb.zeroExtend 6) imm)
  | .csrr xd n => some (encFI 0x7C xd 0 0 0 (n.zeroExtend 32))
  | .csrw xd xa n => some (encFI 0x7D xd xa 0 0 (n.zeroExtend 32))
  | .csrs xd xa n => some (encFI 0x7E xd xa 0 0 (n.zeroExtend 32))
  | .csrc xd xa n => some (encFI 0x7F xd xa 0 0 (n.zeroExtend 32))
  | .launch xd xa xc => some (encFI 0x80 xd xa xc 0 0)
  | .probe xd xa xc w => some (encFI 0x90 xd xa xc (w.zeroExtend 6) 0)
  | .quiesce => some (encFI 0x91 0 0 0 0 0)
  | .trap imm => some (encFI 0x92 0 0 0 0 imm)
  | .tret => some (encFI 0x93 0 0 0 0 0)
  | .nop => some (encFI 0x94 0 0 0 0 0)
  | .endC => some (encFI 0x95 0 0 0 0 0)
  | .tregReg xd xa => some (encFI 0xA0 xd xa 0 0 0)
  | .tregUpd xd xa => some (encFI 0xA0 xd xa 0 1 0)
  | .tregRst xd xa => some (encFI 0xA0 xd xa 0 2 0)
  | .tregDel xd xa => some (encFI 0xA0 xd xa 0 3 0)
  | .plan xd xa xc h n => some (encFI 0xA1 xd xa xc 0 (n ++ (0 : BitVec 12) ++ h))
  | .phint xd xa h => some (encFI 0xA2 xd xa 0 0 (h.zeroExtend 32))
  | .ppinOn xa => some (encFI 0xA3 0 xa 0 0 1)
  | .ppinOff xa => some (encFI 0xA3 0 xa 0 0 0)
  | .prun xd xa xc => some (encFI 0xA4 xd xa xc 0 0)
  | .prel xa => some (encFI 0xA5 0 xa 0 0 0)
  | .statrd xd xa xc => some (encFI 0xA6 xd xa xc 0 0)
  | .pfpr xd xa sel => some (encFI 0xA7 xd xa 0 (sel.zeroExtend 6) 0)
  | _ => none

/-- The 120 bits of an operand field (R133). -/
def opdBits (o : Opd) : BitVec 120 := o.base ++ o.off ++ o.s3 ++ o.s2 ++ o.s1 ++ o.s0

/-- The 512 bits of a record (R131, R132). -/
def recBits (opc : BitVec 8) (r : Rec) : RecWord :=
  opc ++ r.eng ++ r.fmt ++ r.push ++ r.pop ++ r.pred ++ r.stg ++ r.msk ++ r.dk ++ r.ak ++ r.bk ++ r.su ++ r.fn
    ++ r.t3 ++ r.t2 ++ r.t1 ++ r.t0 ++ opdBits r.d ++ opdBits r.a ++ opdBits r.b ++ r.moda ++ r.modb

/-- The record of an instruction of L, X or S (R141); none for what is no record. -/
def encodeRecord (i : Instr) : Option RecWord :=
  match i.rec?, recSpec i with
  | some r, some sp => some (recBits (BitVec.ofNat 8 sp.opc) r)
  | _, _ => none

/-- The bits of a well-formed instruction, numbered as R123 and R129 number them; none for the steps that are no
words. -/
def encode (i : Instr) : Option Nat :=
  match encodeRecord i with
  | some w => some w.toNat
  | none => (encodeWord i).map BitVec.toNat

end Sys2Proof
end

