-- ==== Sys2Proof/Machine/Turn.lean ====
section
/-! DEFINITION. A sequencer's turn: the fetch and decode of what stands at its pc (R129, R130, R143, R155, R401); the
passing of time; and which agent moves next (log entry 1). -/

namespace Sys2Proof.Machine

/-! ### A sequencer's turn -/

/-- What a turn comes to before the instruction is executed. -/
inductive Turn where
  /-- this instruction is executed in this state -/
  | run (i : Instr) (s : State)
  /-- the turn ends so: a fault taken, a fetch sent, or nothing to do -/
  | over (s : State)
deriving DecidableEq, Repr

/-- The bits of the word or record at a pc, in the row that holds it (R123, R129). -/
def bitsAt (q : Seqr) (pc : Word) (r : Row) : Nat :=
  match q with
  | .c => rowNat r (pc.toNat % 128 / 8 * 8) 8
  | _ => rowNat r (pc.toNat % 128 / 64 * 64) 64

/-- Whether a sequencer decodes an encoding that is refused: on an open run-ahead path a record of those that R274 names, with an
accumulator as R274 asks, while any other waits undecoded. -/
def refusedNow (st : Strand) (q : Seqr) (v : Nat) : Bool :=
  decodeOpen st q && (q ≠ .x || match st.episode with
    | none => true
    | some e => match recordFields (BitVec.ofNat 512 v) with
      | none => false
      | some i => (i.rec?).any (pathOk st e i))

/-- An encoding that is refused: ILLEGAL_OP at the word or record (R143, R185), held on a run-ahead path (R274). -/
def illegal (s : State) (key : Nat) (st : Strand) (q : Seqr) (v : Nat) (r : Reject) : State :=
  match q with
  | .c => takeFault s key st ⟨.illegalOp, r.slot, 0⟩
  | _ =>
    if refusedNow st q v then decodeFault s key st q ⟨.illegalOp, r.slot, 0⟩ else s

/-- Decode of what stands at a sequencer's pc. -/
def decodeTurn (s : State) (key : Nat) (st : Strand) (q : Seqr) (r : Row) : Turn :=
  match decodeAt q (bitsAt q (st.pcOf q) r) with
  | .ok i => .run i s
  | .error e => .over (illegal s key st q (bitsAt q (st.pcOf q) r) e)

/-- The row at a sequencer's pc: from its window, or fetched now; a row fetched so stands in the window, and what it holds is
fetched once (R130, R155, R401). -/
def fetchTurn (s : State) (key : Nat) (st : Strand) (q : Seqr) : Turn :=
  let pc := (st.pcOf q).toNat
  let window := match q with
    | .c => st.c.window
    | q => (st.rseq q).window
  match window.find? (fun p => p.1 = rowOf pc) with
  | some p => decodeTurn s key st q p.2
  | none =>
    match fetchAt s key st q pc with
    | .row r s1 =>
      let st1 := landRow (s1.strandAt key st) q (rowOf pc) r
      decodeTurn (s1.setStrand key st1) key st1 q r
    | .fault c s1 => .over (fetchFault s1 key (s1.strandAt key st) q c)
    | .far port a =>
      match fetchAsk s key st q pc port a with
      | (some c, s1) => .over (fetchFault s1 key st q c)
      | (none, s1) => .over s1
    | .hold => .over s

/-- A begun record that stands stalled on a queue. -/
def Op.stalled (o : Op) : Bool := o.begun && o.phase = .running && o.waiting = [] && o.hg.isNone

/-- Whether the sequencers of a strand may go on while a swap of its tile is pending: only to let a begun record that stands
on a queue come to its end, or a word of C inside which R157 allows no swap (R86, R192, R362; log entry 19); none while the slots
exchange (R362). -/
def swapLets (s : State) (tile : Nat) (st : Strand) : Bool :=
  !(s.tile tile).exchanging &&
    ((s.tile tile).swap.isNone || st.ops.any Op.stalled || !(st.c.ended || st.c.wait.swappable))

/-- The turn of a sequencer of the strand that runs on a tile. An imprecise fault that waits is delivered first (R359). -/
def turnOf (s : State) (tile : Nat) (q : Seqr) : Turn :=
  let key := runKey tile
  match s.strands.find? key with
  | none => .over s
  | some st =>
    if !st.started || st.endedOf q || isStage s st || !swapLets s tile st then .over s
    else if st.doomed || (q = .c && st.pendingFaults ≠ [] && st.atBoundary) then .over (deliverFirst s key st)
    else fetchTurn s key st q

/-- A turn begins: who executes, and how its accesses fare. -/
def beginTurn (s : State) (tile : Nat) (q : Seqr) (h : Health) : State :=
  { s with curTile := tile, curSeq := q, cycle := none, health := h }

/-! ### Turns of one cycle -/

/-- What a word or record writes at the end of its cycle, to stand over what others of that cycle write there. -/
inductive Landing where
  /-- a base register -/
  | base (n : Nat)
  /-- a stage predicate -/
  | pred (n : Nat)
  /-- a configuration register of C's that records count in: SRCTR, or the element counter beside a queue's format register -/
  | csr (n : Nat)
deriving DecidableEq, Repr

/-- What a word or record lets land (R56, R140, R162, R174, R208). -/
def landings (st : Strand) (q : Seqr) : Instr → List Landing
  | .movb bn _ => [.base bn.toNat]
  | .pset sn _ => [.pred sn.toNat]
  | .csrw _ _ n | .csrs _ _ n | .csrc _ _ n => [.csr n.toNat]
  | .endl r => [Slot.d, .a, .b].filterMap (fun z =>
      if kindOf r z = 1 then some (.base (baseIndex (st.rseq q).rotb (opdOf r z).base.toNat)) else none)
  | .rot r =>
    let run := match (st.rseq q).wait with
      | some _ => (st.rseq q).read.run
      | none => stageHolds st r
    if run && r.fn.getLsbD 1 then (List.range 8).map Landing.pred else []
  | _ => []

/-- A strand in which what lands is taken from another. -/
def Strand.land (st new : Strand) : Landing → Strand
  | .base n => st.wb n (new.rb n)
  | .pred n => st.setPred n (new.s.getLsbD n)
  | .csr 0x10 => { st with dqsnlx := new.dqsnlx }
  | .csr 0x11 => { st with dqsnxs := new.dqsnxs }
  | .csr 0x13 => { st with srctr := new.srctr }
  | .csr _ => st

/-- A strand as a turn of a cycle finds it: what changes only as the cycle ends stands as at its start, in `old` (R29, R59, R140,
R162, R174). C's turn is the last one made, so that the others meet none of its CSR writes. -/
def Strand.atStart (held old : Strand) : Strand :=
  { held with
    b := old.b, s := old.s
    tokens := old.tokens, dqlx := old.dqlx, dqxs := old.dqxs, bq := old.bq, rq := old.rq
    srctr := old.srctr, dqsnlx := old.dqsnlx, dqsnxs := old.dqsnxs }

/-- A queue after the pops or the pushes that one turn made of it: `old` as the cycle began, `held` as earlier turns left it, `new` as
this turn left it. -/
def joinQueue {α : Type} (old held new : List α) : List α :=
  if new.length < old.length then held.drop (old.length - new.length) else held ++ new.drop old.length

/-- A data queue joined so: the place that widening pops have reached goes with the pops (R58). -/
def joinDq (old held new : DataQueue) : DataQueue :=
  ⟨joinQueue old.rows held.rows new.rows, if new.bits = old.bits && old.rows.length ≤ new.rows.length then held.bits else new.bits⟩

/-- A value that this turn has not changed as earlier turns left it, one that it has changed as it left it. -/
def joinValue {α : Type} [DecidableEq α] (old held new : α) : α := if new = old then held else new

/-- The strand after a turn of a cycle, `new`, joined to those before it, which left it as `held`; `old` is the strand as the cycle
began. Tokens and queue entries are counted from there, and what lands stands over what was held (R29, R208). -/
def Strand.joined (old held new : Strand) (ls : List Landing) : Strand :=
  ls.foldl (fun t l => t.land new l)
    { new with
      b := held.b, s := held.s
      tokens := Vector.ofFn (fun i => held.tokens[i] + new.tokens[i] - old.tokens[i])
      dqlx := joinDq old.dqlx held.dqlx new.dqlx
      dqxs := joinDq old.dqxs held.dqxs new.dqxs
      bq := joinQueue old.bq held.bq new.bq
      rq := joinQueue old.rq held.rq new.rq
      srctr := joinValue old.srctr held.srctr new.srctr
      dqsnlx := joinValue old.dqsnlx held.dqsnlx new.dqsnlx
      dqsnxs := joinValue old.dqsnxs held.dqsnxs new.dqsnxs }

/-- What a turn of a cycle comes to, with what lands if the word or record is executed. -/
def cycleTurn (s : State) (tile : Nat) (q : Seqr) : Turn × List Landing :=
  match turnOf s tile q with
  | .over t => (.over t, [])
  | .run i t => (.run i t, match t.strands.find? (runKey tile) with
    | some st => landings st q i
    | none => [])

/-- Whether the word or record of a turn was executed: its sequencer has gone on, and C has entered no handler. -/
def wentOn (held new : Strand) (q : Seqr) : Bool := new.nextSeqno q ≠ held.nextSeqno q && new.act = held.act

/-- What has landed of a turn that led to a state: what its word or record lets land, if that was executed. -/
def landed (t : State) (held : Strand) (q : Seqr) (ls : List Landing) : List Landing :=
  match findUid t held.uid with
  | none => []
  | some (_, st) => if wentOn held st q then ls else []

/-- A turn of a cycle joined to those before it: the strand is found by its number. `held` is the strand as they left it. -/
def joinTurn (t : State) (old held : Strand) (ls : List Landing) : State :=
  match findUid t held.uid with
  | none => t
  | some (key, st) => t.setStrand key (old.joined held st ls)

/-- The turns of a cycle in the order in which their writes take precedence, one for each sequencer (R208). -/
def cycleOrder (qs : List (Seqr × Health)) : List (Seqr × Health) :=
  [Seqr.s, .x, .l, .c].filterMap (fun q => qs.find? (fun p => p.1 = q))

/-- The record that a channel accepts, of those that stand held before it. -/
def acceptedBy (st : Strand) (e : Nat) : Option Op :=
  st.ops.find? (fun o => o.eng = e && o.phase = .held && ((acceptHeld st e).findOp o.q o.seqno).any (·.phase ≠ .held))

/-- A channel accepts one record as a cycle ends (R23), which goes on; `fares` says how the accesses of a sequencer's record fare that
its turn has not made. -/
def closeChannel (uid : Nat) (p : State × List (Seqr × Health)) (e : Nat) : State × List (Seqr × Health) :=
  match findUid p.1 uid with
  | none => p
  | some (key, st) =>
    match acceptedBy st e with
    | none => p
    | some o =>
      let h := ((p.2.find? (fun f => f.1 = o.q)).map (·.2)).getD .clean
      (runOp key o.q o.seqno runFuel { p.1.setStrand key (acceptHeld st e) with health := h },
        p.2.filter (fun f => f.1 ≠ o.q))

/-- A cycle ends: each channel accepts at most one of the records presented to it (R23). -/
def closeCycle (uid : Nat) (fares : List (Seqr × Health)) (s : State) : State :=
  let s1 := ((List.range 4).foldl (closeChannel uid) (s, fares)).1
  { s1 with cycle := none, health := .clean }

/-! ### Time -/

/-- A strand's counts as time passes (R86, R344, R346, R365). The watchdog counts every tick in the running slot, but those in which
the slots exchange (R383). A gang's strand
that has not started collects no ticks toward QUANTUM, so it keeps the running slot until its decision, and may be brought in
by a quantum swap before it (DESIGN CHOICE, log entry 19). -/
def ageStrand (s : State) (cycles ticks : Nat) (p : Nat × Strand) : Nat × Strand :=
  let st := p.2
  if p.1 % 2 = 0 && !(s.tile (p.1 / 2)).exchanging then
    (p.1, if st.started then { st with
        wdcount := st.wdcount + ticks
        quantum := st.quantum + ticks
        scyc := if st.det && !launchParked s st.launch then st.scyc + cycles else st.scyc }
      else { st with wdcount := st.wdcount + ticks })
  else p

/-- A launch's schedule cycle as cycles pass: it counts from its start, but while it is parked (R344, R346). -/
def ageLaunch (s : State) (cycles : Nat) (p : Nat × Launch) : Nat × Launch :=
  if pkDet p.2.packet && p.2.started && !launchParked s p.1 then (p.1, { p.2 with scyc := p.2.scyc + cycles }) else p

/-- A tile's bank-conflict counters as cycles pass: each adds the cycles its requester waited, saturating (R380). -/
def ageTile (n cycles : Nat) (p : Nat × Tile) : Nat × Tile :=
  if bcOn p.2 then
    (p.1, { p.2 with bcm := (List.range (32 * 14)).foldl (fun m i =>
      let k := i / 32 * 32 + i % 32
      let v := (cellGet (0 : BitVec 32) m k).toNat + Config.bankWaits (n + 448 * p.1 + i) % (cycles + 1)
      cellSet 0 m k (BitVec.ofNat 32 (min v (2 ^ 32 - 1)))) p.2.bcm })
  else p

/-- Arithmetic-clock cycles and reference-clock ticks pass; during a stop only DEVTIME counts (R81, R374). -/
def passTime (s : State) (cycles ticks : Nat) : State :=
  let s1 := s.setDev { s.dev with devtime := s.dev.devtime + BitVec.ofNat 64 ticks }
  if s.dev.stopped then s1
  else
    { s1 with
      strands := s1.strands.map (ageStrand s cycles ticks)
      tiles := s1.tiles.map (ageTile s.nfree cycles)
      nfree := s.nfree + 448 * Config.tiles
      dev := { s1.dev with
        ivpending := s1.dev.ivpending.map (fun p => (p.1, p.2 + ticks))
        launches := s1.dev.launches.map (ageLaunch s cycles) } }

/-! ### Who moves next -/

/-- Whether a move may be made during a stop: register writes, the host's accesses, the clock (R374). -/
def Move.live : Move → Bool
  | .clock _ _ => true
  | .seq _ _ _ => false
  | .cycle _ _ => false
  | .fare _ => true
  | .event i => match i with
    | .registerWrite _ _ _ _ | .qctlWrite _ _ | .qbaseWrite _ _ | .pwrctlWrite _ | .swapreq _ | .ivctlGo _
    | .prqack _ _ _ | .killStrand _ | .killLaunch _ | .breakpointResume | .chrysalisStopRequest | .chrysalisResume
    | .cocoonDump | .cocoonDumpEnd _ | .bcmClear _ _ | .hostRead _ _ _ _ | .hostWrite _ _ _ _
    | .hostAtomicop _ _ _ _ _ _ | .reset | .powerThrottle _ _ _ _ | .thermalShutdown
    | .coolantEnvelopeChange _ => true
    | _ => false

/-- The first move of a list that is live, and the list without it. -/
def firstLive : List Move → Option (Move × List Move)
  | [] => none
  | m :: ms =>
    if m.live then some (m, ms)
    else match firstLive ms with
      | some (n, rest) => some (n, m :: rest)
      | none => none

/-- The records of a strand that may retire now (R104, R122). -/
def retirable (st : Strand) : List Op :=
  st.ops.filter (fun o => o.retiresEarly || (o.phase = .complete && !o.retired && retireTurn st o))

/-- Moves of a strand that runs on a tile. -/
def strandMoves (s : State) (tile : Nat) (st : Strand) : List Move :=
  let seqs := [Seqr.c, .l, .x, .s].filter (fun q => st.started && !st.endedOf q && !isStage s st && swapLets s tile st)
  let done := (List.range 9).filter (fun e => (readyOp s st e).isSome)
  let stuck := [Seqr.l, .x, .s].filter (fun q => st.ops.any (fun o => o.q = q && o.phase ≠ .complete && o.phase ≠ .done))
  seqs.map (fun q => .seq tile q .clean)
    ++ done.map (fun e => .event (.engineOperationComplete tile e .clean))
    ++ (retirable st).map (fun o => .event (.recordRetire tile o.q o.seqno))
    ++ (if st.ops.any (fun o => isGather o.ins && o.hg.isSome && o.phase = .running) then [.event (.chainRead tile)] else [])
    ++ stuck.map (fun q => .event (.stallRelease tile q))
    ++ (if st.episode.isSome then [.event (.runaheadResolution tile)] else [])
    ++ (if st.wdlimit ≠ 0 && st.wdlimit ≤ st.wdcount then [.event (.watchdog tile)] else [])

/-- Moves of a tile beside those of its running strand. -/
def tileMoves (s : State) (tile : Nat) : List Move :=
  let a := s.strands.find? (2 * tile)
  let b := s.strands.find? (2 * tile + 1)
  (match a with
    | some st => strandMoves s tile st
    | none => [])
    ++ (match a, b with
      | some x, some y =>
        if !x.det && !y.det && x.started && s.dev.quantum.toNat ≤ x.quantum && (s.tile tile).swap.isNone then
          [.event (.quantumExpiry tile)] else []
      | _, _ => [])
    ++ (if faultDue s (2 * tile) || faultDue s (2 * tile + 1) then [.event (.impreciseFaultDelivery tile)] else [])
    ++ (if slotOver s (2 * tile) || slotOver s (2 * tile + 1) then [.event (.strandEnd tile)] else [])
    ++ (if (s.tile tile).swap.isSome || (s.tile tile).exchanging then [.event (.swap tile)] else [])
    ++ (match a, s.dev.ivpending.find? (2 * tile) with
      | some _, some age => if s.dev.ivlimit.toNat ≤ age then [.event (.quiesceTimeout tile)] else []
      | _, _ => [])

/-- Moves of a launch. -/
def launchMoves (s : State) (p : Nat × Launch) : List Move :=
  let l := p.2
  (if pkDet l.packet && l.bound = 0 && !l.killed then [.event (.deterministicLaunchStart p.1)] else [])
    ++ (if l.gang = .armed && decisionTick s l then [.event (.gangDecision p.1)] else [])
    ++ (if pkDet l.packet && !l.parked && launchParked s p.1 then [.event (.launchPark p.1)] else [])
    ++ (if l.parked && !launchParked s p.1 then [.event (.parkedResume p.1)] else [])

/-- Moves of the planner. -/
def plannerMoves (s : State) : List Move :=
  (match s.planner.reqs with
    | .word _ _ :: _ => [.event .plannerRequestApply]
    | .sample _ _ _ _ _ _ _ _ :: _ => [.event .atlasSampleApply]
    | [] => [])
    ++ s.planner.runs.map (fun r => .event (.planBreak r.num))

/-- Moves of the command processors and of what is on its way. -/
def deviceMoves (s : State) : List Move :=
  (if s.dev.stopPending then [.event .chrysalisStop] else [])
    ++ (if s.dev.setReqs.isEmpty then [] else [.event (.setRequestApply 0)])
    ++ (if s.dev.setAnswers.isEmpty then [] else [.event (.setAnswerArrival 0)])
    ++ (if s.dev.atoms.isEmpty then [] else [.event (.atomicPerform 0)])
    ++ (if s.dev.links.isEmpty then [] else [.event (.hawkmothLink 0)])
    ++ (if s.dev.killctl.getLsbD 31 then [.event .killDone] else [])
    ++ (if !dispatchHeld s.dev && (s.dev.held.isSome || s.dev.drawing.isSome || !(servedQueues s.dev).isEmpty) then [.event .lotteryDraw] else [])
    ++ ((List.range 4).filter (fun d => s.dev.ready.getLsbD d && (binder s d).isSome && (slotFor s d).isSome)).map
      (fun d => .event (.strandBind (BitVec.ofNat 2 d)))

/-- The tiles that hold a strand or a pending swap, or whose slots exchange. -/
def busyTiles (s : State) : List Nat :=
  (List.range Config.tiles).filter (fun t =>
    (s.strands.find? (2 * t)).isSome || (s.strands.find? (2 * t + 1)).isSome || (s.tile t).swap.isSome
      || (s.tile t).exchanging)

/-- Every move that the device itself can make now. -/
def ownMoves (s : State) : List Move :=
  (busyTiles s).flatMap (tileMoves s) ++ s.dev.launches.flatMap (launchMoves s) ++ plannerMoves s ++ deviceMoves s

/-- The first retirement, on a tile that holds a strand, of a record whose engine has accepted its last single issue
(R122). -/
def earlyRetire (s : State) : Option Move :=
  s.strands.findSome? (fun p =>
    if p.1 % 2 = 0 then (p.2.ops.find? Op.retiresEarly).map (fun o => .event (.recordRetire (p.1 / 2) o.q o.seqno))
    else none)

/-- The move that the model makes when the agenda lists none: a record that R122 retires does so at once; then come the
device's own moves in turn, and then a tick of the reference clock, 19 cycles of the arithmetic clock (log entry 1). -/
def ownMove (s : State) : Move × State :=
  if s.dev.stopped then (.clock 0 1, s)
  else
    match earlyRetire s with
    | some m => (m, s)
    | none =>
      let ms := ownMoves s
      match ms[s.turn]? with
      | some m => (m, { s with turn := s.turn + 1 })
      | none => (.clock 19 1, { s with turn := 0 })

/-- The move that comes next, and the state with it taken from the agenda. During a stop, moves that cannot be made wait
(R374). -/
def nextMove (s : State) : Move × State :=
  match s.agenda with
  | [] => ownMove s
  | m :: ms =>
    if s.dev.stopped then
      match firstLive (m :: ms) with
      | some (n, rest) => (n, { s with agenda := rest })
      | none => ownMove s
    else (m, { s with agenda := ms })

/-- Whether an instruction is an event and no word or record. -/
def Instr.isEvent (i : Instr) : Bool := !i.isWord && i.rec?.isNone

/-! ### A word placed where the machine fetches next (log entry 20) -/

/-- The page that holds the placed word: the second 2 MiB of stack 0, mapped at its own address. -/
def placedPage : Nat := 2 ^ 21

/-- Its leaf entry: V, leaf, W, target HBM. -/
def placedLeaf : Word := BitVec.ofNat 64 (placedPage + 7)

/-- The bytes of an instruction of nbits bits, the bits above them 0, up to a whole record. -/
def placedBytes (nbits w : Nat) : List Byte := leBytes 64 (w % 2 ^ nbits)

/-- The sequencer that executes an instruction of the table. -/
def placedSeqr (nbits w : Nat) : Seqr := if nbits ≤ 64 then .c else recordSeqr (bitsOf (w % 2 ^ nbits) 504 8)

/-- A strand with a sequencer standing before the placed word, and its page in the TLB that serves the fetch. -/
def placedStrand (st : Strand) (q : Seqr) : Strand :=
  let pc : Word := BitVec.ofNat 64 placedPage
  let st1 := (({ st with started := true, pendingFaults := [], episode := none, ops := [] } : Strand).touch (fetchTlb q)
    ⟨placedPage, true, placedLeaf, 0⟩)
  match q with
  | .c => { st1 with c := CSeq.start pc false }
  | q => st1.setRseq q (RSeq.start pc false)

end Sys2Proof.Machine
end

