-- ==== Sys2Proof/Machine/Step.lean ====
section
/-! DEFINITION. One step of the machine: the next move, made. -/

namespace Sys2Proof.Machine

/-- A turn carried out. -/
def runTurn : Turn → Host.Outcome State Fault Refusal
  | .run i s => exec i s
  | .over s => .next s

/-- The state in which a turn of a cycle is made: the strand as the cycle began, where that counts, and what the turns before it
used of the record-fetch TLB. -/
def beginJoint (s : State) (tile : Nat) (old held : Strand) (q : Seqr) (h : Health) : State :=
  { beginTurn (s.setStrand (runKey tile) (held.atStart old)) tile q h with cycle := some ⟨old, ((s.cycle.map (·.uses)).getD [])⟩ }

/-- The turns of one cycle carried out for a strand, in order of precedence: each finds what changes only at the cycle's end as it
stood in `old`, their writes are joined, of those that land on one register the first, and then the channels accept (R23, R29,
R140, R162, R208). `taken` is what has landed, `fares` the health that turns have left for accesses still to come. -/
def runCycle (tile : Nat) (old : Strand) (taken : List Landing) (fares : List (Seqr × Health)) :
    List (Seqr × Health) → State → Host.Outcome State Fault Refusal
  | [], s => .next (closeCycle old.uid fares s)
  | (q, h) :: rest, s =>
    match s.strands.find? (runKey tile) with
    | none => .next (closeCycle old.uid fares s)
    | some held =>
      if held.uid ≠ old.uid then .next (closeCycle old.uid fares s)
      else
        let s1 := beginJoint s tile old held q h
        match runTurn (cycleTurn s1 tile q).1 with
        | .next t =>
          let ls := landed t held q (cycleTurn s1 tile q).2
          runCycle tile old (taken ++ ls) ((q, t.health) :: fares) rest
            (joinTurn t old held (ls.filter (fun l => !taken.contains l)))
        | o => o

/-- A move made. -/
def makeMove (m : Move) (s : State) : Host.Outcome State Fault Refusal :=
  match m with
  | .seq tile q h => runTurn (turnOf (beginTurn s tile q h) tile q)
  | .cycle tile qs =>
    match s.strands.find? (runKey tile) with
    | none => .next s
    | some st => runCycle tile st [] [] (cycleOrder qs) { s with cycle := none }
  | .event i => if Instr.isEvent i then exec i s else .refused .noSuchExecution
  | .fare h => .next { s with health := h }
  | .clock cycles ticks => .next (passTime s cycles ticks)

/-- One step: the next move is taken and made; after a thermal shutdown nothing moves but a power cycle (R397). -/
def step (s : State) : Host.Outcome State Fault Refusal :=
  if s.dev.shutdown then
    match s.agenda with
    | .event .reset :: rest => exec .reset { s with agenda := rest }
    | _ => .fault .shutdown
  else makeMove (nextMove s).1 (nextMove s).2

/-- The state with an instruction stored where a sequencer of a strand on tile 0 fetches next, and that sequencer's turn
the next move (log entry 20). -/
def State.withFetchWord (s : State) (nbits w : Nat) : State :=
  let q := placedSeqr nbits w
  let st := placedStrand ((s.strands.find? 0).getD Strand.blank) q
  { s with
    mem := writeBytes s.mem placedPage (placedBytes nbits w)
    strands := s.strands.insert 0 st
    tiles := cellSet Tile.reset s.tiles 0 { cellGet Tile.reset s.tiles 0 with swap := none, exchanging := false }
    dev := { s.dev with
      ready := s.dev.ready ||| BitVec.ofNat 32 (2 ^ 5)
      stopped := false
      shutdown := false
      launches := s.dev.launches.erase st.launch }
    agenda := [.seq 0 q .clean] }

end Sys2Proof.Machine
end

