-- ==== Sys2Proof/Safety.lean ====
section
/-! DEFINITION. The terms claims are stated in: when a sequencer executes, when a record is decoded, what a word changes,
the form data keeps, and what a safe run is. -/

namespace Sys2Proof.Machine

/-! ### Who executes -/

/-- C of this strand, on the tile that has the turn, executes a word. -/
def CRuns (s : State) (st : Strand) : Prop :=
  s.strands.find? (runKey s.curTile) = some st ∧ s.curSeq = .c ∧ st.started = true ∧ st.c.ended = false

/-- The state in which the strand that has the turn has become another. -/
def State.withStrand (s : State) (st : Strand) : State := s.setStrand (runKey s.curTile) st

/-- A record sequencer of this strand has the turn and its stream has not ended. -/
def RecRuns (s : State) (st : Strand) (q : Seqr) : Prop :=
  s.strands.find? (runKey s.curTile) = some st ∧ s.curSeq = q ∧ q ≠ .c ∧ st.started = true ∧
    (st.rseq q).ended = false

/-- The sequencer that has the turn decodes this record now: nothing it carries out itself is under way, the record
breaks no rule that depends on its loop stack, and every token it pops is there. -/
def Decodes (s : State) (st : Strand) (q : Seqr) (i : Instr) (r : Rec) : Prop :=
  RecRuns s st q ∧ mayDecode st q i r = true ∧ decodeBreaks st q i r = none ∧ (st.rseq q).wait = none ∧
    popsReady st q r = true

/-- The strand in which a sequencer has decoded a record and popped its tokens. -/
def Strand.decoded (st : Strand) (q : Seqr) (r : Rec) : Strand :=
  (popTokens st q r).setRseq q ((st.rseq q).next)

/-- The turn of sequencer q of the strand that runs on a tile is the next move, and the sequencer fetches in state s0: the
clocks run, the stream has not ended, no swap holds it back and no imprecise fault is to be delivered, or to end the strand,
first. -/
def TurnComes (s : State) (tile : Nat) (q : Seqr) (h : Health) (st : Strand) (s0 : State) : Prop :=
  s.dev.shutdown = false ∧ s.dev.stopped = false ∧
    (∃ rest, s.agenda = .seq tile q h :: rest ∧ s0 = beginTurn { s with agenda := rest } tile q h) ∧
    s0.strands.find? (runKey tile) = some st ∧ st.started = true ∧ st.endedOf q = false ∧ isStage s0 st = false ∧
    swapLets s0 tile st = true ∧ st.doomed = false ∧ (q = .c → st.pendingFaults = [] ∨ st.atBoundary = false)

/-- Sequencer q has the row of its pc: from its window, or read now from HBM through its TLB or a walk, and put there (R123,
R129, R130, R155); a row read now meets no error (R364). -/
def Fetches (s0 : State) (tile : Nat) (st : Strand) (q : Seqr) (r : Row) (s1 : State) : Prop :=
  let pc := (st.pcOf q).toNat
  (∃ a, (st.windowOf q).find? (fun p => p.1 = rowOf pc) = some (a, r) ∧ s1 = s0) ∨
  ((st.windowOf q).find? (fun p => p.1 = rowOf pc) = none ∧ pc < 2 ^ 56 ∧ s0.health = .clean ∧ ∃ e k,
    translate s0 st (fetchTlb q) pc = .found e ∧ e.target pc = .cell k ∧ stackReady s0.dev.ready k = true ∧
      r = readRow s0.mem k ∧ s1 = s0.setStrand (runKey tile) (landRow (st.touch (fetchTlb q) e) q (rowOf pc) r))

/-- The fields of a record that an engine carries out; none for words, and for the records a sequencer carries out itself
(R141, R208). -/
def engineRecord : Instr → Option Rec
  | .rmerge _ | .bqpush _ | .loop _ | .loopq _ | .endl _ | .rot _ | .drainRec _ | .tlwaitRec _ | .sync _ | .endRec _
  | .brq _ | .hcfgRet _ => none
  | i => i.rec?

/-- A record stands alone before its sequencer: it is decoded now, its stage predicate holds, no trip count is 0, no other
record of the strand is under way, no run-ahead path is open, its turn is in a cycle of its own (R23), and its accesses meet no
error (R364). -/
def StandsAlone (s : State) (st : Strand) (q : Seqr) (i : Instr) (r : Rec) : Prop :=
  engineRecord i = some r ∧ i.wf q = true ∧ s.curSeq = q ∧ s.cycle = none ∧ s.health = .clean ∧ Decodes s st q i r ∧ st.ops = [] ∧
    st.episode = none ∧ stageHolds (popTokens st q r) r = true ∧ r.total ≠ 0

/-- The strand st' after a record that made its issues, where st is the strand with what the record computes put in: its
tokens are popped, its sequencer stands at the next record, its number is taken, SRCTR has moved where it rounds
stochastically (R56), and it awaits its completion. -/
def AwaitsCompletion (st st' : Strand) (q : Seqr) (i : Instr) (r : Rec) : Prop :=
  { st' with tokens := st.tokens, l := st.l, xs := st.xs, ss := st.ss, tl := st.tl, contest := st.contest, ops := st.ops,
             ordered := st.ordered, pages := st.pages, srctr := st.srctr } = st ∧
    st'.srctr = (if roundsStoch i r then nextCtr st.srctr else st.srctr) ∧
    st'.tokens = (popTokens st q r).tokens ∧ (∀ q', q' ≠ q → st'.rseq q' = st.rseq q') ∧
    st'.rseq q = (st.rseq q).next ∧ (∀ j, j ≠ r.eng.toNat → st'.tlAt j = st.tlAt j) ∧
    st'.tlAt r.eng.toNat = (st.tlAt r.eng.toNat).take ∧
    ∃ o, st'.ops = [o] ∧ o.ins = i ∧ o.phase = .done ∧ o.num = (st.tlAt r.eng.toNat).issue + 1

/-- The address that a record's operand names at its first index: its base register, under the rotation base, and its
offset (R134, R135). -/
def Strand.opAddr (st : Strand) (q : Seqr) (o : Opd) : Nat :=
  (st.rb (baseIndex (st.rseq q).rotb o.base.toNat) + o.off.signExtend 64).toNat

/-- A record alone in its strand makes its issues in one turn and awaits its completion: st2 is the strand with what it
computed, and memory afterwards has a property. -/
def RecordEnds (i : Instr) (r : Rec) (s : State) (q : Seqr) (st2 : Strand) (P : List Host.Cell → Prop) : Prop :=
  ∃ t st', exec i s = .next t ∧ t = (s.withStrand st').setMem t.mem ∧ AwaitsCompletion st2 st' q i r ∧ P t.mem

/-- The address of the element at position e of one issue's operand, for elements of z bytes (R135, R217). -/
def Strand.elemAddr (st : Strand) (q : Seqr) (r : Rec) (o : Opd) (z e : Nat) : Nat :=
  addrPlus (st.opAddr q o) (unitOf r * (e * o.s0.toInt)) / z * z

/-- Every byte of memory outside n bytes from a key is as before. -/
def KeptOutside (m m' : List Host.Cell) (k n : Nat) : Prop :=
  ∀ b, ¬(k ≤ b ∧ b < k + n) → readByte m' b = readByte m b

/-- Memory reads as before everywhere. -/
def KeptWhole (m m' : List Host.Cell) : Prop := ∀ b, readByte m' b = readByte m b

/-- The bytes of an SRAM operand that an address names stand at this key of memory. -/
def AtSram (s : State) (a k : Nat) : Prop :=
  ∃ p, decodeAddr s.curTile a = some p ∧ p.win ≠ 3 ∧ p.off < 0x600000 ∧ (p.win = 0 ∨ s.dev.failed p.tile = false) ∧
    k = sliceKey p.tile p.off

/-! ### Numbers (R52, R53) -/

/-- The rational number of a finite value. -/
def Val.rat : Val → Rat
  | .fin neg m e => (if neg then -(m : Rat) else (m : Rat)) * 2 ^ e
  | _ => 0

/-- A value is finite and this rational number. -/
def Val.Is (v : Val) (x : Rat) : Prop := v.isNaN = false ∧ v.isInf = false ∧ v.rat = x

/-- The integer that a magnitude n + x, 0 ≤ x < 1, is rounded to (R52). -/
def RoundsUp (mode : RMode) (n : Nat) (x : Rat) : Prop :=
  match mode with
  | .rne => 1 / 2 < x ∨ (x = 1 / 2 ∧ n % 2 = 1)
  | .rtz => False
  | .stoch r => (r : Int) < (x * 65536).floor

/-- Round of R52, with the overflow of R53: bits encode ±v, v > 0, rounded into a floating-point format. -/
def RoundsTo (f : Nat) (mode : RMode) (sat neg : Bool) (v : Rat) (bits : Nat) : Prop :=
  let drop (e : Int) : Int := e - (floatSpec f).fbits
  let emin : Int := 1 - (floatSpec f).bias
  ∀ (e : Int) (n k : Nat) (x : Rat), emin ≤ e → v < 2 ^ (e + 1) → (e = emin ∨ 2 ^ e ≤ v) →
    v = ((n : Rat) + x) * 2 ^ drop e → 0 ≤ x → x < 1 → (RoundsUp mode n x → k = n + 1) → (¬RoundsUp mode n x → k = n) →
    let m : Rat := (k : Rat) * 2 ^ drop e
    let top : Rat := (decodeFloat f (largestFinite f false)).rat
    (m ≤ top → (decodeFloat f bits).Is (if neg then -m else m) ∧ (decodeFloat f bits).neg = neg) ∧
      (top < m → bits = if sat = true ∨ mode = .rtz then largestFinite f neg else infinityEnc f neg)

/-- A result that is this rational number before it is rounded; zero is left to the record's own rule. -/
def Rounds (f : Nat) (mode : RMode) (sat : Bool) (x : Rat) (bits : Nat) : Prop :=
  (0 < x → RoundsTo f mode sat false x bits) ∧ (x < 0 → RoundsTo f mode sat true (-x) bits)

/-- A sum of two numbers of a floating-point format under RNE and NSAT, given by their encodings: the exact sum rounded once; a NaN,
or infinities of both signs, give the canonical NaN (R44, R52, R107). The sign of an exact zero is that of R225 (log entry 64). -/
def SumRounds (f a b bits : Nat) : Prop :=
  let x := decodeFloat f a
  let y := decodeFloat f b
  (∀ p q : Rat, x.Is p → y.Is q → Rounds f .rne false (p + q) bits ∧
    (p + q = 0 → bits = zeroEnc f (p == 0 && x.neg && y.neg))) ∧
  (x.isNaN = true ∨ y.isNaN = true ∨ (x.isInf = true ∧ y.isInf = true ∧ x.neg ≠ y.neg) → bits = canonicalNaN f) ∧
  (∀ n, x = .inf n → y.isNaN = false → y ≠ .inf (!n) → bits = infinityEnc f n) ∧
  (∀ n, y = .inf n → x.isNaN = false → x ≠ .inf (!n) → bits = infinityEnc f n)

/-- One block of K: the running value, given by its A96 encoding, with the products of the block that are present. Finite ones give
their exact sum rounded once to A96, +0 where it is zero; a NaN, or infinities of both signs, give the canonical NaN; otherwise an
infinity prevails (R254, R255). -/
def BlockRounds (c : Nat) (ps : List Val) (bits : Nat) : Prop :=
  let vs := decodeFloat 10 c :: ps
  let x := (vs.map Val.rat).sum
  ((∀ v ∈ vs, v.isNaN = false ∧ v.isInf = false) → Rounds 10 .rne false x bits ∧ (x = 0 → bits = 0)) ∧
  ((∃ v ∈ vs, v.isNaN = true) ∨ (.inf false ∈ vs ∧ .inf true ∈ vs) → bits = canonicalNaN 10) ∧
  (∀ n, .inf n ∈ vs → .inf (!n) ∉ vs → (∀ v ∈ vs, v.isNaN = false) → bits = infinityEnc 10 n)

/-! ### Products and tile registers -/

/-- The shape of tile register n (R26). -/
def Strand.shape (st : Strand) (n : Nat) : BitVec 32 := if h : n < 16 then st.tshape[n] else 0

/-- Formats of A and B that make a product (R253). -/
def Pairs (f g : Nat) : Prop :=
  (f = 2 ∧ g = 2) ∨ (f = 3 ∧ g = 3) ∨ ((f = 4 ∨ f = 5) ∧ (g = 4 ∨ g = 5)) ∨ ((f = 6 ∨ f = 7) ∧ (g = 6 ∨ g = 7)) ∨
    ((f = 11 ∨ f = 12) ∧ (g = 11 ∨ g = 12)) ∨ (f = 13 ∧ g = 13)

/-- Element (row, k) of a matrix operand in tile register n, by rows or transposed, its stored rows permuted (R136,
R252). -/
def Strand.matElem (st : Strand) (n f : Nat) (tr : Bool) (m : BitVec 12) (x k : Nat) : Val :=
  if tr then tileElem (st.tile n) f (shWidth (st.shape n)) k (modSource m x)
  else tileElem (st.tile n) f (shWidth (st.shape n)) x (modSource m k)

/-- The operands of a product meet every rule of R252, with formats fa and fb, transposed or not, where an element of A
stands for `fac` steps of k: the product is m by n over k. -/
def ProductFits (st : Strand) (r : Rec) (fa fb : Nat) (ta tb : Bool) (fac m n k : Nat) : Prop :=
  let sa := st.shape r.a.base.toNat
  let sb := st.shape r.b.base.toNat
  let ea := rowElems fa (shWidth sa)
  let eb := rowElems fb (shWidth sb)
  0 < shRows sa ∧ 0 < shRows sb ∧
    regFormat (st.tile r.a.base.toNat).tag r.fmt = some fa ∧ regFormat (st.tile r.b.base.toNat).tag r.fmt = some fb ∧
    ewCode (fmtWidth fa) = shEw sa ∧ ewCode (fmtWidth fb) = shEw sb ∧
    (isBlockFmt fa = true → ta = false ∧ modOn r.moda = false) ∧
    (isBlockFmt fb = true → tb = false ∧ modOn r.modb = false) ∧
    modBreaks r.moda ea = false ∧ modBreaks r.modb eb = false ∧
    m = (if ta then ea else shRows sa) ∧ k = (if ta then shRows sa else ea * fac) ∧
    n = (if tb then eb else shRows sb) ∧ k = (if tb then shRows sb else eb) ∧ m ≤ 128 ∧ n ≤ 128

/-- An accumulator after a product of m by n: these values inside, the old ones elsewhere, tag A96 (R250, R254). -/
def ProductGives (a a' : AccReg) (m n : Nat) (v : Nat → Nat → Nat) : Prop :=
  a'.tag = 10 ∧ ∀ x y, x < 128 → y < 128 → (x < m ∧ y < n → a'.at x y = BitVec.ofNat 96 (v x y)) ∧
    (¬(x < m ∧ y < n) → a'.at x y = a.at x y)

/-- A tile register after a load in a format without block scales: the first `width` bytes of each row of the shape hold
v, all other bytes what they held (R201; log entry 13). -/
def LoadedFrom (t t' : TileReg) (f width rows : Nat) (v : Nat → Nat) : Prop :=
  t'.tag = BitVec.ofNat 4 f ∧ t'.scale = [] ∧
    (∀ x, x < rows → t'.rowNat x % 256 ^ width = v x % 256 ^ width ∧ t'.rowNat x / 256 ^ width = t.rowNat x / 256 ^ width) ∧
    ∀ x, rows ≤ x → t'.rowNat x = t.rowNat x

/-- A tile row read from the first bytes of a memory row in a format without block scales, its elements permuted (R136,
R201). -/
def loadedRow (m : BitVec 12) (f width v : Nat) : Nat :=
  permuteRow m (fmtWidth f) (rowElems f width) (v % 256 ^ width)

/-- The bits that one element of a record rounds with: its mode by the RND field, and for a stochastic one the stream of
SRSEED and SRCTR as they stand at its issue (R55, R56). -/
def Strand.modeOf (st : Strand) (rnd l : Nat) : RMode :=
  rndMode rnd (recordKey st.srseed (st.srctr.toNat % 2 ^ 31) l)

/-! ### Records of the sequencers -/

/-- A record that its sequencer carries out itself takes effect now: it is decoded, PRED lets it go on, and it pushes no
token (R208, R138). -/
def OwnRuns (s : State) (st : Strand) (q : Seqr) (i : Instr) (r : Rec) : Prop :=
  s.curSeq = q ∧ Decodes s st q i r ∧ predOk st q ((st.rseq q).seqno + 1) r.pred.toNat = true ∧ r.push = 0

/-- A record that its sequencer carries out itself stands waiting, its token pops made. -/
def OwnWaits (s : State) (st : Strand) (q : Seqr) (i : Instr) (r : Rec) (w : Wait) : Prop :=
  s.curSeq = q ∧ RecRuns s st q ∧ mayDecode st q i r = true ∧
    (st.rseq q).wait = some w ∧ predOk st q ((st.rseq q).seqno + 1) r.pred.toNat = true ∧ r.push = 0

/-- A record that its sequencer carries out itself ends: the strand is st2 but for its orderings, and its sequencer stands
as given. -/
def OwnEnds (i : Instr) (s : State) (st2 : Strand) (q : Seqr) (rs : RSeq) : Prop :=
  ∃ st', exec i s = .next (s.withStrand st') ∧ { st' with ordered := st2.ordered } = st2.setRseq q rs

/-- A record that its sequencer carries out itself keeps its place and waits, with what it read at its decode (R140). -/
def OwnStays (i : Instr) (s : State) (st2 : Strand) (q : Seqr) (d : AtDecode) (w : Wait) : Prop :=
  exec i s = .next (s.withStrand (st2.setRseq q { st2.rseq q with wait := some w, read := d }))

/-- Every copy of a channel numbered up to v is done as DRAIN has it: complete, or for an RLD, TLD, KLD or RQLD its reads made and
come, the issues left having no element in bounds (R105, R197, R215). -/
def CopiesDone (st : Strand) (ch v : Nat) : Prop :=
  ∀ n, (st.tlAt ch).completion < n → n ≤ v → n ∈ (st.tlAt ch).early ∨ ∃ o ∈ st.ops, o.r.eng.toNat = ch ∧ o.num = n ∧
    (o.phase = .complete ∨ ∃ r, (o.ins = .rld r ∨ o.ins = .tld r ∨ o.ins = .kld r ∨ o.ins = .rqld r) ∧
      (o.phase = .done ∨ (o.phase = .running ∧ o.waiting = [] ∧ ∀ m, o.n ≤ m → m < r.total →
        ∃ l, o.layout = some l ∧ ∀ p < o.issueElems l, inBounds l (idxOf o.r m) p = false)))

/-! ### Draws -/

/-- A new draw of the command processors takes this head, no breakpoint and no plan stage among it, and consumes it: s2 is the
state with the generator moved, TYPE of the slot 0 and RDIDX one higher (R71 to R73). -/
def DrawsHead (s : State) (e : Entrant) (s2 : State) : Prop :=
  let tickets (es : List Entrant) : Nat := (es.map (fun e => queueTickets s.dev e.queue)).sum
  let x := s.dev.lseed
  let y := x ^^^ (x <<< 13)
  let z := y ^^^ (y >>> 7)
  let seed := z ^^^ (z <<< 17)
  let index := seed.toNat * tickets (entrants s) / 2 ^ 64
  let fn := queueFn s.dev e.queue
  let slot := queueBase s.dev e.queue + 256 + 64 * (e.rd % 2 ^ queueLogsz s.dev e.queue)
  let read := queueBase s.dev e.queue + 128
  dispatchHeld s.dev = false ∧ s.dev.held = none ∧ s.dev.drawing = none ∧ s.health = .clean ∧ (∀ q ∈ servedQueues s.dev, queueHead s q ≠ .broken) ∧
    headsComing s (servedQueues s.dev) = false ∧ bpHits s.dev e.queue e.packet = [] ∧ stageRun s e.queue e.rd = none ∧
    ∃ pre post ks kr, entrants s = pre ++ e :: post ∧ tickets pre ≤ index ∧
      index < tickets pre + queueTickets s.dev e.queue ∧
      procTarget s fn slot true = .ok (.cell ks) ∧ procTarget s fn read true = .ok (.cell kr) ∧
      let m := writeBytes s.mem (rowOf ks + slot % 128) [0]
      procTarget (s.setMem m) fn read true = .ok (.cell kr) ∧
      s2 = (s.setMem (writeBytes m (rowOf kr + read % 128) (leBytes 8 (e.rd + 1)))).setDev
        { s.dev with lseed := seed, procRows := [] }

/-- Memory after a packet's status is stored at its SIGNAL address, which may be 0, in device memory (R79). -/
def Signalled (s : State) (fn : Nat) (p : BitVec 512) (status : Nat) (m : List Host.Cell) : Prop :=
  (pkSignal p = 0 ∧ m = s.mem) ∨
  (pkSignal p ≠ 0 ∧ ∃ k, procTarget s fn (pkSignal p) true = .ok (.cell k) ∧
    m = writeNat s.mem (rowOf k + pkSignal p % 128) 8 status)

/-! ### Results of words -/

/-- The state after a word that writes v to xd and completes. -/
def State.result (s : State) (st : Strand) (xd : Reg) (v : Word) : State := s.withStrand ((st.wx xd v).cNext)

/-- A word completes with a result in xd that has a property. -/
def Gives (i : Instr) (s : State) (st : Strand) (xd : Reg) (P : Word → Prop) : Prop :=
  ∃ v, exec i s = .next (s.result st xd v) ∧ P v

/-- A word completes, changes nothing but C's place, and C stands at this address. -/
def Lands (i : Instr) (s : State) (st : Strand) (pc : Word) : Prop :=
  ∃ st', exec i s = .next (s.withStrand st') ∧ { st' with c := st.c } = st ∧ st'.c.pc = pc ∧
    st'.c.seqno = st.c.seqno + 1 ∧ st'.c.wait = .idle ∧ st'.c.ended = false

/-- A word does not complete: C stands where it stood, and nothing but its wait has changed. -/
def Stays (i : Instr) (s : State) (st : Strand) : Prop :=
  ∃ st', exec i s = .next (s.withStrand st') ∧ { st' with c := st.c } = st ∧ st'.c.pc = st.c.pc ∧
    st'.c.seqno = st.c.seqno ∧ st'.c.ended = false

/-- A branch word: to its target where the condition holds, to the next word where it does not (R163); C fetches along the target of
one that it does not take, as along those before it (R155). -/
def Branches (i : Instr) (s : State) (st : Strand) (target : Word) (c : Prop) : Prop :=
  (c → Lands i s st target) ∧ (¬c → Lands i s st (st.c.pc + 8) ∧ ∃ st', exec i s = .next (s.withStrand st') ∧
    ∀ t, t ∈ st'.c.targets ↔ t = target ∨ t ∈ st.c.targets)

/-- The strand as the cycle began in which its turn is made: itself, or what the cycle keeps where sequencers share it (R171,
R176). -/
def Began (s : State) (st st0 : Strand) : Prop :=
  (s.cycle = none ∧ st0 = st) ∨
    ∃ c, s.cycle = some c ∧ (c.strand.uid = st.uid → st0 = c.strand) ∧ (c.strand.uid ≠ st.uid → st0 = st)

/-- The planner reaches the byte of memory with key k for a word of the strand in a slot, at an address in an SRAM window or one that C's
TLB holds (R311, R312, R316). -/
def PlannerReaches (s : State) (key : Nat) (st : Strand) (a : Nat) (write : Bool) (k : Nat) : Prop :=
  (∃ p, decodeAddr (key / 2) a = some p ∧ p.win ≠ 3 ∧ p.off < 0x600000 ∧
      (p.win = 0 ∨ s.dev.failed p.tile = false) ∧ k = sliceKey p.tile p.off) ∨
  (a < 2 ^ 56 ∧ ∃ e, st.tlb[0].find? (fun f => f.covers a) = some e ∧ (write = true → e.writable = true) ∧
      e.target a = .cell k ∧ stackReady s.dev.ready k = true)

/-- The fields of a descriptor row at a key of memory are in range (R311; an extent of 0: log entry 27). -/
def DescOk (m : List Host.Cell) (k : Nat) : Prop :=
  let f (lo n : Nat) : Nat := readNat m (k + lo) n
  let rank := f 48 1
  let fmt := f 49 1
  let c := f (32 + 4 * (rank - 1)) 4
  1 ≤ rank ∧ rank ≤ 4 ∧ ((1 ≤ fmt ∧ fmt ≤ 9) ∨ (11 ≤ fmt ∧ fmt ≤ 14)) ∧ f 50 1 ≤ 1 ∧ f 51 1 = 0 ∧ f 72 56 = 0 ∧
    f 0 8 % 128 = 0 ∧ f 24 8 % 128 = 0 ∧ (∀ i, i < 4 → (i < rank ↔ f (32 + 4 * i) 4 ≠ 0)) ∧
    (fmt = 14 → f 64 8 ≠ 0 ∧ f 64 8 % 128 = 0 ∧ c % 32 = 0) ∧ (fmt ≠ 14 → f 64 8 = 0) ∧
    (if fmt = 14 then 9 * c / 32 else if 11 ≤ fmt then 33 * ((c + 31) / 32) else (c * fmtWidth fmt + 7) / 8) ≤ f 24 8

/-- A word raises a precise fault of C: the exception is taken in the state and strand as they stand (R359, R360). -/
def Faults (i : Instr) (s : State) (st : Strand) (r : Raise) : Prop :=
  exec i s = .next (takeFault s (runKey s.curTile) st r)

/-- The destination register of the words that only write a register of C. -/
def resultReg : Instr → Option Reg
  | .add xd _ _ | .sub xd _ _ | .adds xd _ _ | .subs xd _ _ | .mul xd _ _ | .mulh xd _ _ | .mulhu xd _ _
  | .div xd _ _ | .divu xd _ _ | .rem xd _ _ | .remu xd _ _ | .and xd _ _ | .or xd _ _ | .xor xd _ _
  | .sll xd _ _ | .srl xd _ _ | .sra xd _ _ | .min xd _ _ | .max xd _ _ | .minu xd _ _ | .maxu xd _ _
  | .slt xd _ _ | .sltu xd _ _ => some xd
  | .addi xd _ _ | .andi xd _ _ | .ori xd _ _ | .xori xd _ _ | .slli xd _ _ | .srli xd _ _ | .srai xd _ _
  | .slti xd _ _ | .movhi xd _ _ => some xd
  | .movi xd _ => some xd
  | .cvta xd _ _ | .isap xd _ _ => some xd
  | .movxb xd _ => some xd
  | .pget xd _ => some xd
  | .tlread xd _ _ => some xd
  | _ => none

/-- The address register, the offset and whether it writes, of a scalar access of C (R165, R166). -/
def scalarAccess : Instr → Option (Reg × BitVec 33 × Bool)
  | .ld _ xa _ _ off => some (xa, off, false)
  | .st _ xa _ _ off => some (xa, off, true)
  | .aadd _ xa _ _ _ off | .amin _ xa _ _ _ off | .amax _ xa _ _ _ off | .aminu _ xa _ _ _ off
  | .amaxu _ xa _ _ _ off | .axchg _ xa _ _ _ off | .acas _ xa _ _ _ off | .afadd32 _ xa _ _ _ off
  | .afadd16 _ xa _ _ _ off => some (xa, off, true)
  | _ => none

/-- What an atomic word does, its registers xd, xa, xb and its offset (R166). -/
def atomicWordOf : Instr → Option (AtomKind × Reg × Reg × Reg × BitVec 33)
  | .aadd xd xa xb _ _ off => some (.add, xd, xa, xb, off)
  | .amin xd xa xb _ _ off => some (.min, xd, xa, xb, off)
  | .amax xd xa xb _ _ off => some (.max, xd, xa, xb, off)
  | .aminu xd xa xb _ _ off => some (.minu, xd, xa, xb, off)
  | .amaxu xd xa xb _ _ off => some (.maxu, xd, xa, xb, off)
  | .axchg xd xa xb _ _ off => some (.xchg, xd, xa, xb, off)
  | .acas xd xa xb _ _ off => some (.cas, xd, xa, xb, off)
  | .afadd32 xd xa xb _ _ off => some (.fadd32, xd, xa, xb, off)
  | .afadd16 xd xa xb _ _ off => some (.fadd16, xd, xa, xb, off)
  | _ => none

/-- A planner word (R310). -/
def isPlanWord : Instr → Bool
  | .tregReg _ _ | .tregUpd _ _ | .tregRst _ _ | .tregDel _ _ | .phint _ _ _ | .ppinOn _ | .ppinOff _
  | .prun _ _ _ | .prel _ | .statrd _ _ _ | .pfpr _ _ _ => true
  | .plan _ _ _ _ n => n != 0
  | _ => false

/-! ### Addresses -/

/-- Address a names offset o of tile n's slice through window w, seen from tile t: 0 local, 1 cluster, 2 shared (R88,
R89). -/
def InWindow (t a w n o : Nat) : Prop :=
  o < 2 ^ 23 ∧
    ((w = 0 ∧ n = t ∧ a = 0xFC00000000000000 + o) ∨
     (w = 1 ∧ n / 16 = t / 16 ∧ a = 0xFD00000000000000 + n % 16 * 2 ^ 23 + o) ∨
     (w = 2 ∧ n < 512 ∧ a = 0xFE00000000000000 + n * 2 ^ 23 + o))

/-- A scalar access of C at address a reaches the byte of memory with key k: through an SRAM window, in a populated part
of a tile that works, or through a translation that permits it to an HBM stack that is trained (R88, R165, R391). -/
def Reaches (s : State) (st : Strand) (a : Nat) (write : Bool) (k : Nat) : Prop :=
  (∃ p, decodeAddr s.curTile a = some p ∧ p.win ≠ 3 ∧ p.off < 0x600000 ∧
      (p.win = 0 ∨ s.dev.failed p.tile = false) ∧ k = sliceKey p.tile p.off) ∨
  (a < 2 ^ 56 ∧ ∃ e, translate s st 0 a = .found e ∧ (write = true → e.writable = true) ∧
      e.target a = .cell k ∧ stackReady s.dev.ready k = true)

/-- C's TLB of this strand holds one entry, writable and of a trained HBM stack, and it covers these addresses. -/
def OneEntry (s : State) (st : Strand) (e : TlbEntry) (as : List Nat) : Prop :=
  st.tlb[0] = [e] ∧ bitsOf e.leaf.toNat 60 2 = 0 ∧ e.writable = true ∧
    ∀ a, a ∈ as → a < 2 ^ 56 ∧ e.covers a = true ∧
      stackReady s.dev.ready (bitsOf e.leaf.toNat 8 48 * 256 + e.offset a) = true

/-- The key of memory that an HBM entry gives an address (R112). -/
def TlbEntry.keyOf (e : TlbEntry) (a : Nat) : Nat := bitsOf e.leaf.toNat 8 48 * 256 + e.offset a

/-! ### What stays -/

/-- Two states that differ at most in the strand of the slot that has the turn. -/
def SameBut (s t : State) : Prop :=
  { t with strands := s.strands } = s ∧
    ∀ k, k ≠ runKey s.curTile → t.strands.find? k = s.strands.find? k

/-- Two strands that differ at most in one register of C and in C's own place. -/
def SameButReg (xd : Reg) (st st' : Strand) : Prop :=
  { st' with x := st.x, c := st.c } = st ∧ ∀ r, r ≠ xd → st'.rx r = st.rx r

/-- Every slot but that of the strand that has the turn is as before. -/
def OtherSlotsSame (s t : State) : Prop := ∀ k, k ≠ runKey s.curTile → t.strands.find? k = s.strands.find? k

/-- Every byte outside n bytes from an address reads as before. -/
def MemSameOutside (s t : State) (a n : Nat) : Prop :=
  ∀ b, ¬(a ≤ b ∧ b < a + n) → readByte t.mem b = readByte s.mem b

/-! ### The form of data -/

/-- Memory has its one form. -/
def State.MemOk (s : State) : Prop := Memory.wf s.mem = true

/-! ### Safe runs -/

/-- The agenda names only moves that exist on the device: every event is no word or record. -/
def State.AgendaOk (s : State) : Prop := ∀ i, Move.event i ∈ s.agenda → Instr.isEvent i = true

/-- A state from which the machine moves: its clocks run, and its agenda names only moves that exist. -/
def State.Live (s : State) : Prop := s.dev.shutdown = false ∧ s.AgendaOk

/-- An outcome that stops nothing. -/
def Goes (o : Out) : Prop := ∃ t, o = .next t

end Sys2Proof.Machine
end

