-- ==== Sys2Proof/Certificates/Slice0/Obligations.lean ====
section
/-! DEFINITION. The statements for the provers, each from the numbered rules of the spec. -/

open Sys2Proof Sys2Proof.Machine

/-- R123 to R128, R142: every control word that C may execute has one word, which decodes to it with every operand at every
value; and every word that decodes is the word of what it decodes to, which C may execute. -/
def Obligations.WordsRoundTrip : Prop :=
  (∀ i : Instr, i.wf .c = true → ∃ w, encodeWord i = some w ∧ decodeWord w = .ok i) ∧
  (∀ (w : Word) (i : Instr), decodeWord w = .ok i → encodeWord i = some w ∧ i.wf .c = true)

/-- R129 to R134, R141, R142: every record that L, X or S may execute has one record of 512 bits, which decodes to it; and
every record that decodes is the record of what it decodes to, which that sequencer may execute. -/
def Obligations.RecordsRoundTrip : Prop :=
  ∀ (q : Seqr), q ≠ .c →
    (∀ i : Instr, i.wf q = true → ∃ w, encodeRecord i = some w ∧ decodeRecord q w = .ok i) ∧
    (∀ (w : RecWord) (i : Instr), decodeRecord q w = .ok i → encodeRecord i = some w ∧ i.wf q = true)

/-- R127 and the worked encodings of the assembly language: words written out from the spec decode to what they stand for. -/
def Obligations.WordsFromTheSpecDecode : Prop :=
  decodeWord 0x28140000FFFFFFF8 = .ok (.movi 5 0xFFFFFFF8) ∧ decodeWord 0x2C30700000000000 = .ok (.movb 12 7) ∧
  decodeWord 0x7400900000000000 = .ok (.tlwait 9 0) ∧ decodeWord 0x7518000400000001 = .ok (.tlread 6 4 1) ∧
  decodeWord 0x7800000200000000 = .ok (.qpush 2) ∧ decodeWord 0x7900000800000000 = .ok (.qpop 2) ∧
  decodeWord 0x7000000000000102 = .ok (.join 0 0x0102) ∧ decodeWord 0x7A00700100000400 = .ok (.cbld 1 7 0x400) ∧
  decodeWord 0x7D00C00000000003 = .ok (.csrw 0 12 3) ∧ decodeWord 0x8028B30000000000 = .ok (.launch 10 11 12) ∧
  decodeWord 0x900C414100000000 = .ok (.probe 3 4 5 1) ∧ decodeWord 0x9200000000000007 = .ok (.trap 7) ∧
  decodeWord 0x9500000000000000 = .ok .endC ∧ decodeWord 0x6214719E00000080 = .ok (.aadd 5 7 6 3 3 0x80) ∧
  decodeWord 0x6020901A00000040 = .ok (.ld 8 9 3 1 0x40) ∧ decodeWord 0x011461C000000000 = .ok (.add 5 6 7) ∧
  decodeWord 0x2014500000000040 = .ok (.addi 5 5 64) ∧ decodeWord 0x4100503FFFFFFFFD = .ok (.bne 5 0 0x3FFFFFFFFD) ∧
  decodeWord 0x6B00001C00000000 = .ok (.fence 3 2)

/-- R158 and R159: the three-register words. -/
def Obligations.ThreeRegisterWordsCompute : Prop :=
  (∀ (s : State) (st : Strand) (xd xa xb : Reg), CRuns s st →
      let a := st.rx xa
      let b := st.rx xb
      let n := b.toNat % 64
      (∀ p ∈ ([(.add xd xa xb, 0x01), (.sub xd xa xb, 0x02), (.adds xd xa xb, 0x03), (.subs xd xa xb, 0x04), (.mul xd xa
        xb, 0x05), (.mulh xd xa xb, 0x06), (.mulhu xd xa xb, 0x07), (.div xd xa xb, 0x08), (.divu xd xa xb, 0x09),
        (.rem xd xa xb, 0x0A), (.remu xd xa xb, 0x0B), (.and xd xa xb, 0x0C), (.or xd xa xb, 0x0D), (.xor xd xa xb,
        0x0E), (.sll xd xa xb, 0x0F), (.srl xd xa xb, 0x10), (.sra xd xa xb, 0x11), (.min xd xa xb, 0x12), (.max xd
        xa xb, 0x13), (.minu xd xa xb, 0x14), (.maxu xd xa xb, 0x15), (.slt xd xa xb, 0x16), (.sltu xd xa xb, 0x17)] :
          List (Instr × BitVec 8)), encodeWord p.1 = some (p.2 ++ xd ++ xa ++ xb ++ 0#38)) ∧
      Gives (.add xd xa xb) s st xd (fun v => v.toNat = (a.toNat + b.toNat) % 2 ^ 64) ∧
      Gives (.sub xd xa xb) s st xd (fun v => v.toNat = (a.toNat + (2 ^ 64 - b.toNat)) % 2 ^ 64) ∧
      Gives (.adds xd xa xb) s st xd (fun v => v.toInt = max (-2 ^ 63) (min (2 ^ 63 - 1) (a.toInt + b.toInt))) ∧
      Gives (.subs xd xa xb) s st xd (fun v => v.toInt = max (-2 ^ 63) (min (2 ^ 63 - 1) (a.toInt - b.toInt))) ∧
      Gives (.mul xd xa xb) s st xd (fun v => v.toNat = a.toNat * b.toNat % 2 ^ 64) ∧
      Gives (.mulh xd xa xb) s st xd (fun v => v.toInt = a.toInt * b.toInt / 2 ^ 64) ∧
      Gives (.mulhu xd xa xb) s st xd (fun v => v.toNat = a.toNat * b.toNat / 2 ^ 64) ∧
      Gives (.and xd xa xb) s st xd (fun v => ∀ k, v.getLsbD k = (a.getLsbD k && b.getLsbD k)) ∧
      Gives (.or xd xa xb) s st xd (fun v => ∀ k, v.getLsbD k = (a.getLsbD k || b.getLsbD k)) ∧
      Gives (.xor xd xa xb) s st xd (fun v => ∀ k, v.getLsbD k = (a.getLsbD k != b.getLsbD k)) ∧
      Gives (.sll xd xa xb) s st xd (fun v => v.toNat = a.toNat * 2 ^ n % 2 ^ 64) ∧
      Gives (.srl xd xa xb) s st xd (fun v => v.toNat = a.toNat / 2 ^ n) ∧
      Gives (.sra xd xa xb) s st xd (fun v => v.toInt = a.toInt / 2 ^ n) ∧
      Gives (.min xd xa xb) s st xd (fun v => v.toInt = min a.toInt b.toInt) ∧
      Gives (.max xd xa xb) s st xd (fun v => v.toInt = max a.toInt b.toInt) ∧
      Gives (.minu xd xa xb) s st xd (fun v => v.toNat = min a.toNat b.toNat) ∧
      Gives (.maxu xd xa xb) s st xd (fun v => v.toNat = max a.toNat b.toNat) ∧
      Gives (.slt xd xa xb) s st xd (fun v => v = if a.toInt < b.toInt then 1 else 0) ∧
      Gives (.sltu xd xa xb) s st xd (fun v => v = if a.toNat < b.toNat then 1 else 0)) ∧
  (∀ (s : State) (st : Strand) (xd xa xb : Reg), CRuns s st →
      let a := st.rx xa
      let b := st.rx xb
      (b = 0 →
        Gives (.div xd xa xb) s st xd (fun v => v = BitVec.allOnes 64) ∧
        Gives (.divu xd xa xb) s st xd (fun v => v = BitVec.allOnes 64) ∧
        Gives (.rem xd xa xb) s st xd (fun v => v = a) ∧
        Gives (.remu xd xa xb) s st xd (fun v => v = a)) ∧
      (b ≠ 0 →
        Gives (.divu xd xa xb) s st xd (fun v => v.toNat = a.toNat / b.toNat) ∧
        Gives (.remu xd xa xb) s st xd (fun v => v.toNat = a.toNat % b.toNat) ∧
        (a.toInt = -2 ^ 63 ∧ b.toInt = -1 →
          Gives (.div xd xa xb) s st xd (fun v => v.toInt = -2 ^ 63) ∧
          Gives (.rem xd xa xb) s st xd (fun v => v = 0)) ∧
        (¬(a.toInt = -2 ^ 63 ∧ b.toInt = -1) →
          Gives (.div xd xa xb) s st xd (fun v => v.toInt = a.toInt.tdiv b.toInt) ∧
          Gives (.rem xd xa xb) s st xd (fun v => v.toInt = a.toInt.tmod b.toInt))))

/-- R160: the immediate words. -/
def Obligations.ImmediateWordsCompute : Prop :=
  ∀ (s : State) (st : Strand) (xd xa : Reg) (imm : BitVec 32) (sh : BitVec 6), CRuns s st →
    let a := st.rx xa
    let bit (k : Nat) : Bool := if k < 32 then imm.getLsbD k else imm.msb
    (∀ p ∈ ([(.addi xd xa imm, 0x20), (.andi xd xa imm, 0x21), (.ori xd xa imm, 0x22), (.xori xd xa imm, 0x23),
        (.slti xd xa imm, 0x27), (.movhi xd xa imm, 0x29)] : List (Instr × BitVec 8)),
      encodeWord p.1 = some (p.2 ++ xd ++ xa ++ 0#12 ++ imm)) ∧
    (∀ p ∈ ([(.slli xd xa sh, 0x24), (.srli xd xa sh, 0x25), (.srai xd xa sh, 0x26)] : List (Instr × BitVec 8)),
      encodeWord p.1 = some (p.2 ++ xd ++ xa ++ 0#12 ++ 0#26 ++ sh)) ∧
    encodeWord (.movi xd imm) = some (0x28#8 ++ xd ++ 0#18 ++ imm) ∧
    Gives (.addi xd xa imm) s st xd (fun v => v = BitVec.ofInt 64 (a.toInt + imm.toInt)) ∧
    Gives (.andi xd xa imm) s st xd (fun v => ∀ k, k < 64 → v.getLsbD k = (a.getLsbD k && bit k)) ∧
    Gives (.ori xd xa imm) s st xd (fun v => ∀ k, k < 64 → v.getLsbD k = (a.getLsbD k || bit k)) ∧
    Gives (.xori xd xa imm) s st xd (fun v => ∀ k, k < 64 → v.getLsbD k = (a.getLsbD k != bit k)) ∧
    Gives (.slli xd xa sh) s st xd (fun v => v.toNat = a.toNat * 2 ^ sh.toNat % 2 ^ 64) ∧
    Gives (.srli xd xa sh) s st xd (fun v => v.toNat = a.toNat / 2 ^ sh.toNat) ∧
    Gives (.srai xd xa sh) s st xd (fun v => v.toInt = a.toInt / 2 ^ sh.toNat) ∧
    Gives (.slti xd xa imm) s st xd (fun v => v = if a.toInt < imm.toInt then 1 else 0) ∧
    Gives (.movi xd imm) s st xd (fun v => v.toInt = imm.toInt) ∧
    Gives (.movhi xd xa imm) s st xd (fun v => v.toNat = imm.toNat * 2 ^ 32 + a.toNat % 2 ^ 32)

/-- R161 with R91: CVTA gives the address of the same byte in another window's form, or 0; ISAP tests a window. -/
def Obligations.WindowWordsConvert : Prop :=
  ∀ (s : State) (st : Strand) (xd xa : Reg) (w : BitVec 2), CRuns s st → s.curTile < Config.tiles →
    let a := (st.rx xa).toNat
    (w.toNat < 3 →
      (∀ w' n o a', InWindow s.curTile a w' n o → InWindow s.curTile a' w.toNat n o →
        Gives (.cvta xd xa w) s st xd (fun v => v.toNat = a')) ∧
      ((∀ w' n o a', InWindow s.curTile a w' n o → ¬InWindow s.curTile a' w.toNat n o) →
        Gives (.cvta xd xa w) s st xd (fun v => v = 0))) ∧
    (((w.toNat = 3 ∧ a < 2 ^ 56) ∨ ∃ n o, InWindow s.curTile a w.toNat n o ∧ o < 0x600000) →
      Gives (.isap xd xa w) s st xd (fun v => v = 1)) ∧
    (¬((w.toNat = 3 ∧ a < 2 ^ 56) ∨ ∃ n o, InWindow s.curTile a w.toNat n o ∧ o < 0x600000) →
      Gives (.isap xd xa w) s st xd (fun v => v = 0))

/-- R162: moves to and from base registers and stage predicates. -/
def Obligations.BaseAndPredicateMoves : Prop :=
  ∀ (s : State) (st : Strand) (xd xa : Reg) (bn : BitVec 5) (sn : BitVec 3), CRuns s st →
    (∃ st', exec (.movb bn xa) s = .next (s.withStrand st') ∧ { st' with b := st.b, c := st.c } = st ∧
      st'.c.pc = st.c.pc + 8 ∧ st'.rb bn.toNat = st.rx xa ∧ ∀ n, n ≠ bn.toNat → st'.rb n = st.rb n) ∧
    Gives (.movxb xd bn) s st xd (fun v => v = st.rb bn.toNat) ∧
    (∃ st', exec (.pset sn xa) s = .next (s.withStrand st') ∧ { st' with s := st.s, c := st.c } = st ∧
      st'.c.pc = st.c.pc + 8 ∧ st'.s.getLsbD sn.toNat = (st.rx xa).getLsbD 0 ∧
      ∀ n, n ≠ sn.toNat → st'.s.getLsbD n = st.s.getLsbD n) ∧
    Gives (.pget xd sn) s st xd (fun v => v.toNat = (st.s.getLsbD sn.toNat).toNat)

/-- R163 and R164: where each branch goes, and when; CALL and JR write the link, and JR reads its target before. That C keeps fetching
along the target of a branch it has not taken until it goes elsewhere is the model's choice (log entry 61). -/
def Obligations.BranchesGoWhereTheyShould : Prop :=
  (∀ (s : State) (st : Strand) (xa xb : Reg) (off : BitVec 38), CRuns s st →
      let a := st.rx xa
      let b := st.rx xb
      let target := BitVec.ofInt 64 (st.c.pc.toNat + 8 * off.toInt)
      (∀ p ∈ ([(.beq xa xb off, 0x40), (.bne xa xb off, 0x41), (.blt xa xb off, 0x42), (.bge xa xb off, 0x43),
          (.bltu xa xb off, 0x44), (.bgeu xa xb off, 0x45)] : List (Instr × BitVec 8)),
        encodeWord p.1 = some (p.2 ++ 0#6 ++ xa ++ xb ++ off)) ∧
      encodeWord (.jmp off) = some (0x46#8 ++ 0#18 ++ off) ∧
      Branches (.beq xa xb off) s st target (a = b) ∧
      Branches (.bne xa xb off) s st target (a ≠ b) ∧
      Branches (.blt xa xb off) s st target (a.toInt < b.toInt) ∧
      Branches (.bge xa xb off) s st target (b.toInt ≤ a.toInt) ∧
      Branches (.bltu xa xb off) s st target (a.toNat < b.toNat) ∧
      Branches (.bgeu xa xb off) s st target (b.toNat ≤ a.toNat) ∧
      Lands (.jmp off) s st target) ∧
  (∀ (s : State) (st : Strand) (xd xa : Reg) (off : BitVec 38), CRuns s st →
      encodeWord (.call xd off) = some (0x47#8 ++ xd ++ 0#12 ++ off) ∧
      encodeWord (.jr xd xa) = some (0x48#8 ++ xd ++ xa ++ 0#44) ∧
      (∃ st', exec (.call xd off) s = .next (s.withStrand st') ∧ SameButReg xd st st' ∧
        (xd ≠ 0 → st'.rx xd = st.c.pc + 8) ∧ st'.rx 0 = 0 ∧ st'.c.seqno = st.c.seqno + 1 ∧
        st'.c.pc = BitVec.ofInt 64 (st.c.pc.toNat + 8 * off.toInt)) ∧
      (∃ st', exec (.jr xd xa) s = .next (s.withStrand st') ∧ SameButReg xd st st' ∧
        (xd ≠ 0 → st'.rx xd = st.c.pc + 8) ∧ st'.rx 0 = 0 ∧ st'.c.seqno = st.c.seqno + 1 ∧
        st'.c.pc.toNat = (st.rx xa).toNat / 8 * 8))

/-- The frame of every word that only writes a register of C (R24, R154, R158 to R162, R171): no flag exists, nothing
but xd and C's place changes, x0 stays 0, and C goes to the next word. -/
def Obligations.RegisterWordsChangeOneRegister : Prop :=
  ∀ (i : Instr) (s t : State) (xd : Reg), resultReg i = some xd → exec i s = .next t →
    SameBut s t ∧ t.mem = s.mem ∧ ∃ st st', CRuns s st ∧ t.strands.find? (runKey s.curTile) = some st' ∧
      SameButReg xd st st' ∧ st'.rx 0 = 0 ∧ (xd = 0 → ∀ r, st'.rx r = st.rx r) ∧
      st'.c.pc = st.c.pc + 8 ∧ st'.c.seqno = st.c.seqno + 1 ∧ st'.c.ended = st.c.ended

/-- R165 and R93: LD of an access that reaches a byte with key k: the 8 bytes that address bits [6:3] select, lowest first, in
xd; ST changes only the 8 bytes that address bits [6:3] select. -/
def Obligations.LoadsAndStoresMoveEightBytes : Prop :=
  (∀ (s : State) (st : Strand) (xd xa : Reg) (scope : BitVec 3) (ord : BitVec 2) (off : BitVec 33) (k : Nat),
      CRuns s st → st.c.wait.pending = false → s.health = .clean →
      Reaches s st (st.rx xa + off.signExtend 64).toNat false k →
      ∃ t st', exec (.ld xd xa scope ord off) s = .next t ∧ t = s.withStrand st' ∧ t.mem = s.mem ∧
        { st' with x := st.x, c := st.c, tlb := st.tlb } = st ∧ (∀ r, r ≠ xd → st'.rx r = st.rx r) ∧
        (xd ≠ 0 → ∀ j, j < 8 → (st'.rx xd).extractLsb' (8 * j) 8 = readByte s.mem (k / 8 * 8 + j)) ∧
        st'.c.pc = st.c.pc + 8 ∧ st'.c.seqno = st.c.seqno + 1 ∧ st'.c.wait = .idle) ∧
  (∀ (s : State) (st : Strand) (xb xa : Reg) (scope : BitVec 3) (ord : BitVec 2) (off : BitVec 33) (k : Nat),
      CRuns s st → s.health = .clean → Reaches s st (scalarAddr st xa off) true k →
      ∃ t st', exec (.st xb xa scope ord off) s = .next t ∧ t = (s.withStrand st').setMem t.mem ∧
        { st' with c := st.c, tlb := st.tlb } = st ∧
        (∀ j, j < 8 → readByte t.mem (k / 8 * 8 + j) = (st.rx xb).extractLsb' (8 * j) 8) ∧
        MemSameOutside s t (k / 8 * 8) 8 ∧
        st'.c.pc = st.c.pc + 8 ∧ st'.c.seqno = st.c.seqno + 1 ∧ st'.c.wait = .idle)

/-- R88, R114, R109 and R165: where a load, a store or an atomic faults, with slot A and index 0. -/
def Obligations.ScalarAccessFaults : Prop :=
  ∀ (i : Instr) (s : State) (st : Strand) (xa : Reg) (off : BitVec 33) (write : Bool),
    scalarAccess i = some (xa, off, write) → CRuns s st → st.c.wait.pending = false →
    let a := scalarAddr st xa off
    (decodeAddr s.curTile a = none → Faults i s st ⟨.address, .a, 0⟩) ∧
    (∀ p, decodeAddr s.curTile a = some p → p.win ≠ 3 → 0x600000 ≤ p.off → Faults i s st ⟨.address, .a, 0⟩) ∧
    (a < 2 ^ 56 → translate s st 0 a = .nothing → Faults i s st ⟨.xlate, .a, 0⟩) ∧
    (∀ e, a < 2 ^ 56 → translate s st 0 a = .found e → write = true → e.writable = false →
      Faults i s st ⟨.xlate, .a, 0⟩) ∧
    (∀ e port b, a < 2 ^ 56 → translate s st 0 a = .found e → (write = true → e.writable = true) →
      e.target a = .far port b → st.det = true → Faults i s st ⟨.mode, .a, 0⟩)

/-- R166 and R107: an atomic word sends its operation to the owner and C waits for the answer; the owner, whose access meets no
error (R364), reads the old value, combines it and writes the new value, and the strand that waits receives the old value
in xd and goes on. The sign of an exact zero sum of AFADD is the model's reading (log entry 64). An atomic whose strand has gone is performed all the same, and its answer is dropped (R369). -/
def Obligations.AtomicWordsPerformAtTheOwner : Prop :=
  (∀ (i : Instr) (s : State) (st : Strand) (kind : AtomKind) (xd xa xb : Reg) (off : BitVec 33) (k : Nat),
      atomicWordOf i = some (kind, xd, xa, xb, off) → CRuns s st → st.c.wait.pending = false →
      Reaches s st (scalarAddr st xa off) true k →
      ∃ t st', exec i s = .next t ∧ t.mem = s.mem ∧ OtherSlotsSame s t ∧
        t.dev = { s.dev with
          nextId := s.dev.nextId + 1
          atoms := s.dev.atoms ++ [⟨s.dev.nextId, st.uid, kind, k, st.rx xb, st.rx xd, xd,
            st.at (runKey s.curTile) .c (st.c.seqno + 1)⟩] } ∧
        t.strands.find? (runKey s.curTile) = some st' ∧ { st' with c := st.c, tlb := st.tlb } = st ∧
        st'.c = { st.c with wait := .answer s.dev.nextId }) ∧
  (∀ (s : State) (n key : Nat) (q : AtomReq) (st : Strand), s.dev.atoms[n]? = some q →
      s.health = .clean → findUid s q.uid = some (key, st) → st.c.wait = .answer q.id →
      let w := q.kind.bytes
      let a := q.addr / w * w
      let old := readNat s.mem a w
      let v := q.v.toNat
      ∃ t st', exec (.atomicPerform n) s = .next t ∧ MemSameOutside s t a w ∧
        readNat t.mem a w = q.kind.apply old v q.expected.toNat % 2 ^ (8 * w) ∧
        (q.kind = .add → readNat t.mem a w = (old + v) % 2 ^ 64) ∧
        (q.kind = .xchg → readNat t.mem a w = v) ∧
        (q.kind = .cas → readNat t.mem a w = if old = q.expected.toNat then v else old) ∧
        (q.kind = .fadd32 → SumRounds 1 old (v % 2 ^ 32) (readNat t.mem a w)) ∧
        (q.kind = .fadd16 → SumRounds 3 old (v % 2 ^ 16) (readNat t.mem a w)) ∧
        (q.kind = .minu → readNat t.mem a w = min old v) ∧
        (q.kind = .maxu → readNat t.mem a w = max old v) ∧
        (q.kind = .min → signedOf 64 (readNat t.mem a w) = min (signedOf 64 old) (signedOf 64 v)) ∧
        (q.kind = .max → signedOf 64 (readNat t.mem a w) = max (signedOf 64 old) (signedOf 64 v)) ∧
        t.dev = { s.dev with atoms := s.dev.atoms.eraseIdx n } ∧
        t.strands.find? key = some st' ∧ SameButReg q.xd st st' ∧
        (q.xd ≠ 0 → st'.rx q.xd = BitVec.ofNat 64 old) ∧ st'.c.pc = st.c.pc + 8 ∧
        ∀ k, k ≠ key → t.strands.find? k = s.strands.find? k) ∧
  (∀ (s : State) (n : Nat) (q : AtomReq), s.dev.atoms[n]? = some q → s.health = .clean → findUid s q.uid = none →
      let w := q.kind.bytes
      let a := q.addr / w * w
      ∃ t, exec (.atomicPerform n) s = .next t ∧ MemSameOutside s t a w ∧ t.strands = s.strands ∧
        readNat t.mem a w = q.kind.apply (readNat s.mem a w) q.v.toNat q.expected.toNat % 2 ^ (8 * w) ∧
        t.dev = { s.dev with atoms := s.dev.atoms.eraseIdx n })

/-- R184, R167, R181, R119: NOP and FENCE go on; END ends C's stream; QUIESCE goes on where no request waits for the
slot, and otherwise, once the strand is quiet, drops what the request covers and acknowledges. That FENCE completes at
once in every state is the model's reading of R167, since it performs every access of C in the step that makes it (log
entry 5). -/
def Obligations.PlainWordsComplete : Prop :=
  ∀ (s : State) (st : Strand) (scope : BitVec 3) (kind : BitVec 2), CRuns s st →
    let key := runKey s.curTile
    Lands .nop s st (st.c.pc + 8) ∧
    Lands (.fence scope kind) s st (st.c.pc + 8) ∧
    (∃ st', exec .endC s = .next (s.withStrand st') ∧ st'.c.ended = true ∧ { st' with c := st.c } = st) ∧
    (s.dev.ivpending.find? key = none → Lands .quiesce s st (st.c.pc + 8)) ∧
    (∀ age, s.dev.ivpending.find? key = some age →
      (st.quiet = false → Stays .quiesce s st) ∧
      (st.quiet = true → attrReady s.dev = true → ∃ t st', exec .quiesce s = .next t ∧
        t.dev = { s.dev with ivpending := s.dev.ivpending.erase key } ∧
        t.strands.find? key = some st' ∧ { st' with c := st.c, tlb := st.tlb } = st ∧ st'.c.pc = st.c.pc + 8 ∧
        (s.dev.ivctl.getLsbD 29 = false → bitsOf s.dev.ivctl.toNat 24 4 = st.fn → ∀ j (h : j < 8), ∀ e ∈ st'.tlb[j],
          e ∈ st.tlb[j] ∧ ivCovers s.dev e = false)))

/-- R168, R169 and R402: JOIN and LEAVE send their request to the set's home and C waits for the answer; identifier 0 raises
ILLEGAL_OP with slot A. SBAR faults where the strand is no member, waits for its captured issue values, sends one arrival
once they are reached, at once or after a stall, and goes on once its barrier is complete; it keeps the set it captured
at its first execution (log entry 56). That the arrival leaves without R169's stall for the visibility of earlier accesses of C
is the model's reading, since it performs every access of C in the step that makes it (log entry 5). -/
def Obligations.SetWordsAskTheHome : Prop :=
  (∀ (i : Instr) (op : SetOp) (s : State) (st : Strand) (xa : Reg) (imm : BitVec 16),
      (i = .join xa imm ∧ op = .join) ∨ (i = .leave xa imm ∧ op = .leave) → CRuns s st → st.c.wait = .idle →
      let id := ((st.rx xa).toNat + imm.toNat) % 2 ^ 16
      (id = 0 → Faults i s st ⟨.illegalOp, .a, 0⟩) ∧
      (id ≠ 0 → ∃ t st', exec i s = .next t ∧ t.mem = s.mem ∧ OtherSlotsSame s t ∧
        t.dev = { s.dev with setReqs := s.dev.setReqs ++ [⟨st.uid, st.fn, id, op⟩] } ∧
        t.strands.find? (runKey s.curTile) = some st' ∧ { st' with c := st.c } = st ∧
        st'.c = { st.c with wait := .setReq })) ∧
  (∀ (s : State) (st : Strand) (xa : Reg) (imm : BitVec 16), CRuns s st →
      let id := ((st.rx xa).toNat + imm.toNat) % 2 ^ 16
      let i := Instr.sbar xa imm
      (st.c.wait = .idle → id = 0 → Faults i s st ⟨.illegalOp, .a, 0⟩) ∧
      (st.c.wait = .idle → id ≠ 0 → isMember s st id = false → Faults i s st ⟨.setMember, .a, 0⟩) ∧
      (st.c.wait = .idle → id ≠ 0 → isMember s st id = true → st.quiet = true →
        ∃ t st', exec i s = .next t ∧ t.mem = s.mem ∧ OtherSlotsSame s t ∧
          t.dev = { s.dev with setReqs := s.dev.setReqs ++ [⟨st.uid, st.fn, id, .arrive⟩] } ∧
          t.strands.find? (runKey s.curTile) = some st' ∧ { st' with c := st.c } = st ∧
          st'.c = { st.c with wait := .sbar id st.issues true false }) ∧
      (st.c.wait = .idle → id ≠ 0 → isMember s st id = true → st.reached st.issues = false →
        exec i s = .next (s.withStrand { st with c := { st.c with wait := .sbar id st.issues false false } })) ∧
      (∀ n vs, st.c.wait = .sbar n vs false false → st.reached vs = false → Stays i s st) ∧
      (∀ n vs, st.c.wait = .sbar n vs false false → st.reached vs = true →
        ∃ t st', exec i s = .next t ∧ t.mem = s.mem ∧ OtherSlotsSame s t ∧
          t.dev = { s.dev with setReqs := s.dev.setReqs ++ [⟨st.uid, st.fn, n, .arrive⟩] } ∧
          t.strands.find? (runKey s.curTile) = some st' ∧ { st' with c := st.c } = st ∧
          st'.c = { st.c with wait := .sbar n vs true false }) ∧
      (∀ n vs, st.c.wait = .sbar n vs true false → exec i s = .next s) ∧
      (∀ n vs sent, st.c.wait = .sbar n vs sent true → Lands i s st (st.c.pc + 8)))

/-- R83 to R85: the home applies a JOIN, within the limits of R84, a LEAVE, and an arrival. R402, R168, R169: an answer
reaches its strand: the waiting JOIN, LEAVE or SBAR of that set completes, or SET_LIMIT is raised; an SBAR of another set
waits on. R183: the answer of an SBAR that a handler interrupted is kept for it. That a strand counts the answers still due to
abandoned SBARs (`lateBars`), which an arrival's answer then meets first and a LEAVE's answer clears, is the model's reading
(log entry 58). -/
def Obligations.SetRequestsAndAnswers : Prop :=
  (∀ (s : State) (n key : Nat) (q : SetReq) (st : Strand), s.dev.setReqs[n]? = some q →
      findUid s q.uid = some (key, st) →
      let sk := setKey q.fn q.id
      let rest := s.dev.setReqs.eraseIdx n
      ∃ t, exec (.setRequestApply n) s = .next t ∧ t.mem = s.mem ∧ t.strands = s.strands ∧ t.dev.setReqs = rest ∧
        (∀ k, k ≠ sk → t.dev.sets.find? k = s.dev.sets.find? k) ∧
        (q.op = .join → ∀ e, s.dev.sets.find? sk = some e → q.uid ∈ e.members →
          t.dev.sets = s.dev.sets ∧ t.dev.setAnswers = s.dev.setAnswers ++ [⟨q.uid, q.id, .join, false⟩]) ∧
        (q.op = .join → ∀ e, s.dev.sets.find? sk = some e → q.uid ∉ e.members → setCount s q.uid < 4 →
          t.dev.sets.find? sk = some { e with members := e.members ++ [q.uid] } ∧
          t.dev.setAnswers = s.dev.setAnswers ++ [⟨q.uid, q.id, .join, false⟩]) ∧
        (q.op = .join → s.dev.sets.find? sk = none → setCount s q.uid < 4 → s.dev.sets.length < 4096 →
          t.dev.sets.find? sk = some ⟨[q.uid], []⟩ ∧
          t.dev.setAnswers = s.dev.setAnswers ++ [⟨q.uid, q.id, .join, false⟩]) ∧
        (q.op = .join → (∀ e, s.dev.sets.find? sk = some e → q.uid ∉ e.members) → 4 ≤ setCount s q.uid →
          t.dev.sets = s.dev.sets ∧ t.dev.setAnswers = s.dev.setAnswers ++ [⟨q.uid, q.id, .join, true⟩]) ∧
        (q.op = .join → s.dev.sets.find? sk = none → 4096 ≤ s.dev.sets.length →
          t.dev.sets = s.dev.sets ∧ t.dev.setAnswers = s.dev.setAnswers ++ [⟨q.uid, q.id, .join, true⟩]) ∧
        (q.op = .leave → (∀ e, t.dev.sets.find? sk = some e → q.uid ∉ e.members) ∧
          (⟨q.uid, q.id, .leave, false⟩ : SetAns) ∈ t.dev.setAnswers) ∧
        (q.op = .arrive → ∀ e, s.dev.sets.find? sk = some e → e.members = [q.uid] → e.barriers = [] →
          t.dev.sets.find? sk = some e ∧
          t.dev.setAnswers = s.dev.setAnswers ++ [⟨q.uid, q.id, .arrive, false⟩]) ∧
        (q.op = .arrive → ∀ e u, s.dev.sets.find? sk = some e → e.members = [q.uid, u] → u ≠ q.uid →
          (e.barriers = [] →
            t.dev.sets.find? sk = some { e with barriers := [⟨[q.uid, u], [q.uid]⟩] } ∧
            t.dev.setAnswers = s.dev.setAnswers) ∧
          (e.barriers = [⟨[q.uid, u], [u]⟩] →
            t.dev.sets.find? sk = some { e with barriers := [] } ∧
            t.dev.setAnswers = s.dev.setAnswers ++ [⟨u, q.id, .arrive, false⟩, ⟨q.uid, q.id, .arrive, false⟩]))) ∧
  (∀ (s : State) (n key : Nat) (q : SetAns) (st : Strand), s.dev.setAnswers[n]? = some q →
      findUid s q.uid = some (key, st) → s.dev.trcctl.getLsbD 31 = false →
      let s1 := s.setDev { s.dev with setAnswers := s.dev.setAnswers.eraseIdx n }
      (q.op = .join → st.c.wait = .setReq → q.fault = false →
        exec (.setAnswerArrival n) s = .next (s1.setStrand key st.cNext)) ∧
      (q.op = .leave → st.c.wait = .setReq → q.fault = false → exec (.setAnswerArrival n) s =
        .next (s1.setStrand key ({ st with lateBars := st.lateBars.filter (· ≠ q.id) } : Strand).cNext)) ∧
      (q.op ≠ .arrive → st.c.wait = .setReq → q.fault = true →
        exec (.setAnswerArrival n) s = .next (takeFault s1 key st ⟨.setLimit, .a, 0⟩)) ∧
      (q.op = .arrive → q.id ∉ st.lateBars →
        (∀ vs, st.c.kept.inBarrier q.id = false → st.c.wait = .sbar q.id vs true false →
          exec (.setAnswerArrival n) s = .next (s1.setStrand key st.cNext)) ∧
        (∀ m vs fin, st.c.kept.inBarrier q.id = false → st.c.wait = .sbar m vs true fin → m ≠ q.id →
          exec (.setAnswerArrival n) s = .next (s1.setStrand key st)) ∧
        (∀ vs, st.c.kept = .sbar q.id vs true false → exec (.setAnswerArrival n) s =
          .next (s1.setStrand key { st with c := { st.c with kept := .sbar q.id vs true true } }))))

/-- R170, R171, R172, R32, R105, R215: TLWAIT waits for a completion value, TLREAD reads a counter as its cycle began, DRAIN waits until
every copy of its channel numbered up to the issue value it captured is complete, or, for an RLD, TLD, KLD or RQLD, has made its
reads. -/
def Obligations.TimelineWords : Prop :=
  ∀ (s : State) (st : Strand) (xd xa : Reg) (n : BitVec 4) (ch : BitVec 2), CRuns s st → n.toNat < 10 →
    let completion := if n = 9 then s.planner.monCompletion else (st.tlAt n.toNat).completion
    ((st.rx xa).toNat ≤ completion → Lands (.tlwait xa n) s st (st.c.pc + 8)) ∧
    (completion < (st.rx xa).toNat → Stays (.tlwait xa n) s st) ∧
    (∀ st0, Began s st st0 →
      Gives (.tlread xd n 0) s st xd (fun v => v.toNat =
        (if n = 9 then s.planner.monIssue else (st0.tlAt n.toNat).issue) % 2 ^ 64) ∧
      Gives (.tlread xd n 1) s st xd (fun v => v.toNat =
        (if n = 9 then s.planner.monCompletion else (st0.tlAt n.toNat).completion) % 2 ^ 64)) ∧
    (∀ v, st.c.wait = .idle ∧ v = (st.tlAt ch.toNat).issue ∨ st.c.wait = .drain v →
      (CopiesDone st ch.toNat v → Lands (.drain ch) s st (st.c.pc + 8)) ∧
      (¬CopiesDone st ch.toNat v → exec (.drain ch) s = .next (s.withStrand (st.cStay (.drain v)))))

/-- R173 and R28: QPUSH adds a token, or stalls at 32; QPOP removes one, or stalls at 0; no other FIFO changes. That QPUSH
completes whenever fewer than 32 tokens stand, without R173's wait for the visibility of earlier accesses of C, is the model's
reading, since it performs every access of C in the step that makes it (log entry 5); so is that a token which an open run-ahead
path of X has popped keeps its room until the path is settled (log entry 34). -/
def Obligations.TokenWords : Prop :=
  ∀ (s : State) (st : Strand) (q : BitVec 2), CRuns s st →
    let n := st.tokensAt 0 q.toNat
    let kept := match st.episode with
      | some e => if q = 2 then e.popped.count 0 else 0
      | none => 0
    let m := st.tokensAt q.toNat 0
    (n + kept < 32 → ∃ st', exec (.qpush q) s = .next (s.withStrand st') ∧ { st' with tokens := st.tokens, c := st.c } = st ∧
      st'.c.pc = st.c.pc + 8 ∧ st'.tokensAt 0 q.toNat = n + 1 ∧
      ∀ x y, x < 4 → y < 4 → ¬(x = 0 ∧ y = q.toNat) → st'.tokensAt x y = st.tokensAt x y) ∧
    (32 ≤ n + kept → Stays (.qpush q) s st) ∧
    (0 < m → ∃ st', exec (.qpop q) s = .next (s.withStrand st') ∧ { st' with tokens := st.tokens, c := st.c } = st ∧
      st'.c.pc = st.c.pc + 8 ∧ st'.tokensAt q.toNat 0 = m - 1 ∧
      ∀ x y, x < 4 → y < 4 → ¬(x = q.toNat ∧ y = 0) → st'.tokensAt x y = st.tokensAt x y) ∧
    (m = 0 → Stays (.qpop q) s st)

/-- R174 to R176, R322, R390: what CSRR gives for each register of the map, ROTB as the reading cycle began; READY gives the bit of each part, and in bit 31
whether all 23 are ready. -/
def Obligations.CsrReadsGiveTheRegister : Prop :=
  ∀ (s : State) (st : Strand) (xd : Reg), CRuns s st →
    let reads (n : Nat) (v : Nat) : Prop := Gives (.csrr xd (BitVec.ofNat 16 n)) s st xd (fun w => w.toNat = v)
    (∀ i (h : i < 16), reads i st.tshape[i].toNat) ∧ reads 0x10 st.dqfmtlx.toNat ∧ reads 0x11 st.dqfmtxs.toNat ∧
    reads 0x12 st.srseed.toNat ∧ reads 0x13 st.srctr.toNat ∧ reads 0x14 st.dqsnlx.toNat ∧
    reads 0x15 st.dqsnxs.toNat ∧
    (∀ st0, Began s st st0 → reads 0x16 (256 * st0.ss.rotb.toNat + 16 * st0.xs.rotb.toNat + st0.l.rotb.toNat)) ∧
    reads 0x17 (2 ^ 16 * st.nbv.toNat + st.det.toNat) ∧ reads 0x18 st.tvec.toNat ∧ reads 0x19 st.tepc.toNat ∧
    reads 0x1A st.tcause.toNat ∧ reads 0x1B (2 * st.intr.toNat + st.act.toNat) ∧
    reads 0x20 s.dev.devtime.toNat ∧
    (∃ w, exec (.csrr xd 0x0021) s = .next (s.result st xd w) ∧ (∀ j, j < 23 → w.getLsbD j = s.dev.ready.getLsbD j) ∧
      (w.getLsbD 31 = true ↔ ∀ j, j < 23 → s.dev.ready.getLsbD j = true) ∧
      ∀ j, 23 ≤ j → j ≠ 31 → w.getLsbD j = false) ∧
    (∀ i (h : i < 64), reads (0x500 + i) st.cost[i].toNat) ∧
    (st.fn = 0 →
      (∀ i, i < 256 → reads (0x200 + i) (cellGet 0 s.dev.qbase i).toNat) ∧
      (∀ i, i < 256 → reads (0x300 + i) (cellGet 0 s.dev.qctl i).toNat) ∧
      reads 0x400 s.dev.lseed.toNat ∧ reads 0x401 s.dev.quantum.toNat)

/-- R174: CSRW, CSRS and CSRC write a value and give the old one; RO registers keep theirs; R68, R74, R86 and R175 say what some registers make of it.
A 1 in a reserved bit, a register of the physical function, or a shape that R26 forbids (ROWS over 128, WIDTH over 256, WIDTH 0
with ROWS not 0, a WIDTH that is no multiple of an element of 16 or 32 bits) raises ILLEGAL_OP and writes nothing. -/
def Obligations.CsrWordsWriteOrFault : Prop :=
  (∀ (i : Instr) (f : Word → Word → Word) (s : State) (st : Strand) (xd xa : Reg) (n : BitVec 16), CRuns s st →
      (i = .csrw xd xa n ∧ f = (fun _ a => a)) ∨ (i = .csrs xd xa n ∧ f = (fun old a => old ||| a)) ∨
        (i = .csrc xd xa n ∧ f = (fun old a => old &&& ~~~a)) →
      let old := BitVec.ofNat 64 (csrRead s st n.toNat)
      let v := (f old (st.rx xa)).toNat
      csrMay st n.toNat = true → v &&& csrRsv n.toNat = 0 → csrAllowed s n.toNat v = true → csrListed n.toNat = true →
      ∃ t st', exec i s = .next t ∧ t.mem = s.mem ∧ OtherSlotsSame s t ∧
        t.strands.find? (runKey s.curTile) = some st' ∧
        (∀ r, r ≠ xd → st'.rx r = st.rx r) ∧ (xd ≠ 0 → st'.rx xd = old) ∧ st'.c.pc = st.c.pc + 8 ∧
        (n.toNat ≤ 0x13 ∨ n.toNat = 0x1A ∨ 0x300 ≤ n.toNat ∧ n.toNat ≤ 0x3FF ∨ 0x500 ≤ n.toNat →
          csrRead t st' n.toNat = v) ∧
        (n.toNat = 0x18 ∨ n.toNat = 0x19 → csrRead t st' n.toNat = v / 8 * 8) ∧
        (0x200 ≤ n.toNat ∧ n.toNat ≤ 0x2FF → csrRead t st' n.toNat = v / 128 * 128) ∧
        (n.toNat = 0x400 ∨ n.toNat = 0x401 → csrRead t st' n.toNat = max 1 v) ∧
        (n.toNat = 0x14 ∨ n.toNat = 0x15 ∨ n.toNat = 0x16 ∨ n.toNat = 0x17 ∨ n.toNat = 0x1B ∨ n.toNat = 0x20 ∨
          n.toNat = 0x21 → csrRead t st' n.toNat = csrRead s st n.toNat)) ∧
  (∀ (s : State) (st : Strand) (xd xa : Reg) (n : BitVec 16), CRuns s st →
      let v := (st.rx xa).toNat
      let bad := (⟨.illegalOp, .none, 0⟩ : Raise)
      (0x200 ≤ n.toNat → n.toNat ≤ 0x401 → st.fn ≠ 0 →
        Faults (.csrr xd n) s st bad ∧ Faults (.csrw xd xa n) s st bad ∧ Faults (.csrs xd xa n) s st bad ∧
          Faults (.csrc xd xa n) s st bad) ∧
      (n.toNat ≤ 0x13 → n.toNat ≠ 0x12 → 2 ^ 32 ≤ v → Faults (.csrw xd xa n) s st bad) ∧
      (n.toNat ≤ 0xF → 128 < bitsOf v 8 8 ∨ 256 < bitsOf v 16 9 ∨ bitsOf v 25 7 ≠ 0 ∨ bitsOf v 2 6 ≠ 0 ∨
        (bitsOf v 16 9 = 0 ∧ bitsOf v 8 8 ≠ 0) ∨ (bitsOf v 0 2 = 2 ∧ bitsOf v 16 9 % 2 ≠ 0) ∨
        (bitsOf v 0 2 = 3 ∧ bitsOf v 16 9 % 4 ≠ 0) → Faults (.csrw xd xa n) s st bad))

/-- R177: CBLD faults on a codebook in use; otherwise it is in progress, and loads its eight rows from the windows. That it is
in progress after one turn of C and completes in a later one is the model's choice (log entry 44). -/
def Obligations.CodebookLoads : Prop :=
  ∀ (s : State) (st : Strand) (cb : BitVec 2) (xa : Reg) (imm : BitVec 32), CRuns s st →
    let i := Instr.cbld cb xa imm
    let a := (st.rx xa + imm.signExtend 64).toNat
    (st.c.wait = .idle → bookInUse st cb.toNat = true → Faults i s st ⟨.race, .d, 0⟩) ∧
    (st.c.wait = .idle → bookInUse st cb.toNat = false →
      exec i s = .next (s.withStrand (st.cStay (.cbld cb.toNat [] none)))) ∧
    (∀ place : Nat → Place, st.c.wait = .cbld cb.toNat [] none → s.health = .clean →
      (∀ r, r < 8 → decodeAddr s.curTile ((a + 128 * r) % 2 ^ 64) = some (place r) ∧ (place r).win ≠ 3 ∧
        (place r).off < 0x600000 ∧ s.dev.failed (place r).tile = false) →
      ∃ st', exec i s = .next (s.withStrand st') ∧ { st' with cb := st.cb, c := st.c } = st ∧
        st'.c.pc = st.c.pc + 8 ∧ st'.c.wait = .idle ∧
        (∀ j (h : j < 4), j ≠ cb.toNat → st'.cb[j] = st.cb[j]) ∧
        ∀ r, r < 8 → (st'.cb[cb.toNat]'cb.isLt).extractLsb' (1024 * r) 1024 =
          readRow s.mem (sliceKey (place r).tile (place r).off))

/-- R178 and R70: LAUNCH faults on a queue that takes no launch of the strand's function and on a packet of TYPE 0; else
it claims a slot, gives its index, waits while the slot is not free, and stores the packet in it. The queue and the packet
lie on a page whose entry C's TLB holds. -/
def Obligations.LaunchPlacesAPacket : Prop :=
  ∀ (s : State) (st : Strand) (xd xa xc : Reg), CRuns s st → st.c.wait = .idle → s.health = .clean →
    let i := Instr.launch xd xa xc
    let q := (st.rx xc).toNat
    let a := (st.rx xa).toNat / 64 * 64
    let base := queueBase s.dev q
    (¬(q ≤ 255 ∧ queueEn s.dev q = true ∧ queueFn s.dev q = st.fn) → Faults i s st ⟨.launch, .a, 0⟩) ∧
    (q ≤ 255 ∧ queueEn s.dev q = true ∧ queueFn s.dev q = st.fn → ∀ e,
      let w := readNat s.mem (e.keyOf base / 8 * 8) 8
      let slot := base + 256 + 64 * (w % 2 ^ queueLogsz s.dev q)
      let packet := readNat s.mem (e.keyOf a) 64
      let free := w < readNat (writeNat s.mem (e.keyOf base / 8 * 8) 8 (w + 1)) (e.keyOf (base + 128) / 8 * 8) 8
        + 2 ^ queueLogsz s.dev q
      OneEntry s st e [a, base, base + 128, slot] →
      (packet % 256 = 0 → exec i s = .next (takeFault (s.withStrand st) (runKey s.curTile) st ⟨.launch, .a, 0⟩)) ∧
      (packet % 256 ≠ 0 → free → ∃ t st', exec i s = .next t ∧ t = (s.withStrand st').setMem t.mem ∧
        readNat t.mem (e.keyOf slot) 64 = packet ∧ readNat t.mem (e.keyOf base / 8 * 8) 8 = (w + 1) % 2 ^ 64 ∧
        (∀ b, ¬(e.keyOf slot ≤ b ∧ b < e.keyOf slot + 64) →
          ¬(e.keyOf base / 8 * 8 ≤ b ∧ b < e.keyOf base / 8 * 8 + 8) → readByte t.mem b = readByte s.mem b) ∧
        SameButReg xd st st' ∧ (xd ≠ 0 → st'.rx xd = BitVec.ofNat 64 w) ∧ st'.c.pc = st.c.pc + 8) ∧
      (packet % 256 ≠ 0 → ¬free → ∃ t st', exec i s = .next t ∧ t = (s.withStrand st').setMem t.mem ∧
        readNat t.mem (e.keyOf base / 8 * 8) 8 = (w + 1) % 2 ^ 64 ∧ SameButReg xd st st' ∧
        (xd ≠ 0 → st'.rx xd = BitVec.ofNat 64 w) ∧ st'.c.pc = st.c.pc ∧
        st'.c.wait = .launch ⟨base, 2 ^ queueLogsz s.dev q, BitVec.ofNat 512 packet⟩ w))

/-- R116 and R180: PROBE waits for the strand's counters, confirms the bytes of pages that its walk finds and it may use,
whatever C's TLB holds, stops where an address has no page, and in deterministic mode posts no request. R342, R364: a table
read whose error lasts is its fault there. -/
def Obligations.ProbeConfirmsBytes : Prop :=
  ∀ (s : State) (st : Strand) (xd xa xc : Reg) (w : BitVec 1), CRuns s st → st.c.wait = .idle →
    let i := Instr.probe xd xa xc w
    let a := (st.rx xa).toNat
    let n := (st.rx xc).toNat
    (st.quiet = false → Stays i s st) ∧
    (st.quiet = true → n = 0 → Gives i s st xd (fun v => v = 0)) ∧
    (st.quiet = true → decodeAddr s.curTile a = none → Gives i s st xd (fun v => v = 0)) ∧
    (∀ p, st.quiet = true → decodeAddr s.curTile a = some p → p.win ≠ 3 →
      (0x600000 ≤ p.off → Gives i s st xd (fun v => v = 0)) ∧
      (p.off < 0x600000 → s.dev.failed p.tile = false → a + n ≤ (a / 2 ^ 16 + 1) * 2 ^ 16 →
        Gives i s st xd (fun v => v.toNat = n))) ∧
    (∀ e, st.quiet = true → s.health = .clean → a < 2 ^ 56 → probeWalk s st a = .found e → (w = 1 → e.writable = true) → 0 < n →
      a + n ≤ e.page + (if e.big then 2 ^ 21 else 2 ^ 16) →
      ∃ st', exec i s = .next (s.withStrand st') ∧ { st' with x := st.x, c := st.c, tlb := st.tlb } = st ∧
        (∀ r, r ≠ xd → st'.rx r = st.rx r) ∧ (xd ≠ 0 → (st'.rx xd).toNat = n) ∧ st'.c.pc = st.c.pc + 8) ∧
    (st.quiet = true → s.health = .clean → a < 2 ^ 56 → 0 < n → probeWalk s st a = .nothing → st.det = true →
      Gives i s st xd (fun v => v = 0)) ∧
    (st.quiet = true → s.health = .memLasting → a < 2 ^ 56 → 0 < n → probeWalk s st a ≠ .held → st.det = true →
      exec i s = .next (takeFault { s with health := .clean } (runKey s.curTile) st ⟨.memLasting, .a, 0⟩))

/-- R182, R183, R186: TRAP enters the handler or ends the strand; TRET returns, and resumes an interrupted word. -/
def Obligations.TrapsAndReturns : Prop :=
  ∀ (s : State) (st : Strand) (imm : BitVec 32), CRuns s st →
    (st.tvec ≠ 0 → st.act = false → ∃ st', exec (.trap imm) s = .next (s.withStrand st') ∧
      { st' with tepc := st.tepc, tcause := st.tcause, act := st.act, c := st.c } = st ∧
      st'.tepc = st.c.pc + 8 ∧ st'.tcause.toNat = 2 ^ 63 + imm.toNat ∧ st'.act = true ∧ st'.c.pc = st.tvec ∧
      st'.c.seqno = st.c.seqno + 1 ∧ st'.c.ended = false) ∧
    (st.tvec = 0 ∨ st.act = true → exec (.trap imm) s =
      .next (endByFault s (runKey s.curTile) st ⟨.unhandledTrap, .none, 0⟩ .c (st.c.seqno + 1) false)) ∧
    (st.act = true → ∃ st', exec .tret s = .next (s.withStrand st') ∧
      { st' with act := st.act, intr := st.intr, c := st.c } = st ∧ st'.act = false ∧ st'.intr = false ∧
      st'.c.pc = st.tepc ∧ st'.c.wait = if st.intr then st.c.kept else .idle) ∧
    (st.act = false → Faults .tret s st ⟨.illegalOp, .none, 0⟩)

/-- R359 and R356: a fault of C that a handler takes, no run-ahead episode being open: what it saves, where C goes, and the
record; nothing else changes where the function has no fault log. That the word counts in C's sequence number is the
model's reading (log entry 23); TIMING alone is no fault of the word at C's pc (R342).
R358: where the function's log is mapped, nothing waits for it and its rows meet no error (R364), the record is written at the
write index, which then counts on, or LOST counts in a full ring, and no other byte changes. -/
def Obligations.ExceptionsEnterTheHandler : Prop :=
  ∀ (s : State) (st : Strand) (r : Raise), CRuns s st → r.code.toHandler = true → st.tvec ≠ 0 → st.act = false →
    st.episode = none → r.index < 2 ^ 47 → ringBase s .fault st.fn = 0 ∨ s.health = .clean →
    let t := takeFault s (runKey s.curTile) st r
    let base := ringBase s .fault st.fn
    ∃ st' bits, t.strands.find? (runKey s.curTile) = some st' ∧ OtherSlotsSame s t ∧
      (base = 0 → t.mem = s.mem ∧ t.dev = s.dev) ∧
      (∀ kb kr, base ≠ 0 → base % 128 = 0 → s.dev.ringQueue = [] →
        procTarget s st.fn base true = .ok (.cell kb) → procTarget s st.fn (base + 128) false = .ok (.cell kr) →
        let w := readNat s.mem (rowOf kb) 8
        let lost := readNat s.mem (rowOf kb + 8) 8
        let slot := base + 256 + 64 * (w % 256)
        (w = readNat s.mem (rowOf kr) 8 + 256 →
          t.mem = writeNat s.mem (rowOf kb + 8) 8 (min (lost + 1) (2 ^ 64 - 1))) ∧
        (∀ ks, w ≠ readNat s.mem (rowOf kr) 8 + 256 → procTarget s st.fn slot true = .ok (.cell ks) →
          let m := writeNat s.mem (rowOf ks + slot % 128) 64 bits.toNat
          procTarget (s.setMem m) st.fn base true = .ok (.cell kb) → t.mem = writeNat m (rowOf kb) 8 (w + 1)) ∧
        t.dev = { s.dev with procRows := [] }) ∧
      { st' with tepc := st.tepc, tcause := st.tcause, act := st.act, c := st.c } = st ∧
      st'.tepc = st.c.pc ∧ st'.tcause.toNat = r.index * 2 ^ 16 + r.slot.code * 2 ^ 8 + r.code.num ∧
      st'.act = true ∧ st'.c.pc = st.tvec ∧ st'.c.seqno = st.c.seqno + 1 ∧
      t.records = (st.fn, bits) :: s.records ∧
      bits.extractLsb' 0 8 = BitVec.ofNat 8 r.code.num ∧ bits.extractLsb' 8 8 = BitVec.ofNat 8 r.slot.code ∧
      bits.extractLsb' 16 8 = 0#8 ∧ bits.extractLsb' 24 8 = 2#8 ∧
      bits.extractLsb' 32 16 = BitVec.ofNat 16 s.curTile ∧ bits.extractLsb' 48 16 = BitVec.ofNat 16 st.queue ∧
      bits.extractLsb' 64 64 = BitVec.ofNat 64 (st.c.seqno + 1) ∧
      bits.extractLsb' 128 64 = BitVec.ofNat 64 r.index ∧ bits.extractLsb' 192 64 = s.dev.devtime ∧
      bits.extractLsb' 256 64 = BitVec.ofNat 64 st.pkt ∧
      bits.extractLsb' 320 64 = (if st.det then BitVec.ofNat 64 st.scyc else BitVec.allOnes 64) ∧
      bits.extractLsb' 384 128 = 0#128

/-- R360, R369, R64, R79: a fault that no handler takes ends the strand: its slot is free, it belongs to no set, its launch
counts it with status 3 or is complete, one record with ENDED is formed, and memory stands as it was where no log, signal
or trace is written. That a launch whose status is 4 already keeps 4 is the model's choice (log entry 39). A fault that the
word at C's pc does not raise (TIMING, R342) is imprecise. -/
def Obligations.OtherFaultsEndTheStrand : Prop :=
  ∀ (s : State) (st : Strand) (r : Raise) (q : Seqr) (n : Nat) (imprecise : Bool),
    s.strands.find? (runKey s.curTile) = some st →
    (r.code.toHandler = false ∨ st.tvec = 0 ∨ st.act = true →
      takeFault s (runKey s.curTile) st r =
        endByFault s (runKey s.curTile) st r .c (st.c.seqno + 1) (r.code = .timing)) ∧
    (∀ l, ringBase s .fault st.fn = 0 → s.dev.trcctl.getLsbD 31 = false → s.dev.launches.find? st.launch = some l →
      l.gang = .none → l.stage = none → l.killed = false → s.dev.killedLaunches = [] →
      l.ended + 1 < pkStrands l.packet ∨ l.ended + 1 = pkStrands l.packet ∧ pkSignal l.packet = 0 →
      s.dev.ivpending = [] → s.strands.find? (runKey s.curTile + 1) = none →
      let t := endByFault s (runKey s.curTile) st r q n imprecise
      t.strands.find? (runKey s.curTile) = none ∧ OtherSlotsSame s t ∧ t.mem = s.mem ∧
        (l.ended + 1 < pkStrands l.packet → t.dev.launches.find? st.launch = some { l with
          ended := l.ended + 1, status := if l.status = 4 then 4 else 3 }) ∧
        (l.ended + 1 = pkStrands l.packet → t.dev.launches.find? st.launch = none) ∧
        (∀ id e, id < 2 ^ 16 → t.dev.sets.find? (setKey st.fn id) = some e → st.uid ∉ e.members) ∧
        ∃ bits, t.records = (st.fn, bits) :: s.records ∧ bits.extractLsb' 0 8 = BitVec.ofNat 8 r.code.num ∧
          bits.extractLsb' 16 8 = BitVec.ofNat 8 q.code ∧ bits.extractLsb' 24 8 = BitVec.ofNat 8 (4 + imprecise.toNat) ∧
          bits.extractLsb' 64 64 = BitVec.ofNat 64 n)

/-- R310, R309, R326: a planner word sends its request and C waits; a PLAN of arena size 0 raises ILLEGAL_OP. -/
def Obligations.PlannerWordsAskThePlanner : Prop :=
  ∀ (i : Instr) (s : State) (st : Strand), CRuns s st → st.c.wait ≠ .planner →
    (isPlanWord i = true → ∃ st', exec i s =
        .next ((s.setPlanner { s.planner with reqs := s.planner.reqs ++ [.word st.uid i] }).withStrand st') ∧
      { st' with c := st.c } = st ∧ st'.c = { st.c with wait := .planner }) ∧
    (∀ xd xa xc hints, i = .plan xd xa xc hints 0 → Faults i s st ⟨.illegalOp, .none, 0⟩)

/-- R309, R311, R312, R315, R316, R325, R327, R328, R332: the planner applies the word at its head and answers its strand: a tensor
registered in the lowest free slot, replaced, dropped or its statistics cleared, an entry written to memory, a plan pinned, hinted
while pinned or running, run behind an earlier run, or read, or the status or fault of what does not exist. That an extent of 0 below RANK
is out of range is the model's choice (log entry 27). -/
def Obligations.PlannerAppliesRequests : Prop :=
  ∀ (s : State) (key uid : Nat) (st : Strand) (i : Instr) (rest : List PlanReq) (xd xa : Reg),
    s.planner.reqs = .word uid i :: rest → s.dev.ready.getLsbD 4 = true → findUid s uid = some (key, st) →
    s.strands.find? key = some st → st.c.wait = .planner → s.dev.procRows = [] →
    let tid := (st.rx xa).toNat
    let done (p : Planner) (d : Reg) (v : Nat) : Prop := exec .plannerRequestApply s =
      .next ((s.setPlanner { p with reqs := rest }).setStrand key ((st.wx d (BitVec.ofNat 64 v)).cNext))
    (∀ t, i = .tregDel xd xa → tensorOf s.planner st.fn tid = some t →
      done { s.planner with tensors := s.planner.tensors.insert tid { t with live := false } } xd 0) ∧
    (∀ t, i = .tregRst xd xa → tensorOf s.planner st.fn tid = some t → ∃ t',
      t'.gen = (t.gen + 1) % 2 ^ 32 ∧ t'.nsamp = 0 ∧ t'.nz = 0 ∧ t'.nelem = 0 ∧ t'.serial = t.serial ∧
      t'.base = t.base ∧ t'.dims = t.dims ∧
      done { s.planner with tensors := s.planner.tensors.insert tid t' } xd ((t.gen + 1) % 2 ^ 32)) ∧
    (i = .tregDel xd xa ∨ i = .tregRst xd xa → tensorOf s.planner st.fn tid = none →
      done s.planner xd (2 ^ 63 + 6)) ∧
    (∀ k, i = .tregReg xd xa ∨ i = .tregUpd xd xa → s.health = .clean → PlannerReaches s key st (rowOf tid) false k →
      let f (lo n : Nat) : Nat := readNat s.mem (k + lo) n
      let free (j : Nat) : Prop := ∀ t, s.planner.tensors.find? j = some t → t.live = false
      let named (t' : Tensor) : Prop := t'.base = f 0 8 ∧ t'.blkaddr = f 8 8 ∧ t'.caddr = f 16 8 ∧ t'.pitch = f 24 8 ∧
        t'.dims = (List.range (f 48 1)).map (fun j => f (32 + 4 * j) 4) ∧ t'.fmt = f 49 1 ∧ t'.vl = f 50 1
      (¬DescOk s.mem k → done s.planner xd (2 ^ 63 + 1)) ∧
      (DescOk s.mem k → i = .tregReg xd xa →
        (∀ n, 1 ≤ n → n ≤ 16383 → free n → (∀ j, 1 ≤ j → j < n → ¬free j) → ∃ t', named t' ∧ t'.cbaddr = f 64 8 ∧
          t'.live = true ∧ t'.fn = st.fn ∧ t'.gen = 1 ∧ t'.nsamp = 0 ∧ t'.nz = 0 ∧ t'.nelem = 0 ∧ t'.c24 = 0 ∧ t'.c48 = 0 ∧
          t'.hist = [] ∧ t'.amin.toNat = infinityEnc 10 false ∧ t'.amax.toNat = infinityEnc 10 true ∧
          (s.planner.tensors.find? n = none → t'.serial = 1) ∧
          (∀ t, s.planner.tensors.find? n = some t → t'.serial = (t.serial + 1) % 2 ^ 32) ∧
          done { s.planner with tensors := s.planner.tensors.insert n t' } xd n) ∧
        ((∀ j, 1 ≤ j → j ≤ 16383 → ¬free j) → done s.planner xd (2 ^ 63 + 2))) ∧
      (DescOk s.mem k → i = .tregUpd xd xa →
        (tensorOf s.planner st.fn (f 52 4) = none → done s.planner xd (2 ^ 63 + 6)) ∧
        (∀ t, tensorOf s.planner st.fn (f 52 4) = some t → ∃ t', named t' ∧
          { t' with base := t.base, blkaddr := t.blkaddr, caddr := t.caddr, pitch := t.pitch, dims := t.dims,
                    fmt := t.fmt, vl := t.vl } = t ∧
          done { s.planner with tensors := s.planner.tensors.insert (f 52 4) t' } xd (f 52 4)))) ∧
    (∀ xc, i = .statrd xd xa xc →
      (tensorOf s.planner st.fn tid = none → done s.planner xd (2 ^ 63 + 6)) ∧
      (∀ t k, tensorOf s.planner st.fn tid = some t → s.health = .clean →
        (∀ j, j < 4 → PlannerReaches s key st ((rowOf (st.rx xc).toNat + 128 * j) % 2 ^ 64) true (k + 128 * j)) →
        ∃ m, exec .plannerRequestApply s = .next (((s.setMem m).setPlanner { s.planner with reqs := rest }).setStrand key
            ((st.wx xd (BitVec.ofNat 64 t.gen)).cNext)) ∧
          KeptOutside s.mem m k 512 ∧
          (∀ p ∈ ([(0, 8, t.base), (8, 8, t.blkaddr), (16, 8, t.caddr), (24, 8, t.pitch), (32, 4, t.dims.getD 0 0),
              (36, 4, t.dims.getD 1 0), (40, 4, t.dims.getD 2 0), (44, 4, t.dims.getD 3 0), (48, 1, t.dims.length),
              (49, 1, t.fmt), (50, 1, t.vl), (51, 1, 0), (52, 4, tid), (56, 4, t.serial), (60, 4, t.gen), (64, 8, t.cbaddr),
              (72, 56, 0), (128, 8, t.nsamp), (136, 8, t.nz), (144, 8, t.nelem), (152, 8, t.c24), (160, 8, t.c48),
              (168, 12, t.amin.toNat), (180, 12, t.amax.toNat), (192, 64, 0)] : List (Nat × Nat × Nat)),
            readNat m (k + p.1) p.2.1 = p.2.2 % 256 ^ p.2.1) ∧
          ∀ b, b < 64 → readNat m (k + 256 + 4 * b) 4 = cellGet 0 t.hist b % 2 ^ 32)) ∧
    (∀ ps p, planSlot s (tid % 2 ^ 12) = ps → ps.plan = some p → ps.fn = st.fn →
      tid = ps.gen * 2 ^ 32 + st.fn * 2 ^ 28 + tid % 2 ^ 12 →
      (i = .ppinOn xa → done { s.planner with
        plans := s.planner.plans.insert (tid % 2 ^ 12) { ps with plan := some { p with pinned := true } } } 0 0) ∧
      (i = .ppinOff xa → done { s.planner with
        plans := s.planner.plans.insert (tid % 2 ^ 12) { ps with plan := some { p with pinned := false } } } 0 0) ∧
      (∀ h, i = .phint xd xa h →
        (p.pinned = true → done s.planner xd (2 ^ 63 + 7)) ∧
        (p.pinned = false → running s (tid % 2 ^ 12) = true → done { s.planner with
          plans := s.planner.plans.insert (tid % 2 ^ 12)
            { ps with plan := some { p with hints := h.toNat, cost := st.cost } } } xd 0)) ∧
      (∀ xc, i = .prun xd xa xc → s.health = .clean →
        (queueTakes s.dev (st.rx xc).toNat st.fn = false → exec .plannerRequestApply s = .next (takeFault
          (s.setPlanner { s.planner with reqs := rest }) key st ⟨.launch, .a, 0⟩)) ∧
        (queueTakes s.dev (st.rx xc).toNat st.fn = true → st.det = false → running s (tid % 2 ^ 12) = true → p.pinned = false →
          (∀ r ∈ p.recorded, ∃ t, tensorOf s.planner st.fn r.tid = some t ∧ t.serial = r.serial) →
          ∃ r, r.num = s.planner.monIssue + 1 ∧ r.slot = tid % 2 ^ 12 ∧ r.queue = (st.rx xc).toNat ∧ r.fn = st.fn ∧
            r.uid = st.uid ∧ r.launch = st.launch ∧ r.phase = .queued ∧ r.stage = 0 ∧ r.killed = false ∧
            done { s.planner with monIssue := s.planner.monIssue + 1, runs := s.planner.runs ++ [r] } xd
              (s.planner.monIssue + 1))) ∧
      (i = .pfpr xd xa 0 → done s.planner xd p.fp) ∧ (i = .pfpr xd xa 1 → done s.planner xd p.total) ∧
      (i = .prel xa → running s (tid % 2 ^ 12) = false → done { s.planner with
        plans := s.planner.plans.insert (tid % 2 ^ 12) { ps with gen := (ps.gen + 1) % 2 ^ 16, plan := none } } 0 0)) ∧
    ((planSlot s (tid % 2 ^ 12)).plan = none →
      i = .ppinOn xa ∨ i = .ppinOff xa ∨ i = .prel xa ∨ i = .pfpr xd xa 0 →
      exec .plannerRequestApply s = .next (takeFault (s.setPlanner { s.planner with reqs := rest }) key st
        ⟨.planInvalid, .a, 0⟩))

/-- R309, R313, R314, R195: the sample at the planner's head is applied: discarded where no tensor of the function holds
its row, counted in the tensor otherwise.
R332 to R334: a run whose issuing strand was killed ends with status 4 before its next stage; a run with no stage left
ends with status 1; the number completes and the plan records the end. That a killed run with no stage left ends with
status 4 and not 1 is the model's choice (log entry 37); so is that the scales and the codebook of a sampled tensor of tags 11 to
14 are read through the windows of tile 0 (log entry 9). -/
def Obligations.SamplesAndPlanRuns : Prop :=
  (∀ (s : State) (uid n fn queue pkt addr : Nat) (q : Seqr) (row : Row) (rest : List PlanReq),
      s.planner.reqs = .sample uid q n fn queue pkt addr row :: rest → s.dev.procRows = [] →
      (sampleTensor fn addr s.planner.tensors = none →
        exec .atlasSampleApply s = .next (s.setPlanner { s.planner with reqs := rest })) ∧
      (∀ tid t r o els, sampleTensor fn addr s.planner.tensors = some (tid, t, r, o) → t.blkaddr = 0 →
        s.health = .clean ∨ t.fmt < 11 →
        sampleElems s (fnAim s fn 0 false) t row (t.base + r * t.pitch) o = .ok els →
        ∃ t', exec .atlasSampleApply s = .next (s.setPlanner { s.planner with
            reqs := rest, tensors := s.planner.tensors.insert tid t' }) ∧
          t'.nsamp = min (t.nsamp + 1) (2 ^ 64 - 1) ∧
          (t.nelem + els.length < 2 ^ 64 → t'.nelem = t.nelem + els.length) ∧
          (t.nz + els.length < 2 ^ 64 → t'.nz = t.nz + (els.filter (fun e => !e.2.isZero)).length) ∧
          t'.gen = t.gen ∧ t'.base = t.base ∧ t'.dims = t.dims)) ∧
  (∀ (s : State) (num : Nat) (r : Run) (ps : PlanSlot) (p : Plan), findRun s num = some r →
      s.planner.plans.find? r.slot = some ps → ps.plan = some p → p.released = false → r.phase = .claim →
      s.planner.monEarly = [] → num = s.planner.monCompletion + 1 →
      r.killed = true ∨ p.stages.length ≤ r.stage →
      ∃ t, exec (.planBreak num) s = .next t ∧ t.mem = s.mem ∧ t.strands = s.strands ∧ t.dev = s.dev ∧
        t.planner.monCompletion = num ∧ (∀ q ∈ t.planner.runs, q.num ≠ num) ∧
        ∃ p', (t.planner.plans.find? r.slot).map PlanSlot.plan = some (some p') ∧
          p'.lastStatus = (if r.killed then 4 else 1) ∧ p'.lastFp = p.fp ∧ p'.ended = (p.ended + 1) % 2 ^ 32)

/-- R20, R123, R129, R155: the turn of a sequencer whose pc stands at bits that decode executes that instruction, in the
state in which the row was fetched; nothing else is added around it. -/
def Obligations.StepRunsTheDecodedInstruction : Prop :=
  ∀ (s s0 s1 : State) (tile : Nat) (q : Seqr) (h : Health) (st : Strand) (r : Row) (i : Instr),
    TurnComes s tile q h st s0 → Fetches s0 tile st q r s1 →
    decodeAt q (bitsAt q (st.pcOf q) r) = .ok i → step s = exec i s1

/-- R143, R155, R185, R274: bits that do not decode raise ILLEGAL_OP at the word, and for L, X and S end the strand, unless X
stands on a run-ahead path, which holds the fault of a record that R274 lets it decode there and leaves any other undecoded; an
address outside the global window raises ADDRESS and one with no
translation XLATE, for L, X and S once the record is reached (R130). -/
def Obligations.BadFetchesFault : Prop :=
  ∀ (s s0 s1 : State) (tile : Nat) (q : Seqr) (h : Health) (st : Strand) (r : Row) (e : Reject),
    TurnComes s tile q h st s0 →
    (Fetches s0 tile st q r s1 → decodeAt q (bitsAt q (st.pcOf q) r) = .error e →
      let st1 := s1.strandAt (runKey tile) st
      (q = .c → step s = .next (takeFault s1 (runKey tile) st1 ⟨.illegalOp, e.slot, 0⟩)) ∧
      (q ≠ .c → decodeOpen st1 q = true → q ≠ .x ∨ st1.episode = none →
        step s = .next (endByFault s1 (runKey tile) st1 ⟨.illegalOp, e.slot, 0⟩ q ((st1.rseq q).seqno + 1) false)) ∧
      (∀ ep, q = .x → decodeOpen st1 q = true → st1.episode = some ep →
        let onThePath : Prop := ∃ i rr, recordFields (BitVec.ofNat 512 (bitsAt q (st.pcOf q) r)) = some i ∧
          i.rec? = some rr ∧ pathOk st1 ep i rr = true
        (onThePath → step s = .next (s1.setStrand (runKey tile)
          { st1 with episode := some { ep with fault := some (⟨.illegalOp, e.slot, 0⟩, st1.xs.seqno + 1) } })) ∧
        (¬onThePath → step s = .next s1)) ∧
      (q ≠ .c → decodeOpen st1 q = false → step s = .next s1)) ∧
    ((st.windowOf q).find? (fun p => p.1 = rowOf (st.pcOf q).toNat) = none → ∀ c,
      (2 ^ 56 ≤ (st.pcOf q).toNat ∧ c = .address) ∨ ((st.pcOf q).toNat < 2 ^ 56 ∧
        translate s0 st (fetchTlb q) (st.pcOf q).toNat = .nothing ∧ c = .xlate) →
      (q = .c → step s = .next (takeFault s0 (runKey tile) st ⟨c, .none, 0⟩)) ∧
      (q ≠ .c → decodeOpen st q = true → q ≠ .x ∨ st.episode = none →
        step s = .next (endByFault s0 (runKey tile) st ⟨c, .none, 0⟩ q ((st.rseq q).seqno + 1) false)) ∧
      (q ≠ .c → decodeOpen st q = false → step s = .next s0))

/-- Every step of a machine that is not shut down, whose agenda names only moves that exist (log entry 1), answers a next
state: no word, record or event ever stops the machine (every fault of the manual is taken: R156, R358 to R360). -/
def Obligations.EveryStepGoes : Prop := ∀ s : State, s.Live → Goes (step s)

/-- The invariant of memory: every step keeps the one form of memory, strictly rising addresses and no entry that an
unlisted address reads as. -/
def Obligations.StepsKeepTheFormOfMemory : Prop :=
  ∀ s t : State, s.MemOk → step s = .next t → t.MemOk

/-- The state after reset: what the register statements give (R68, R74, R86, R110, R118, R120, R175, R337, R398), and of
the model's own choices the form of memory and its contents (log entry 4). -/
def Obligations.ResetState : Prop :=
  let s := State.reset
  s.MemOk ∧ s.Live ∧ (∀ a, readByte s.mem a = 0) ∧ s.strands = [] ∧ s.dev.launches = [] ∧ s.dev.sets = [] ∧
    s.dev.lseed = 1 ∧ s.dev.quantum = 100000 ∧ s.dev.ivlimit = 1000000 ∧ s.dev.pwrctl = 2400 ∧ s.dev.ready = 0 ∧
    (∀ n, queueBase s.dev n = 0 ∧ queueEn s.dev n = false) ∧ (∀ f (h : f < 16), s.dev.ptbase[f] = 0) ∧
    s.dev.ivaddr = 0 ∧ s.dev.ivlen = 0 ∧ s.dev.ivctl = 0 ∧ s.dev.sattrbase = 0 ∧ s.dev.swapreq = 0 ∧
    s.dev.killctl = 0 ∧ s.dev.bpstat = 0 ∧ s.dev.stopped = false ∧ s.planner.tensors = [] ∧ s.planner.plans = [] ∧
    s.planner.monIssue = 0 ∧ s.planner.monCompletion = 0 ∧ (∀ t, s.tile t = Tile.reset) ∧
    (Strand.blank.t.all (fun r => r.tag = 0) = true) ∧ Strand.blank.k[0] = MaskReg.ones

/-- R81, R344, R365, R86, R383: time passes: DEVTIME counts ticks; a strand in a running slot counts ticks for its watchdog, and one that
has started also for its quantum, and cycles of its schedule if it is deterministic and its launch is not parked, but none while
the slots of its tile exchange (R383); a started deterministic launch counts its schedule cycles; no register of a strand changes, and nothing of a resident one. That a
strand of a gang which holds a running slot before the decision counts no tick toward its quantum is the model's choice (log
entry 19). -/
def Obligations.TimePasses : Prop :=
  ∀ (s : State) (cycles ticks : Nat) (rest : List Move), s.agenda = .clock cycles ticks :: rest →
    s.dev.shutdown = false → s.dev.stopped = false →
    ∃ t, step s = .next t ∧ t.mem = s.mem ∧ t.agenda = rest ∧ t.planner = s.planner ∧
      t.dev.devtime = s.dev.devtime + BitVec.ofNat 64 ticks ∧
      (∀ k l, s.dev.launches.find? k = some l → t.dev.launches.find? k = some { l with
        scyc := if pkDet l.packet && l.started && !launchParked { s with agenda := rest } k then l.scyc + cycles
          else l.scyc }) ∧
      ∀ k st, s.strands.find? k = some st →
        (k % 2 = 0 → (s.tile (k / 2)).exchanging = false → st.started = true → t.strands.find? k = some { st with
          wdcount := st.wdcount + ticks, quantum := st.quantum + ticks
          scyc := if st.det && !launchParked { s with agenda := rest } st.launch then st.scyc + cycles
            else st.scyc }) ∧
        (k % 2 = 0 → (s.tile (k / 2)).exchanging = false → st.started = false →
          t.strands.find? k = some { st with wdcount := st.wdcount + ticks }) ∧
        (k % 2 = 1 ∨ (s.tile (k / 2)).exchanging = true → t.strands.find? k = some st)

/-- R374: during a stop no sequencer executes and no engine moves: with only such moves on the agenda, DEVTIME counts and
nothing else changes. -/
def Obligations.StopsHoldTheMachine : Prop :=
  ∀ (s : State) (tile : Nat) (q : Seqr) (h : Health) (rest : List Move), s.agenda = .seq tile q h :: rest →
    (∀ m ∈ rest, m.live = false) → s.dev.shutdown = false → s.dev.stopped = true →
    step s = .next { s with dev := { s.dev with devtime := s.dev.devtime + 1 } }

/-- R23, R139, R140, R143, R137, R208, R274, R275, R349: decode of a record of an engine. What breaks a rule ends the strand, or is
held on a run-ahead path; a record whose token is missing stays; one whose predicate fails or that has no index retires without
effect, in its turn if it pushes tokens, and counts on a run-ahead path, which keeps its token pops; any other stalls while 64
records are tracked, and otherwise is handed to its engine with the bases it read at decode and runs as far as it goes; in a cycle that it shares, a channel takes it
only as the cycle ends (R23). That a
record missing one of several tokens pops none is the model's choice (log entry 21), and so are that it runs as far as it goes
within the step of its decode (log entry 25) and that one which the limit stalls has made its pops (log entry 28). -/
def Obligations.EngineRecordsAreDecoded : Prop :=
  ∀ (i : Instr) (r : Rec) (s : State) (st : Strand) (q : Seqr), engineRecord i = some r → s.curSeq = q →
    RecRuns s st q → mayDecode st q i r = true → (st.rseq q).wait = none →
    let st1 := popTokens st q r
    let o := formOp st1 q i (readAtDecode st1 q r)
    (∀ sl, decodeBreaks st q i r = some sl → q ≠ .x ∨ st.episode = none → exec i s =
      .next (endByFault s (runKey s.curTile) st ⟨.illegalOp, sl, 0⟩ q ((st.rseq q).seqno + 1) false)) ∧
    (∀ sl e, decodeBreaks st q i r = some sl → q = .x → st.episode = some e → exec i s = .next (s.withStrand
      { st with episode := some { e with fault := some (⟨.illegalOp, sl, 0⟩, st.xs.seqno + 1) } })) ∧
    (decodeBreaks st q i r = none → popsReady st q r = false → exec i s = .next s) ∧
    (Decodes s st q i r → (stageHolds st1 r = false ∨ r.total = 0) → q ≠ .x ∨ st.episode = none →
      exec i s = .next (s.withStrand (if r.push = 0 then st.decoded q r
        else { st.decoded q r with ops := st.ops ++ [{ o with empty := true, phase := .complete }] }))) ∧
    (∀ e, Decodes s st q i r → (stageHolds st1 r = false ∨ r.total = 0) → q = .x → st.episode = some e →
      exec i s = .next (s.withStrand { st.decoded q r with
        episode := some { e with count := e.count + 1, popped := e.popped ++ pushList r.pop }
        ops := if r.push = 0 then st.ops
          else st.ops ++ [{ o with empty := true, phase := .complete, redirect := true }] })) ∧
    (Decodes s st q i r → stageHolds st1 r = true → r.total ≠ 0 → 64 ≤ trackedCount st1 →
      OwnStays i s st1 q (readAtDecode st1 q r) .again) ∧
    (Decodes s st q i r → stageHolds st1 r = true → r.total ≠ 0 → trackedCount st1 < 64 →
      exec i s = .next (runOp (runKey s.curTile) q ((st.rseq q).seqno + 1) runFuel (s.withStrand (enterOp s.cycle.isSome st1 o))))

/-- R250 to R256, R260 to R264, R266, R269: the matrix records, with every rule on their operands met. A product of M by N
over K is added to its accumulator, or taken alone under Z, block by block of K; MMANM reads A at the places that its mask
names, MMACB through a codebook, MMAG gathers its rows, MMAK leaves out what its mask leaves out, MNEST loads its two tiles
first. AWRQ, AWRM and AWRT round one row of an accumulator into a queue, into memory or into a tile register. That a product
over a block-scaled register whose WIDTH is no multiple of its unit takes the elements of its last, partial block under the
scale that R49's index gives is the model's choice (log entry 50); so are the bytes of a loaded register beyond its shape (log
entry 13) and that the issues are made in one step (log entry 25). The blocks of K follow one another, and one of finite products
and a finite value gives their exact sum rounded once to A96; NaN, infinities and an exact zero are as R255 says. -/
def Obligations.MatrixRecordsCompute : Prop :=
  (∀ (c : Nat) (prod : Nat → Option Val), kRule c prod 0 = c ∧
    (∀ k, 0 < k → k ≤ 32 → BlockRounds c ((List.range k).filterMap prod) (kRule c prod k)) ∧
    ∀ j k, 0 < k → k ≤ 32 →
      kRule c prod (32 * j + k) = kRule (kRule c prod (32 * j)) (fun l => prod (32 * j + l)) k) ∧
  (∀ x y : Val, (∀ a b : Rat, x.Is a → y.Is b → (x.mul y).Is (a * b)) ∧
    (x.isNaN = true ∨ y.isNaN = true → (x.mul y).isNaN = true) ∧
    (∀ n, (x.Is 0 ∧ y = .inf n) ∨ (x = .inf n ∧ y.Is 0) → (x.mul y).isNaN = true) ∧
    ∀ n m, (x = .inf n ∧ y.isNaN = false ∧ ¬y.Is 0 ∧ y.neg = m) ∨ (y = .inf n ∧ x.isNaN = false ∧ ¬x.Is 0 ∧ x.neg = m) →
      x.mul y = .inf (n != m)) ∧
  ∀ (i : Instr) (r : Rec) (s : State) (st : Strand), StandsAlone s st .x i r →
    let n := r.d.base.toNat - 16
    let acc := st.accAt n
    let a := r.a.base.toNat
    let b := r.b.base.toNat
    let mask := st.maskAt r.msk.toNat
    let ends (st2 : Strand) (z : Bool) (m j : Nat) (v : Nat → Nat → Nat) : Prop :=
      z = true ∨ acc.tag = 10 →
        ∃ a', ProductGives acc a' m j v ∧ RecordEnds i r s .x (st2.setAcc n a') (fun mem => mem = s.mem)
    let sum (z : Bool) (k : Nat) (prod : Nat → Nat → Nat → Option Val) (x y : Nat) : Nat :=
      kRule (if z then 0 else (acc.at x y).toNat) (prod x y) k
    let gives (st2 : Strand) (z : Bool) (m j : Nat) (prod : Nat → Nat → Nat → Option Val) (k : Nat) : Prop :=
      ends st2 z m j (sum z k prod)
    (∀ fa fb m j k, i = .mma r → Pairs fa fb → ProductFits st r fa fb (r.fn.getLsbD 1) (r.fn.getLsbD 2) 1 m j k →
      gives st (r.fn.getLsbD 0) m j (fun x y l => some
        ((st.matElem a fa (r.fn.getLsbD 1) r.moda x l).mul (st.matElem b fb (r.fn.getLsbD 2) r.modb y l))) k) ∧
    (∀ fa fb m j k, i = .mmanm r → Pairs fa fb → fa ≤ 7 → ProductFits st r fa fb false (r.fn.getLsbD 3) 2 m j k →
      let g := if r.fn.getLsbD 1 then 8 else 4
      let h := g / 2
      let lg := if r.fn.getLsbD 1 then 3 else 2
      let v := if r.fn.getLsbD 2 then 8 else 4
      let index (x l t : Nat) : Nat := (mask.bits.extractLsb' ((x / v * (k / g) + l / g) * (h * lg) + t * lg) lg).toNat
      mask.tag = 15 → m % v = 0 → k % g = 0 →
      (∀ x l t, x < m → l < k → t + 1 < h → index x l t < index x l (t + 1)) →
      gives st (r.fn.getLsbD 0) m j (fun x y l => ((List.range h).find? (fun t => index x l t == l % g)).map (fun t =>
        (st.matElem a fa false r.moda x (l / g * h + t)).mul (st.matElem b fb (r.fn.getLsbD 3) r.modb y l))) k) ∧
    (∀ fb m j k, i = .mmacb r → fb = 4 ∨ fb = 5 ∨ fb = 11 ∨ fb = 12 →
      ProductFits st r 14 fb false (r.fn.getLsbD 3) 8 m j k →
      let book := r.fn.toNat / 2 % 4
      (∀ rows id, st.c.wait ≠ .cbld book rows id) →
      gives st (r.fn.getLsbD 0) m j (fun x y l => some
        ((cb2At (st.tile a) (st.cb.toList.getD book 0) (shWidth (st.shape a)) x l).mul
          (st.matElem b fb (r.fn.getLsbD 3) r.modb y l))) k) ∧
    (∀ fb k (ka : Nat → Nat), i = .mmag r → Pairs r.fmt.toNat fb → r.fmt.toNat ≤ 7 →
      let f := r.fmt.toNat
      let sb := st.shape b
      let ni := r.fn.toNat % 16
      let per := shWidth (st.shape ni) / 4
      let index (x : Nat) : Nat := elemAt ((st.tile ni).rowNat (x / per)) 32 (x % per)
      0 < shRows sb → shRows sb ≤ 128 → regFormat (st.tile b).tag r.fmt = some fb → ewCode (fmtWidth fb) = shEw sb →
      k = rowElems fb (shWidth sb) → k * fmtWidth f ≤ 1024 → modBreaks r.moda k = false → modBreaks r.modb k = false →
      0 < shRows (st.shape ni) → (st.tile ni).tag = 9 → r.t0.toNat ≤ shRows (st.shape ni) * shWidth (st.shape ni) / 4 →
      (∀ x, x < r.t0.toNat → index x ≠ 2 ^ 32 - 1 →
        AtSram s (addrPlus (st.opAddr .x r.a) (unitOf r * (index x * r.a.s0.toInt))) (ka x)) →
      gives st (r.fn.getLsbD 4) r.t0.toNat (shRows sb) (fun x y l => some
        ((if index x = 2 ^ 32 - 1 then .fin false 0 0
          else decodeVal f (elemAt (readRow s.mem (ka x)).toNat (fmtWidth f) (modSource r.moda l))).mul
            (st.matElem b fb false r.modb y l))) k) ∧
    (∀ fa fb m j k, i = .mmak r → Pairs fa fb → ProductFits st r fa fb (r.fn.getLsbD 1) (r.fn.getLsbD 2) 1 m j k →
      let z := r.fn.getLsbD 0
      let ax := r.fn.getLsbD 3
      let place (x y : Nat) : Int :=
        (r.d.off.toNat % 2 ^ 16 : Nat) + (x / 64 : Nat) * r.d.s1.toInt + (y / 64 : Nat) * r.d.s0.toInt
      let kept (x y : Nat) : Bool := mask.bits.getLsbD (place x y).toNat
      let prod (x y l : Nat) : Val :=
        (st.matElem a fa (r.fn.getLsbD 1) r.moda x l).mul (st.matElem b fb (r.fn.getLsbD 2) r.modb y l)
      mask.tag = 15 → (∀ x y, x < m → y < (if ax then k else j) → 0 ≤ place x y ∧ place x y < 65536) →
      (ax = true → gives st z m j (fun x y l => if kept x l then some (prod x y l) else none) k) ∧
      (ax = false → ends st z m j (fun x y =>
        if kept x y then sum z k (fun x y l => some (prod x y l)) x y else infinityEnc 10 true))) ∧
    (∀ (ka kb : Nat → Nat), i = .mnest r → r.total = 1 → r.fmt.toNat ≤ 7 →
      let f := r.fmt.toNat
      let p := r.fn.toNat / 2 * 2
      let sa := st.shape p
      let sb := st.shape (p + 1)
      let k := rowElems f (shWidth sa)
      (∀ sh, sh = sa ∨ sh = sb → 0 < shRows sh ∧ shRows sh ≤ 128 ∧ 0 < shWidth sh ∧ shWidth sh ≤ 128 ∧
        ewCode (fmtWidth f) = shEw sh) → rowElems f (shWidth sb) = k →
      2 ≤ f → modBreaks r.moda k = false → modBreaks r.modb k = false →
      (∀ x, x < shRows sa → AtSram s (addrPlus (st.opAddr .x r.a) (128 * x : Nat)) (ka x)) →
      (∀ x, x < shRows sb → AtSram s (addrPlus (st.opAddr .x r.b) (128 * x : Nat)) (kb x)) →
      ∃ ta tb, LoadedFrom (st.tile p) ta f (shWidth sa) (shRows sa)
          (fun x => loadedRow r.moda f (shWidth sa) (readRow s.mem (ka x)).toNat) ∧
        LoadedFrom (st.tile (p + 1)) tb f (shWidth sb) (shRows sb)
          (fun x => loadedRow r.modb f (shWidth sb) (readRow s.mem (kb x)).toNat) ∧
        gives ((st.setTileReg p ta).setTileReg (p + 1) tb) (r.fn.getLsbD 0) (shRows sa) (shRows sb) (fun x y l => some
          ((decodeVal f (elemAt (ta.rowNat x) (fmtWidth f) l)).mul (decodeVal f (elemAt (tb.rowNat y) (fmtWidth f) l)))) k) ∧
    (r.t1 = 1 → (st.accAt (a - 16)).tag = 10 →
      let w := fmtWidth r.fmt.toNat
      let t0 := r.t0.toNat
      let v (j : Nat) : Nat := roundVal r.fmt.toNat (st.modeOf (r.fn.toNat % 4) j) (r.fn.getLsbD 2)
        (decodeFloat 10 ((st.accAt (a - 16)).at 0 (modSource r.moda j)).toNat) % 2 ^ w
      (i = .awrq r → t0 * w ≤ 1024 → st.dqxs.rows.length < 16 → ∃ row : Row,
        (∀ j, j < t0 → elemAt row.toNat w j = v j) ∧ row.toNat < 2 ^ (t0 * w) ∧ RecordEnds i r s .x
          { st with dqxs := { st.dqxs with rows := st.dqxs.rows ++ [row] } } (fun mem => mem = s.mem)) ∧
      (∀ kd, i = .awrm r → t0 * w ≤ 1024 → AtSram s (st.opAddr .x r.d) kd → RecordEnds i r s .x st (fun mem =>
        KeptOutside s.mem mem (rowOf kd) 128 ∧ (∀ j, j < t0 → elemAt (readRow mem kd).toNat w j = v j) ∧
          (readRow mem kd).toNat / 2 ^ (t0 * w) = (readRow s.mem kd).toNat / 2 ^ (t0 * w))) ∧
      (i = .awrt r → 0 < shRows (st.shape r.d.base.toNat) → ewCode w = shEw (st.shape r.d.base.toNat) →
        t0 * w ≤ shWidth (st.shape r.d.base.toNat) * 8 → shWidth (st.shape r.d.base.toNat) ≤ 256 → ∃ t', t'.tag = r.fmt ∧ t'.scale = [] ∧
          (∀ j, j < t0 → elemAt (t'.rowNat 0) w j = v j) ∧ t'.rowNat 0 < 2 ^ (t0 * w) ∧ (∀ x, x ≠ 0 → t'.rowNat x = 0) ∧
          RecordEnds i r s .x (st.setTileReg r.d.base.toNat t') (fun mem => mem = s.mem)))


/-- R198 with R90, R93 and R135, R196, R197, R203: COPY, COPYF, GATHER and SCATTER of one row between places of the tiles'
slices. The destination row becomes the source row, or for COPYF the source row with FILL in the elements out of bounds; the
index of GATHER and SCATTER picks the row, and an index of all ones a row of zeros or no write; no other byte changes. -/
def Obligations.CopyMovesARow : Prop :=
  ∀ (r : Rec) (s : State) (st : Strand) (q : Seqr) (ka kb kd : Nat), r.total = 1 →
    let a := st.opAddr q r.a
    let b := st.opAddr q r.b
    let d := st.opAddr q r.d
    let puts (i : Instr) (st2 : Strand) (row : Nat) : Prop := RecordEnds i r s q st2
      (fun m => KeptOutside s.mem m (rowOf kd) 128 ∧ (readRow m kd).toNat = row)
    let source := (readRow s.mem ka).toNat
    let z := if r.fn.getLsbD 0 then 2 else 4
    let index := rowNat (readRow s.mem kb) (b % 128 / z * z) z
    let none_ := 2 ^ (8 * z) - 1
    (StandsAlone s st q (.copy r) r → r.fn = 0 → AtSram s a ka → AtSram s d kd → puts (.copy r) st source) ∧
    (StandsAlone s st q (.copyf r) r → r.fn = 0 → AtSram s b kb → AtSram s d kd →
      let lay := readRow s.mem kb
      let w := 4 * 2 ^ rowNat lay 36 1
      let within (dim : Nat) (c : Int) : Prop := dim = 0 ∨ (0 ≤ c ∧ c < dim)
      let inside (p : Nat) : Prop :=
        within (rowNat lay 0 4) (signedOf 32 (rowNat lay 16 4) + p) ∧
        within (rowNat lay 4 4) (signedOf 32 (rowNat lay 20 4)) ∧
        within (rowNat lay 8 4) (signedOf 32 (rowNat lay 24 4)) ∧
        within (rowNat lay 12 4) (signedOf 32 (rowNat lay 28 4))
      rowNat lay 36 1 ≤ 3 → rowNat lay 37 3 = 0 → rowNat lay 44 84 = 0 →
      ((∃ p, p < 1024 / w ∧ inside p) → AtSram s a ka) →
      RecordEnds (.copyf r) r s q st (fun m => KeptOutside s.mem m (rowOf kd) 128 ∧ ∀ p, p < 1024 / w →
        (inside p → elemAt (readRow m kd).toNat w p = elemAt source w p) ∧
        (¬inside p → elemAt (readRow m kd).toNat w p = rowNat lay 40 4 % 2 ^ w))) ∧
    (StandsAlone s st q (.gather r) r → AtSram s b kb →
      (index ≠ none_ → AtSram s ((a + 128 * index) % 2 ^ 64) ka) →
      ∀ row, (index ≠ none_ → row = source) → (index = none_ → row = 0) →
        (r.dk = 1 → AtSram s d kd → puts (.gather r) st row) ∧
        (r.dk = 3 → st.dqlx.rows.length < 16 → RecordEnds (.gather r) r s q
          { st with dqlx := { st.dqlx with rows := st.dqlx.rows ++ [BitVec.ofNat 1024 row] } } (fun m => m = s.mem))) ∧
    (∀ row rest, StandsAlone s st q (.scatter r) r → r.fn.getLsbD 4 = false → AtSram s b kb → st.dqfmtxs = 0 →
      st.dqxs = ⟨row :: rest, 0⟩ →
      (index = none_ → RecordEnds (.scatter r) r s q { st with dqxs := ⟨rest, 0⟩ } (fun m => m = s.mem)) ∧
      (index ≠ none_ → AtSram s ((d + 128 * index) % 2 ^ 64) kd →
        puts (.scatter r) { st with dqxs := ⟨rest, 0⟩ } row.toNat))

/-- R229, R240, R53, R216 to R219: one element of INT32 in the tiles' slices through the integer and bitwise records; no
other byte changes. Sums and products keep their low 32 bits under NSAT and are clamped under SAT. R224, R225, R229, R230,
R233: one floating element through the arithmetic records, the functions and VCVT, rounded once into G. R42, R45, R52, R53:
what Round gives for every exact value, that sums, products, quotients, fused sums and reciprocals are the exact value
rounded once, and the special values of R225 and R230. -/
def Obligations.IntegerElementsAreComputed : Prop :=
  (∀ (i : Instr) (f : Int → Int → Int) (r : Rec) (s : State) (st : Strand) (ka kb kd : Nat),
      (i = .vadd r ∧ f = (· + ·)) ∨ (i = .vsub r ∧ f = (· - ·)) ∨ (i = .vmul r ∧ f = (· * ·)) ∨
        (i = .vmin r ∧ f = min) ∨ (i = .vmax r ∧ f = max) →
      StandsAlone s st .x i r → r.total = 1 → r.fmt = 9 → r.fn.toNat / 8 = 0 → r.msk = 0 → r.moda = 0 → r.modb = 0 →
      r.dk = 1 → r.ak = 1 → r.bk = 1 →
      let at_ (o : Opd) : Nat :=
        (st.rb (baseIndex st.xs.rotb o.base.toNat) + o.off.signExtend 64).toNat / 4 * 4
      AtSram s (at_ r.a) ka → AtSram s (at_ r.b) kb → AtSram s (at_ r.d) kd →
      let v := f (signedOf 32 (readNat s.mem ka 4)) (signedOf 32 (readNat s.mem kb 4))
      ∃ t st', exec i s = .next t ∧ MemSameOutside s t kd 4 ∧
        (r.fn.getLsbD 2 = false → (readNat t.mem kd 4 : Int) = v % 2 ^ 32) ∧
        (r.fn.getLsbD 2 = true → signedOf 32 (readNat t.mem kd 4) = max (-2 ^ 31) (min (2 ^ 31 - 1) v)) ∧
        t = (s.withStrand st').setMem t.mem ∧ AwaitsCompletion st st' .x i r) ∧
  (∀ (i : Instr) (f : Bool → Bool → Bool) (r : Rec) (s : State) (st : Strand) (ka kb kd : Nat),
      (i = .vand r ∧ f = and) ∨ (i = .vor r ∧ f = or) ∨ (i = .vxor r ∧ f = xor) →
      StandsAlone s st .x i r → r.total = 1 → r.fmt = 9 → r.msk = 0 → r.moda = 0 → r.modb = 0 →
      r.dk = 1 → r.ak = 1 → r.bk = 1 →
      let at_ (o : Opd) : Nat :=
        (st.rb (baseIndex st.xs.rotb o.base.toNat) + o.off.signExtend 64).toNat / 4 * 4
      AtSram s (at_ r.a) ka → AtSram s (at_ r.b) kb → AtSram s (at_ r.d) kd →
      ∃ t st', exec i s = .next t ∧ MemSameOutside s t kd 4 ∧
        (∀ k, k < 32 → (readNat t.mem kd 4).testBit k =
          f ((readNat s.mem ka 4).testBit k) ((readNat s.mem kb 4).testBit k)) ∧
        t = (s.withStrand st').setMem t.mem ∧ AwaitsCompletion st st' .x i r) ∧
  (∀ (i : Instr) (r : Rec) (s : State) (st : Strand) (ka kb kd : Nat), StandsAlone s st .x i r → r.total = 1 → r.msk = 0 →
      r.moda = 0 → r.modb = 0 → r.dk = 1 → r.ak = 1 →
      let f := vecF i r
      let za := fmtWidth f / 8
      (i ∈ [.vadd r, .vsub r, .vmul r, .vmin r, .vmax r, .vabs r, .vneg r, .vfma r, .vdiv r, .vexp r, .vlog r, .vrcp r,
          .vrsq r, .vsqrt r, .vtanh r, .vsigm r] → 1 ≤ f → f ≤ 5 → r.bk ≠ 3 →
        let g := dwFormat f (r.fn.toNat / 8)
        let zd := fmtWidth g / 8
        AtSram s (st.elemAddr .x r r.a za 0) ka → (r.bk = 1 → AtSram s (st.elemAddr .x r r.b za 0) kb) →
        AtSram s (st.elemAddr .x r r.d zd 0) kd →
        RecordEnds i r s .x st (fun m => KeptOutside s.mem m kd zd ∧ readNat m kd zd =
          arithElem i f g (st.modeOf (r.fn.toNat % 4) 0) (r.fn.getLsbD 2) (readNat s.mem ka za)
            (if r.bk = 1 then readNat s.mem kb za else 0) (readNat s.mem kd zd) % 256 ^ zd)) ∧
      (i = .vcvt r → 1 ≤ f → f ≤ 9 → f ≠ 8 →
        let g := r.b.base.toNat / 4
        let zd := fmtWidth g / 8
        g ≠ 8 → AtSram s (st.elemAddr .x r r.a za 0) ka → AtSram s (st.elemAddr .x r r.d zd 0) kd →
        RecordEnds i r s .x st (fun m => KeptOutside s.mem m kd zd ∧ readNat m kd zd =
          convertElem f g (st.modeOf (r.b.base.toNat % 4) 0) (r.b.off.getLsbD 33) (readNat s.mem ka za) % 256 ^ zd))) ∧
  (∀ (f : Nat) (mode : RMode) (sat neg : Bool) (m : Nat) (e : Int), 0 < m →
      let v : Rat := (m : Rat) * 2 ^ e
      (f ∈ [1, 2, 3, 4, 5, 10] → RoundsTo f mode sat neg v (roundVal f mode sat (.fin neg m e)) ∧
        roundVal f mode sat (.fin neg 0 e) = zeroEnc f neg ∧ roundVal f mode sat .nan = canonicalNaN f ∧
        roundVal f mode sat (.inf neg) = if sat then largestFinite f neg else infinityEnc f neg) ∧
      (f ∈ [6, 7, 8, 9] → ∀ (n k : Nat) (x : Rat), v = (n : Rat) + x → 0 ≤ x → x < 1 →
        (RoundsUp mode n x → k = n + 1) → (¬RoundsUp mode n x → k = n) →
        let w := fmtWidth f
        let t : Int := if neg then -(k : Int) else k
        let low : Int := if f = 7 then 0 else -2 ^ (w - 1)
        let top : Int := if f = 7 then 255 else 2 ^ (w - 1) - 1
        (sat = false → ((roundVal f mode sat (.fin neg m e) : Nat) : Int) = t % 2 ^ w) ∧
        (sat = true → ((roundVal f mode sat (.fin neg m e) : Nat) : Int) = max low (min top t) % 2 ^ w))) ∧
  (∀ (r : Rec) (f g : Nat) (mode : RMode) (sat : Bool) (a b d : Nat) (x y z : Rat), 1 ≤ f → f ≤ 5 → 1 ≤ g → g ≤ 5 →
      let out (i : Instr) : Nat := arithElem i f g mode sat a b d
      let va := decodeFloat f a
      let vb := decodeFloat f b
      (va.Is x → vb.Is y → Rounds g mode sat (x + y) (out (.vadd r)) ∧ Rounds g mode sat (x - y) (out (.vsub r)) ∧
        Rounds g mode sat (x * y) (out (.vmul r)) ∧ (y ≠ 0 → Rounds g mode sat (x / y) (out (.vdiv r))) ∧
        Rounds g mode sat (min x y) (out (.vmin r)) ∧ Rounds g mode sat (max x y) (out (.vmax r)) ∧
        (x + y = 0 → out (.vadd r) = zeroEnc g (x == 0 && va.neg && vb.neg)) ∧
        ((decodeFloat g d).Is z → Rounds g mode sat (x * y + z) (out (.vfma r))) ∧
        (x ≠ 0 → y = 0 → out (.vdiv r) = roundVal g mode sat (.inf (va.neg != vb.neg))) ∧
        (x = 0 → y = 0 → out (.vdiv r) = canonicalNaN g) ∧ (x ≠ 0 → Rounds g mode sat (1 / x) (out (.vrcp r))) ∧
        (x < 0 → out (.vlog r) = canonicalNaN g ∧ out (.vrsq r) = canonicalNaN g ∧ out (.vsqrt r) = canonicalNaN g) ∧
        (x = 0 → out (.vexp r) = roundVal g mode sat (.fin false 1 0) ∧ out (.vlog r) = roundVal g mode sat (.inf true) ∧
          out (.vrcp r) = roundVal g mode sat (.inf va.neg) ∧ out (.vrsq r) = roundVal g mode sat (.inf va.neg) ∧
          out (.vsqrt r) = zeroEnc g va.neg ∧ out (.vtanh r) = zeroEnc g va.neg ∧
          out (.vsigm r) = roundVal g mode sat (.fin false 1 (-1))) ∧
        (x = 1 → out (.vlog r) = zeroEnc g false)) ∧
      (va.isNaN = true ∨ vb.isNaN = true → ∀ i, i ∈ [.vadd r, .vsub r, .vmul r, .vmin r, .vmax r, .vdiv r, .vfma r] →
        out i = canonicalNaN g) ∧
      (va.isNaN = true → ∀ i, i ∈ [.vabs r, .vneg r, .vexp r, .vlog r, .vrcp r, .vrsq r, .vsqrt r, .vtanh r, .vsigm r] →
        out i = canonicalNaN g) ∧
      ((decodeFloat g d).isNaN = true → out (.vfma r) = canonicalNaN g) ∧
      (va.isInf = true → (vb = va → out (.vsub r) = canonicalNaN g ∧ out (.vdiv r) = canonicalNaN g) ∧
        (vb.Is 0 → out (.vmul r) = canonicalNaN g)))

/-- R265, R277, R284: AZERO makes its accumulator +0 with tag 10; SDISCARD untags a shadow, SCOMMIT moves it to its
accumulator; SRESET makes the running maxima −∞ and takes the margin. R285 to R287, R290, R292: SCOUT stores the score of
one query row against one key row; THRESH moves a running maximum and sets the bit of one tile; HCFG takes a head's fields
from its descriptor row, and HPROJ its hyperplanes from a tile register. That HCFG ignores a MODA is the model's choice (log
entry 50). -/
def Obligations.RegisterRecordsOfX : Prop :=
  ∀ (i : Instr) (r : Rec) (s : State) (st : Strand), StandsAlone s st .x i r →
    let n := r.d.base.toNat - 16
    let ends (st2 : Strand) : Prop := ∃ st', exec i s = .next (s.withStrand st') ∧ AwaitsCompletion st2 st' .x i r
    let ta := st.tile r.a.base.toNat
    let tb := st.tile r.b.base.toNat
    let sa := st.shape r.a.base.toNat
    let sb := st.shape r.b.base.toNat
    let hd := r.fn.toNat % 4
    let h := st.head hd
    (i = .azero r → ends (st.setAcc n ⟨10, []⟩)) ∧
    (i = .sdiscard r → ends (st.setAcc n { st.accAt n with tag := 0 })) ∧
    (i = .scommit r → (st.accAt n).tag ≠ 0 →
      ends ((st.setAcc (n - 4) (st.accAt n)).setAcc n { st.accAt n with tag := 0 })) ∧
    (i = .sreset r → ends { st with
      rmax := Vector.replicate 128 0xFF800000, margin := BitVec.ofNat 32 r.a.off.toNat }) ∧
    (∀ fa fb k kd, i = .scout r → r.t0 = 1 → r.t1 = 1 → shRows sa = 1 → shRows sb = 1 →
      regFormat ta.tag r.fmt = some fa → regFormat tb.tag r.fmt = some fb → 2 ≤ fa → fa ≤ 5 → 2 ≤ fb → fb ≤ 5 →
      k = rowElems fa (shWidth sa) → k = rowElems fb (shWidth sb) → modBreaks r.moda k = false →
      modBreaks r.modb k = false → AtSram s (st.opAddr .x r.d / 4 * 4) kd →
      let scouted (c f : Nat) (m : BitVec 12) : List (Option Nat) :=
        (List.range k).map (fun e => scoutByte (st.matElem c f false m 0 e))
      RecordEnds i r s .x st (fun m => KeptOutside s.mem m kd 4 ∧ readNat m kd 4 = roundVal 1 .rne false
        (scoutScore (scouted r.a.base.toNat fa r.moda) (scouted r.b.base.toNat fb r.modb)) % 2 ^ 32)) ∧
    (∀ ka, i = .thresh r → r.t0 = 1 → r.t1 = 1 → r.moda = 0 → AtSram s (st.opAddr .x r.a / 4 * 4) ka →
      let old := st.maskAt (r.d.base.toNat - 32)
      let e := decodeFloat 1 (readNat s.mem ka 4)
      let margin := decodeFloat 1 st.margin.toNat
      let place := r.d.off.toNat % 2 ^ 16
      old.tag = 0 ∨ old.tag = 15 → ∃ (best limit : Val) (keep : Bool) (bits : BitVec 65536),
        (e.isNaN = true → best = decodeFloat 1 st.rmax[0].toNat) ∧
        (e.isNaN = false → best = (decodeFloat 1 st.rmax[0].toNat).max e) ∧
        limit = decodeFloat 1 (roundVal 1 .rne false (best.sub margin)) ∧
        (keep = true ↔ e.isNaN = true ∨ margin = .inf false ∨ (limit.isNaN = false ∧ e.lt limit = false)) ∧
        bits.getLsbD place = keep ∧
        (∀ b, b ≠ place → bits.getLsbD b = if old.tag = 0 then false else old.bits.getLsbD b) ∧
        ends (({ st with rmax := st.rmax.set 0 (BitVec.ofNat 32 (roundVal 1 .rne false best)) } : Strand).setMask
          (r.d.base.toNat - 32) ⟨15, bits⟩)) ∧
    (∀ ka p, i = .hcfg r → AtSram s (rowOf (st.opAddr .x r.a)) ka →
      let row := readRow s.mem ka
      let nnodes := rowNat row 8 4
      let limit := rowNat row 12 2
      let dthresh := rowNat row 14 2
      let np := rowNat row 16 1
      let bexp := rowNat row 17 1
      let dim := rowNat row 18 1
      let fbvec := rowNat row 24 8
      rowNat row 32 96 = 0 → rowNat row 19 5 = 0 → fbvec % 64 = 0 → 1 ≤ dim → dim ≤ 128 → 4 ≤ np → np ≤ 12 → 1 ≤ bexp →
      bexp ≤ np → 1 ≤ dthresh → dthresh ≤ 4096 → 1 ≤ limit → rowNat row 0 8 % 128 = 0 →
      decodeAddr s.curTile (rowNat row 0 8) = some p → p.win ≠ 3 → p.win = 0 ∨ s.dev.failed p.tile = false →
      p.off + 128 * (1 + (2 ^ bexp + 3) / 4 + (nnodes + 3) / 4) ≤ 0x600000 →
      ends (st.setHead hd { h with
        fbvec := BitVec.ofNat 64 fbvec, dim := dim, bexp := bexp, np := np, dthresh := dthresh, limit := limit
        nnodes := nnodes, tile := p.tile, off := p.off, cv := true, pv := false })) ∧
    (i = .hproj r → h.cv = true → ta.tag = 3 → 0 < shRows sa → shWidth sa = 2 * h.dim → h.np ≤ shRows sa → h.dim ≤ 128 →
      modBreaks r.moda h.dim = false → ∃ p : PMap (BitVec 16), ends (st.setHead hd { h with proj := p, pv := true }) ∧
        ∀ j e, j < h.np → e < h.dim →
          cellGet 0 p (128 * j + e) = BitVec.ofNat 16 (elemAt (ta.rowNat j) 16 (modSource r.moda e)))

/-- R199, R200, R205, R206, R207, R27: the row streams, one row each: RLD reads a row into dq.lx or into the merge slot's
queue, RST writes a row of dq.xs, RQLD reads one count into rq.lx, RMERGE takes a row from the slot into its window and
BQPUSH an outcome from the slot's row. R201, R202, R267, R268: TLD and TLDS load one memory row into a tile register and
zero the rest of its shape, KLD one row into a mask register; TSTS and TSTQ store one tile row into memory or dq.xs, and TQLD
takes one from dq.lx. -/
def Obligations.RowStreamsMoveRows : Prop :=
  ∀ (r : Rec) (s : State) (st : Strand) (q : Seqr) (k : Nat), r.total = 1 → st.dqfmtxs = 0 →
    let base (o : Opd) : Word := st.rb (baseIndex (st.rseq q).rotb o.base.toNat)
    let a := (base r.a + r.a.off.signExtend 64).toNat
    (StandsAlone s st q (.rld r) r → r.bk = 0 → AtSram s a k →
      (r.dk = 3 → st.dqlx.rows.length < 16 → ∃ st', exec (.rld r) s = .next (s.withStrand st') ∧ AwaitsCompletion
        { st with dqlx := { st.dqlx with rows := st.dqlx.rows ++ [readRow s.mem k] } } st' q (.rld r) r) ∧
      (r.dk = 0 → st.ms.length < 8 → ∃ st', exec (.rld r) s = .next (s.withStrand st') ∧ AwaitsCompletion
        { st with ms := st.ms ++ [readRow s.mem k] } st' q (.rld r) r)) ∧
    (∀ row rest, StandsAlone s st q (.rst r) r → r.fn = 0 → AtSram s (base r.d + r.d.off.signExtend 64).toNat k →
      st.dqxs = ⟨row :: rest, 0⟩ → ∃ t st', exec (.rst r) s = .next t ∧ t = (s.withStrand st').setMem t.mem ∧
        readRow t.mem k = row ∧ MemSameOutside s t (rowOf k) 128 ∧
        AwaitsCompletion { st with dqxs := ⟨rest, 0⟩ } st' q (.rst r) r) ∧
    (StandsAlone s st q (.rqld r) r → r.fn = 0 → AtSram s a k → st.rq.length < 64 →
      ∃ st', exec (.rqld r) s = .next (s.withStrand st') ∧ AwaitsCompletion
        { st with rq := st.rq ++ [BitVec.ofNat 32 (rowNat (readRow s.mem k) (a % 128 / 4 * 4) 4)] } st' q (.rqld r) r) ∧
    (∀ row rest, s.curSeq = .l → r.eng = 9 → st.ops = [] → stageHolds (popTokens st .l r) r = true → r.push = 0 →
      st.ms = row :: rest →
      (Decodes s st .l (.bqpush r) r → r.fn = 0 → st.bq.length < 32 →
        ∃ st', exec (.bqpush r) s = .next (s.withStrand st') ∧ { st' with tokens := st.tokens, l := st.l, ordered := st.ordered } =
            { st with ms := rest, bq := st.bq ++ [BitVec.ofNat 16 (rowNat row (r.d.off.toNat / 2 * 2) 2)] } ∧
          st'.l = st.l.next) ∧
      (Decodes s st .l (.rmerge r) r → r.fn = 0 ∨ st.wn = 0 →
        ∃ st', exec (.rmerge r) s = .next (s.withStrand st') ∧ { st' with tokens := st.tokens, l := st.l, ordered := st.ordered } =
            { st with ms := rest, wlo := st.whi, whi := row, wn := 1 } ∧ st'.l = st.l.next) ∧
      (Decodes s st .l (.rmerge r) r → r.fn = 1 → st.wn ≠ 0 → st.dqlx.rows.length < 16 →
        ∃ st', exec (.rmerge r) s = .next (s.withStrand st') ∧ { st' with tokens := st.tokens, l := st.l, ordered := st.ordered } =
            { st with
              ms := rest, wlo := st.whi, whi := row, wn := 2
              dqlx := { st.dqlx with rows := st.dqlx.rows ++
                [(row ++ st.whi : BitVec 2048).extractLsb' (8 * (r.d.off.toNat % 128)) 1024] } } ∧
          st'.l = st.l.next)) ∧
    (StandsAlone s st q (.kld r) r → AtSram s a k → RecordEnds (.kld r) r s q
      (st.setMask (r.d.base.toNat - 32) ⟨15, (readRow s.mem k).setWidth 65536⟩) (fun m => m = s.mem)) ∧
    (let n := r.d.base.toNat
     let f := r.fmt.toNat
     let w := shWidth (st.shape n)
     let loads (i : Instr) (st2 : Strand) (row : Row) : Prop := ∃ t',
       LoadedFrom (st.tile n) t' f w (shRows (st.shape n)) (fun x => if x = 0 then loadedRow r.moda f w row.toNat else 0) ∧
         RecordEnds i r s q (st2.setTileReg n t') (fun m => m = s.mem)
     f ≠ 0 → f ≠ 10 → f ≠ 15 → isBlockFmt f = false → ewCode (fmtWidth f) = shEw (st.shape n) → 1 ≤ shRows (st.shape n) →
     0 < w → w ≤ 128 → modBreaks r.moda (rowElems f w) = false →
     (∀ i, i = .tld r ∨ i = .tlds r → StandsAlone s st q i r → r.bk = 0 → AtSram s a k →
       loads i st (readRow s.mem k)) ∧
     (∀ row rest, StandsAlone s st q (.tqld r) r → st.dqfmtlx = 0 → st.dqlx = ⟨row :: rest, 0⟩ →
       loads (.tqld r) { st with dqlx := ⟨rest, 0⟩ } row)) ∧
    (let t := st.tile r.a.base.toNat
     let f := t.tag.toNat
     let w := shWidth (st.shape r.a.base.toNat)
     let v := permuteRow r.moda (fmtWidth f) (rowElems f w) (t.rowNat 0) % 256 ^ w
     f ≠ 0 → isBlockFmt f = false → 1 ≤ shRows (st.shape r.a.base.toNat) → 0 < w → w ≤ 128 →
     modBreaks r.moda (rowElems f w) = false →
     (StandsAlone s st q (.tsts r) r → AtSram s (base r.d + r.d.off.signExtend 64).toNat k → RecordEnds (.tsts r) r s q st
       (fun m => KeptOutside s.mem m (rowOf k) w ∧ readNat m (rowOf k) w = v)) ∧
     (StandsAlone s st q (.tstq r) r → st.dqxs.rows.length < 16 → RecordEnds (.tstq r) r s q
       { st with dqxs := { st.dqxs with rows := st.dqxs.rows ++ [BitVec.ofNat 1024 v] } } (fun m => m = s.mem)))

/-- R229, R240, R246, R53: more records of one INT32 element in the tiles' slices: shifts take the amount modulo 32, VNOT
inverts, VCOPY copies, VABS and VNEG keep the low 32 bits under NSAT, VFILL writes the low bits of A.OFF. R231, R232, R241:
VCMP, VSEL and VCLMUL. R234, R236, R237, R246: two elements through VRSUM, VRMAX, VRMIN, VSCAN and VIOTA. R238, R239, R243 to
R245: VTOPK, VISECT and VCOMP count and list below their header rows, VEXPAND puts elements back, VDROP, VBAND and VPOPC work
on bits. -/
def Obligations.WordElementsAreComputed : Prop :=
  (∀ (i : Instr) (f : Nat → Nat → Nat) (r : Rec) (s : State) (st : Strand) (ka kb kd : Nat),
    (i = .vshl r ∧ r.bk = 1 ∧ f = fun a b => a * 2 ^ (b % 32) % 2 ^ 32) ∨
      (i = .vshr r ∧ r.bk = 1 ∧ r.fn = 1 ∧ f = fun a b => a / 2 ^ (b % 32)) ∨
      (i = .vshr r ∧ r.bk = 1 ∧ r.fn = 0 ∧ f = fun a b => (signedOf 32 a / 2 ^ (b % 32) % 2 ^ 32).toNat) ∨
      (i = .vnot r ∧ f = fun a _ => 2 ^ 32 - 1 - a) ∨ (i = .vcopy r ∧ r.fn = 0 ∧ f = fun a _ => a) ∨
      (i = .vabs r ∧ r.fn = 0 ∧ f = fun a _ => (signedOf 32 a).natAbs % 2 ^ 32) ∨
      (i = .vneg r ∧ r.fn = 0 ∧ f = fun a _ => (2 ^ 32 - a) % 2 ^ 32) ∨
      (i = .vfill r ∧ f = fun _ _ => r.a.off.toNat % 2 ^ 32) →
    StandsAlone s st .x i r → r.total = 1 → r.fmt = 9 → r.msk = 0 → r.moda = 0 → r.modb = 0 → r.dk = 1 →
    let at_ (o : Opd) : Nat :=
      (st.rb (baseIndex st.xs.rotb o.base.toNat) + o.off.signExtend 64).toNat / 4 * 4
    (r.ak = 1 → AtSram s (at_ r.a) ka) → (r.bk = 1 → AtSram s (at_ r.b) kb) → AtSram s (at_ r.d) kd →
    r.ak = 1 ∨ i = .vfill r →
    ∃ t st', exec i s = .next t ∧ MemSameOutside s t kd 4 ∧
      readNat t.mem kd 4 = f (readNat s.mem ka 4) (readNat s.mem kb 4) ∧
      t = (s.withStrand st').setMem t.mem ∧ AwaitsCompletion st st' .x i r) ∧
  (∀ (i : Instr) (r : Rec) (s : State) (st : Strand) (ka kb kd kh : Nat), StandsAlone s st .x i r → r.total = 1 →
    r.moda = 0 → r.modb = 0 → r.dk = 1 → (r.bk = 1 ∨ r.bk = 0) →
    let a := st.opAddr .x r.a
    let b := st.opAddr .x r.b
    let d := st.opAddr .x r.d
    let va := readNat s.mem ka 4
    let vb := readNat s.mem kb 4
    let bitA := (readByte s.mem ka).getLsbD 0
    let bitB := (readByte s.mem kb).getLsbD 0
    let hdr := readRow s.mem kh
    let setsBit (v : Bool) : Prop := RecordEnds i r s .x st (fun m => KeptOutside s.mem m kd 1 ∧
      (readByte m kd).getLsbD 0 = v ∧ ∀ k, k ≠ 0 → (readByte m kd).getLsbD k = (readByte s.mem kd).getLsbD k)
    (i = .vcmp r → r.msk = 0 → r.ak = 1 → r.bk = 1 → vecF i r = 9 ∨ vecF i r = 1 → AtSram s (a / 4 * 4) ka →
      AtSram s (b / 4 * 4) kb → AtSram s d kd →
      let int := vecF i r = 9
      let x := signedOf 32 va
      let y := signedOf 32 vb
      let nan := (decodeFloat 1 va).isNaN || (decodeFloat 1 vb).isNaN
      ∃ c, setsBit c ∧ (int → (c = true ↔ (r.fn = 0 ∧ x = y) ∨ (r.fn = 1 ∧ x ≠ y) ∨ (r.fn = 2 ∧ x < y) ∨ (r.fn = 3 ∧ x ≤ y) ∨
          (r.fn = 4 ∧ y < x) ∨ (r.fn = 5 ∧ y ≤ x) ∨ r.fn = 7)) ∧
        (∀ p q : Rat, ¬int → (decodeFloat 1 va).Is p → (decodeFloat 1 vb).Is q → (c = true ↔ (r.fn = 0 ∧ p = q) ∨
          (r.fn = 1 ∧ p ≠ q) ∨ (r.fn = 2 ∧ p < q) ∨ (r.fn = 3 ∧ p ≤ q) ∨ (r.fn = 4 ∧ q < p) ∨ (r.fn = 5 ∧ q ≤ p) ∨ r.fn = 7)) ∧
        (¬int → nan = true → (c = true ↔ r.fn = 1 ∨ r.fn = 6))) ∧
    (i = .vsel r → vecF i r = 9 → r.ak = 1 → r.bk = 1 → r.msk = 0 ∨ (st.maskAt r.msk.toNat).tag = 15 →
      AtSram s (a / 4 * 4) ka → AtSram s (b / 4 * 4) kb → AtSram s (d / 4 * 4) kd →
      RecordEnds i r s .x st (fun m => KeptOutside s.mem m kd 4 ∧ readNat m kd 4 =
        if r.msk = 0 ∨ (st.maskAt r.msk.toNat).bits.getLsbD 0 = true then va else vb)) ∧
    (i = .vclmul r → vecF i r = 9 → r.msk = 0 → r.ak = 1 → r.bk = 1 → AtSram s (a / 4 * 4) ka → AtSram s (b / 4 * 4) kb →
      let z := if r.fn = 1 then 4 else 8
      AtSram s (d / z * z) kd → RecordEnds i r s .x st (fun m => KeptOutside s.mem m kd z ∧
        ∀ k, k < 8 * z → (readNat m kd z).testBit k = decide (((List.range (k + 1)).filter
          (fun j => va.testBit j && vb.testBit (k - j))).length % 2 = 1))) ∧
    (i = .vdrop r → vecF i r = 0 → AtSram s (rowOf a) ka → AtSram s d kd →
      let row := readRow s.mem ka
      let p := rowNat row 12 2
      let v := stochR (recordKey (BitVec.ofNat 64 (rowNat row 0 8)) (rowNat row 8 4) (rowNat row 16 8))
      rowNat row 14 2 = 0 → ∃ c, setsBit c ∧ (c = true ↔ p = 0 ∨ v < p)) ∧
    (i = .vband r → vecF i r = 15 → r.ak = 1 → r.bk = 1 → AtSram s a ka → AtSram s b kb → AtSram s d kd →
      setsBit (bitA && (if r.fn = 1 then !bitB else bitB))) ∧
    (i = .visect r → vecF i r = 15 → r.ak = 1 → r.bk = 1 → AtSram s a ka → AtSram s b kb → AtSram s (rowOf d) kh →
      AtSram s (addrPlus (rowOf d) 128) (kh + 128) → 1 ≤ rowNat hdr 4 4 → RecordEnds i r s .x st (fun m =>
        ((bitA && bitB) = true → readNat m kh 4 = 1 ∧ readNat m (kh + 128) 4 = rowNat hdr 8 4 ∧
          readNat m (kh + 132) 4 = rowNat hdr 12 4 ∧
          ∀ y, ¬(kh ≤ y ∧ y < kh + 4) → ¬(kh + 128 ≤ y ∧ y < kh + 136) → readByte m y = readByte s.mem y) ∧
        ((bitA && bitB) = false → readNat m kh 4 = 0 ∧ KeptOutside s.mem m kh 4)))) ∧
  (∀ (i : Instr) (r : Rec) (s : State) (st : Strand) (ka kd ko : Nat → Nat) (kh : Nat), StandsAlone s st .x i r →
    r.t3 = 1 → r.t2 = 1 → r.t1 = 1 → r.moda = 0 → r.dk = 1 → r.bk = 0 →
    let d := st.opAddr .x r.d
    let va (e : Nat) : Nat := readNat s.mem (ka e) 4
    let x (e : Nat) : Int := signedOf 32 (va e)
    let y (e : Nat) : Val := decodeFloat 1 (va e)
    let hdr := readRow s.mem kh
    let on (e : Nat) : Bool := r.msk = 0 || (st.maskAt r.msk.toNat).bits.getLsbD e
    let word (v : Nat) : Prop := RecordEnds i r s .x st (fun m => KeptOutside s.mem m (kd 0) 4 ∧ readNat m (kd 0) 4 = v)
    let apart : Prop := kd 0 + 4 ≤ kd 1 ∨ kd 1 + 4 ≤ kd 0
    let words (p q : Nat) : Prop := RecordEnds i r s .x st (fun m => readNat m (kd 0) 4 = p ∧ readNat m (kd 1) 4 = q ∧
      ∀ b, ¬(kd 0 ≤ b ∧ b < kd 0 + 4) → ¬(kd 1 ≤ b ∧ b < kd 1 + 4) → readByte m b = readByte s.mem b)
    (i = .vpopc r → vecF i r = 15 → r.t0 = 8 → r.ak = 1 → r.a.s0 = 1 → AtSram s (st.opAddr .x r.a) (ka 0) →
      AtSram s (st.elemAddr .x r r.d 4 0) (kd 0) →
      word (if r.fn = 1 then ((List.range 8).filter (fun b => (readByte s.mem (ka 0)).getLsbD b)).length else 0)) ∧
    (r.t0 = 2 → (r.ak = 1 → ∀ e, e < 2 → AtSram s (st.elemAddr .x r r.a 4 e) (ka e)) →
      (∀ e, e < 2 → AtSram s (st.elemAddr .x r r.d 4 e) (kd e)) →
      (r.msk = 0 → r.ak = 1 → r.fn.toNat / 8 = 0 →
        (vecF i r = 9 →
          (i = .vrsum r → r.fn.getLsbD 2 = false → word ((x 0 + x 1) % 2 ^ 32).toNat) ∧
          (i = .vrsum r → r.fn.getLsbD 2 = true →
            word ((max (-2 ^ 31) (min (2 ^ 31 - 1) (x 0 + x 1))) % 2 ^ 32).toNat) ∧
          (i = .vrmax r → word (if x 0 < x 1 then va 1 else va 0)) ∧
          (i = .vrmin r → word (if x 1 < x 0 then va 1 else va 0)) ∧
          (i = .vscan r → apart →
            (r.fn = 0 → words (va 0) ((va 0 + va 1) % 2 ^ 32)) ∧
            (r.fn = 1 → words (va 0) (if x 0 < x 1 then va 1 else va 0)) ∧
            (r.fn = 2 → words (va 0) (if x 1 < x 0 then va 1 else va 0)) ∧
            (r.fn = 4 → words 0 (va 0)) ∧ (r.fn = 5 → words (2 ^ 31) (va 0)) ∧ (r.fn = 6 → words (2 ^ 31 - 1) (va 0)))) ∧
        (vecF i r = 1 →
          let sum (p q : Val) : Val := decodeFloat 1 (roundVal 1 .rne false (p.add q))
          let nan := (y 0).isNaN || (y 1).isNaN
          (i = .vrsum r → word (roundVal 1 (st.modeOf (r.fn.toNat % 4) 0) (r.fn.getLsbD 2) (sum (y 0) (y 1)) % 2 ^ 32)) ∧
          (i = .vrmax r → word (if nan then 0x7FC00000 else if (y 0).below (y 1) then va 1 else va 0)) ∧
          (i = .vrmin r → word (if nan then 0x7FC00000 else if (y 1).below (y 0) then va 1 else va 0)) ∧
          (i = .vscan r → apart → r.fn = 0 → words (roundVal 1 .rne false (sum (.fin false 0 0) (y 0)) % 2 ^ 32)
            (roundVal 1 .rne false (sum (sum (.fin false 0 0) (y 0)) (y 1)) % 2 ^ 32)))) ∧
      (i = .viota r → vecF i r = 9 → r.msk = 0 → apart →
        let v (e : Nat) : Int := signedOf 32 r.a.off.toNat + e * r.a.s0.toInt
        words (v 0 % 2 ^ 32).toNat (v 1 % 2 ^ 32).toNat) ∧
      (i = .vtopk r → vecF i r = 9 → r.msk = 0 → r.ak = 1 → r.fn = 0 → AtSram s (rowOf d) kh →
        AtSram s (addrPlus (rowOf d) 128) (kh + 128) → rowNat hdr 4 4 = 1 →
        let first := rowNat hdr 8 8
        let second := x 0 < x 1 ∨ (x 0 = x 1 ∧ first = 2 ^ 64 - 1)
        RecordEnds i r s .x st (fun m => readNat m kh 4 = 1 ∧
          (second → readNat m (kh + 128) 8 = va 1 ∧ readNat m (kh + 136) 8 = (first + 1) % 2 ^ 64) ∧
          (¬second → readNat m (kh + 128) 8 = va 0 ∧ readNat m (kh + 136) 8 = first) ∧
          ∀ b, ¬(kh ≤ b ∧ b < kh + 4) → ¬(kh + 128 ≤ b ∧ b < kh + 144) → readByte m b = readByte s.mem b)) ∧
      (i = .vcomp r → vecF i r = 9 → r.ak = 1 → r.msk = 0 ∨ (st.maskAt r.msk.toNat).tag = 15 → AtSram s (rowOf d) kh →
        (∀ c, c < 2 → AtSram s (addrPlus (st.elemAddr .x r r.d 4 c) 128) (ko c)) → 2 ≤ rowNat hdr 4 4 → kh + 4 ≤ ko 0 →
        ko 0 + 4 ≤ ko 1 → RecordEnds i r s .x st (fun m =>
          readNat m kh 4 = (on 0).toNat + (on 1).toNat ∧
          (on 0 = true → readNat m (ko 0) 4 = va 0) ∧ (on 0 = false → on 1 = true → readNat m (ko 0) 4 = va 1) ∧
          (on 0 = true → on 1 = true → readNat m (ko 1) 4 = va 1) ∧
          ∀ b, ¬(kh ≤ b ∧ b < kh + 4) → (∀ c, c < (on 0).toNat + (on 1).toNat → ¬(ko c ≤ b ∧ b < ko c + 4)) →
            readByte m b = readByte s.mem b)) ∧
      (i = .vexpand r → vecF i r = 9 → r.ak = 1 → r.msk = 0 ∨ (st.maskAt r.msk.toNat).tag = 15 → apart →
        let kept (v : Nat) : Nat := if r.fn = 1 then 0 else v
        words (if on 0 then va 0 else kept (readNat s.mem (kd 0) 4))
          (if on 1 then (if on 0 then va 1 else va 0) else kept (readNat s.mem (kd 1) 4)))))

/-- R208 to R213, R279, R300: the records that a sequencer carries out itself. A loop opens, is skipped or finds the stack
full; ENDL goes back or leaves, and bumps a base; ROT turns the rotation base and shifts the stage predicates; END ends the
stream; HCFG with RET returns once Hawkmoth's earlier records are complete, and goes on where its predicate fails. -/
def Obligations.LoopRecords : Prop :=
  ∀ (i : Instr) (r : Rec) (s : State) (st : Strand) (q : Seqr), OwnRuns s st q i r →
    let st1 := popTokens st q r
    let rs := st1.rseq q
    let fin := rs.pc + BitVec.ofNat 64 (64 * (r.t1.toNat + 1))
    let opens (st2 : Strand) (n : BitVec 32) : Prop :=
      OwnEnds i s st2 q { rs.next with loops := ⟨rs.pc + 64, fin, n⟩ :: rs.loops }
    let skips (st2 : Strand) : Prop := OwnEnds i s st2 q (rs.jump (fin + 64))
    (i = .loop r → (stageHolds st1 r = true → 0 < r.t0.toNat →
        (rs.loops.length < 4 → opens st1 (r.t0.setWidth 32)) ∧
        (4 ≤ rs.loops.length → exec i s = .next (endByFault (s.withStrand st1) (runKey s.curTile) st1
          ⟨.illegalOp, .none, 0⟩ q (rs.seqno + 1) false))) ∧
      (stageHolds st1 r = false ∨ r.t0 = 0 → skips st1)) ∧
    (i = .loopq r → (stageHolds st1 r = false → skips st1) ∧
      (stageHolds st1 r = true → st.rq = [] → OwnStays i s st1 q (readAtDecode st1 q r) .again) ∧
      (∀ v rest, stageHolds st1 r = true → st.rq = v :: rest →
        let st2 := { st1 with rq := rest, lqprev := v }
        let n := if r.fn = 0 then v.toNat else v.toNat - st.lqprev.toNat
        (0 < n → rs.loops.length < 4 → opens st2 (BitVec.ofNat 32 n)) ∧ (n = 0 → skips st2) ∧
        (0 < n → 4 ≤ rs.loops.length → exec i s = .next (endByFault (s.withStrand st1) (runKey s.curTile) st2
          ⟨.illegalOp, .none, 0⟩ q (rs.seqno + 1) false)))) ∧
    (∀ l rest, i = .endl r → rs.loops = l :: rest →
      (r.dk ≠ 1 → r.ak ≠ 1 → r.bk ≠ 1 →
        (1 < l.remaining.toNat → OwnEnds i s st1 q { rs.jump l.body with
          loops := { l with remaining := l.remaining - 1 } :: rest }) ∧
        (l.remaining.toNat ≤ 1 → bcOn (s.tile s.curTile) = false → OwnEnds i s st1 q { rs.next with loops := rest })) ∧
      (r.dk ≠ 1 → r.ak = 1 → r.bk ≠ 1 → 1 < l.remaining.toNat →
        let n := baseIndex rs.rotb r.a.base.toNat
        OwnEnds i s (st1.wb n (st1.rb n + r.a.off.signExtend 64)) q { rs.jump l.body with
          loops := { l with remaining := l.remaining - 1 } :: rest })) ∧
    (i = .rot r →
      (stageHolds st1 r = false → OwnEnds i s st1 q rs.next) ∧
      (stageHolds st1 r = true →
        (r.fn = 0 → OwnEnds i s st1 q { rs.next with rotb := rs.rotb - 1 }) ∧
        (r.fn = 1 → OwnEnds i s st1 q { rs.next with rotb := 0 }) ∧
        (r.fn = 2 → ∀ kc, kc = rs.kc.toNat - 1 → OwnEnds i s
          { st1 with s := st1.s <<< 1 ||| (if kc = 0 then 0 else 1) } q
          { rs.next with rotb := rs.rotb - 1, kc := BitVec.ofNat 32 kc }) ∧
        (r.fn = 3 → OwnEnds i s { st1 with s := if r.t0 = 0 then 0 else 1 } q
          { rs.next with rotb := 0, kc := r.t0.setWidth 32 }))) ∧
    (i = .endRec r → OwnEnds i s st1 q { rs.next with ended := true, loops := [] }) ∧
    (i = .hcfgRet r → stageHolds st1 r = false → OwnEnds i s st1 q rs.next) ∧
    (i = .hcfgRet r → stageHolds st1 r = true →
      let earlier : Prop := ∃ o ∈ st.ops, o.r.eng = 8 ∧ o.empty = false ∧ o.phase ≠ .complete
      (¬earlier → OwnEnds i s { st1 with hfact := false } q (rs.jump st.hfret)) ∧
      (earlier → OwnStays i s st1 q (readAtDecode st1 q r) .again))

/-- R105, R140, R212, R215, R273: DRAIN, TLWAIT and SYNC wait for the values they captured at decode, under the predicate they
read there, DRAIN for the copies up to its value, of RLD, TLD, KLD and RQLD the reads; BRQ takes an outcome and goes where it says, or waits for one, or opens a run-ahead episode on the predicted path. -/
def Obligations.WaitsAndBranchesOfSequencers : Prop :=
  ∀ (i : Instr) (r : Rec) (s : State) (st : Strand) (q : Seqr),
    (OwnRuns s st q i r →
      let st1 := popTokens st q r
      let d := readAtDecode st1 q r
      let rs := st1.rseq q
      let t := st.tlAt r.fn.toNat
      let v := (st.rb (baseIndex rs.rotb r.a.base.toNat) + r.a.off.signExtend 64).toNat
      let c := if r.fn = 9 then s.planner.monCompletion else t.completion
      (i = .drainRec r ∨ i = .tlwaitRec r ∨ i = .sync r → stageHolds st1 r = false → OwnEnds i s st1 q rs.next) ∧
      (i = .drainRec r → stageHolds st1 r = true →
        (CopiesDone st r.fn.toNat t.issue → OwnEnds i s st1 q rs.next) ∧
        (¬CopiesDone st r.fn.toNat t.issue → OwnStays i s st1 q d (.drain r.fn.toNat t.issue))) ∧
      (i = .tlwaitRec r → stageHolds st1 r = true →
        (v ≤ c → OwnEnds i s st1 q rs.next) ∧ (c < v → OwnStays i s st1 q d (.tl r.fn.toNat v))) ∧
      (i = .sync r → stageHolds st1 r = true →
        (st.quiet = true → (∀ o ∈ st.ops, o.q = q → o.retired = true) → OwnEnds i s st1 q rs.next) ∧
        ((∃ o ∈ st.ops, o.q = q ∧ o.retired = false) → OwnStays i s st1 q d (.sync st.issues))) ∧
      (i = .brq r → q = .x →
        let target := rs.pc + BitVec.ofInt 64 (64 * r.d.off.toInt)
        (∀ v rest, st.bq = v :: rest →
          (v &&& BitVec.ofNat 16 r.a.off.toNat = 0 → OwnEnds i s { st1 with bq := rest } q rs.next) ∧
          (v &&& BitVec.ofNat 16 r.a.off.toNat ≠ 0 → target ≠ rs.pc + 64 →
            OwnEnds i s { st1 with bq := rest } q (rs.jump target))) ∧
        (st.bq = [] → r.fn.getLsbD 0 = false → OwnStays i s st1 q d .again) ∧
        (st.bq = [] → r.fn = 1 ∨ r.fn = 3 → target ≠ rs.pc + 64 → ∃ st', exec i s = .next (s.withStrand st') ∧
          { st' with episode := st1.episode, ops := st1.ops, xs := st1.xs } = st1 ∧
          st'.xs = (if r.fn = 3 then rs.jump target else rs.next) ∧
          st'.episode = some ⟨rs.pc, rs.seqno + 1, r, [], 0, [], none, none⟩ ∧ st'.ops.length = st1.ops.length + 1))) ∧
    (let d := (st.rseq q).read
     (∀ ch v, OwnWaits s st q i r (.drain ch v) → i = .drainRec r → d.run = true →
      (CopiesDone st r.fn.toNat v → OwnEnds i s st q (st.rseq q).next) ∧
      (¬CopiesDone st r.fn.toNat v → OwnStays i s st q d (.drain r.fn.toNat v))) ∧
     (∀ c v, OwnWaits s st q i r (.tl c v) → i = .tlwaitRec r → d.run = true → r.fn ≠ 9 →
      (v ≤ (st.tlAt r.fn.toNat).completion → OwnEnds i s st q (st.rseq q).next) ∧
      ((st.tlAt r.fn.toNat).completion < v → OwnStays i s st q d (.tl r.fn.toNat v))) ∧
     (∀ vs, OwnWaits s st q i r (.sync vs) → i = .sync r → d.run = true →
      (st.reached vs = true → (∀ o ∈ st.ops, o.q = q → o.retired = true) → OwnEnds i s st q (st.rseq q).next) ∧
      (st.reached vs = false → OwnStays i s st q d (.sync vs))))

/-- R275, R277: an episode waits for its outcome; a correct prediction commits the shadows, a wrong one discards them and
sends X to the other path. That a wrong one gives back the tokens that the records of its path popped is the model's reading of
their completing with no effect (log entry 34). -/
def Obligations.RunAheadIsResolved : Prop :=
  ∀ (s : State) (tile : Nat) (st : Strand) (e : Episode) (b : Op), s.strands.find? (runKey tile) = some st →
    st.episode = some e → e.outcome = none → e.fault = none → st.ops = [b] → b.q = .x → b.seqno = e.seqno →
    b.redirect = false →
    (st.bq = [] → exec (.runaheadResolution tile) s = .next (s.setStrand (runKey tile) st)) ∧
    (∀ v rest, st.bq = v :: rest →
      let taken : Bool := v &&& BitVec.ofNat 16 e.r.a.off.toNat ≠ 0
      let other := if taken then e.pc + BitVec.ofInt 64 (64 * e.r.d.off.toInt) else e.pc + 64
      ∃ st', exec (.runaheadResolution tile) s = .next (s.setStrand (runKey tile) st') ∧
        { st' with bq := st.bq, episode := st.episode, xs := st.xs, acc := st.acc, ops := st.ops,
                   ordered := st.ordered, tokens := st.tokens } = st ∧ st'.bq = rest ∧ st'.episode = none ∧
        (∀ x y, x < 4 → y < 4 → y ≠ 2 → st'.tokensAt x y = st.tokensAt x y) ∧
        (taken = e.r.fn.getLsbD 1 → st'.xs = st.xs ∧ st'.tokens = st.tokens ∧
          (∀ j, e.redirected = [j] → j < 4 → st'.accAt j = st.accAt (j + 4) ∧ (st'.accAt (j + 4)).tag = 0) ∧
          (e.redirected = [] → st'.acc = st.acc)) ∧
        (taken ≠ e.r.fn.getLsbD 1 →
          st'.xs = { st.xs with pc := other, wait := none, read := AtDecode.none, window := [] } ∧
          (∀ x, x < 4 → st'.tokensAt x 2 = st.tokensAt x 2 + e.popped.count x) ∧
          (∀ j, e.redirected = [j] → j < 4 → st'.accAt j = st.accAt j ∧ (st'.accAt (j + 4)).tag = 0) ∧
          (e.redirected = [] → st'.acc = st.acc)))

/-- R32, R104, R137, R122, R28, R274, R342, R364: an engine's oldest finished operation completes and its counter shows it,
unless an access that it reads meets an error that lasts, in deterministic mode, which ends the strand or is held on a
run-ahead path; a complete record retires in its turn and pushes its tokens, or waits while a FIFO is full; a record
without a push retires once its engine has accepted its last issue; a record that stands on a full queue pushes once there
is room and has then made its last issue. Which operand and element of the latest issue a lasting error names is a free
value among those that the issue accesses: a gathered row of MMAG, a tile row of MNEST (log entry 14), that it ends a strand only in deterministic mode is the model's reading of R342 against R364 (log
entry 48), and that the last issue counts as accepted once its pushes are made is the model's choice (log entry 55). -/
def Obligations.OperationsCompleteAndRetire : Prop :=
  ∀ (s : State) (tile : Nat) (st : Strand) (o : Op), s.strands.find? (runKey tile) = some st →
    let key := runKey tile
    (∀ e, e < 9 → readyOp s st e = some o → o.late = none →
      (∀ h, h = .clean ∨ h = .memLasting ∧ st.det = false →
        ∃ t st', exec (.engineOperationComplete tile e h) s = .next t ∧ t.strands.find? key = some st' ∧
          (h = .clean → t = { s with nfree := s.nfree + 1 }.setStrand key st') ∧
          (∀ j, j ≠ e → st'.tlAt j = st.tlAt j) ∧ (st'.tlAt e).issue = (st.tlAt e).issue ∧
          ((st.tlAt e).early = [] → o.num = (st.tlAt e).completion + 1 → (st'.tlAt e).completion = o.num)) ∧
      (st.det = true → (∃ sl ∈ o.readSlots, ({ o with n := o.n - 1 } : Op).failElems st .memLasting sl ≠ []) → ∃ sl ix,
        sl ∈ o.readSlots ∧ ix ∈ ({ o with n := o.n - 1 } : Op).failElems st .memLasting sl ∧
        (∀ r, o.ins = .copy r → e < 4 → ix = o.n - 1) ∧
        (∀ r, o.ins = .vadd r → e = 5 → vecL0 o.r (o.n - 1) ≤ ix ∧ ix < vecL0 o.r (o.n - 1) + o.r.t0.toNat) ∧
        (∀ r, o.ins = .mmag r → ix < o.r.t0.toNat ∧ mmagIndex st o ix ≠ 2 ^ 32 - 1) ∧
        (∀ r, o.ins = .mnest r → ix < shRows (o.shape (r.fn.toNat / 2 * 2 + (if sl = .b then 1 else 0)))) ∧
        (∀ r, o.ins = .scout r ∨ o.ins = .thresh r → ix < r.t0.toNat * r.t1.toNat) ∧
        let s1 := { s with nfree := s.nfree + 1 }
        let f : Raise := ⟨.memLasting, sl, ix⟩
        (o.redirect = false ∨ st.episode = none → exec (.engineOperationComplete tile e .memLasting) s =
          .next (endByFault s1 key st f o.q o.seqno false)) ∧
        (∀ ep, o.redirect = true → st.episode = some ep → exec (.engineOperationComplete tile e .memLasting) s =
          .next (s1.setStrand key { st.putOp { o with phase := .done, late := some f } with
            episode := some { ep with fault := holdFault ep.fault f o.seqno } })))) ∧
    (∀ q n, st.findOp q n = some o → o.phase = .done → o.retired = false → o.r.push = 0 → o.r.eng.toNat < 7 →
      o.late = none → ∃ st', exec (.recordRetire tile q n) s = .next (s.setStrand key st') ∧
        st'.findOp q n = some { o with retired := true } ∧ st'.tokens = st.tokens ∧ st'.tl = st.tl) ∧
    (∀ q n, st.findOp q n = some o → o.phase = .complete → o.retired = false → o.late = none →
      retireTurn st o = true →
      ((∀ j, j < 4 → o.r.push.getLsbD j = true → st.tokensAt q.code j + st.pathPops q.code j < 32) →
        ∃ st', exec (.recordRetire tile q n) s = .next (s.setStrand key st') ∧ st'.findOp q n = none ∧
          ∀ j, j < 4 → st'.tokensAt q.code j = st.tokensAt q.code j + (o.r.push.getLsbD j).toNat) ∧
      ((∃ j, j < 4 ∧ o.r.push.getLsbD j = true ∧ 32 ≤ st.tokensAt q.code j + st.pathPops q.code j) →
        exec (.recordRetire tile q n) s = .next (s.setStrand key st))) ∧
    (∀ q, (s.tile tile).exchanging = true → exec (.stallRelease tile q) s = .next s) ∧
    (∀ q row, (s.tile tile).exchanging = false → st.ops = [o] → o.q = q → o.phase = .running → o.waiting = [] →
      o.out = [row] → o.total ≤ o.n →
      o.pushes = some 1 → o.late = none → st.dqxs.rows.length < 16 → o.r.eng.toNat < 9 →
      ∃ st', exec (.stallRelease tile q) s = .next (s.setStrand key st') ∧ st'.dqxs.rows = st.dqxs.rows ++ [row] ∧
        st'.ops = [{ o with out := [], phase := .done }] ∧ st'.x = st.x)

/-- R295, R296 and R298: the owner applies a link to its bucket, or refuses it and counts the refusal, and takes the links
of one strand in the order in which they left; a chain read takes the tokens of one bucket into its HGATHER, and after the
last one the token list, COUNT, STATUS and NPROBE are written, or without a list where a bucket has overflowed or COUNT exceeds
DTHRESH, whose DENSE_FALLBACK goes to X's handler, or is delivered, as the record completes (R299, R307). R293, R295, R297, R301, R303: KSTORE writes a key and sends its
link; HRESET writes a chain array row by row, one row at a time; HGATHER sends its chain reads; HCOUNT writes its row. That
MODB has nothing to permute on KSTORE and is ignored there is the model's choice (log entry 50). -/
def Obligations.LinksAndChainReads : Prop :=
  (∀ (s : State) (n : Nat) (p q : LinkReq) (pre post : List LinkReq), s.dev.links[n]? = some p → s.health = .clean →
    s.dev.links = pre ++ q :: post → q.uid = p.uid → q.base / 2 ^ 23 = p.base / 2 ^ 23 →
    (∀ e ∈ pre, e.uid ≠ p.uid ∨ e.base / 2 ^ 23 ≠ p.base / 2 ^ 23) → q.bucket < 2 ^ q.bexp →
    let bk := bucketKey q.base q.bucket
    let w := readNat s.mem bk 4
    let free := readNat s.mem q.base 4
    let node := nodeKey q.base q.bexp free
    ∃ t, exec (.hawkmothLink n) s = .next t ∧ t.dev = { s.dev with links := pre ++ post } ∧
      t.strands = s.strands ∧
      (w < 4 → w < q.limit → readNat t.mem (bk + 4 + 4 * w) 4 = q.token % 2 ^ 32 ∧ readNat t.mem bk 4 = w + 1 ∧
        readNat t.mem (q.base + 8) 4 = (readNat s.mem (q.base + 8) 4 + 1) % 2 ^ 32) ∧
      (w = 4 → w < q.limit → free < q.nnodes → readNat t.mem node 4 = q.token % 2 ^ 32 ∧
        readNat t.mem (node + 28) 4 = 2 ^ 32 - 1 ∧ readNat t.mem q.base 4 = (free + 1) % 2 ^ 32 ∧
        readNat t.mem (bk + 20) 4 = free ∧ readNat t.mem (bk + 24) 4 = free ∧ readNat t.mem bk 4 = 5) ∧
      (4 < w → w + 1 < 2 ^ 31 → w < q.limit →
        let last := readNat s.mem (bk + 24) 4
        let counted : Prop := readNat t.mem bk 4 = w + 1 ∧
          readNat t.mem (q.base + 8) 4 = (readNat s.mem (q.base + 8) 4 + 1) % 2 ^ 32
        ((w - 4) % 7 ≠ 0 → counted ∧
          readNat t.mem (nodeKey q.base q.bexp last + 4 * ((w - 4) % 7)) 4 = q.token % 2 ^ 32 ∧
          readNat t.mem q.base 4 = free) ∧
        ((w - 4) % 7 = 0 → free < q.nnodes → counted ∧ readNat t.mem node 4 = q.token % 2 ^ 32 ∧
          readNat t.mem q.base 4 = (free + 1) % 2 ^ 32 ∧ readNat t.mem (bk + 20) 4 = readNat s.mem (bk + 20) 4 ∧
          readNat t.mem (bk + 24) 4 = free ∧ readNat t.mem (nodeKey q.base q.bexp last + 28) 4 = free ∧
          (last ≠ free → readNat t.mem (node + 28) 4 = 2 ^ 32 - 1))) ∧
      (4 ≤ w → w < 2 ^ 31 → (w - 4) % 7 = 0 → q.nnodes ≤ free → readNat t.mem bk 4 = 2 ^ 31 + w ∧
        readNat t.mem (q.base + 12) 4 = (readNat s.mem (q.base + 12) 4 + 1) % 2 ^ 32 ∧ readNat t.mem q.base 4 = free) ∧
      (2 ^ 31 ≤ w ∨ q.limit ≤ w % 2 ^ 31 → readNat t.mem bk 4 = 2 ^ 31 + w % 2 ^ 31 ∧
        readNat t.mem (q.base + 12) 4 = (readNat s.mem (q.base + 12) 4 + 1) % 2 ^ 32)) ∧
  (∀ (s : State) (tile : Nat) (st : Strand) (o : Op) (g : HGather) (b row : Nat) (rest : List (Nat × Nat)),
    s.strands.find? (runKey tile) = some st → s.health = .clean →
    st.ops.find? (fun o => isGather o.ins && o.phase = .running) = some o →
    o.hg = some g → g.todo = (b, row) :: rest →
    let h := st.head o.head
    let c := chainRead s.mem h.key h.bexp b
    exec (.chainRead tile) s = .next (runOp (runKey tile) o.q o.seqno runFuel (putOp s (runKey tile) { o with
      hg := some { g with
        todo := rest, tokens := g.tokens ++ c.2, overflow := if c.1 then lowest row g.overflow else g.overflow } })) ∧
    (∀ (r : Rec) (kd : Nat), o.ins = .hgather r → st.ops = [o] → rest = [] → g.overflow = none → c.1 = false →
      (g.tokens ++ c.2).length ≤ h.dthresh → o.q = .x → o.out = [] → o.buf = [] → o.waiting = [] → o.n = 0 →
      o.late = none → st.episode = none → r.eng = 8 → r.dk = 1 →
      let hdr := rowOf (o.addrAt .d 0)
      let pad := g.pad
      tile = s.curTile → AtSram s hdr kd →
      (∀ j, j < max (g.tokens ++ c.2).length pad → AtSram s (addrPlus hdr (128 + 4 * j : Nat)) (kd + 128 + 4 * j)) →
      ∃ (t : State) (st' : Strand) (o' : Op) (ts : List Nat), exec (.chainRead tile) s = .next t ∧ t = (s.setStrand (runKey tile) st').setMem t.mem ∧
        { st' with ops := st.ops, ordered := st.ordered } = st ∧ st'.ops = [o'] ∧ o'.phase = .done ∧ o'.late = none ∧
        ts.Pairwise (· < ·) ∧ (∀ x, x ∈ ts ↔ x ∈ g.tokens ++ c.2) ∧ readNat t.mem kd 4 = ts.length % 2 ^ 32 ∧
        readNat t.mem (kd + 8) 4 = 0 ∧ readNat t.mem (kd + 12) 4 = g.probes % 2 ^ 32 ∧
        (∀ j, j < ts.length → readNat t.mem (kd + 128 + 4 * j) 4 = ts.getD j 0 % 2 ^ 32) ∧
        (∀ j, ts.length ≤ j → j < pad → readNat t.mem (kd + 128 + 4 * j) 4 = 2 ^ 32 - 1) ∧
        ∀ y, ¬(kd ≤ y ∧ y < kd + 4) → ¬(kd + 8 ≤ y ∧ y < kd + 16) →
          ¬(kd + 128 ≤ y ∧ y < kd + 128 + 4 * max ts.length pad) → readByte t.mem y = readByte s.mem y) ∧
    (∀ (r : Rec) (kd : Nat), o.ins = .hgather r → st.ops = [o] → rest = [] →
      let ov := if c.1 then some (match g.overflow with
        | some y => min row y
        | none => row) else g.overflow
      let all := g.tokens ++ c.2
      ov ≠ none ∨ (∃ l : List Nat, l.Nodup ∧ (∀ x ∈ l, x ∈ all) ∧ h.dthresh < l.length) →
      o.q = .x → o.out = [] → o.buf = [] → o.waiting = [] → o.n = 0 → o.late = none → st.episode = none → r.eng = 8 → r.dk = 1 →
      tile = s.curTile → AtSram s (rowOf (o.addrAt .d 0)) kd →
      ∃ (t : State) (st' : Strand) (o' : Op) (ts : List Nat), exec (.chainRead tile) s = .next t ∧ t = (s.setStrand (runKey tile) st').setMem t.mem ∧
        { st' with ops := st.ops, ordered := st.ordered } = st ∧ st'.ops = [o'] ∧ o'.phase = .done ∧
        ts.Pairwise (· < ·) ∧ (∀ x, x ∈ ts ↔ x ∈ all) ∧ readNat t.mem kd 4 = ts.length % 2 ^ 32 ∧
        readNat t.mem (kd + 12) 4 = g.probes % 2 ^ 32 ∧
        (∀ x, ov = some x → readNat t.mem (kd + 8) 4 = 1 ∧ o'.late = some ⟨.denseFallback, .a, x⟩) ∧
        (ov = none → readNat t.mem (kd + 8) 4 = 2 ∧ o'.late = some ⟨.denseFallback, .d, ts.length⟩) ∧
        ∀ y, ¬(kd ≤ y ∧ y < kd + 4) → ¬(kd + 8 ≤ y ∧ y < kd + 16) → readByte t.mem y = readByte s.mem y)) ∧
  (∀ (s : State) (tile : Nat) (st : Strand) (o : Op) (r : Rec) (sl : Slot) (ix : Nat),
    s.strands.find? (runKey tile) = some st → readyOp s st 8 = some o → o.ins = .hgather r → r.push = 0 → o.q = .x →
    o.late = some ⟨.denseFallback, sl, ix⟩ → st.episode = none →
    let h := st.head (r.fn.toNat % 4)
    let s1 := { s with nfree := s.nfree + 1 }
    (h.fbvec = 0 ∨ st.hfact = true → exec (.engineOperationComplete tile 8 .clean) s = .next (endByFault
      (s1.setStrand (runKey tile) (finishOp st o)) (runKey tile) (finishOp st o) ⟨.denseFallback, sl, ix⟩ .x o.seqno false)) ∧
    (h.fbvec ≠ 0 → st.hfact = false → sl = .a ∨ sl = .d → ∃ t st', exec (.engineOperationComplete tile 8 .clean) s = .next t ∧
      t.strands.find? (runKey tile) = some st' ∧ st'.hfact = true ∧
      st'.hfret = o.pc + 64 * ((BitVec.ofNat 16 r.b.off.toNat).signExtend 64) ∧ st'.hfdep = st.xs.loops.length ∧
      st'.xs.pc = h.fbvec ∧ st'.xs.loops = st.xs.loops ∧ st'.xs.seqno = st.xs.seqno ∧ st'.c = st.c ∧ st'.x = st.x ∧
      st'.head (r.fn.toNat % 4) = { h with
        fbcnt := h.fbcnt + 1, fbidx := BitVec.ofNat 32 ix, fbwhy := if sl = .a then 1 else 2 } ∧
      (∃ bits, t.records.head? = some (st.fn, bits) ∧ bits.extractLsb' 0 8 = 16#8))) ∧
  (∀ (i : Instr) (r : Rec) (s : State) (st : Strand) (kd : Nat), StandsAlone s st .x i r →
    let h := st.head (r.fn.toNat % 4)
    let n := st.xs.seqno + 1
    let tile := st.tile r.a.base.toNat
    let sh := st.shape r.a.base.toNat
    let element (x e : Nat) : Nat := elemAt (tile.rowNat x) 16 (modSource r.moda e)
    let keys (x : Nat) : List Val := (List.range h.dim).map (fun e => decodeFloat tile.tag.toNat (element x e))
    let token := st.opAddr .x r.b % 2 ^ 32
    let holds (rows : Nat) : Prop := h.cv = true ∧ h.pv = true ∧ (tile.tag = 2 ∨ tile.tag = 3) ∧ 0 < shRows sh ∧
      rows ≤ shRows sh ∧ shWidth sh = 2 * h.dim ∧ modBreaks r.moda h.dim = false
    (i = .kstore r → r.t0 = 1 → holds 1 → 1 ≤ h.dim → h.dim ≤ 64 → token ≠ 2 ^ 32 - 1 → AtSram s (st.opAddr .x r.d) kd →
      ∃ t st', exec i s = .next t ∧ AwaitsCompletion st st' .x i r ∧
        t = ((s.withStrand st').setDev { s.dev with links := s.dev.links ++
          [⟨st.uid, n, 0, h.key, h.bexp, h.limit, h.nnodes, bucketOf h (keys 0), token, st.at (runKey s.curTile) .x n⟩] }).setMem t.mem ∧
        KeptOutside s.mem t.mem (rowOf kd) (2 * h.dim) ∧
        ∀ e, e < h.dim → readNat t.mem (rowOf kd + 2 * e) 2 = element 0 e) ∧
    (i = .hreset r → h.cv = true → AtSram s h.key kd → 1 ≤ h.bexp →
      ∃ t st' o, exec i s = .next t ∧ t = (s.withStrand st').setMem t.mem ∧ st'.ops = [o] ∧ o.ins = i ∧
        o.phase = .running ∧ o.num = (st.tlAt 8).issue + 1 ∧
        (∃ g, o.hg = some g ∧ g.todo = (List.range ((2 ^ h.bexp + 3) / 4)).map (fun k => (k + 1, 0))) ∧
        KeptOutside s.mem t.mem kd 128 ∧ readNat t.mem kd 128 = h.nnodes * 2 ^ 32 % 2 ^ 1024) ∧
    (i = .hgather r → holds r.t0.toNat → AtSram s (rowOf (st.opAddr .x r.d)) kd → readNat s.mem (kd + 4) 4 ≤ h.dthresh →
      ∃ st' o, exec i s = .next (s.withStrand st') ∧ st'.ops = [o] ∧ o.ins = i ∧ o.phase = .running ∧
        o.num = (st.tlAt 8).issue + 1 ∧ st'.xs = st.xs.next ∧
        { st' with tokens := st.tokens, xs := st.xs, tl := st.tl, ops := st.ops, ordered := st.ordered } = st ∧
        ∃ g, o.hg = some g ∧ g.pad = readNat s.mem (kd + 4) 4 ∧ g.tokens = [] ∧ g.overflow = none ∧ g.probes = g.todo.length ∧
          g.todo = probesOf h (r.fn.getLsbD 2) ((List.range r.t0.toNat).map keys)) ∧
    (∀ kc, i = .hcount r → h.cv = true → AtSram s h.key kc → AtSram s (rowOf (st.opAddr .x r.d)) kd → h.fbwhy < 256 →
      RecordEnds i r s .x st (fun m => KeptOutside s.mem m kd 128 ∧ readNat m kd 16 = readNat s.mem kc 16 ∧
        readNat m (kd + 16) 4 = h.fbcnt.toNat ∧ readNat m (kd + 20) 4 = h.fbidx.toNat ∧ readNat m (kd + 24) 1 = h.fbwhy ∧
        readNat m (kd + 25) 1 = st.hfact.toNat ∧ readNat m (kd + 26) 6 = 0 ∧ readNat m (kd + 32) 8 = st.hfret.toNat ∧
        readNat m (kd + 40) 88 = 0))) ∧
  (∀ (s : State) (tile : Nat) (st : Strand) (o : Op) (r : Rec) (g : HGather) (k x base : Nat) (rest : List (Nat × Nat)),
    s.strands.find? (runKey tile) = some st → tile = s.curTile → s.health = .clean → (s.tile tile).exchanging = false →
    st.ops = [o] → st.episode = none → o.ins = .hreset r → o.q = .x → o.phase = .running → o.retired = false → o.waiting = [] → o.out = [] → o.n = 0 →
    o.late = none → r.total = 1 → r.eng = 8 → o.hg = some g → g.todo = (k, x) :: rest →
    let h := st.head (r.fn.toNat % 4)
    AtSram s h.key base → ∃ t st' o', exec (.stallRelease tile .x) s = .next t ∧
      t = (s.setStrand (runKey tile) st').setMem t.mem ∧ st'.ops = [o'] ∧ KeptOutside s.mem t.mem (base + 128 * k) 128 ∧
      (k = 0 → readNat t.mem base 128 = h.nnodes * 2 ^ 32 % 2 ^ 1024) ∧
      (∀ j b, k = j + 1 → b < 4 →
        let bucket (y : Nat) : Nat := readNat t.mem (base + 128 * k + 32 * b + 4 * y) 4
        (4 * j + b < 2 ^ h.bexp → bucket 0 = 0 ∧ (∀ y, 1 ≤ y → y ≤ 6 → bucket y = 2 ^ 32 - 1) ∧ bucket 7 = 0) ∧
        (2 ^ h.bexp ≤ 4 * j + b → ∀ y, y < 8 → bucket y = 0)) ∧
      (rest = [] → o'.phase = .done ∧ o'.hg = none) ∧
      (rest ≠ [] → o'.phase = .running ∧ ∃ g', o'.hg = some g' ∧ g'.todo = rest))

/-- R155, R401, R94, R108, R357: a fetched row of C's path or along the target of a branch it has not taken arrives in its window, and
one that has no place there is not fetched (how far along a target, and how long, is log entry 61); the
host's answer to a load of C completes
it, and an error raises HOST_ABORT, or ATOMIC for an atomic; eight bytes of a row that needs more are kept until the
others come; an answer to nothing outstanding is ignored. For a peer's answer of error see log entry 24. -/
def Obligations.AnswersArrive : Prop :=
  (∀ (s : State) (tile : Nat) (st : Strand) (va : Word) (e : TlbEntry) (k : Nat),
    s.strands.find? (runKey tile) = some st → st.started = true → st.c.ended = false → s.health = .clean →
    va.toNat < 2 ^ 56 →
    translate s st 0 va.toNat = .found e → e.target va.toNat = .cell k → stackReady s.dev.ready k = true →
    (rowOf st.c.pc.toNat ≤ rowOf va.toNat ∧ rowOf va.toNat ≤ rowOf st.c.pc.toNat + 256) ∨
      (∃ b ∈ st.c.targets, rowOf va.toNat = rowOf b.toNat ∨ rowOf va.toNat = rowOf b.toNat + 128) → st.c.window = [] →
    ∃ st', exec (.instructionFetchReturn tile .c va) s = .next (s.setStrand (runKey tile) st') ∧
      st'.c.window = [(rowOf va.toNat, readRow s.mem k)] ∧ st'.c.pc = st.c.pc ∧ st'.x = st.x) ∧
  (∀ (s : State) (tile : Nat) (st : Strand) (va : Word), s.strands.find? (runKey tile) = some st →
    ((rowOf va.toNat < rowOf st.c.pc.toNat ∨ rowOf st.c.pc.toNat + 256 < rowOf va.toNat) ∧
        (∀ b ∈ st.c.targets, rowOf va.toNat ≠ rowOf b.toNat ∧ rowOf va.toNat ≠ rowOf b.toNat + 128)) ∨
      (∃ p ∈ st.c.window, p.1 = rowOf va.toNat) → exec (.instructionFetchReturn tile .c va) s = .next s) ∧
  (∀ (s : State) (id key : Nat) (f : FarReq) (st : Strand) (status : FarStatus) (row : Row),
    (s.dev.far.find? (fun f => f.id = id) = none → exec (.hostCompletion id status row) s = .next s) ∧
    (s.dev.far.find? (fun f => f.id = id) = some f → f.port = none →
      let s1 := s.setDev { s.dev with far := s.dev.far.filter (fun f => f.id ≠ id) }
      (findUid s f.uid = some (key, st) → st.c.wait = .answer f.id → f.lead = f.id →
        (∀ g ∈ s.dev.far, g.lead = f.id ↔ g.id = id) → (∀ p ∈ s.dev.parts, p.lead ≠ f.id) →
        (∀ xd a, f.use = .load xd a → f.addr % 128 = a % 128 / 8 * 8 →
          exec (.hostCompletion id .success row) s = .next (s1.setStrand key ((st.wx xd (row.setWidth 64)).cNext)) ∧
          exec (.hostCompletion id .error row) s = .next (takeFault s1 key st ⟨.hostAbort, .a, 0⟩)) ∧
        (∀ xd kind a, f.use = .atom xd kind a →
          exec (.hostCompletion id .success row) s = .next (s1.setStrand key
            ((st.wx xd (BitVec.ofNat 64 (rowNat row 0 kind.bytes))).cNext)) ∧
          exec (.hostCompletion id .error row) s = .next (takeFault s1 key st ⟨.atomic, .a, 0⟩))) ∧
      (f.use.isAtomic = false → (∃ g ∈ s.dev.far, g.id ≠ id ∧ g.lead = f.lead) →
        exec (.hostCompletion id .success row) s = .next (s1.setDev { s1.dev with
          parts := ⟨f.lead, f.addr, row.setWidth 64⟩ :: s.dev.parts }))))

/-- R66, R67, R71 to R73, R76, R79, R81: a draw moves the generator and takes the head of the queue that the index falls to,
with chances in the ratio of the tickets. A NOP packet stores status 1 at its SIGNAL and is consumed; a LAUNCH or GANG_ARM
packet that breaks R67, or whose kernel header does, is logged with LAUNCH or NBV, SEQ 4, and stores status 3; one that
passes every check becomes a launch with the next name, in the table, its strands still to be bound, a gang armed, or
dropped with status 2 where its decision tick has come. With no eligible head the generator stands. A draw in progress takes
what it has picked, whatever TICKETS and heads have become, and the generator stands (R72). The order of the checks among each
other is log entry 6. -/
def Obligations.LotteryDrawsByTickets : Prop :=
  (∀ (s : State), dispatchHeld s.dev = false → s.dev.held = none → s.dev.drawing = none → s.health = .clean →
    (∀ q ∈ servedQueues s.dev, queueHead s q ≠ .broken) → headsComing s (servedQueues s.dev) = false →
    entrants s = [] → exec .lotteryDraw s = .next (s.setDev { s.dev with procRows := [] })) ∧
  (∀ (s : State) (q rd ks kr : Nat) (p : BitVec 512), dispatchHeld s.dev = false → s.dev.held = none →
    s.dev.drawing = some (q, rd, p) → s.health = .clean → stageRun s q rd = none → pkType p = 3 → pkSignal p = 0 →
    let slot := queueBase s.dev q + 256 + 64 * (rd % 2 ^ queueLogsz s.dev q)
    let read := queueBase s.dev q + 128
    let m := writeBytes s.mem (rowOf ks + slot % 128) [0]
    procTarget s (queueFn s.dev q) slot true = .ok (.cell ks) → procTarget s (queueFn s.dev q) read true = .ok (.cell kr) →
    procTarget (s.setMem m) (queueFn s.dev q) read true = .ok (.cell kr) →
    exec .lotteryDraw s = .next ((s.setMem (writeBytes m (rowOf kr + read % 128) (leBytes 8 (rd + 1)))).setDev
      { s.dev with drawing := none, procRows := [] })) ∧
  (∀ (s s2 : State) (e : Entrant), DrawsHead s e s2 →
    let p := e.packet
    let fn := queueFn s.dev e.queue
    let fails (c : Code) : Prop := ∃ t bits, exec .lotteryDraw s = .next t ∧ { t with mem := s2.mem, records := s.records } = s2 ∧
      (pkSignal p % 8 ≠ 0 → t.mem = s2.mem) ∧
      (∀ m, pkSignal p % 8 = 0 → Signalled s2 fn p 3 m → t.mem = m) ∧ t.records = (fn, bits) :: s.records ∧
      bits.extractLsb' 0 8 = BitVec.ofNat 8 c.num ∧ bits.extractLsb' 16 8 = 4#8 ∧ bits.extractLsb' 32 16 = 0xFFFF#16 ∧
      bits.extractLsb' 48 16 = BitVec.ofNat 16 e.queue ∧ bits.extractLsb' 256 64 = BitVec.ofNat 64 e.rd
    let broken : Prop := pkStrands p = 0 ∨ 4096 < pkMapN p ∨ pkKaddr p % 64 ≠ 0 ∨ (pkMapN p ≠ 0 ∧ pkMap p % 32 ≠ 0) ∨
      pkSignal p % 8 ≠ 0 ∨ (pkDet p = true ∧ 512 < pkStrands p) ∨ bitsOf p.toNat 10 6 ≠ 0 ∨ bitsOf p.toNat 52 12 ≠ 0 ∨
      bitsOf p.toNat 368 8 ≠ 0 ∨ (pkType p = 2 ∧ pkGang p = 0) ∨
      (pkType p = 1 ∧ (pkGang p ≠ 0 ∨ pkPorts p ≠ 0 ∨ pkDeadline p ≠ 0))
    (∀ m, pkType p = 3 → pkSignal p % 8 = 0 → Signalled s2 fn p 1 m → exec .lotteryDraw s = .next (s2.setMem m)) ∧
    ((∀ m, Signalled s2 fn p 3 m ∨ pkSignal p % 8 ≠ 0 → ringBase s .fault fn = 0 →
      (3 < pkType p ∨ (pkType p = 3 ∧ pkSignal p % 8 ≠ 0) → fails .launch) ∧
      (pkType p = 1 ∨ pkType p = 2 → broken → fails .launch) ∧
      (∀ kh, pkType p = 1 ∨ pkType p = 2 → ¬broken → procTarget s fn (pkKaddr p) false = .ok (.cell kh) →
        let h := readNat s.mem (rowOf kh + pkKaddr p % 128 / 64 * 64) 64
        (bitsOf h 0 16 ≠ pkNbv p → fails .launch) ∧
        (bitsOf h 0 16 = pkNbv p → headerOk (BitVec.ofNat 512 h) = true → pkNbv p ≠ 1 → fails .nbv)))) ∧
    (∀ kh, pkType p = 1 ∨ pkType p = 2 → ¬broken → pkMapN p = 0 → pkInitset p = 0 → s.dev.trcctl.getLsbD 31 = false →
      procTarget s fn (pkKaddr p) false = .ok (.cell kh) →
      let h := readNat s.mem (rowOf kh + pkKaddr p % 128 / 64 * 64) 64
      headerOk (BitVec.ofNat 512 h) = true → bitsOf h 0 16 = 1 → pkNbv p = 1 →
      (pkDet p = true → detFits s.dev [] (pkStrands p) = true) →
      (pkType p = 1 ∨ s.dev.devtime.toNat < pkDeadline p →
        ∃ t l, exec .lotteryDraw s = .next t ∧ t.mem = s2.mem ∧ t.strands = s.strands ∧
          t.dev = { s2.dev with launches := s.dev.launches.insert s.dev.nextLaunch l, nextLaunch := s.dev.nextLaunch + 1,
                                nextUid := s.dev.nextUid + pkStrands p } ∧
          l.packet = p ∧ l.header = BitVec.ofNat 512 h ∧ l.fn = fn ∧ l.queue = e.queue ∧ l.pkt = e.rd ∧
          l.uid0 = s.dev.nextUid ∧ l.groups = [] ∧ l.bound = 0 ∧ l.ended = 0 ∧ l.started = false ∧ l.killed = false ∧
          l.status = 1 ∧ l.stage = none ∧ l.gang = (if pkType p = 2 then .armed else .none)) ∧
      (∀ m, pkType p = 2 → pkDeadline p ≤ s.dev.devtime.toNat → (∀ q ∈ s.strands, q.2.launch ≠ s.dev.nextLaunch) →
        Signalled s2 fn p 2 m → ∃ t, exec .lotteryDraw s = .next t ∧ t.mem = m ∧ t.strands = s.strands ∧
          t.dev.launches.find? s.dev.nextLaunch = none)))

/-- R81 and R82: an acknowledgement is held unless its decision tick has come; in that tick a gang commits if every
acknowledgement is held and every strand bound, and is dropped otherwise; a DROP loses a committed gang. That a gang
which holds every acknowledgement is dropped while a strand of its own is unbound is the model's choice (log entry 52):
R81 drops for a missing acknowledgement; so are an acknowledgement held for a gang that is not armed, and a DROP ignored
where no gang of its identifier is committed (log entry 52). -/
def Obligations.GangsDecideTogether : Prop :=
  ∀ (s : State) (gang : BitVec 32) (port : BitVec 3) (lid : Nat) (l : Launch), s.dev.launches.find? lid = some l →
    (s.dev.launches.any (fun p => p.2.gang = .armed && pkGang p.2.packet = gang.toNat && decisionTick s p.2) = false →
      (gang.toNat, port.toNat) ∉ s.dev.armAcks → exec (.armAck gang port) s = .next (s.setDev { s.dev with
        armAcks := s.dev.armAcks ++ [(gang.toNat, port.toNat)] })) ∧
    (s.dev.launches.any (fun p => p.2.gang = .armed && pkGang p.2.packet = gang.toNat && decisionTick s p.2) = true →
      exec (.armAck gang port) s = .next s) ∧
    (l.gang = .armed → decisionTick s l = false → exec (.gangDecision lid) s = .next s) ∧
    (l.gang = .armed → decisionTick s l = true → s.dev.stopped = false → s.dev.trcctl.getLsbD 31 = false →
      ((∀ p, p < 8 → (pkPorts l.packet).testBit p = true → (pkGang l.packet, p) ∈ s.dev.armAcks) →
        l.bound = pkStrands l.packet →
        ∃ t, exec (.gangDecision lid) s = .next t ∧
          t.dev.launches.find? lid = some { l with gang := .committed, started := true } ∧
          ∀ k st, strandsOf s lid = [(k, st)] → t.strands.find? k = some { st with started := true }) ∧
      ((∃ p, p < 8 ∧ (pkPorts l.packet).testBit p = true ∧ (pkGang l.packet, p) ∉ s.dev.armAcks) ∨
        l.bound ≠ pkStrands l.packet →
        ∃ t, exec (.gangDecision lid) s = .next t ∧ t.dev.launches.find? lid = none)) ∧
    (s.dev.launches.filter (fun p => p.2.gang = .committed && pkGang p.2.packet = gang.toNat) = [(lid, l)] →
      ∃ t, exec (.dropMsg gang) s = .next t ∧ t.dev.launches.find? lid = some { l with gang := .lost } ∧
        ∀ k st, s.strands.find? k = some st → t.strands.find? k = some (if st.launch = lid then
          { st with pendingFaults := st.pendingFaults ++ [(⟨.gangLost, .none, 0⟩, 0)] } else st)) ∧
    (s.dev.launches.filter (fun p => p.2.gang = .committed && pkGang p.2.packet = gang.toNat) = [] →
      exec (.dropMsg gang) s = .next s)

/-- R63 to R65, R77, R79, R86, R346: a strand is bound with the registers of its packet, each sequencer at its header address or ended
where the header gives none; a deterministic launch binds and starts together; a strand that is over leaves its slot, which a resident
strand in arrival mode takes, and its launch counts it, the last one storing the launch's status at SIGNAL; a launch parks and
resumes. That the strands change places as the exchange of the slots begins is the model's choice (log entry 19). -/
def Obligations.StrandsBindAndEnd : Prop :=
  ∀ (s : State) (die : BitVec 2) (lid i key : Nat) (l : Launch), s.dev.launches.find? lid = some l →
    s.dev.trcctl.getLsbD 31 = false →
    (s.dev.ready.getLsbD die.toNat = false → exec (.strandBind die) s = .next s) ∧
    (s.dev.ready.getLsbD die.toNat = true → binder s die.toNat = some (lid, i) → slotFor s die.toNat = some key →
      l.gang = .none → l.stage = none →
      ∃ t st, exec (.strandBind die) s = .next t ∧ t.strands.find? key = some st ∧ st.started = true ∧
        st.launch = lid ∧ st.index = i ∧ st.fn = l.fn ∧ st.queue = l.queue ∧ st.pkt = l.pkt ∧
        st.rx 1 = BitVec.ofNat 64 (pkArgs l.packet) ∧ st.rx 2 = BitVec.ofNat 64 i ∧
        st.rx 3 = BitVec.ofNat 64 (pkStrands l.packet) ∧ st.rx 4 = BitVec.ofNat 64 (key / 2) ∧
        st.rx 5 = BitVec.ofNat 64 (pkInitset l.packet) ∧ (∀ r, 6 ≤ r.toNat → st.rx r = 0) ∧
        (hdOff l.header 0 ≠ 0 → st.c.pc = BitVec.ofNat 64 (pkKaddr l.packet + hdOff l.header 0) ∧ st.c.ended = false) ∧
        (hdOff l.header 0 = 0 → st.c.ended = true) ∧ st.c.seqno = 0 ∧
        ∀ p ∈ [(1, st.l), (2, st.xs), (3, st.ss)],
          (hdOff l.header p.1 ≠ 0 → p.2.pc = BitVec.ofNat 64 (pkKaddr l.packet + hdOff l.header p.1) ∧ p.2.ended = false) ∧
          (hdOff l.header p.1 = 0 → p.2.ended = true) ∧ p.2.seqno = 0) ∧
    (∀ tile rest, pkDet l.packet = true → l.bound = 0 → l.killed = false → detTurn s l = true → detRoom s l = true →
      l.gang = .none → l.stage = none → pkStrands l.packet = 1 → freeRunning s (dieOf l.groups 1 0) = tile :: rest →
      ∃ t st l', exec (.deterministicLaunchStart lid) s = .next t ∧ t.strands.find? (runKey tile) = some st ∧
        st.started = true ∧ st.det = true ∧ st.scyc = 0 ∧ st.launch = lid ∧ t.dev.launches.find? lid = some l' ∧
        l'.started = true ∧ l'.bound = 1) ∧
    (∀ tile slot st, slot = runKey tile ∨ slot = runKey tile + 1 ∧ slotOver s (runKey tile) = false →
      s.strands.find? slot = some st → st.launch = lid → st.started = true →
      strandOver s st = true → s.dev.ivpending = [] → s.dev.killedLaunches = [] → l.stage = none → l.killed = false →
      ∃ t, exec (.strandEnd tile) s = .next t ∧
        (slot = runKey tile + 1 ∨ s.strands.find? (runKey tile + 1) = none → t.strands.find? slot = none) ∧
        (∀ b, slot = runKey tile → s.strands.find? (runKey tile + 1) = some b →
          (b.det = false → t.strands.find? slot = some { b with quantum := 0 } ∧
            t.strands.find? (runKey tile + 1) = none ∧ (t.tile tile).exchanging = true) ∧
          (b.det = true → t.strands.find? slot = none ∧ t.strands.find? (runKey tile + 1) = some b)) ∧
        (l.ended + 1 ≠ pkStrands l.packet → t.dev.launches.find? lid = some { l with ended := l.ended + 1 }) ∧
        (l.ended + 1 = pkStrands l.packet → t.dev.launches.find? lid = none) ∧
        (l.ended + 1 = pkStrands l.packet → pkSignal l.packet = 0 → t.mem = s.mem) ∧
        (l.ended + 1 = pkStrands l.packet → s.health = .clean → ∀ m, Signalled s l.fn l.packet l.status m → t.mem = m)) ∧
    (∀ tile, slotOver s (runKey tile) = false → slotOver s (runKey tile + 1) = false →
      exec (.strandEnd tile) s = .next s) ∧
    (launchParked s lid = true → ∃ t, exec (.launchPark lid) s = .next t ∧ t.strands = s.strands ∧
      t.dev.launches.find? lid = some { l with parked := true }) ∧
    (launchParked s lid = false → ∃ t, exec (.parkedResume lid) s = .next t ∧ t.strands = s.strands ∧
      t.dev.launches.find? lid = some { l with parked := false })

/-- R86, R278, R361 to R363, R383: a swap is requested by quantum or by the host, and exchanges the slots of a tile, contexts
unchanged but for untagged shadows, which hold +0, once the outgoing strand stands at a boundary; while they exchange no
sequencer of the tile executes, and with that the swap is done (R383); one by quantum that is no longer due is not made, its request
dropped (log entry 19, as that the strands have changed places while the slots exchange). -/
def Obligations.SwapsExchangeTheSlots : Prop :=
  ∀ (s : State) (tile : Nat) (a b : Strand), s.strands.find? (2 * tile) = some a →
    s.strands.find? (2 * tile + 1) = some b →
    (a.det = false → b.det = false → a.started = true → s.dev.quantum.toNat ≤ a.quantum → (s.tile tile).swap = none →
      s.dev.stopped = false → ∃ t, exec (.quantumExpiry tile) s = .next t ∧ (t.tile tile).swap = some false ∧
        t.strands = s.strands ∧ t.dev = s.dev) ∧
    (a.quantum < s.dev.quantum.toNat ∨ a.det = true ∨ b.det = true → exec (.quantumExpiry tile) s = .next s) ∧
    (∀ v, s.dev.swapreq.getLsbD 31 = true → exec (.swapreq v) s = .next s) ∧
    (∀ v, s.dev.swapreq.getLsbD 31 = false → v.getLsbD 31 = true → v.toNat % 512 = tile → (s.tile tile).swap = none →
      ∃ t, exec (.swapreq v) s = .next t ∧ (t.tile tile).swap = some true ∧ t.dev.swapreq.getLsbD 31 = true ∧
        t.strands = s.strands) ∧
    (∀ byHost, (s.tile tile).swap = some byHost → (s.tile tile).exchanging = false →
      let due := byHost = true ∨ a.det = false ∧ b.det = false ∧ a.started = true ∧ s.dev.quantum.toNat ≤ a.quantum
      (due → swapReady s a = true → a.det = false → a.ops = [] → a.episode = none → s.dev.ivpending = [] →
        s.dev.trcctl.getLsbD 31 = false →
        ∃ t a', exec (.swap tile) s = .next t ∧ t.strands.find? (2 * tile) = some { b with quantum := 0 } ∧
          t.strands.find? (2 * tile + 1) = some a' ∧ { a' with acc := a.acc } = a ∧
          (∀ j, j < 4 → a'.accAt j = a.accAt j) ∧
          (∀ j, 4 ≤ j → j < 8 → a'.accAt j = if (a.accAt j).tag = 0 then ⟨0, []⟩ else a.accAt j) ∧
          (t.tile tile).swap = some byHost ∧ (t.tile tile).exchanging = true ∧ t.dev = s.dev ∧ t.mem = s.mem ∧
          (∀ k, k ≠ 2 * tile → k ≠ 2 * tile + 1 → t.strands.find? k = s.strands.find? k)) ∧
      (due → swapReady s a = false → exec (.swap tile) s = .next s) ∧
      (¬due → ∃ t, exec (.swap tile) s = .next t ∧ (t.tile tile).swap = none ∧ t.strands = s.strands ∧ t.mem = s.mem)) ∧
    ((s.tile tile).exchanging = true →
      (∀ q, turnOf s tile q = .over s) ∧
      (s.dev.trcctl.getLsbD 31 = false → ∃ t, exec (.swap tile) s = .next t ∧ (t.tile tile).swap = none ∧
        (t.tile tile).exchanging = false ∧ t.strands = s.strands ∧ t.mem = s.mem ∧
        (s.dev.swapreq.toNat % 512 = tile → t.dev.swapreq.getLsbD 31 = false)))

/-- R359, R360, R366, R120: a strand whose watchdog count reaches WDLIMIT, and one that lets an invalidation wait IVLIMIT
ticks, are ended; an imprecise fault is delivered at C's boundary, and inside a stalled word keeps that word's state; one that
no handler takes ends its strand wherever that stands, the running one of a tile or, where that has none due, the resident
one. -/
def Obligations.ImpreciseFaultsReachTheStrand : Prop :=
  ∀ (s : State) (tile : Nat) (st : Strand), s.strands.find? (runKey tile) = some st →
    (st.wdlimit ≠ 0 → st.wdlimit ≤ st.wdcount → exec (.watchdog tile) s =
      .next (endByFault s (runKey tile) st ⟨.watchdog, .none, 0⟩ .c 0 true)) ∧
    (st.wdlimit = 0 ∨ st.wdcount < st.wdlimit → exec (.watchdog tile) s = .next s) ∧
    (∀ age, s.dev.ivpending.find? (runKey tile) = some age → s.dev.ivlimit.toNat ≤ age →
      exec (.quiesceTimeout tile) s = .next (endByFault (s.setDev { s.dev with
        ivctl := s.dev.ivctl ||| BitVec.ofNat 32 (2 ^ 30) }) (runKey tile) st ⟨.quiesceTimeout, .none, 0⟩ .c 0 true)) ∧
    (∀ r n rest, st.pendingFaults = (r, n) :: rest → st.started = true → st.c.ended = false → st.episode = none →
      (s.tile tile).exchanging = false → r.code.toHandler = true → st.tvec ≠ 0 → st.act = false → st.c.wait.swappable = true →
      ringBase s .fault st.fn = 0 →
      ∃ t st' bits, exec (.impreciseFaultDelivery tile) s = .next t ∧ t.strands.find? (runKey tile) = some st' ∧
        st'.pendingFaults = rest ∧ st'.tepc = st.c.pc ∧ st'.act = true ∧ st'.c.pc = st.tvec ∧ st'.x = st.x ∧
        (st.c.wait = .idle → st'.intr = st.intr) ∧ (st.c.wait ≠ .idle → st'.intr = true ∧ st'.c.kept = st.c.wait) ∧
        t.records = (st.fn, bits) :: s.records ∧ bits.extractLsb' 24 8 = 3#8 ∧ t.mem = s.mem) ∧
    (∀ r n rest, st.pendingFaults = (r, n) :: rest →
      st.c.ended = true ∨ r.code.toHandler = false ∨ st.tvec = 0 ∨ st.act = true →
      exec (.impreciseFaultDelivery tile) s =
        .next (endByFault s (runKey tile) { st with pendingFaults := rest } r .c n true)) ∧
    (∀ b r n rest, st.pendingFaults = [] → s.strands.find? (runKey tile + 1) = some b → b.pendingFaults = (r, n) :: rest →
      (b.c.ended = true ∨ r.code.toHandler = false ∨ b.tvec = 0 ∨ b.act = true →
        exec (.impreciseFaultDelivery tile) s =
          .next (endByFault s (runKey tile + 1) { b with pendingFaults := rest } r .c n true)) ∧
      (b.c.ended = false → r.code.toHandler = true → b.tvec ≠ 0 → b.act = false →
        exec (.impreciseFaultDelivery tile) s = .next s))

/-- R367 to R370: KILLCTL is ignored while GO reads 1, keeps its fields, starts nothing during a stop, and completes at once
where it names no strand in a slot: a launch that has none there binds no more and stores status 4, its armed gang dropped. A
strand it names leaves its slot at once and its launch counts it with status 4, whole launches binding no further; once nothing of the killed strands is on its way, their records and KILL_DONE are logged and GO clears.
That one written during a stop starts nothing before the resume is the model's reading of R374, and that a launch with no strand
in a slot stores status 4 at once is its choice (log entry 39). -/
def Obligations.KillsEndTheirStrands : Prop :=
  ∀ (s : State) (i : Instr) (v : BitVec 32), i = .killStrand v ∨ i = .killLaunch v →
    (s.dev.killctl.getLsbD 31 = true → exec i s = .next s) ∧
    (s.dev.killctl.getLsbD 31 = false → v.getLsbD 31 = false ∨ s.dev.stopped = true →
      exec i s = .next (s.setDev { s.dev with killctl := v &&& 0xE001FFFF })) ∧
    (s.dev.killctl.getLsbD 31 = false → v.getLsbD 31 = true → s.dev.stopped = false →
      (killTargets s v.toNat = [] → idleTargets s v.toNat = [] →
        exec i s = .next (s.setDev { s.dev with killctl := v &&& 0x6001FFFF })) ∧
      (∀ lid l, killTargets s v.toNat = [] → idleTargets s v.toNat = [lid] → s.dev.launches.find? lid = some l →
        l.stage = none → s.dev.killedLaunches = [] →
        (l.gang = .armed → ∃ t, exec i s = .next t ∧ t.dev.launches.find? lid = none) ∧
        (∀ m, l.gang = .none → pkInitset l.packet = 0 → l.ended = l.bound → s.health = .clean →
          Signalled s l.fn l.packet 4 m → exec i s = .next ((s.setDev { s.dev with
            killctl := v &&& 0x6001FFFF, launches := s.dev.launches.erase lid }).setMem m))) ∧
      (∀ key st l, killTargets s v.toNat = [(key, st)] → findUid s st.uid = some (key, st) →
        key % 2 = 1 ∨ s.strands.find? (key + 1) = none → s.dev.launches.find? st.launch = some l → l.gang = .none →
        pkInitset l.packet = 0 → s.dev.ivpending = [] → s.dev.trcctl.getLsbD 31 = false →
        ∃ t, exec i s = .next t ∧ t.strands.find? key = none ∧
          (∀ k, k ≠ key → t.strands.find? k = s.strands.find? k) ∧ t.mem = s.mem ∧
          t.dev.launches.find? st.launch = some { l with
            ended := l.ended + 1, status := 4, killed := l.killed || v.getLsbD 30 } ∧
          (∀ r ∈ t.planner.runs, r.uid = st.uid → r.killed = true) ∧ t.dev.killctl = v &&& 0xE001FFFF ∧
          t.dev.killing = [killNote key st] ∧ t.dev.killedLaunches = [st.launch])) ∧
    (s.dev.killctl.getLsbD 31 = false ∨ killWaits s = true → exec .killDone s = .next s) ∧
    (∀ uid queue pkt tile scyc fn lid l, s.dev.killctl.getLsbD 31 = true → killWaits s = false →
      s.dev.killing = [(uid, queue, pkt, tile, scyc, fn)] → s.dev.killedLaunches = [lid] →
      s.dev.launches.find? lid = some l → l.stage = none → l.killed = false → pkSignal l.packet = 0 →
      ringBase s .fault fn = 0 → s.dev.chryctl.getLsbD 29 = false →
      ∃ t b1 b2, exec .killDone s = .next t ∧ t.records = (fn, b2) :: (fn, b1) :: s.records ∧
        b1.extractLsb' 0 8 = 26#8 ∧ b1.extractLsb' 24 8 = 5#8 ∧ b1.extractLsb' 256 64 = BitVec.ofNat 64 pkt ∧
        b2.extractLsb' 0 8 = 29#8 ∧ b2.extractLsb' 24 8 = 0#8 ∧ t.mem = s.mem ∧ t.strands = s.strands ∧
        t.dev.killctl.getLsbD 31 = false ∧ t.dev.killing = [] ∧
        (l.ended = pkStrands l.packet → t.dev.launches.find? lid = none) ∧
        (l.ended ≠ pkStrands l.packet → t.dev.launches.find? lid = some l))

/-- R117 to R119, R389: IVCTL is ignored while a request is in progress and stores its fields; GO reaches every slot: those
without a strand that runs under it apply it at once, resident strands losing the entries it covers, and the others are
waited for; that the request keeps IVADDR and IVLEN as they stand at GO is the model's choice (log entry 53). PRQACK
answers the request of its function and tag, over the link that carries the function; over the other it
is Unsupported Request (R386). -/
def Obligations.InvalidationsReachEverySlot : Prop :=
  ∀ (s : State) (v : BitVec 32),
    (s.dev.ivpending ≠ [] → exec (.ivctlGo v) s = .next s) ∧
    (s.dev.ivpending = [] → v.getLsbD 31 = false → exec (.ivctlGo v) s = .next (s.setDev { s.dev with
      ivctl := v &&& 0x3F000000 ||| (s.dev.ivctl &&& ~~~v &&& 0x40000000) })) ∧
    (s.dev.ivpending = [] → v.getLsbD 31 = true → v.getLsbD 29 = false → s.dev.stopped = false →
      let fn := bitsOf v.toNat 24 4
      ∃ t, exec (.ivctlGo v) s = .next t ∧ t.mem = s.mem ∧ t.dev.ivfrom = s.dev.ivaddr.toNat ∧
        t.dev.ivsize = s.dev.ivlen.toNat ∧ t.dev.launches = s.dev.launches ∧
        (∀ k, k < 1024 → t.dev.ivpending.find? k = (match s.strands.find? k with
          | some st => if k % 2 = 0 ∧ st.fn = fn then some 0 else none
          | none => none)) ∧
        (∀ k st, s.strands.find? k = some st → k % 2 = 0 ∨ st.fn ≠ fn → t.strands.find? k = some st) ∧
        (∀ k st, k < 1024 → s.strands.find? k = some st → k % 2 = 1 → st.fn = fn → ∃ st',
          t.strands.find? k = some st' ∧ { st' with tlb := st.tlb } = st ∧
          ∀ j (h : j < 8), ∀ e, e ∈ st'.tlb[j] ↔ e ∈ st.tlb[j] ∧ ivCovers t.dev e = false)) ∧
    (∀ (link : BitVec 1) (fn : BitVec 4) (own : Bool) (w : Word) (r : PageReq), s.dev.pageReqs = [r] → r.answer = none →
      let f := if own then fn.toNat else bitsOf w.toNat 33 4
      let mine : Bool := s.dev.linkmap.getLsbD fn.toNat == link.getLsbD 0
      (mine = true → own = true ∨ fn = 0 → r.fn = f → r.tag = bitsOf w.toNat 0 32 → exec (.prqack ⟨link, fn⟩ own w) s =
        .next (s.setDev { s.dev with pageReqs := [{ r with answer := some (w.getLsbD 32) }] })) ∧
      (mine = true → (own = false ∧ fn ≠ 0) ∨ r.fn ≠ f ∨ r.tag ≠ bitsOf w.toNat 0 32 →
        exec (.prqack ⟨link, fn⟩ own w) s = .next s) ∧
      (mine = false → exec (.prqack ⟨link, fn⟩ own w) s = .next (s.send .unsupported)))

/-- R371 to R375, R378, R380, R382: a 1 written to HALT releases the held packet; a stop is requested, comes, holds and ends,
and is recorded; a dump is started only during one and ends with its status, and its header is written last of its image where it
can be written (R377); BCCTL clears a tile's counters. The STOPPED and DUMPED records in the physical function's log are the model's choice (log entry
16), and whether an image is whole rests on the lengths of log entry 10.
R379: a sample gives one record for each sequencer that has not ended of each running strand of the traced function. -/
def Obligations.StopsDumpsAndBreakpoints : Prop :=
  (∀ (s : State),
      let released : State := s.setDev { s.dev with bpstat := s.dev.bpstat &&& 0x7FFFFFFF }
      let freed (t : State) : State := (t.setDev { t.dev with held := none }).forgetRows
      (s.dev.bpstat.getLsbD 31 = false → exec .breakpointResume s = .next s) ∧
      (s.dev.bpstat.getLsbD 31 = true → s.dev.held = none ∨ s.dev.stopped = true ∨ s.dev.ready.getLsbD 0 = false →
        exec .breakpointResume s = .next released) ∧
      (∀ q p0, s.dev.bpstat.getLsbD 31 = true → s.dev.held = some (q, p0) → s.dev.stopped = false →
        s.dev.ready.getLsbD 0 = true →
        (queueHead released q = .empty → exec .breakpointResume s = .next (freed released)) ∧
        (∀ rd p s2, s.health = .clean → queueHead released q = .packet rd p → acceptHead released q rd p = .inr s2 →
          exec .breakpointResume s = .next (freed s2))) ∧
      (s.dev.stopped = true ∨ s.dev.stopPending = true → exec .chrysalisStopRequest s = .next s) ∧
      (s.dev.stopped = false → s.dev.stopPending = false →
        exec .chrysalisStopRequest s = .next (s.setDev { s.dev with stopPending := true })) ∧
      (s.dev.stopPending = false → exec .chrysalisStop s = .next s) ∧
      (s.dev.stopPending = true → ringBase s .fault 0 = 0 → ∃ t bits, exec .chrysalisStop s = .next t ∧
        t = { s with
          dev := { s.dev with
            stopPending := false, stopped := true, stopTime := s.dev.devtime, chryctl := s.dev.chryctl &&& 0x20000000 }
          records := (0, bits) :: s.records } ∧ bits.extractLsb' 0 8 = 31#8 ∧ bits.extractLsb' 16 8 = 4#8) ∧
      (s.dev.stopped = false ∨ s.dev.cocctl.getLsbD 31 = true → exec .chrysalisResume s = .next s) ∧
      (s.dev.stopped = true → s.dev.cocctl.getLsbD 31 = false → s.dev.launches = [] → s.dev.ivpending = [] →
        s.dev.killctl.getLsbD 31 = false → exec .chrysalisResume s = .next (s.setDev { s.dev with stopped := false })) ∧
      (s.dev.stopped = true → s.dev.cocctl.getLsbD 31 = false → exec .cocoonDump s =
        .next (s.setDev { s.dev with cocctl := s.dev.cocctl ||| 0x80000000 })) ∧
      (s.dev.stopped = false ∨ s.dev.cocctl.getLsbD 31 = true → exec .cocoonDump s = .next s) ∧
      (∀ fail header, s.dev.cocctl.getLsbD 31 = false → exec (.cocoonDumpEnd ⟨fail, header⟩) s = .next s) ∧
      (∀ fail header, s.dev.cocctl.getLsbD 31 = true → ringBase s .fault 0 = 0 → ∃ t bits sent,
        let fits := (fitting s.dev.coclen.toNat 128 (imageRecords s)).length = (imageRecords s).length
        exec (.cocoonDumpEnd ⟨fail, header⟩) s = .next t ∧ t.mem = s.mem ∧ t.strands = s.strands ∧
          t.outbox = s.outbox ++ sent ∧
          t.dev.cocctl = (match fail, header with
            | none, true => if fits then 1 else 2
            | _, _ => 3) ∧
          (∃ recs, (∀ m ∈ recs, ∃ a remain len unit type body, m = .imageRecord a remain len unit type body) ∧
            (header = false → sent = recs) ∧
            (header = true →
              let fit := fitting s.dev.coclen.toNat 128 (imageRecords s)
              let done := match fail with
                | none => fit
                | some n => fit.take (n - 1)
              let row := leBytes 128 (imageHeader s t.dev.cocctl.toNat done (imageRecords s))
              sent = recs ++ (List.range 16).map (fun i =>
                .write (s.dev.nextId + i) none (s.dev.cocbase.toNat + 8 * i) ((row.drop (8 * i)).take 8)))) ∧
          t.records = (0, bits) :: s.records ∧ bits.extractLsb' 0 8 = 32#8) ∧
      (∀ tile v, tile < 512 → ∃ t, exec (.bcmClear tile v) s = .next t ∧ { t with tiles := s.tiles } = s ∧
        (∀ k, k ≠ tile → t.tile k = s.tile k) ∧ t.tile tile = { s.tile tile with
          bcctl := v &&& 0xB000FFFF, bcm := if v.getLsbD 30 then [] else (s.tile tile).bcm }) ∧
      (∀ tile v, 512 ≤ tile → exec (.bcmClear tile v) s = .next s)) ∧
  (∀ (s : State),
      (s.dev.trcctl.getLsbD 31 = false ∨ s.dev.trcctl.toNat % 2 ^ 16 = 0 ∨ s.dev.stopped = true →
        exec .traceSample s = .next s) ∧
      (s.dev.trcctl.getLsbD 31 = true → s.dev.trcctl.toNat % 2 ^ 16 ≠ 0 → s.dev.stopped = false →
        let fn := bitsOf s.dev.trcctl.toNat 16 4
        let traced := s.strands.filter (fun p => p.1 % 2 = 0 && p.2.started && p.2.fn = fn)
        (∀ p ∈ traced, isStage s p.2 = false) → ringBase s .trace fn ≠ 0 →
        exec .traceSample s = .next (traced.foldl (fun t p =>
          let st := p.2
          let stamp := if st.det then st.scyc % 2 ^ 64 else s.dev.devtime.toNat % 2 ^ 63 + 2 ^ 63
          ([(0, st.c.ended, st.c.seqno, st.c.pc), (1, st.l.ended, st.l.seqno, st.l.pc), (2, st.xs.ended, st.xs.seqno, st.xs.pc),
              (3, st.ss.ended, st.ss.seqno, st.ss.pc)].filter (fun q => !q.2.1)).foldl (fun t q =>
            toRing t ⟨.trace, fn, leBytes 32 (7 + 2 ^ 8 * q.1 + 2 ^ 16 * (p.1 / 2) + 2 ^ 64 * stamp +
              2 ^ 128 * (q.2.2.1 % 2 ^ 64) + 2 ^ 192 * q.2.2.2.toNat)⟩) t) s)))

/-- R68, R386, R389, R398: host writes of registers. QCTL takes EN only with LOGSZ from 4 to 16 and keeps LOGSZ while EN
reads 1, as QBASE keeps its value; PWRCTL is clamped; a write over the wrong link is Unsupported Request; a write of an
offset that the table does not list, or that a virtual function may not reach, is ignored. That an EN with an illegal LOGSZ
leaves the whole QCTL as it is, and that the other fields are taken while EN reads 1, is the model's reading (log entry 42). -/
def Obligations.HostRegisterWrites : Prop :=
  ∀ (s : State) (n : BitVec 8) (v : BitVec 32) (w : Word) (link : BitVec 1) (fn : BitVec 4) (off : Nat),
    let cell (t : State) (k : Nat) : BitVec 32 := cellGet 0 t.dev.qctl k
    let bar := Instr.registerWrite link fn off w
    let mine : Bool := s.dev.linkmap.getLsbD fn.toNat == link.getLsbD 0
    (v.getLsbD 31 = true → bitsOf v.toNat 24 5 < 4 ∨ 16 < bitsOf v.toNat 24 5 → exec (.qctlWrite n v) s = .next s) ∧
    (v.getLsbD 31 = false ∨ (4 ≤ bitsOf v.toNat 24 5 ∧ bitsOf v.toNat 24 5 ≤ 16) →
      ∃ t, exec (.qctlWrite n v) s = .next t ∧ { t with dev := { t.dev with qctl := s.dev.qctl } } = s ∧
        (∀ k, k ≠ n.toNat → cell t k = cell s k) ∧
        (queueEn s.dev n.toNat = false → cell t n.toNat = v &&& 0x9FF0FFFF) ∧
        (queueEn s.dev n.toNat = true →
          cell t n.toNat = v &&& 0x80F0FFFF ||| (cell s n.toNat &&& 0x1F000000))) ∧
    (queueEn s.dev n.toNat = true → exec (.qbaseWrite n w) s = .next s) ∧
    (queueEn s.dev n.toNat = false → ∃ t, exec (.qbaseWrite n w) s = .next t ∧
      { t with dev := { t.dev with qbase := s.dev.qbase } } = s ∧
      queueBase t.dev n.toNat = w.toNat / 128 * 128 ∧
      ∀ k, k ≠ n.toNat → queueBase t.dev k = queueBase s.dev k) ∧
    (exec (.pwrctlWrite v) s = .next (s.setDev { s.dev with
      pwrctl := BitVec.ofNat 32 (max 600 (min (v.toNat % 2 ^ 12) 2400)) })) ∧
    (mine = false → exec bar s = .next (s.send .unsupported)) ∧
    (mine = true →
      (off % 8 ≠ 0 → exec bar s = .next s) ∧
      (fn ≠ 0 → 0x1000 ≤ off → exec bar s = .next s) ∧
      (fn ≠ 0 → off = 0x0018 → exec bar s = .next s) ∧
      (off = 0x0000 ∨ off = 0x0008 ∨ 0x0020 ≤ off ∧ off < 0x0060 → exec bar s = .next s) ∧
      (0x0060 ≤ off ∧ off < 0x0100 ∨ 0x0120 ≤ off ∧ off < 0x1000 ∨ 0x2058 ≤ off ∧ off < 0x2060 ∨
        0x20E0 ≤ off ∧ off < 0x2100 ∨ 0x2380 ≤ off ∧ off < 0x3000 ∨ 0x4000 ≤ off → exec bar s = .next s) ∧
      (off = 0x0100 → ∃ t, exec bar s = .next t ∧ { t with dev := { t.dev with fltbase := s.dev.fltbase } } = s ∧
        ∀ f (h : f < 16), t.dev.fltbase[f] = if f = fn.toNat then w &&& ~~~127 else s.dev.fltbase[f]) ∧
      (fn = 0 →
        (off = 0x2000 → exec bar s = .next (s.setDev { s.dev with lseed := if w = 0 then 1 else w })) ∧
        (off = 0x2040 → exec bar s = exec (.killStrand (w.setWidth 32)) s) ∧
        (off = 0x2038 → exec bar s = exec (.swapreq (w.setWidth 32)) s) ∧
        (off = 0x2020 → exec bar s = exec (.ivctlGo (w.setWidth 32)) s) ∧
        (off = 0x2100 → ∃ t, exec bar s = .next t ∧ t.dev.ptbase[0] = w &&& ~~~0x7FF)))

/-- R364, R374, R386 to R389, R391, R92: accesses of the host, which meet no error or, in the case of a read, one whose retry
succeeds, logged as SOFT_ECC: a register of BAR0 is read; through BAR2 the bytes of the addressed
HBM rows are read or written in order, one AtomicOp combines eight bytes, what cannot be translated is Unsupported
Request with an ADDRESS record, what comes over the wrong link is Unsupported Request, an untrained stack holds it and
what follows it of the same function, and of writes every later write, until the stack is trained, and during a stop writes
are dropped and counted and an AtomicOp is refused. The request lies in one row. That what follows of the same function is
held too, that a read during a stop is served whatever is held, and that a page on the host or a peer counts as
untranslated are the model's reading (log entry 41). That the event of a host read stands in the log of the function it reaches,
with SEQ 4, is the model's choice (log entries 16 and 45). -/
def Obligations.HostAccessesReachMemory : Prop :=
  ∀ (s : State) (link : BitVec 1) (fn : BitVec 4) (off n : Nat) (bytes : List Byte) (op : HostAtomic) (v x : Word),
    let a := (s.dev.hwin[fn.toNat].toNat + off) % 2 ^ 64
    let mine : Bool := s.dev.linkmap.getLsbD fn.toNat == link.getLsbD 0
    let drops := s.setDev { s.dev with chryctl :=
      (s.dev.chryctl &&& 0xFFFF0000) + BitVec.ofNat 32 (min (s.dev.chryctl.toNat % 2 ^ 16 + 1) 65535) }
    let alone : Prop := ∀ j ∈ s.dev.outer, outerSource j ≠ some (false, fn.toNat)
    let noWrite : Prop := ∀ l f o b, Instr.hostWrite l f o b ∉ s.dev.outer
    let held (i : Instr) : Out := .next (s.setDev { s.dev with outer := s.dev.outer ++ [i] })
    let reads (v : Word) : Prop := ∀ m, m ≤ 8 → exec (.hostRead link fn (.reg off) m) s =
      .next (s.send (.readDone ((leBytes 8 v.toNat).take m)))
    (mine = false → (∀ place, exec (.hostRead link fn place n) s = .next (s.send .unsupported)) ∧
      exec (.hostWrite link fn off bytes) s = .next (s.send .unsupported) ∧
      exec (.hostAtomicop link fn op off v x) s = .next (s.send .unsupported)) ∧
    (mine = true → s.dev.stopped = true → exec (.hostWrite link fn off bytes) s = .next drops ∧
      exec (.hostAtomicop link fn op off v x) s = .next (drops.send .abort)) ∧
    (mine = true → (off = 0x0008 → reads s.dev.devtime) ∧ (off = 0x0118 → reads 0) ∧
      (off = 0x0100 → reads s.dev.fltbase[fn.toNat]) ∧ (fn ≠ 0 → 0x1000 ≤ off → reads 0) ∧
      (fn = 0 → off = 0x2000 → reads s.dev.lseed) ∧ (fn = 0 → off = 0x2100 → reads s.dev.ptbase[0])) ∧
    (∀ k, mine = true → s.health = .clean → s.dev.stopped = true ∨ alone → outerKey s fn.toNat a false = .ok k → 0 < n →
      a % 128 + n ≤ 128 → exec (.hostRead link fn (.mem off) n) s = .next (s.send (.readDone (readBytes s.mem k n)))) ∧
    (∀ k, mine = true → s.health = .softEcc → s.dev.stopped = true ∨ alone → outerKey s fn.toNat a false = .ok k → 0 < n →
      a % 128 + n ≤ 128 → ringBase s .fault fn.toNat = 0 → ∃ t bits, exec (.hostRead link fn (.mem off) n) s = .next t ∧
        t = { s with health := .clean, records := (fn.toNat, bits) :: s.records,
                     outbox := s.outbox ++ [.readDone (readBytes s.mem k n)] } ∧
        bits.extractLsb' 0 8 = 27#8 ∧ bits.extractLsb' 16 8 = 4#8 ∧ bits.extractLsb' 24 8 = 8#8) ∧
    (∀ k, mine = true → s.health = .clean → s.dev.stopped = false → alone → outerKey s fn.toNat a true = .ok k →
      (noWrite → 0 < bytes.length → a % 128 + bytes.length ≤ 128 → ∃ t, exec (.hostWrite link fn off bytes) s = .next t ∧
        { t with mem := s.mem } = s ∧ MemSameOutside s t k bytes.length ∧ readBytes t.mem k bytes.length = bytes) ∧
      (let old := readNat s.mem (k / 8 * 8) 8
       ∃ t, exec (.hostAtomicop link fn op off v x) s = .next t ∧
        { t with mem := s.mem, outbox := s.outbox } = s ∧ t.outbox = s.outbox ++ [.atomicDone (BitVec.ofNat 64 old)] ∧
        MemSameOutside s t (k / 8 * 8) 8 ∧ readNat t.mem (k / 8 * 8) 8 = (match op with
          | .fetchAdd => (old + v.toNat) % 2 ^ 64
          | .swap => v.toNat
          | .cas => if old = x.toNat then v.toNat else old))) ∧
    (∀ r, mine = true → s.dev.stopped = false → alone → ringBase s .fault fn.toNat = 0 → 0 < n → a % 128 + n ≤ 128 →
      0 < bytes.length → a % 128 + bytes.length ≤ 128 →
      (outerKey s fn.toNat a false = .error (.raise r) → ∃ t bits, exec (.hostRead link fn (.mem off) n) s = .next t ∧
        t = { s with records := (fn.toNat, bits) :: s.records, outbox := s.outbox ++ [.unsupported] } ∧
        bits.extractLsb' 0 8 = 6#8 ∧ bits.extractLsb' 16 8 = 4#8) ∧
      (noWrite → outerKey s fn.toNat a true = .error (.raise r) → ∃ t bits, exec (.hostWrite link fn off bytes) s = .next t ∧
        t = { s with records := (fn.toNat, bits) :: s.records } ∧ bits.extractLsb' 0 8 = 6#8)) ∧
    (mine = true → s.dev.stopped = false → 0 < n → a % 128 + n ≤ 128 → 0 < bytes.length → a % 128 + bytes.length ≤ 128 →
      (¬alone ∨ outerKey s fn.toNat a false = .error .hold →
        exec (.hostRead link fn (.mem off) n) s = held (.hostRead link fn (.mem off) n)) ∧
      (¬alone ∨ ¬noWrite ∨ outerKey s fn.toNat a true = .error .hold →
        exec (.hostWrite link fn off bytes) s = held (.hostWrite link fn off bytes)) ∧
      (¬alone ∨ outerKey s fn.toNat a true = .error .hold →
        exec (.hostAtomicop link fn op off v x) s = held (.hostAtomicop link fn op off v x))) ∧
    (∀ (h : BitVec 3) (failed : BitVec 128) k, s.dev.outer = [.hostWrite link fn off bytes] → s.dev.ringQueue = [] →
      s.dev.statuses = [] → s.dev.ivpending = [] → s.health = .clean → 0 < bytes.length → a % 128 + bytes.length ≤ 128 →
      outerKey (setReady s (5 + h.toNat) true) fn.toNat a true = .ok k →
      ∃ t, exec (.partReady (.hbm h) failed) s = .next t ∧ t.dev.outer = [] ∧ t.strands = s.strands ∧
        MemSameOutside s t k bytes.length ∧ readBytes t.mem k bytes.length = bytes)

/-- R107, R393, R395, R82, R391: a peer's access is served in the space of the function that PEERFN names, or refused; a
port that trains sets its READY bit, sends a beacon with the device's own DEVTIME, and sets DEVTIME to the later time; one
that goes down clears it, loses the gangs that have a partner there, and the requests that await it fail with PEER_DOWN.
PEER_DOWN for a load already outstanding is the model's reading (log entry 24), and so is that a page on the host or
another peer is refused (log entry 41). -/
def Obligations.PeersAreServed : Prop :=
  ∀ (s : State) (port : BitVec 3) (va : Word) (op : PeerOp) (devtime delay : Word),
    let fn := bitsOf s.dev.peerfn.toNat (4 * port.toNat) 4
    let up := s.dev.ready.getLsbD (15 + port.toNat)
    let alone : Prop := ∀ j ∈ s.dev.outer, outerSource j ≠ some (true, port.toNat)
    (s.dev.stopped = true ∨ up = false → exec (.peerAccess port va op) s = .next s) ∧
    (∀ k, s.dev.stopped = false → up = true → alone →
      (s.health = .clean → outerKey s fn va.toNat false = .ok k → exec (.peerAccess port va .read) s =
        .next (s.send (.peerDone port.toNat (some (readRow s.mem k))))) ∧
      (∀ row mask, s.health = .clean → outerKey s fn va.toNat true = .ok k → ∃ t, exec (.peerAccess port va (.write row mask)) s = .next t ∧
        { t with mem := s.mem } = s ∧ MemSameOutside s t (rowOf k) 128 ∧
        ∀ j, j < 128 → readByte t.mem (rowOf k + j) =
          if mask.getLsbD j then row.extractLsb' (8 * j) 8 else readByte s.mem (rowOf k + j)) ∧
      (∀ v x, s.health = .clean → outerKey s fn va.toNat true = .ok k →
        let old := readNat s.mem (k / 8 * 8) 8
        ∃ t, exec (.peerAccess port va (.atomic 0 v x)) s = .next t ∧ MemSameOutside s t (k / 8 * 8) 8 ∧
          readNat t.mem (k / 8 * 8) 8 = (old + v.toNat) % 2 ^ 64 ∧ t.dev = s.dev ∧ t.strands = s.strands ∧
          t.outbox = s.outbox ++ [.peerDone port.toNat (some (BitVec.ofNat 1024 old))]) ∧
      (∀ r, outerKey s fn va.toNat (PeerOp.writes op) = .error (.raise r) → exec (.peerAccess port va op) s =
        .next (s.send (.peerDone port.toNat none))) ∧
      (outerKey s fn va.toNat (PeerOp.writes op) = .error .hold → exec (.peerAccess port va op) s =
        .next (s.setDev { s.dev with outer := s.dev.outer ++ [.peerAccess port va op] }))) ∧
    (∃ t, exec (.peerPortTrain port devtime delay) s = .next t ∧
      { t with dev := { t.dev with ready := s.dev.ready, devtime := s.dev.devtime }, outbox := s.outbox } = s ∧
      t.outbox = s.outbox ++ [.beacon port.toNat s.dev.devtime] ∧
      (∀ j, t.dev.ready.getLsbD j = (s.dev.ready.getLsbD j || j == 15 + port.toNat)) ∧
      t.dev.devtime.toNat = max s.dev.devtime.toNat (min (devtime.toNat + delay.toNat) (2 ^ 64 - 1))) ∧
    ((∀ p ∈ s.dev.launches, ¬(p.2.gang = .committed ∧ (pkPorts p.2.packet).testBit port.toNat = true)) →
      (s.dev.far = [] → ∃ t, exec (.peerPortDown port) s = .next t ∧
        { t with dev := { t.dev with ready := s.dev.ready } } = s ∧
        ∀ j, t.dev.ready.getLsbD j = (s.dev.ready.getLsbD j && j != 15 + port.toNat)) ∧
      (∀ f key st, s.dev.far = [f] → f.port = some port.toNat → findUid s f.uid = some (key, st) →
        st.c.wait = .answer f.lead → (∃ xd b, f.use = .load xd b) → ∃ s1, exec (.peerPortDown port) s =
          .next (takeFault s1 key st ⟨.peerDown, .a, 0⟩) ∧ s1.dev.far = [] ∧ s1.strands = s.strands ∧ s1.mem = s.mem ∧
          s1.dev.ready.getLsbD (15 + port.toNat) = false)) ∧
    (∀ lid l, s.dev.launches.find? lid = some l → s.dev.far = [] →
      s.dev.launches.filter (fun p => p.2.gang = .committed && (pkPorts p.2.packet).testBit port.toNat) = [(lid, l)] →
      ∃ t, exec (.peerPortDown port) s = .next t ∧ t.dev.launches.find? lid = some { l with gang := .lost } ∧
        ∀ k st, s.strands.find? k = some st → t.strands.find? k = some (if st.launch = lid then
          { st with pendingFaults := st.pendingFaults ++ [(⟨.gangLost, .none, 0⟩, 0)] } else st))

/-- R337, R390 to R392, R395, R397, R398: reset puts every register at its reset value, empties strands, launches, sets and
requests (the model's choice, log entry 7) and keeps memory (log entry 4); a part that is ready sets its READY bit, a die
with its failed tiles, and a peer port trains; the power controller lowers the clock above the cap or at 95 °C and shows
itself in DEVSTAT; 105 °C stops the clocks for good (the model's fault, log entry 43); the cooling flag follows the
coolant. -/
def Obligations.ModuleEvents : Prop :=
  ∀ (s : State) (part : Part) (failed : BitVec 128) (outside : Bool) (dies hbm rest : BitVec 8) (power : BitVec 12),
    let temp := max dies.toNat (max hbm.toNat rest.toNat)
    (∃ t, exec .reset s = .next t ∧ t.mem = s.mem ∧ t.strands = [] ∧ t.tiles = [] ∧ t.planner = Planner.reset ∧
      t.dev = { Device.reset with nextUid := s.dev.nextUid, nextId := s.dev.nextId, nextLaunch := s.dev.nextLaunch,
                                  nextTag := s.dev.nextTag }) ∧
    (∀ p devtime delay, part = .peer p devtime delay →
      exec (.partReady part failed) s = exec (.peerPortTrain p devtime delay) s) ∧
    (s.dev.ivpending = [] → s.dev.ringQueue = [] → s.dev.statuses = [] → s.dev.outer = [] →
      (∀ p devtime delay, part ≠ .peer p devtime delay) → ∃ t, exec (.partReady part failed) s = .next t ∧
      { t with dev := { t.dev with ready := s.dev.ready, tilefail := s.dev.tilefail } } = s ∧
      (∀ j, t.dev.ready.getLsbD j = (s.dev.ready.getLsbD j || j == Part.bit part)) ∧
      (∀ d, part = .die d → s.dev.ready.getLsbD d.toNat = false →
        ∀ j, t.dev.failed j = if j / 128 = d.toNat then failed.getLsbD (j % 128) else s.dev.failed j)) ∧
    (105 ≤ temp → ∃ t, exec (.powerThrottle dies hbm rest power) s = .next t ∧ t.dev.shutdown = true ∧
      t.dev.ready.getLsbD 13 = false ∧ t.dev.ready.getLsbD 14 = false ∧ t.mem = s.mem) ∧
    (temp < 105 → ∃ t, exec (.powerThrottle dies hbm rest power) s = .next t ∧
      { t with dev := { t.dev with devstat := s.dev.devstat } } = s ∧
      (t.dev.devstat.getLsbD 31 = true ↔ 95 ≤ temp ∨ s.dev.pwrctl.toNat % 2 ^ 12 < power.toNat) ∧
      (t.dev.devstat.getLsbD 30 = true ↔ 95 ≤ temp) ∧ (t.dev.devstat.extractLsb' 12 8).toNat = temp ∧
      t.dev.devstat.extractLsb' 0 12 = power ∧
      ∀ j, j = 28 ∨ j = 29 → t.dev.devstat.getLsbD j = s.dev.devstat.getLsbD j) ∧
    (∃ t, exec (.coolantEnvelopeChange outside) s = .next t ∧
      { t with dev := { t.dev with devstat := s.dev.devstat } } = s ∧
      ∀ j, t.dev.devstat.getLsbD j = if j = 29 then outside else s.dev.devstat.getLsbD j) ∧
    (∃ t, exec .thermalShutdown s = .next t ∧ t.dev.shutdown = true ∧ t.dev.ready.getLsbD 13 = false ∧
      t.dev.ready.getLsbD 14 = false ∧ t.mem = s.mem ∧
      (∀ rest, t.agenda = rest → rest.head? ≠ some (.event .reset) → step t = .fault .shutdown))
end

