-- ==== Sys2Proof/Laws/Cells.lean ====
section
/-! SUPPORT. Laws of maps and cells: read after write, and that every update keeps the one form. -/

namespace Sys2Proof.Machine

variable {α : Type}

@[simp] theorem PMap.find?_insert_self (m : PMap α) (k : Nat) (v : α) : (m.insert k v).find? k = some v := by
  induction m with
  | nil => simp [PMap.insert, PMap.find?]
  | cons p r ih =>
    obtain ⟨j, w⟩ := p
    simp only [PMap.insert]
    split
    · simp [PMap.find?]
    · split
      · simp [PMap.find?]
      · rw [PMap.find?, if_neg (by omega), ih]

theorem PMap.find?_insert_of_ne (m : PMap α) {k l : Nat} (v : α) (h : l ≠ k) :
    (m.insert k v).find? l = m.find? l := by
  induction m with
  | nil => simp [PMap.insert, PMap.find?, Ne.symm h]
  | cons p r ih =>
    obtain ⟨j, w⟩ := p
    simp only [PMap.insert]
    split
    · rw [PMap.find?, if_neg (Ne.symm h)]
    · split
      · subst_vars; rw [PMap.find?, PMap.find?, if_neg (Ne.symm h), if_neg (Ne.symm h)]
      · rw [PMap.find?, PMap.find?, ih]

@[simp] theorem PMap.find?_erase_self (m : PMap α) (k : Nat) : (m.erase k).find? k = none := by
  induction m with
  | nil => rfl
  | cons p r ih =>
    obtain ⟨j, w⟩ := p
    simp only [PMap.erase]
    split
    · exact ih
    · rw [PMap.find?, if_neg ‹_›, ih]

theorem PMap.find?_erase_of_ne (m : PMap α) {k l : Nat} (h : l ≠ k) : (m.erase k).find? l = m.find? l := by
  induction m with
  | nil => rfl
  | cons p r ih =>
    obtain ⟨j, w⟩ := p
    simp only [PMap.erase]
    split
    · subst_vars; rw [ih, PMap.find?, if_neg (Ne.symm h)]
    · rw [PMap.find?, PMap.find?, ih]

@[simp] theorem PMap.insert_insert (m : PMap α) (k : Nat) (v w : α) : (m.insert k v).insert k w = m.insert k w := by
  induction m with
  | nil => simp [PMap.insert]
  | cons p r ih =>
    obtain ⟨j, u⟩ := p
    simp only [PMap.insert]
    split
    · simp [PMap.insert]
    · split
      · simp [PMap.insert]
      · rw [PMap.insert, if_neg ‹_›, if_neg ‹_›, ih]

theorem PMap.risingFrom_mono (m : PMap α) {a b : Nat} (h : a ≤ b) (hm : PMap.risingFrom b m = true) :
    PMap.risingFrom a m = true := by
  cases m with
  | nil => rfl
  | cons p r =>
    obtain ⟨j, w⟩ := p
    simp only [PMap.risingFrom, Bool.and_eq_true, decide_eq_true_eq] at hm ⊢
    exact ⟨by omega, hm.2⟩

theorem PMap.risingFrom_insert (m : PMap α) (k : Nat) (v : α) {lo : Nat} (hlo : lo ≤ k)
    (hm : PMap.risingFrom lo m = true) : PMap.risingFrom lo (m.insert k v) = true := by
  induction m generalizing lo with
  | nil => simp [PMap.insert, PMap.risingFrom, hlo]
  | cons p r ih =>
    obtain ⟨j, w⟩ := p
    simp only [PMap.risingFrom, Bool.and_eq_true, decide_eq_true_eq] at hm
    simp only [PMap.insert]
    split
    · simp only [PMap.risingFrom, Bool.and_eq_true, decide_eq_true_eq]
      exact ⟨hlo, by omega, hm.2⟩
    · split
      · subst_vars
        simpa [PMap.risingFrom] using hm
      · simp only [PMap.risingFrom, Bool.and_eq_true, decide_eq_true_eq]
        exact ⟨hm.1, ih (by omega) hm.2⟩

theorem PMap.risingFrom_erase (m : PMap α) (k : Nat) {lo : Nat} (hm : PMap.risingFrom lo m = true) :
    PMap.risingFrom lo (m.erase k) = true := by
  induction m generalizing lo with
  | nil => rfl
  | cons p r ih =>
    obtain ⟨j, w⟩ := p
    simp only [PMap.risingFrom, Bool.and_eq_true, decide_eq_true_eq] at hm
    simp only [PMap.erase]
    split
    · exact PMap.risingFrom_mono _ (by omega) (ih hm.2)
    · simp only [PMap.risingFrom, Bool.and_eq_true, decide_eq_true_eq]
      exact ⟨hm.1, ih hm.2⟩

theorem PMap.wf_insert (m : PMap α) (k : Nat) (v : α) (hm : m.wf = true) : (m.insert k v).wf = true :=
  m.risingFrom_insert k v (Nat.zero_le _) hm

theorem PMap.wf_erase (m : PMap α) (k : Nat) (hm : m.wf = true) : (m.erase k).wf = true := m.risingFrom_erase k hm

theorem PMap.mem_insert (m : PMap α) (k : Nat) (v : α) {p : Nat × α} (h : p ∈ m.insert k v) :
    p = (k, v) ∨ p ∈ m := by
  induction m with
  | nil => simpa [PMap.insert] using h
  | cons q r ih =>
    obtain ⟨j, w⟩ := q
    simp only [PMap.insert] at h
    split at h
    · simpa using h
    · split at h
      · simp only [List.mem_cons] at h ⊢
        rcases h with h | h <;> simp [h]
      · simp only [List.mem_cons] at h ⊢
        rcases h with h | h
        · simp [h]
        · rcases ih h with h | h <;> simp [h]

theorem PMap.mem_erase (m : PMap α) (k : Nat) {p : Nat × α} (h : p ∈ m.erase k) : p ∈ m := by
  induction m with
  | nil => exact h
  | cons q r ih =>
    obtain ⟨j, w⟩ := q
    simp only [PMap.erase] at h
    split at h
    · exact List.mem_cons_of_mem _ (ih h)
    · simp only [List.mem_cons] at h ⊢
      rcases h with h | h
      · exact .inl h
      · exact .inr (ih h)

variable [DecidableEq α]

@[simp] theorem cellGet_cellSet_self (d : α) (m : PMap α) (k : Nat) (v : α) :
    cellGet d (cellSet d m k v) k = v := by
  unfold cellGet cellSet
  split
  · simp_all
  · simp

theorem cellGet_cellSet_of_ne (d : α) (m : PMap α) {k l : Nat} (v : α) (h : l ≠ k) :
    cellGet d (cellSet d m k v) l = cellGet d m l := by
  unfold cellGet cellSet
  split
  · rw [m.find?_erase_of_ne h]
  · rw [m.find?_insert_of_ne v h]

/-- Writing a cell keeps the one form. -/
theorem cellsWf_cellSet (d : α) (m : PMap α) (k : Nat) (v : α) (hm : cellsWf d m = true) :
    cellsWf d (cellSet d m k v) = true := by
  simp only [cellsWf, Bool.and_eq_true, List.all_eq_true, decide_eq_true_eq] at hm ⊢
  unfold cellSet
  split
  · exact ⟨m.wf_erase k hm.1, fun p hp => hm.2 p (m.mem_erase k hp)⟩
  · refine ⟨m.wf_insert k v hm.1, fun p hp => ?_⟩
    rcases m.mem_insert k v hp with rfl | h
    · assumption
    · exact hm.2 p h

end Sys2Proof.Machine
end

