-- ==== Sys2Proof/Laws/Exec.lean ====
section
/-! SUPPORT. The meaning of each instruction, one lemma for each arm, so that no proof unfolds the whole case split. -/

namespace Sys2Proof.Machine

@[simp] theorem exec_add (xd xa xb : Reg) (s : State) :
    exec (.add xd xa xb) s = execAdd xd xa xb s := rfl
@[simp] theorem exec_sub (xd xa xb : Reg) (s : State) :
    exec (.sub xd xa xb) s = execSub xd xa xb s := rfl
@[simp] theorem exec_adds (xd xa xb : Reg) (s : State) :
    exec (.adds xd xa xb) s = execAdds xd xa xb s := rfl
@[simp] theorem exec_subs (xd xa xb : Reg) (s : State) :
    exec (.subs xd xa xb) s = execSubs xd xa xb s := rfl
@[simp] theorem exec_mul (xd xa xb : Reg) (s : State) :
    exec (.mul xd xa xb) s = execMul xd xa xb s := rfl
@[simp] theorem exec_mulh (xd xa xb : Reg) (s : State) :
    exec (.mulh xd xa xb) s = execMulh xd xa xb s := rfl
@[simp] theorem exec_mulhu (xd xa xb : Reg) (s : State) :
    exec (.mulhu xd xa xb) s = execMulhu xd xa xb s := rfl
@[simp] theorem exec_div (xd xa xb : Reg) (s : State) :
    exec (.div xd xa xb) s = execDiv xd xa xb s := rfl
@[simp] theorem exec_divu (xd xa xb : Reg) (s : State) :
    exec (.divu xd xa xb) s = execDivu xd xa xb s := rfl
@[simp] theorem exec_rem (xd xa xb : Reg) (s : State) :
    exec (.rem xd xa xb) s = execRem xd xa xb s := rfl
@[simp] theorem exec_remu (xd xa xb : Reg) (s : State) :
    exec (.remu xd xa xb) s = execRemu xd xa xb s := rfl
@[simp] theorem exec_and (xd xa xb : Reg) (s : State) :
    exec (.and xd xa xb) s = execAnd xd xa xb s := rfl
@[simp] theorem exec_or (xd xa xb : Reg) (s : State) :
    exec (.or xd xa xb) s = execOr xd xa xb s := rfl
@[simp] theorem exec_xor (xd xa xb : Reg) (s : State) :
    exec (.xor xd xa xb) s = execXor xd xa xb s := rfl
@[simp] theorem exec_sll (xd xa xb : Reg) (s : State) :
    exec (.sll xd xa xb) s = execSll xd xa xb s := rfl
@[simp] theorem exec_srl (xd xa xb : Reg) (s : State) :
    exec (.srl xd xa xb) s = execSrl xd xa xb s := rfl
@[simp] theorem exec_sra (xd xa xb : Reg) (s : State) :
    exec (.sra xd xa xb) s = execSra xd xa xb s := rfl
@[simp] theorem exec_min (xd xa xb : Reg) (s : State) :
    exec (.min xd xa xb) s = execMin xd xa xb s := rfl
@[simp] theorem exec_max (xd xa xb : Reg) (s : State) :
    exec (.max xd xa xb) s = execMax xd xa xb s := rfl
@[simp] theorem exec_minu (xd xa xb : Reg) (s : State) :
    exec (.minu xd xa xb) s = execMinu xd xa xb s := rfl
@[simp] theorem exec_maxu (xd xa xb : Reg) (s : State) :
    exec (.maxu xd xa xb) s = execMaxu xd xa xb s := rfl
@[simp] theorem exec_slt (xd xa xb : Reg) (s : State) :
    exec (.slt xd xa xb) s = execSlt xd xa xb s := rfl
@[simp] theorem exec_sltu (xd xa xb : Reg) (s : State) :
    exec (.sltu xd xa xb) s = execSltu xd xa xb s := rfl
@[simp] theorem exec_addi (xd xa : Reg) (imm : BitVec 32) (s : State) :
    exec (.addi xd xa imm) s = execAddi xd xa imm s := rfl
@[simp] theorem exec_andi (xd xa : Reg) (imm : BitVec 32) (s : State) :
    exec (.andi xd xa imm) s = execAndi xd xa imm s := rfl
@[simp] theorem exec_ori (xd xa : Reg) (imm : BitVec 32) (s : State) :
    exec (.ori xd xa imm) s = execOri xd xa imm s := rfl
@[simp] theorem exec_xori (xd xa : Reg) (imm : BitVec 32) (s : State) :
    exec (.xori xd xa imm) s = execXori xd xa imm s := rfl
@[simp] theorem exec_slli (xd xa : Reg) (sh : BitVec 6) (s : State) :
    exec (.slli xd xa sh) s = execSlli xd xa sh s := rfl
@[simp] theorem exec_srli (xd xa : Reg) (sh : BitVec 6) (s : State) :
    exec (.srli xd xa sh) s = execSrli xd xa sh s := rfl
@[simp] theorem exec_srai (xd xa : Reg) (sh : BitVec 6) (s : State) :
    exec (.srai xd xa sh) s = execSrai xd xa sh s := rfl
@[simp] theorem exec_slti (xd xa : Reg) (imm : BitVec 32) (s : State) :
    exec (.slti xd xa imm) s = execSlti xd xa imm s := rfl
@[simp] theorem exec_movi (xd : Reg) (imm : BitVec 32) (s : State) :
    exec (.movi xd imm) s = execMovi xd imm s := rfl
@[simp] theorem exec_movhi (xd xa : Reg) (imm : BitVec 32) (s : State) :
    exec (.movhi xd xa imm) s = execMovhi xd xa imm s := rfl
@[simp] theorem exec_cvta (xd xa : Reg) (win : BitVec 2) (s : State) :
    exec (.cvta xd xa win) s = execCvta xd xa win s := rfl
@[simp] theorem exec_isap (xd xa : Reg) (win : BitVec 2) (s : State) :
    exec (.isap xd xa win) s = execIsap xd xa win s := rfl
@[simp] theorem exec_movb (bn : BitVec 5) (xa : Reg) (s : State) :
    exec (.movb bn xa) s = execMovb bn xa s := rfl
@[simp] theorem exec_movxb (xd : Reg) (bn : BitVec 5) (s : State) :
    exec (.movxb xd bn) s = execMovxb xd bn s := rfl
@[simp] theorem exec_pset (sn : BitVec 3) (xa : Reg) (s : State) :
    exec (.pset sn xa) s = execPset sn xa s := rfl
@[simp] theorem exec_pget (xd : Reg) (sn : BitVec 3) (s : State) :
    exec (.pget xd sn) s = execPget xd sn s := rfl
@[simp] theorem exec_beq (xa xb : Reg) (off : BitVec 38) (s : State) :
    exec (.beq xa xb off) s = execBeq xa xb off s := rfl
@[simp] theorem exec_bne (xa xb : Reg) (off : BitVec 38) (s : State) :
    exec (.bne xa xb off) s = execBne xa xb off s := rfl
@[simp] theorem exec_blt (xa xb : Reg) (off : BitVec 38) (s : State) :
    exec (.blt xa xb off) s = execBlt xa xb off s := rfl
@[simp] theorem exec_bge (xa xb : Reg) (off : BitVec 38) (s : State) :
    exec (.bge xa xb off) s = execBge xa xb off s := rfl
@[simp] theorem exec_bltu (xa xb : Reg) (off : BitVec 38) (s : State) :
    exec (.bltu xa xb off) s = execBltu xa xb off s := rfl
@[simp] theorem exec_bgeu (xa xb : Reg) (off : BitVec 38) (s : State) :
    exec (.bgeu xa xb off) s = execBgeu xa xb off s := rfl
@[simp] theorem exec_jmp (off : BitVec 38) (s : State) :
    exec (.jmp off) s = execJmp off s := rfl
@[simp] theorem exec_call (xd : Reg) (off : BitVec 38) (s : State) :
    exec (.call xd off) s = execCall xd off s := rfl
@[simp] theorem exec_jr (xd xa : Reg) (s : State) :
    exec (.jr xd xa) s = execJr xd xa s := rfl
@[simp] theorem exec_ld (xd xa : Reg) (scope : BitVec 3) (ord : BitVec 2) (off : BitVec 33) (s : State) :
    exec (.ld xd xa scope ord off) s = execLd xd xa scope ord off s := rfl
@[simp] theorem exec_st (xb xa : Reg) (scope : BitVec 3) (ord : BitVec 2) (off : BitVec 33) (s : State) :
    exec (.st xb xa scope ord off) s = execSt xb xa scope ord off s := rfl
@[simp] theorem exec_aadd (xd xa xb : Reg) (scope : BitVec 3) (ord : BitVec 2) (off : BitVec 33) (s : State) :
    exec (.aadd xd xa xb scope ord off) s = execAadd xd xa xb scope ord off s := rfl
@[simp] theorem exec_amin (xd xa xb : Reg) (scope : BitVec 3) (ord : BitVec 2) (off : BitVec 33) (s : State) :
    exec (.amin xd xa xb scope ord off) s = execAmin xd xa xb scope ord off s := rfl
@[simp] theorem exec_amax (xd xa xb : Reg) (scope : BitVec 3) (ord : BitVec 2) (off : BitVec 33) (s : State) :
    exec (.amax xd xa xb scope ord off) s = execAmax xd xa xb scope ord off s := rfl
@[simp] theorem exec_aminu (xd xa xb : Reg) (scope : BitVec 3) (ord : BitVec 2) (off : BitVec 33) (s : State) :
    exec (.aminu xd xa xb scope ord off) s = execAminu xd xa xb scope ord off s := rfl
@[simp] theorem exec_amaxu (xd xa xb : Reg) (scope : BitVec 3) (ord : BitVec 2) (off : BitVec 33) (s : State) :
    exec (.amaxu xd xa xb scope ord off) s = execAmaxu xd xa xb scope ord off s := rfl
@[simp] theorem exec_axchg (xd xa xb : Reg) (scope : BitVec 3) (ord : BitVec 2) (off : BitVec 33) (s : State) :
    exec (.axchg xd xa xb scope ord off) s = execAxchg xd xa xb scope ord off s := rfl
@[simp] theorem exec_acas (xd xa xb : Reg) (scope : BitVec 3) (ord : BitVec 2) (off : BitVec 33) (s : State) :
    exec (.acas xd xa xb scope ord off) s = execAcas xd xa xb scope ord off s := rfl
@[simp] theorem exec_afadd32 (xd xa xb : Reg) (scope : BitVec 3) (ord : BitVec 2) (off : BitVec 33) (s : State) :
    exec (.afadd32 xd xa xb scope ord off) s = execAfadd32 xd xa xb scope ord off s := rfl
@[simp] theorem exec_afadd16 (xd xa xb : Reg) (scope : BitVec 3) (ord : BitVec 2) (off : BitVec 33) (s : State) :
    exec (.afadd16 xd xa xb scope ord off) s = execAfadd16 xd xa xb scope ord off s := rfl
@[simp] theorem exec_atomicPerform (k : Nat) (s : State) :
    exec (.atomicPerform k) s = execAtomicPerform k s := rfl
@[simp] theorem exec_fence (scope : BitVec 3) (kind : BitVec 2) (s : State) :
    exec (.fence scope kind) s = execFence scope kind s := rfl
@[simp] theorem exec_join (xa : Reg) (imm : BitVec 16) (s : State) :
    exec (.join xa imm) s = execJoin xa imm s := rfl
@[simp] theorem exec_leave (xa : Reg) (imm : BitVec 16) (s : State) :
    exec (.leave xa imm) s = execLeave xa imm s := rfl
@[simp] theorem exec_sbar (xa : Reg) (imm : BitVec 16) (s : State) :
    exec (.sbar xa imm) s = execSbar xa imm s := rfl
@[simp] theorem exec_setRequestApply (k : Nat) (s : State) :
    exec (.setRequestApply k) s = execSetRequestApply k s := rfl
@[simp] theorem exec_setAnswerArrival (k : Nat) (s : State) :
    exec (.setAnswerArrival k) s = execSetAnswerArrival k s := rfl
@[simp] theorem exec_tlwait (xa : Reg) (ctr : BitVec 4) (s : State) :
    exec (.tlwait xa ctr) s = execTlwait xa ctr s := rfl
@[simp] theorem exec_tlread (xd : Reg) (ctr : BitVec 4) (cmp : BitVec 1) (s : State) :
    exec (.tlread xd ctr cmp) s = execTlread xd ctr cmp s := rfl
@[simp] theorem exec_drain (ch : BitVec 2) (s : State) :
    exec (.drain ch) s = execDrain ch s := rfl
@[simp] theorem exec_qpush (dst : BitVec 2) (s : State) :
    exec (.qpush dst) s = execQpush dst s := rfl
@[simp] theorem exec_qpop (src : BitVec 2) (s : State) :
    exec (.qpop src) s = execQpop src s := rfl
@[simp] theorem exec_csrr (xd : Reg) (csr : BitVec 16) (s : State) :
    exec (.csrr xd csr) s = execCsrr xd csr s := rfl
@[simp] theorem exec_csrw (xd xa : Reg) (csr : BitVec 16) (s : State) :
    exec (.csrw xd xa csr) s = execCsrw xd xa csr s := rfl
@[simp] theorem exec_csrs (xd xa : Reg) (csr : BitVec 16) (s : State) :
    exec (.csrs xd xa csr) s = execCsrs xd xa csr s := rfl
@[simp] theorem exec_csrc (xd xa : Reg) (csr : BitVec 16) (s : State) :
    exec (.csrc xd xa csr) s = execCsrc xd xa csr s := rfl
@[simp] theorem exec_cbld (cb : BitVec 2) (xa : Reg) (imm : BitVec 32) (s : State) :
    exec (.cbld cb xa imm) s = execCbld cb xa imm s := rfl
@[simp] theorem exec_launch (xd xa xc : Reg) (s : State) :
    exec (.launch xd xa xc) s = execLaunch xd xa xc s := rfl
@[simp] theorem exec_probe (xd xa xc : Reg) (w : BitVec 1) (s : State) :
    exec (.probe xd xa xc w) s = execProbe xd xa xc w s := rfl
@[simp] theorem exec_quiesce (s : State) :
    exec .quiesce s = execQuiesce s := rfl
@[simp] theorem exec_trap (imm : BitVec 32) (s : State) :
    exec (.trap imm) s = execTrap imm s := rfl
@[simp] theorem exec_tret (s : State) :
    exec .tret s = execTret s := rfl
@[simp] theorem exec_nop (s : State) :
    exec .nop s = execNop s := rfl
@[simp] theorem exec_endC (s : State) :
    exec .endC s = execEndC s := rfl
@[simp] theorem exec_tregReg (xd xa : Reg) (s : State) :
    exec (.tregReg xd xa) s = execTregReg xd xa s := rfl
@[simp] theorem exec_tregUpd (xd xa : Reg) (s : State) :
    exec (.tregUpd xd xa) s = execTregUpd xd xa s := rfl
@[simp] theorem exec_tregRst (xd xa : Reg) (s : State) :
    exec (.tregRst xd xa) s = execTregRst xd xa s := rfl
@[simp] theorem exec_tregDel (xd xa : Reg) (s : State) :
    exec (.tregDel xd xa) s = execTregDel xd xa s := rfl
@[simp] theorem exec_plan (xd xa xc : Reg) (hints : BitVec 4) (n : BitVec 16) (s : State) :
    exec (.plan xd xa xc hints n) s = execPlan xd xa xc hints n s := rfl
@[simp] theorem exec_phint (xd xa : Reg) (hints : BitVec 4) (s : State) :
    exec (.phint xd xa hints) s = execPhint xd xa hints s := rfl
@[simp] theorem exec_ppinOn (xa : Reg) (s : State) :
    exec (.ppinOn xa) s = execPpinOn xa s := rfl
@[simp] theorem exec_ppinOff (xa : Reg) (s : State) :
    exec (.ppinOff xa) s = execPpinOff xa s := rfl
@[simp] theorem exec_prun (xd xa xc : Reg) (s : State) :
    exec (.prun xd xa xc) s = execPrun xd xa xc s := rfl
@[simp] theorem exec_prel (xa : Reg) (s : State) :
    exec (.prel xa) s = execPrel xa s := rfl
@[simp] theorem exec_statrd (xd xa xc : Reg) (s : State) :
    exec (.statrd xd xa xc) s = execStatrd xd xa xc s := rfl
@[simp] theorem exec_pfpr (xd xa : Reg) (sel : BitVec 3) (s : State) :
    exec (.pfpr xd xa sel) s = execPfpr xd xa sel s := rfl
@[simp] theorem exec_planBreak (run : Nat) (s : State) :
    exec (.planBreak run) s = execPlanBreak run s := rfl
@[simp] theorem exec_atlasSampleApply (s : State) :
    exec .atlasSampleApply s = execAtlasSampleApply s := rfl
@[simp] theorem exec_copy (r : Rec) (s : State) :
    exec (.copy r) s = execCopy r s := rfl
@[simp] theorem exec_copyf (r : Rec) (s : State) :
    exec (.copyf r) s = execCopyf r s := rfl
@[simp] theorem exec_rld (r : Rec) (s : State) :
    exec (.rld r) s = execRld r s := rfl
@[simp] theorem exec_rst (r : Rec) (s : State) :
    exec (.rst r) s = execRst r s := rfl
@[simp] theorem exec_tld (r : Rec) (s : State) :
    exec (.tld r) s = execTld r s := rfl
@[simp] theorem exec_kld (r : Rec) (s : State) :
    exec (.kld r) s = execKld r s := rfl
@[simp] theorem exec_gather (r : Rec) (s : State) :
    exec (.gather r) s = execGather r s := rfl
@[simp] theorem exec_scatter (r : Rec) (s : State) :
    exec (.scatter r) s = execScatter r s := rfl
@[simp] theorem exec_rmerge (r : Rec) (s : State) :
    exec (.rmerge r) s = execRmerge r s := rfl
@[simp] theorem exec_bqpush (r : Rec) (s : State) :
    exec (.bqpush r) s = execBqpush r s := rfl
@[simp] theorem exec_rqld (r : Rec) (s : State) :
    exec (.rqld r) s = execRqld r s := rfl
@[simp] theorem exec_loop (r : Rec) (s : State) :
    exec (.loop r) s = execLoop r s := rfl
@[simp] theorem exec_loopq (r : Rec) (s : State) :
    exec (.loopq r) s = execLoopq r s := rfl
@[simp] theorem exec_endl (r : Rec) (s : State) :
    exec (.endl r) s = execEndl r s := rfl
@[simp] theorem exec_rot (r : Rec) (s : State) :
    exec (.rot r) s = execRot r s := rfl
@[simp] theorem exec_drainRec (r : Rec) (s : State) :
    exec (.drainRec r) s = execDrainRec r s := rfl
@[simp] theorem exec_tlwaitRec (r : Rec) (s : State) :
    exec (.tlwaitRec r) s = execTlwaitRec r s := rfl
@[simp] theorem exec_sync (r : Rec) (s : State) :
    exec (.sync r) s = execSync r s := rfl
@[simp] theorem exec_endRec (r : Rec) (s : State) :
    exec (.endRec r) s = execEndRec r s := rfl
@[simp] theorem exec_brq (r : Rec) (s : State) :
    exec (.brq r) s = execBrq r s := rfl
@[simp] theorem exec_runaheadResolution (tile : Nat) (s : State) :
    exec (.runaheadResolution tile) s = execRunaheadResolution tile s := rfl
@[simp] theorem exec_vadd (r : Rec) (s : State) :
    exec (.vadd r) s = execVadd r s := rfl
@[simp] theorem exec_vsub (r : Rec) (s : State) :
    exec (.vsub r) s = execVsub r s := rfl
@[simp] theorem exec_vmul (r : Rec) (s : State) :
    exec (.vmul r) s = execVmul r s := rfl
@[simp] theorem exec_vfma (r : Rec) (s : State) :
    exec (.vfma r) s = execVfma r s := rfl
@[simp] theorem exec_vdiv (r : Rec) (s : State) :
    exec (.vdiv r) s = execVdiv r s := rfl
@[simp] theorem exec_vmin (r : Rec) (s : State) :
    exec (.vmin r) s = execVmin r s := rfl
@[simp] theorem exec_vmax (r : Rec) (s : State) :
    exec (.vmax r) s = execVmax r s := rfl
@[simp] theorem exec_vabs (r : Rec) (s : State) :
    exec (.vabs r) s = execVabs r s := rfl
@[simp] theorem exec_vneg (r : Rec) (s : State) :
    exec (.vneg r) s = execVneg r s := rfl
@[simp] theorem exec_vexp (r : Rec) (s : State) :
    exec (.vexp r) s = execVexp r s := rfl
@[simp] theorem exec_vlog (r : Rec) (s : State) :
    exec (.vlog r) s = execVlog r s := rfl
@[simp] theorem exec_vrcp (r : Rec) (s : State) :
    exec (.vrcp r) s = execVrcp r s := rfl
@[simp] theorem exec_vrsq (r : Rec) (s : State) :
    exec (.vrsq r) s = execVrsq r s := rfl
@[simp] theorem exec_vtanh (r : Rec) (s : State) :
    exec (.vtanh r) s = execVtanh r s := rfl
@[simp] theorem exec_vsigm (r : Rec) (s : State) :
    exec (.vsigm r) s = execVsigm r s := rfl
@[simp] theorem exec_vcmp (r : Rec) (s : State) :
    exec (.vcmp r) s = execVcmp r s := rfl
@[simp] theorem exec_vsel (r : Rec) (s : State) :
    exec (.vsel r) s = execVsel r s := rfl
@[simp] theorem exec_vcvt (r : Rec) (s : State) :
    exec (.vcvt r) s = execVcvt r s := rfl
@[simp] theorem exec_vrsum (r : Rec) (s : State) :
    exec (.vrsum r) s = execVrsum r s := rfl
@[simp] theorem exec_vrmax (r : Rec) (s : State) :
    exec (.vrmax r) s = execVrmax r s := rfl
@[simp] theorem exec_vrmin (r : Rec) (s : State) :
    exec (.vrmin r) s = execVrmin r s := rfl
@[simp] theorem exec_vscan (r : Rec) (s : State) :
    exec (.vscan r) s = execVscan r s := rfl
@[simp] theorem exec_vtopk (r : Rec) (s : State) :
    exec (.vtopk r) s = execVtopk r s := rfl
@[simp] theorem exec_vdrop (r : Rec) (s : State) :
    exec (.vdrop r) s = execVdrop r s := rfl
@[simp] theorem exec_vand (r : Rec) (s : State) :
    exec (.vand r) s = execVand r s := rfl
@[simp] theorem exec_vor (r : Rec) (s : State) :
    exec (.vor r) s = execVor r s := rfl
@[simp] theorem exec_vxor (r : Rec) (s : State) :
    exec (.vxor r) s = execVxor r s := rfl
@[simp] theorem exec_vnot (r : Rec) (s : State) :
    exec (.vnot r) s = execVnot r s := rfl
@[simp] theorem exec_vshl (r : Rec) (s : State) :
    exec (.vshl r) s = execVshl r s := rfl
@[simp] theorem exec_vshr (r : Rec) (s : State) :
    exec (.vshr r) s = execVshr r s := rfl
@[simp] theorem exec_vband (r : Rec) (s : State) :
    exec (.vband r) s = execVband r s := rfl
@[simp] theorem exec_vpopc (r : Rec) (s : State) :
    exec (.vpopc r) s = execVpopc r s := rfl
@[simp] theorem exec_visect (r : Rec) (s : State) :
    exec (.visect r) s = execVisect r s := rfl
@[simp] theorem exec_vclmul (r : Rec) (s : State) :
    exec (.vclmul r) s = execVclmul r s := rfl
@[simp] theorem exec_vcomp (r : Rec) (s : State) :
    exec (.vcomp r) s = execVcomp r s := rfl
@[simp] theorem exec_vexpand (r : Rec) (s : State) :
    exec (.vexpand r) s = execVexpand r s := rfl
@[simp] theorem exec_vcopy (r : Rec) (s : State) :
    exec (.vcopy r) s = execVcopy r s := rfl
@[simp] theorem exec_vfill (r : Rec) (s : State) :
    exec (.vfill r) s = execVfill r s := rfl
@[simp] theorem exec_viota (r : Rec) (s : State) :
    exec (.viota r) s = execViota r s := rfl
@[simp] theorem exec_vsqrt (r : Rec) (s : State) :
    exec (.vsqrt r) s = execVsqrt r s := rfl
@[simp] theorem exec_mma (r : Rec) (s : State) :
    exec (.mma r) s = execMma r s := rfl
@[simp] theorem exec_mmanm (r : Rec) (s : State) :
    exec (.mmanm r) s = execMmanm r s := rfl
@[simp] theorem exec_mmacb (r : Rec) (s : State) :
    exec (.mmacb r) s = execMmacb r s := rfl
@[simp] theorem exec_mmag (r : Rec) (s : State) :
    exec (.mmag r) s = execMmag r s := rfl
@[simp] theorem exec_mmak (r : Rec) (s : State) :
    exec (.mmak r) s = execMmak r s := rfl
@[simp] theorem exec_azero (r : Rec) (s : State) :
    exec (.azero r) s = execAzero r s := rfl
@[simp] theorem exec_awrq (r : Rec) (s : State) :
    exec (.awrq r) s = execAwrq r s := rfl
@[simp] theorem exec_awrm (r : Rec) (s : State) :
    exec (.awrm r) s = execAwrm r s := rfl
@[simp] theorem exec_awrt (r : Rec) (s : State) :
    exec (.awrt r) s = execAwrt r s := rfl
@[simp] theorem exec_tlds (r : Rec) (s : State) :
    exec (.tlds r) s = execTlds r s := rfl
@[simp] theorem exec_tsts (r : Rec) (s : State) :
    exec (.tsts r) s = execTsts r s := rfl
@[simp] theorem exec_tqld (r : Rec) (s : State) :
    exec (.tqld r) s = execTqld r s := rfl
@[simp] theorem exec_tstq (r : Rec) (s : State) :
    exec (.tstq r) s = execTstq r s := rfl
@[simp] theorem exec_scommit (r : Rec) (s : State) :
    exec (.scommit r) s = execScommit r s := rfl
@[simp] theorem exec_sdiscard (r : Rec) (s : State) :
    exec (.sdiscard r) s = execSdiscard r s := rfl
@[simp] theorem exec_mnest (r : Rec) (s : State) :
    exec (.mnest r) s = execMnest r s := rfl
@[simp] theorem exec_scout (r : Rec) (s : State) :
    exec (.scout r) s = execScout r s := rfl
@[simp] theorem exec_thresh (r : Rec) (s : State) :
    exec (.thresh r) s = execThresh r s := rfl
@[simp] theorem exec_sreset (r : Rec) (s : State) :
    exec (.sreset r) s = execSreset r s := rfl
@[simp] theorem exec_hcfg (r : Rec) (s : State) :
    exec (.hcfg r) s = execHcfg r s := rfl
@[simp] theorem exec_hcfgRet (r : Rec) (s : State) :
    exec (.hcfgRet r) s = execHcfgRet r s := rfl
@[simp] theorem exec_hproj (r : Rec) (s : State) :
    exec (.hproj r) s = execHproj r s := rfl
@[simp] theorem exec_hreset (r : Rec) (s : State) :
    exec (.hreset r) s = execHreset r s := rfl
@[simp] theorem exec_kstore (r : Rec) (s : State) :
    exec (.kstore r) s = execKstore r s := rfl
@[simp] theorem exec_hgather (r : Rec) (s : State) :
    exec (.hgather r) s = execHgather r s := rfl
@[simp] theorem exec_hcount (r : Rec) (s : State) :
    exec (.hcount r) s = execHcount r s := rfl
@[simp] theorem exec_hawkmothLink (k : Nat) (s : State) :
    exec (.hawkmothLink k) s = execHawkmothLink k s := rfl
@[simp] theorem exec_chainRead (tile : Nat) (s : State) :
    exec (.chainRead tile) s = execChainRead tile s := rfl
@[simp] theorem exec_engineOperationComplete (tile : Nat) (eng : Nat) (health : Health) (s : State) :
    exec (.engineOperationComplete tile eng health) s = execEngineOperationComplete tile eng health s := rfl
@[simp] theorem exec_recordRetire (tile : Nat) (q : Seqr) (seqno : Nat) (s : State) :
    exec (.recordRetire tile q seqno) s = execRecordRetire tile q seqno s := rfl
@[simp] theorem exec_stallRelease (tile : Nat) (q : Seqr) (s : State) :
    exec (.stallRelease tile q) s = execStallRelease tile q s := rfl
@[simp] theorem exec_instructionFetchReturn (tile : Nat) (q : Seqr) (va : Word) (s : State) :
    exec (.instructionFetchReturn tile q va) s = execInstructionFetchReturn tile q va s := rfl
@[simp] theorem exec_lotteryDraw (s : State) :
    exec .lotteryDraw s = execLotteryDraw s := rfl
@[simp] theorem exec_armAck (gang : BitVec 32) (port : BitVec 3) (s : State) :
    exec (.armAck gang port) s = execArmAck gang port s := rfl
@[simp] theorem exec_gangDecision (launch : Nat) (s : State) :
    exec (.gangDecision launch) s = execGangDecision launch s := rfl
@[simp] theorem exec_dropMsg (gang : BitVec 32) (s : State) :
    exec (.dropMsg gang) s = execDropMsg gang s := rfl
@[simp] theorem exec_strandBind (die : BitVec 2) (s : State) :
    exec (.strandBind die) s = execStrandBind die s := rfl
@[simp] theorem exec_deterministicLaunchStart (launch : Nat) (s : State) :
    exec (.deterministicLaunchStart launch) s = execDeterministicLaunchStart launch s := rfl
@[simp] theorem exec_strandEnd (tile : Nat) (s : State) :
    exec (.strandEnd tile) s = execStrandEnd tile s := rfl
@[simp] theorem exec_launchPark (launch : Nat) (s : State) :
    exec (.launchPark launch) s = execLaunchPark launch s := rfl
@[simp] theorem exec_parkedResume (launch : Nat) (s : State) :
    exec (.parkedResume launch) s = execParkedResume launch s := rfl
@[simp] theorem exec_quantumExpiry (tile : Nat) (s : State) :
    exec (.quantumExpiry tile) s = execQuantumExpiry tile s := rfl
@[simp] theorem exec_swapreq (v : BitVec 32) (s : State) :
    exec (.swapreq v) s = execSwapreq v s := rfl
@[simp] theorem exec_swap (tile : Nat) (s : State) :
    exec (.swap tile) s = execSwap tile s := rfl
@[simp] theorem exec_watchdog (tile : Nat) (s : State) :
    exec (.watchdog tile) s = execWatchdog tile s := rfl
@[simp] theorem exec_impreciseFaultDelivery (tile : Nat) (s : State) :
    exec (.impreciseFaultDelivery tile) s = execImpreciseFaultDelivery tile s := rfl
@[simp] theorem exec_ivctlGo (v : BitVec 32) (s : State) :
    exec (.ivctlGo v) s = execIvctlGo v s := rfl
@[simp] theorem exec_quiesceTimeout (tile : Nat) (s : State) :
    exec (.quiesceTimeout tile) s = execQuiesceTimeout tile s := rfl
@[simp] theorem exec_prqack (via : Via) (own : Bool) (v : Word) (s : State) :
    exec (.prqack via own v) s = execPrqack via own v s := rfl
@[simp] theorem exec_killStrand (v : BitVec 32) (s : State) :
    exec (.killStrand v) s = execKillStrand v s := rfl
@[simp] theorem exec_killLaunch (v : BitVec 32) (s : State) :
    exec (.killLaunch v) s = execKillLaunch v s := rfl
@[simp] theorem exec_killDone (s : State) :
    exec .killDone s = execKillDone s := rfl
@[simp] theorem exec_breakpointResume (s : State) :
    exec .breakpointResume s = execBreakpointResume s := rfl
@[simp] theorem exec_chrysalisStopRequest (s : State) :
    exec .chrysalisStopRequest s = execChrysalisStopRequest s := rfl
@[simp] theorem exec_chrysalisStop (s : State) :
    exec .chrysalisStop s = execChrysalisStop s := rfl
@[simp] theorem exec_chrysalisResume (s : State) :
    exec .chrysalisResume s = execChrysalisResume s := rfl
@[simp] theorem exec_cocoonDump (s : State) :
    exec .cocoonDump s = execCocoonDump s := rfl
@[simp] theorem exec_cocoonDumpEnd (fate : DumpFate) (s : State) :
    exec (.cocoonDumpEnd fate) s = execCocoonDumpEnd fate s := rfl
@[simp] theorem exec_traceSample (s : State) :
    exec .traceSample s = execTraceSample s := rfl
@[simp] theorem exec_bcmClear (tile : Nat) (v : BitVec 32) (s : State) :
    exec (.bcmClear tile v) s = execBcmClear tile v s := rfl
@[simp] theorem exec_qctlWrite (n : BitVec 8) (v : BitVec 32) (s : State) :
    exec (.qctlWrite n v) s = execQctlWrite n v s := rfl
@[simp] theorem exec_qbaseWrite (n : BitVec 8) (v : Word) (s : State) :
    exec (.qbaseWrite n v) s = execQbaseWrite n v s := rfl
@[simp] theorem exec_pwrctlWrite (v : BitVec 32) (s : State) :
    exec (.pwrctlWrite v) s = execPwrctlWrite v s := rfl
@[simp] theorem exec_registerWrite (link : BitVec 1) (fn : BitVec 4) (off : Nat) (v : Word) (s : State) :
    exec (.registerWrite link fn off v) s = execRegisterWrite link fn off v s := rfl
@[simp] theorem exec_hostRead (link : BitVec 1) (fn : BitVec 4) (place : BarPlace) (n : Nat) (s : State) :
    exec (.hostRead link fn place n) s = execHostRead link fn place n s := rfl
@[simp] theorem exec_hostWrite (link : BitVec 1) (fn : BitVec 4) (off : Nat) (bytes : List Byte) (s : State) :
    exec (.hostWrite link fn off bytes) s = execHostWrite link fn off bytes s := rfl
@[simp] theorem exec_hostAtomicop (link : BitVec 1) (fn : BitVec 4) (op : HostAtomic) (off : Nat) (v expected : Word) (s : State) :
    exec (.hostAtomicop link fn op off v expected) s = execHostAtomicop link fn op off v expected s := rfl
@[simp] theorem exec_peerAccess (port : BitVec 3) (va : Word) (op : PeerOp) (s : State) :
    exec (.peerAccess port va op) s = execPeerAccess port va op s := rfl
@[simp] theorem exec_peerPortTrain (port : BitVec 3) (devtime delay : Word) (s : State) :
    exec (.peerPortTrain port devtime delay) s = execPeerPortTrain port devtime delay s := rfl
@[simp] theorem exec_peerPortDown (port : BitVec 3) (s : State) :
    exec (.peerPortDown port) s = execPeerPortDown port s := rfl
@[simp] theorem exec_reset (s : State) :
    exec .reset s = execReset s := rfl
@[simp] theorem exec_partReady (part : Part) (failed : BitVec 128) (s : State) :
    exec (.partReady part failed) s = execPartReady part failed s := rfl
@[simp] theorem exec_powerThrottle (dies hbm rest : BitVec 8) (power : BitVec 12) (s : State) :
    exec (.powerThrottle dies hbm rest power) s = execPowerThrottle dies hbm rest power s := rfl
@[simp] theorem exec_thermalShutdown (s : State) :
    exec .thermalShutdown s = execThermalShutdown s := rfl
@[simp] theorem exec_plannerRequestApply (s : State) :
    exec .plannerRequestApply s = execPlannerRequestApply s := rfl
@[simp] theorem exec_hostCompletion (id : Nat) (status : FarStatus) (data : Row) (s : State) :
    exec (.hostCompletion id status data) s = execHostCompletion id status data s := rfl
@[simp] theorem exec_coolantEnvelopeChange (outside : Bool) (s : State) :
    exec (.coolantEnvelopeChange outside) s = execCoolantEnvelopeChange outside s := rfl

end Sys2Proof.Machine
end

