-- ==== Sys2Proof/Laws/State.lean ====
section
/-! SUPPORT. One lemma for each field and each update of the state and of a strand, so that no later proof unfolds a record
update. -/

namespace Sys2Proof.Machine

/-! ### setStrand -/

@[simp] theorem State.setStrand_mem (s : State) (k : Nat) (v : Strand) : (s.setStrand k v).mem = s.mem := rfl
@[simp] theorem State.setStrand_strands (s : State) (k : Nat) (v : Strand) : (s.setStrand k v).strands = s.strands.insert k v := rfl
@[simp] theorem State.setStrand_tiles (s : State) (k : Nat) (v : Strand) : (s.setStrand k v).tiles = s.tiles := rfl
@[simp] theorem State.setStrand_dev (s : State) (k : Nat) (v : Strand) : (s.setStrand k v).dev = s.dev := rfl
@[simp] theorem State.setStrand_planner (s : State) (k : Nat) (v : Strand) : (s.setStrand k v).planner = s.planner := rfl
@[simp] theorem State.setStrand_agenda (s : State) (k : Nat) (v : Strand) : (s.setStrand k v).agenda = s.agenda := rfl
@[simp] theorem State.setStrand_turn (s : State) (k : Nat) (v : Strand) : (s.setStrand k v).turn = s.turn := rfl
@[simp] theorem State.setStrand_curTile (s : State) (k : Nat) (v : Strand) : (s.setStrand k v).curTile = s.curTile := rfl
@[simp] theorem State.setStrand_curSeq (s : State) (k : Nat) (v : Strand) : (s.setStrand k v).curSeq = s.curSeq := rfl
@[simp] theorem State.setStrand_cycle (s : State) (k : Nat) (v : Strand) : (s.setStrand k v).cycle = s.cycle := rfl
@[simp] theorem State.setStrand_health (s : State) (k : Nat) (v : Strand) : (s.setStrand k v).health = s.health := rfl
@[simp] theorem State.setStrand_nfree (s : State) (k : Nat) (v : Strand) : (s.setStrand k v).nfree = s.nfree := rfl
@[simp] theorem State.setStrand_outbox (s : State) (k : Nat) (v : Strand) : (s.setStrand k v).outbox = s.outbox := rfl
@[simp] theorem State.setStrand_records (s : State) (k : Nat) (v : Strand) : (s.setStrand k v).records = s.records := rfl

/-! ### setMem -/

@[simp] theorem State.setMem_mem (s : State) (m : List Host.Cell) : (s.setMem m).mem = m := rfl
@[simp] theorem State.setMem_strands (s : State) (m : List Host.Cell) : (s.setMem m).strands = s.strands := rfl
@[simp] theorem State.setMem_tiles (s : State) (m : List Host.Cell) : (s.setMem m).tiles = s.tiles := rfl
@[simp] theorem State.setMem_dev (s : State) (m : List Host.Cell) : (s.setMem m).dev = s.dev := rfl
@[simp] theorem State.setMem_planner (s : State) (m : List Host.Cell) : (s.setMem m).planner = s.planner := rfl
@[simp] theorem State.setMem_agenda (s : State) (m : List Host.Cell) : (s.setMem m).agenda = s.agenda := rfl
@[simp] theorem State.setMem_turn (s : State) (m : List Host.Cell) : (s.setMem m).turn = s.turn := rfl
@[simp] theorem State.setMem_curTile (s : State) (m : List Host.Cell) : (s.setMem m).curTile = s.curTile := rfl
@[simp] theorem State.setMem_curSeq (s : State) (m : List Host.Cell) : (s.setMem m).curSeq = s.curSeq := rfl
@[simp] theorem State.setMem_cycle (s : State) (m : List Host.Cell) : (s.setMem m).cycle = s.cycle := rfl
@[simp] theorem State.setMem_health (s : State) (m : List Host.Cell) : (s.setMem m).health = s.health := rfl
@[simp] theorem State.setMem_nfree (s : State) (m : List Host.Cell) : (s.setMem m).nfree = s.nfree := rfl
@[simp] theorem State.setMem_outbox (s : State) (m : List Host.Cell) : (s.setMem m).outbox = s.outbox := rfl
@[simp] theorem State.setMem_records (s : State) (m : List Host.Cell) : (s.setMem m).records = s.records := rfl

/-! ### setDev -/

@[simp] theorem State.setDev_mem (s : State) (d : Device) : (s.setDev d).mem = s.mem := rfl
@[simp] theorem State.setDev_strands (s : State) (d : Device) : (s.setDev d).strands = s.strands := rfl
@[simp] theorem State.setDev_tiles (s : State) (d : Device) : (s.setDev d).tiles = s.tiles := rfl
@[simp] theorem State.setDev_dev (s : State) (d : Device) : (s.setDev d).dev = d := rfl
@[simp] theorem State.setDev_planner (s : State) (d : Device) : (s.setDev d).planner = s.planner := rfl
@[simp] theorem State.setDev_agenda (s : State) (d : Device) : (s.setDev d).agenda = s.agenda := rfl
@[simp] theorem State.setDev_turn (s : State) (d : Device) : (s.setDev d).turn = s.turn := rfl
@[simp] theorem State.setDev_curTile (s : State) (d : Device) : (s.setDev d).curTile = s.curTile := rfl
@[simp] theorem State.setDev_curSeq (s : State) (d : Device) : (s.setDev d).curSeq = s.curSeq := rfl
@[simp] theorem State.setDev_cycle (s : State) (d : Device) : (s.setDev d).cycle = s.cycle := rfl
@[simp] theorem State.setDev_health (s : State) (d : Device) : (s.setDev d).health = s.health := rfl
@[simp] theorem State.setDev_nfree (s : State) (d : Device) : (s.setDev d).nfree = s.nfree := rfl
@[simp] theorem State.setDev_outbox (s : State) (d : Device) : (s.setDev d).outbox = s.outbox := rfl
@[simp] theorem State.setDev_records (s : State) (d : Device) : (s.setDev d).records = s.records := rfl

/-! ### setPlanner -/

@[simp] theorem State.setPlanner_mem (s : State) (p : Planner) : (s.setPlanner p).mem = s.mem := rfl
@[simp] theorem State.setPlanner_strands (s : State) (p : Planner) : (s.setPlanner p).strands = s.strands := rfl
@[simp] theorem State.setPlanner_tiles (s : State) (p : Planner) : (s.setPlanner p).tiles = s.tiles := rfl
@[simp] theorem State.setPlanner_dev (s : State) (p : Planner) : (s.setPlanner p).dev = s.dev := rfl
@[simp] theorem State.setPlanner_planner (s : State) (p : Planner) : (s.setPlanner p).planner = p := rfl
@[simp] theorem State.setPlanner_agenda (s : State) (p : Planner) : (s.setPlanner p).agenda = s.agenda := rfl
@[simp] theorem State.setPlanner_turn (s : State) (p : Planner) : (s.setPlanner p).turn = s.turn := rfl
@[simp] theorem State.setPlanner_curTile (s : State) (p : Planner) : (s.setPlanner p).curTile = s.curTile := rfl
@[simp] theorem State.setPlanner_curSeq (s : State) (p : Planner) : (s.setPlanner p).curSeq = s.curSeq := rfl
@[simp] theorem State.setPlanner_cycle (s : State) (p : Planner) : (s.setPlanner p).cycle = s.cycle := rfl
@[simp] theorem State.setPlanner_health (s : State) (p : Planner) : (s.setPlanner p).health = s.health := rfl
@[simp] theorem State.setPlanner_nfree (s : State) (p : Planner) : (s.setPlanner p).nfree = s.nfree := rfl
@[simp] theorem State.setPlanner_outbox (s : State) (p : Planner) : (s.setPlanner p).outbox = s.outbox := rfl
@[simp] theorem State.setPlanner_records (s : State) (p : Planner) : (s.setPlanner p).records = s.records := rfl

/-! ### setTile -/

@[simp] theorem State.setTile_mem (s : State) (k : Nat) (v : Tile) : (s.setTile k v).mem = s.mem := rfl
@[simp] theorem State.setTile_strands (s : State) (k : Nat) (v : Tile) : (s.setTile k v).strands = s.strands := rfl
@[simp] theorem State.setTile_tiles (s : State) (k : Nat) (v : Tile) : (s.setTile k v).tiles = cellSet Tile.reset s.tiles k v := rfl
@[simp] theorem State.setTile_dev (s : State) (k : Nat) (v : Tile) : (s.setTile k v).dev = s.dev := rfl
@[simp] theorem State.setTile_planner (s : State) (k : Nat) (v : Tile) : (s.setTile k v).planner = s.planner := rfl
@[simp] theorem State.setTile_agenda (s : State) (k : Nat) (v : Tile) : (s.setTile k v).agenda = s.agenda := rfl
@[simp] theorem State.setTile_turn (s : State) (k : Nat) (v : Tile) : (s.setTile k v).turn = s.turn := rfl
@[simp] theorem State.setTile_curTile (s : State) (k : Nat) (v : Tile) : (s.setTile k v).curTile = s.curTile := rfl
@[simp] theorem State.setTile_curSeq (s : State) (k : Nat) (v : Tile) : (s.setTile k v).curSeq = s.curSeq := rfl
@[simp] theorem State.setTile_cycle (s : State) (k : Nat) (v : Tile) : (s.setTile k v).cycle = s.cycle := rfl
@[simp] theorem State.setTile_health (s : State) (k : Nat) (v : Tile) : (s.setTile k v).health = s.health := rfl
@[simp] theorem State.setTile_nfree (s : State) (k : Nat) (v : Tile) : (s.setTile k v).nfree = s.nfree := rfl
@[simp] theorem State.setTile_outbox (s : State) (k : Nat) (v : Tile) : (s.setTile k v).outbox = s.outbox := rfl
@[simp] theorem State.setTile_records (s : State) (k : Nat) (v : Tile) : (s.setTile k v).records = s.records := rfl

/-! ### send -/

@[simp] theorem State.send_mem (s : State) (m : Msg) : (s.send m).mem = s.mem := rfl
@[simp] theorem State.send_strands (s : State) (m : Msg) : (s.send m).strands = s.strands := rfl
@[simp] theorem State.send_tiles (s : State) (m : Msg) : (s.send m).tiles = s.tiles := rfl
@[simp] theorem State.send_dev (s : State) (m : Msg) : (s.send m).dev = s.dev := rfl
@[simp] theorem State.send_planner (s : State) (m : Msg) : (s.send m).planner = s.planner := rfl
@[simp] theorem State.send_agenda (s : State) (m : Msg) : (s.send m).agenda = s.agenda := rfl
@[simp] theorem State.send_turn (s : State) (m : Msg) : (s.send m).turn = s.turn := rfl
@[simp] theorem State.send_curTile (s : State) (m : Msg) : (s.send m).curTile = s.curTile := rfl
@[simp] theorem State.send_curSeq (s : State) (m : Msg) : (s.send m).curSeq = s.curSeq := rfl
@[simp] theorem State.send_cycle (s : State) (m : Msg) : (s.send m).cycle = s.cycle := rfl
@[simp] theorem State.send_health (s : State) (m : Msg) : (s.send m).health = s.health := rfl
@[simp] theorem State.send_nfree (s : State) (m : Msg) : (s.send m).nfree = s.nfree := rfl
@[simp] theorem State.send_outbox (s : State) (m : Msg) : (s.send m).outbox = s.outbox ++ [m] := rfl
@[simp] theorem State.send_records (s : State) (m : Msg) : (s.send m).records = s.records := rfl

/-! ### setC -/

@[simp] theorem Strand.setC_uid (st : Strand) (c : CSeq) : (st.setC c).uid = st.uid := rfl
@[simp] theorem Strand.setC_launch (st : Strand) (c : CSeq) : (st.setC c).launch = st.launch := rfl
@[simp] theorem Strand.setC_index (st : Strand) (c : CSeq) : (st.setC c).index = st.index := rfl
@[simp] theorem Strand.setC_queue (st : Strand) (c : CSeq) : (st.setC c).queue = st.queue := rfl
@[simp] theorem Strand.setC_pkt (st : Strand) (c : CSeq) : (st.setC c).pkt = st.pkt := rfl
@[simp] theorem Strand.setC_fn (st : Strand) (c : CSeq) : (st.setC c).fn = st.fn := rfl
@[simp] theorem Strand.setC_det (st : Strand) (c : CSeq) : (st.setC c).det = st.det := rfl
@[simp] theorem Strand.setC_nbv (st : Strand) (c : CSeq) : (st.setC c).nbv = st.nbv := rfl
@[simp] theorem Strand.setC_wdlimit (st : Strand) (c : CSeq) : (st.setC c).wdlimit = st.wdlimit := rfl
@[simp] theorem Strand.setC_started (st : Strand) (c : CSeq) : (st.setC c).started = st.started := rfl
@[simp] theorem Strand.setC_x (st : Strand) (c : CSeq) : (st.setC c).x = st.x := rfl
@[simp] theorem Strand.setC_b (st : Strand) (c : CSeq) : (st.setC c).b = st.b := rfl
@[simp] theorem Strand.setC_s (st : Strand) (c : CSeq) : (st.setC c).s = st.s := rfl
@[simp] theorem Strand.setC_t (st : Strand) (c : CSeq) : (st.setC c).t = st.t := rfl
@[simp] theorem Strand.setC_acc (st : Strand) (c : CSeq) : (st.setC c).acc = st.acc := rfl
@[simp] theorem Strand.setC_k (st : Strand) (c : CSeq) : (st.setC c).k = st.k := rfl
@[simp] theorem Strand.setC_cb (st : Strand) (c : CSeq) : (st.setC c).cb = st.cb := rfl
@[simp] theorem Strand.setC_tshape (st : Strand) (c : CSeq) : (st.setC c).tshape = st.tshape := rfl
@[simp] theorem Strand.setC_dqfmtlx (st : Strand) (c : CSeq) : (st.setC c).dqfmtlx = st.dqfmtlx := rfl
@[simp] theorem Strand.setC_dqfmtxs (st : Strand) (c : CSeq) : (st.setC c).dqfmtxs = st.dqfmtxs := rfl
@[simp] theorem Strand.setC_srseed (st : Strand) (c : CSeq) : (st.setC c).srseed = st.srseed := rfl
@[simp] theorem Strand.setC_srctr (st : Strand) (c : CSeq) : (st.setC c).srctr = st.srctr := rfl
@[simp] theorem Strand.setC_dqsnlx (st : Strand) (c : CSeq) : (st.setC c).dqsnlx = st.dqsnlx := rfl
@[simp] theorem Strand.setC_dqsnxs (st : Strand) (c : CSeq) : (st.setC c).dqsnxs = st.dqsnxs := rfl
@[simp] theorem Strand.setC_tvec (st : Strand) (c : CSeq) : (st.setC c).tvec = st.tvec := rfl
@[simp] theorem Strand.setC_tepc (st : Strand) (c : CSeq) : (st.setC c).tepc = st.tepc := rfl
@[simp] theorem Strand.setC_tcause (st : Strand) (c : CSeq) : (st.setC c).tcause = st.tcause := rfl
@[simp] theorem Strand.setC_act (st : Strand) (c : CSeq) : (st.setC c).act = st.act := rfl
@[simp] theorem Strand.setC_intr (st : Strand) (c : CSeq) : (st.setC c).intr = st.intr := rfl
@[simp] theorem Strand.setC_cost (st : Strand) (c : CSeq) : (st.setC c).cost = st.cost := rfl
@[simp] theorem Strand.setC_tokens (st : Strand) (c : CSeq) : (st.setC c).tokens = st.tokens := rfl
@[simp] theorem Strand.setC_dqlx (st : Strand) (c : CSeq) : (st.setC c).dqlx = st.dqlx := rfl
@[simp] theorem Strand.setC_dqxs (st : Strand) (c : CSeq) : (st.setC c).dqxs = st.dqxs := rfl
@[simp] theorem Strand.setC_bq (st : Strand) (c : CSeq) : (st.setC c).bq = st.bq := rfl
@[simp] theorem Strand.setC_rq (st : Strand) (c : CSeq) : (st.setC c).rq = st.rq := rfl
@[simp] theorem Strand.setC_ms (st : Strand) (c : CSeq) : (st.setC c).ms = st.ms := rfl
@[simp] theorem Strand.setC_wlo (st : Strand) (c : CSeq) : (st.setC c).wlo = st.wlo := rfl
@[simp] theorem Strand.setC_whi (st : Strand) (c : CSeq) : (st.setC c).whi = st.whi := rfl
@[simp] theorem Strand.setC_wn (st : Strand) (c : CSeq) : (st.setC c).wn = st.wn := rfl
@[simp] theorem Strand.setC_tl (st : Strand) (c : CSeq) : (st.setC c).tl = st.tl := rfl
@[simp] theorem Strand.setC_c (st : Strand) (c : CSeq) : (st.setC c).c = c := rfl
@[simp] theorem Strand.setC_l (st : Strand) (c : CSeq) : (st.setC c).l = st.l := rfl
@[simp] theorem Strand.setC_xs (st : Strand) (c : CSeq) : (st.setC c).xs = st.xs := rfl
@[simp] theorem Strand.setC_ss (st : Strand) (c : CSeq) : (st.setC c).ss = st.ss := rfl
@[simp] theorem Strand.setC_lqprev (st : Strand) (c : CSeq) : (st.setC c).lqprev = st.lqprev := rfl
@[simp] theorem Strand.setC_episode (st : Strand) (c : CSeq) : (st.setC c).episode = st.episode := rfl
@[simp] theorem Strand.setC_contest (st : Strand) (c : CSeq) : (st.setC c).contest = st.contest := rfl
@[simp] theorem Strand.setC_ops (st : Strand) (c : CSeq) : (st.setC c).ops = st.ops := rfl
@[simp] theorem Strand.setC_ordered (st : Strand) (c : CSeq) : (st.setC c).ordered = st.ordered := rfl
@[simp] theorem Strand.setC_rmax (st : Strand) (c : CSeq) : (st.setC c).rmax = st.rmax := rfl
@[simp] theorem Strand.setC_margin (st : Strand) (c : CSeq) : (st.setC c).margin = st.margin := rfl
@[simp] theorem Strand.setC_heads (st : Strand) (c : CSeq) : (st.setC c).heads = st.heads := rfl
@[simp] theorem Strand.setC_hfact (st : Strand) (c : CSeq) : (st.setC c).hfact = st.hfact := rfl
@[simp] theorem Strand.setC_hfret (st : Strand) (c : CSeq) : (st.setC c).hfret = st.hfret := rfl
@[simp] theorem Strand.setC_hfdep (st : Strand) (c : CSeq) : (st.setC c).hfdep = st.hfdep := rfl
@[simp] theorem Strand.setC_tlb (st : Strand) (c : CSeq) : (st.setC c).tlb = st.tlb := rfl
@[simp] theorem Strand.setC_pages (st : Strand) (c : CSeq) : (st.setC c).pages = st.pages := rfl
@[simp] theorem Strand.setC_scyc (st : Strand) (c : CSeq) : (st.setC c).scyc = st.scyc := rfl
@[simp] theorem Strand.setC_wdcount (st : Strand) (c : CSeq) : (st.setC c).wdcount = st.wdcount := rfl
@[simp] theorem Strand.setC_quantum (st : Strand) (c : CSeq) : (st.setC c).quantum = st.quantum := rfl
@[simp] theorem Strand.setC_lateBars (st : Strand) (c : CSeq) : (st.setC c).lateBars = st.lateBars := rfl
@[simp] theorem Strand.setC_pendingFaults (st : Strand) (c : CSeq) : (st.setC c).pendingFaults = st.pendingFaults := rfl

/-! ### cNext -/

@[simp] theorem Strand.cNext_uid (st : Strand) : (st.cNext).uid = st.uid := rfl
@[simp] theorem Strand.cNext_launch (st : Strand) : (st.cNext).launch = st.launch := rfl
@[simp] theorem Strand.cNext_index (st : Strand) : (st.cNext).index = st.index := rfl
@[simp] theorem Strand.cNext_queue (st : Strand) : (st.cNext).queue = st.queue := rfl
@[simp] theorem Strand.cNext_pkt (st : Strand) : (st.cNext).pkt = st.pkt := rfl
@[simp] theorem Strand.cNext_fn (st : Strand) : (st.cNext).fn = st.fn := rfl
@[simp] theorem Strand.cNext_det (st : Strand) : (st.cNext).det = st.det := rfl
@[simp] theorem Strand.cNext_nbv (st : Strand) : (st.cNext).nbv = st.nbv := rfl
@[simp] theorem Strand.cNext_wdlimit (st : Strand) : (st.cNext).wdlimit = st.wdlimit := rfl
@[simp] theorem Strand.cNext_started (st : Strand) : (st.cNext).started = st.started := rfl
@[simp] theorem Strand.cNext_x (st : Strand) : (st.cNext).x = st.x := rfl
@[simp] theorem Strand.cNext_b (st : Strand) : (st.cNext).b = st.b := rfl
@[simp] theorem Strand.cNext_s (st : Strand) : (st.cNext).s = st.s := rfl
@[simp] theorem Strand.cNext_t (st : Strand) : (st.cNext).t = st.t := rfl
@[simp] theorem Strand.cNext_acc (st : Strand) : (st.cNext).acc = st.acc := rfl
@[simp] theorem Strand.cNext_k (st : Strand) : (st.cNext).k = st.k := rfl
@[simp] theorem Strand.cNext_cb (st : Strand) : (st.cNext).cb = st.cb := rfl
@[simp] theorem Strand.cNext_tshape (st : Strand) : (st.cNext).tshape = st.tshape := rfl
@[simp] theorem Strand.cNext_dqfmtlx (st : Strand) : (st.cNext).dqfmtlx = st.dqfmtlx := rfl
@[simp] theorem Strand.cNext_dqfmtxs (st : Strand) : (st.cNext).dqfmtxs = st.dqfmtxs := rfl
@[simp] theorem Strand.cNext_srseed (st : Strand) : (st.cNext).srseed = st.srseed := rfl
@[simp] theorem Strand.cNext_srctr (st : Strand) : (st.cNext).srctr = st.srctr := rfl
@[simp] theorem Strand.cNext_dqsnlx (st : Strand) : (st.cNext).dqsnlx = st.dqsnlx := rfl
@[simp] theorem Strand.cNext_dqsnxs (st : Strand) : (st.cNext).dqsnxs = st.dqsnxs := rfl
@[simp] theorem Strand.cNext_tvec (st : Strand) : (st.cNext).tvec = st.tvec := rfl
@[simp] theorem Strand.cNext_tepc (st : Strand) : (st.cNext).tepc = st.tepc := rfl
@[simp] theorem Strand.cNext_tcause (st : Strand) : (st.cNext).tcause = st.tcause := rfl
@[simp] theorem Strand.cNext_act (st : Strand) : (st.cNext).act = st.act := rfl
@[simp] theorem Strand.cNext_intr (st : Strand) : (st.cNext).intr = st.intr := rfl
@[simp] theorem Strand.cNext_cost (st : Strand) : (st.cNext).cost = st.cost := rfl
@[simp] theorem Strand.cNext_tokens (st : Strand) : (st.cNext).tokens = st.tokens := rfl
@[simp] theorem Strand.cNext_dqlx (st : Strand) : (st.cNext).dqlx = st.dqlx := rfl
@[simp] theorem Strand.cNext_dqxs (st : Strand) : (st.cNext).dqxs = st.dqxs := rfl
@[simp] theorem Strand.cNext_bq (st : Strand) : (st.cNext).bq = st.bq := rfl
@[simp] theorem Strand.cNext_rq (st : Strand) : (st.cNext).rq = st.rq := rfl
@[simp] theorem Strand.cNext_ms (st : Strand) : (st.cNext).ms = st.ms := rfl
@[simp] theorem Strand.cNext_wlo (st : Strand) : (st.cNext).wlo = st.wlo := rfl
@[simp] theorem Strand.cNext_whi (st : Strand) : (st.cNext).whi = st.whi := rfl
@[simp] theorem Strand.cNext_wn (st : Strand) : (st.cNext).wn = st.wn := rfl
@[simp] theorem Strand.cNext_tl (st : Strand) : (st.cNext).tl = st.tl := rfl
@[simp] theorem Strand.cNext_c (st : Strand) : (st.cNext).c = st.c.next := rfl
@[simp] theorem Strand.cNext_l (st : Strand) : (st.cNext).l = st.l := rfl
@[simp] theorem Strand.cNext_xs (st : Strand) : (st.cNext).xs = st.xs := rfl
@[simp] theorem Strand.cNext_ss (st : Strand) : (st.cNext).ss = st.ss := rfl
@[simp] theorem Strand.cNext_lqprev (st : Strand) : (st.cNext).lqprev = st.lqprev := rfl
@[simp] theorem Strand.cNext_episode (st : Strand) : (st.cNext).episode = st.episode := rfl
@[simp] theorem Strand.cNext_contest (st : Strand) : (st.cNext).contest = st.contest := rfl
@[simp] theorem Strand.cNext_ops (st : Strand) : (st.cNext).ops = st.ops := rfl
@[simp] theorem Strand.cNext_ordered (st : Strand) : (st.cNext).ordered = st.ordered := rfl
@[simp] theorem Strand.cNext_rmax (st : Strand) : (st.cNext).rmax = st.rmax := rfl
@[simp] theorem Strand.cNext_margin (st : Strand) : (st.cNext).margin = st.margin := rfl
@[simp] theorem Strand.cNext_heads (st : Strand) : (st.cNext).heads = st.heads := rfl
@[simp] theorem Strand.cNext_hfact (st : Strand) : (st.cNext).hfact = st.hfact := rfl
@[simp] theorem Strand.cNext_hfret (st : Strand) : (st.cNext).hfret = st.hfret := rfl
@[simp] theorem Strand.cNext_hfdep (st : Strand) : (st.cNext).hfdep = st.hfdep := rfl
@[simp] theorem Strand.cNext_tlb (st : Strand) : (st.cNext).tlb = st.tlb := rfl
@[simp] theorem Strand.cNext_pages (st : Strand) : (st.cNext).pages = st.pages := rfl
@[simp] theorem Strand.cNext_scyc (st : Strand) : (st.cNext).scyc = st.scyc := rfl
@[simp] theorem Strand.cNext_wdcount (st : Strand) : (st.cNext).wdcount = st.wdcount := rfl
@[simp] theorem Strand.cNext_quantum (st : Strand) : (st.cNext).quantum = st.quantum := rfl
@[simp] theorem Strand.cNext_lateBars (st : Strand) : (st.cNext).lateBars = st.lateBars := rfl
@[simp] theorem Strand.cNext_pendingFaults (st : Strand) : (st.cNext).pendingFaults = st.pendingFaults := rfl

/-! ### cPass -/

@[simp] theorem Strand.cPass_uid (st : Strand) (t : Word) : (st.cPass t).uid = st.uid := rfl
@[simp] theorem Strand.cPass_launch (st : Strand) (t : Word) : (st.cPass t).launch = st.launch := rfl
@[simp] theorem Strand.cPass_index (st : Strand) (t : Word) : (st.cPass t).index = st.index := rfl
@[simp] theorem Strand.cPass_queue (st : Strand) (t : Word) : (st.cPass t).queue = st.queue := rfl
@[simp] theorem Strand.cPass_pkt (st : Strand) (t : Word) : (st.cPass t).pkt = st.pkt := rfl
@[simp] theorem Strand.cPass_fn (st : Strand) (t : Word) : (st.cPass t).fn = st.fn := rfl
@[simp] theorem Strand.cPass_det (st : Strand) (t : Word) : (st.cPass t).det = st.det := rfl
@[simp] theorem Strand.cPass_nbv (st : Strand) (t : Word) : (st.cPass t).nbv = st.nbv := rfl
@[simp] theorem Strand.cPass_wdlimit (st : Strand) (t : Word) : (st.cPass t).wdlimit = st.wdlimit := rfl
@[simp] theorem Strand.cPass_started (st : Strand) (t : Word) : (st.cPass t).started = st.started := rfl
@[simp] theorem Strand.cPass_x (st : Strand) (t : Word) : (st.cPass t).x = st.x := rfl
@[simp] theorem Strand.cPass_b (st : Strand) (t : Word) : (st.cPass t).b = st.b := rfl
@[simp] theorem Strand.cPass_s (st : Strand) (t : Word) : (st.cPass t).s = st.s := rfl
@[simp] theorem Strand.cPass_t (st : Strand) (t : Word) : (st.cPass t).t = st.t := rfl
@[simp] theorem Strand.cPass_acc (st : Strand) (t : Word) : (st.cPass t).acc = st.acc := rfl
@[simp] theorem Strand.cPass_k (st : Strand) (t : Word) : (st.cPass t).k = st.k := rfl
@[simp] theorem Strand.cPass_cb (st : Strand) (t : Word) : (st.cPass t).cb = st.cb := rfl
@[simp] theorem Strand.cPass_tshape (st : Strand) (t : Word) : (st.cPass t).tshape = st.tshape := rfl
@[simp] theorem Strand.cPass_dqfmtlx (st : Strand) (t : Word) : (st.cPass t).dqfmtlx = st.dqfmtlx := rfl
@[simp] theorem Strand.cPass_dqfmtxs (st : Strand) (t : Word) : (st.cPass t).dqfmtxs = st.dqfmtxs := rfl
@[simp] theorem Strand.cPass_srseed (st : Strand) (t : Word) : (st.cPass t).srseed = st.srseed := rfl
@[simp] theorem Strand.cPass_srctr (st : Strand) (t : Word) : (st.cPass t).srctr = st.srctr := rfl
@[simp] theorem Strand.cPass_dqsnlx (st : Strand) (t : Word) : (st.cPass t).dqsnlx = st.dqsnlx := rfl
@[simp] theorem Strand.cPass_dqsnxs (st : Strand) (t : Word) : (st.cPass t).dqsnxs = st.dqsnxs := rfl
@[simp] theorem Strand.cPass_tvec (st : Strand) (t : Word) : (st.cPass t).tvec = st.tvec := rfl
@[simp] theorem Strand.cPass_tepc (st : Strand) (t : Word) : (st.cPass t).tepc = st.tepc := rfl
@[simp] theorem Strand.cPass_tcause (st : Strand) (t : Word) : (st.cPass t).tcause = st.tcause := rfl
@[simp] theorem Strand.cPass_act (st : Strand) (t : Word) : (st.cPass t).act = st.act := rfl
@[simp] theorem Strand.cPass_intr (st : Strand) (t : Word) : (st.cPass t).intr = st.intr := rfl
@[simp] theorem Strand.cPass_cost (st : Strand) (t : Word) : (st.cPass t).cost = st.cost := rfl
@[simp] theorem Strand.cPass_tokens (st : Strand) (t : Word) : (st.cPass t).tokens = st.tokens := rfl
@[simp] theorem Strand.cPass_dqlx (st : Strand) (t : Word) : (st.cPass t).dqlx = st.dqlx := rfl
@[simp] theorem Strand.cPass_dqxs (st : Strand) (t : Word) : (st.cPass t).dqxs = st.dqxs := rfl
@[simp] theorem Strand.cPass_bq (st : Strand) (t : Word) : (st.cPass t).bq = st.bq := rfl
@[simp] theorem Strand.cPass_rq (st : Strand) (t : Word) : (st.cPass t).rq = st.rq := rfl
@[simp] theorem Strand.cPass_ms (st : Strand) (t : Word) : (st.cPass t).ms = st.ms := rfl
@[simp] theorem Strand.cPass_wlo (st : Strand) (t : Word) : (st.cPass t).wlo = st.wlo := rfl
@[simp] theorem Strand.cPass_whi (st : Strand) (t : Word) : (st.cPass t).whi = st.whi := rfl
@[simp] theorem Strand.cPass_wn (st : Strand) (t : Word) : (st.cPass t).wn = st.wn := rfl
@[simp] theorem Strand.cPass_tl (st : Strand) (t : Word) : (st.cPass t).tl = st.tl := rfl
@[simp] theorem Strand.cPass_c (st : Strand) (t : Word) : (st.cPass t).c = st.c.pass t := rfl
@[simp] theorem Strand.cPass_l (st : Strand) (t : Word) : (st.cPass t).l = st.l := rfl
@[simp] theorem Strand.cPass_xs (st : Strand) (t : Word) : (st.cPass t).xs = st.xs := rfl
@[simp] theorem Strand.cPass_ss (st : Strand) (t : Word) : (st.cPass t).ss = st.ss := rfl
@[simp] theorem Strand.cPass_lqprev (st : Strand) (t : Word) : (st.cPass t).lqprev = st.lqprev := rfl
@[simp] theorem Strand.cPass_episode (st : Strand) (t : Word) : (st.cPass t).episode = st.episode := rfl
@[simp] theorem Strand.cPass_contest (st : Strand) (t : Word) : (st.cPass t).contest = st.contest := rfl
@[simp] theorem Strand.cPass_ops (st : Strand) (t : Word) : (st.cPass t).ops = st.ops := rfl
@[simp] theorem Strand.cPass_ordered (st : Strand) (t : Word) : (st.cPass t).ordered = st.ordered := rfl
@[simp] theorem Strand.cPass_rmax (st : Strand) (t : Word) : (st.cPass t).rmax = st.rmax := rfl
@[simp] theorem Strand.cPass_margin (st : Strand) (t : Word) : (st.cPass t).margin = st.margin := rfl
@[simp] theorem Strand.cPass_heads (st : Strand) (t : Word) : (st.cPass t).heads = st.heads := rfl
@[simp] theorem Strand.cPass_hfact (st : Strand) (t : Word) : (st.cPass t).hfact = st.hfact := rfl
@[simp] theorem Strand.cPass_hfret (st : Strand) (t : Word) : (st.cPass t).hfret = st.hfret := rfl
@[simp] theorem Strand.cPass_hfdep (st : Strand) (t : Word) : (st.cPass t).hfdep = st.hfdep := rfl
@[simp] theorem Strand.cPass_tlb (st : Strand) (t : Word) : (st.cPass t).tlb = st.tlb := rfl
@[simp] theorem Strand.cPass_pages (st : Strand) (t : Word) : (st.cPass t).pages = st.pages := rfl
@[simp] theorem Strand.cPass_scyc (st : Strand) (t : Word) : (st.cPass t).scyc = st.scyc := rfl
@[simp] theorem Strand.cPass_wdcount (st : Strand) (t : Word) : (st.cPass t).wdcount = st.wdcount := rfl
@[simp] theorem Strand.cPass_quantum (st : Strand) (t : Word) : (st.cPass t).quantum = st.quantum := rfl
@[simp] theorem Strand.cPass_lateBars (st : Strand) (t : Word) : (st.cPass t).lateBars = st.lateBars := rfl
@[simp] theorem Strand.cPass_pendingFaults (st : Strand) (t : Word) : (st.cPass t).pendingFaults = st.pendingFaults := rfl

/-! ### cJump -/

@[simp] theorem Strand.cJump_uid (st : Strand) (t : Word) : (st.cJump t).uid = st.uid := rfl
@[simp] theorem Strand.cJump_launch (st : Strand) (t : Word) : (st.cJump t).launch = st.launch := rfl
@[simp] theorem Strand.cJump_index (st : Strand) (t : Word) : (st.cJump t).index = st.index := rfl
@[simp] theorem Strand.cJump_queue (st : Strand) (t : Word) : (st.cJump t).queue = st.queue := rfl
@[simp] theorem Strand.cJump_pkt (st : Strand) (t : Word) : (st.cJump t).pkt = st.pkt := rfl
@[simp] theorem Strand.cJump_fn (st : Strand) (t : Word) : (st.cJump t).fn = st.fn := rfl
@[simp] theorem Strand.cJump_det (st : Strand) (t : Word) : (st.cJump t).det = st.det := rfl
@[simp] theorem Strand.cJump_nbv (st : Strand) (t : Word) : (st.cJump t).nbv = st.nbv := rfl
@[simp] theorem Strand.cJump_wdlimit (st : Strand) (t : Word) : (st.cJump t).wdlimit = st.wdlimit := rfl
@[simp] theorem Strand.cJump_started (st : Strand) (t : Word) : (st.cJump t).started = st.started := rfl
@[simp] theorem Strand.cJump_x (st : Strand) (t : Word) : (st.cJump t).x = st.x := rfl
@[simp] theorem Strand.cJump_b (st : Strand) (t : Word) : (st.cJump t).b = st.b := rfl
@[simp] theorem Strand.cJump_s (st : Strand) (t : Word) : (st.cJump t).s = st.s := rfl
@[simp] theorem Strand.cJump_t (st : Strand) (t : Word) : (st.cJump t).t = st.t := rfl
@[simp] theorem Strand.cJump_acc (st : Strand) (t : Word) : (st.cJump t).acc = st.acc := rfl
@[simp] theorem Strand.cJump_k (st : Strand) (t : Word) : (st.cJump t).k = st.k := rfl
@[simp] theorem Strand.cJump_cb (st : Strand) (t : Word) : (st.cJump t).cb = st.cb := rfl
@[simp] theorem Strand.cJump_tshape (st : Strand) (t : Word) : (st.cJump t).tshape = st.tshape := rfl
@[simp] theorem Strand.cJump_dqfmtlx (st : Strand) (t : Word) : (st.cJump t).dqfmtlx = st.dqfmtlx := rfl
@[simp] theorem Strand.cJump_dqfmtxs (st : Strand) (t : Word) : (st.cJump t).dqfmtxs = st.dqfmtxs := rfl
@[simp] theorem Strand.cJump_srseed (st : Strand) (t : Word) : (st.cJump t).srseed = st.srseed := rfl
@[simp] theorem Strand.cJump_srctr (st : Strand) (t : Word) : (st.cJump t).srctr = st.srctr := rfl
@[simp] theorem Strand.cJump_dqsnlx (st : Strand) (t : Word) : (st.cJump t).dqsnlx = st.dqsnlx := rfl
@[simp] theorem Strand.cJump_dqsnxs (st : Strand) (t : Word) : (st.cJump t).dqsnxs = st.dqsnxs := rfl
@[simp] theorem Strand.cJump_tvec (st : Strand) (t : Word) : (st.cJump t).tvec = st.tvec := rfl
@[simp] theorem Strand.cJump_tepc (st : Strand) (t : Word) : (st.cJump t).tepc = st.tepc := rfl
@[simp] theorem Strand.cJump_tcause (st : Strand) (t : Word) : (st.cJump t).tcause = st.tcause := rfl
@[simp] theorem Strand.cJump_act (st : Strand) (t : Word) : (st.cJump t).act = st.act := rfl
@[simp] theorem Strand.cJump_intr (st : Strand) (t : Word) : (st.cJump t).intr = st.intr := rfl
@[simp] theorem Strand.cJump_cost (st : Strand) (t : Word) : (st.cJump t).cost = st.cost := rfl
@[simp] theorem Strand.cJump_tokens (st : Strand) (t : Word) : (st.cJump t).tokens = st.tokens := rfl
@[simp] theorem Strand.cJump_dqlx (st : Strand) (t : Word) : (st.cJump t).dqlx = st.dqlx := rfl
@[simp] theorem Strand.cJump_dqxs (st : Strand) (t : Word) : (st.cJump t).dqxs = st.dqxs := rfl
@[simp] theorem Strand.cJump_bq (st : Strand) (t : Word) : (st.cJump t).bq = st.bq := rfl
@[simp] theorem Strand.cJump_rq (st : Strand) (t : Word) : (st.cJump t).rq = st.rq := rfl
@[simp] theorem Strand.cJump_ms (st : Strand) (t : Word) : (st.cJump t).ms = st.ms := rfl
@[simp] theorem Strand.cJump_wlo (st : Strand) (t : Word) : (st.cJump t).wlo = st.wlo := rfl
@[simp] theorem Strand.cJump_whi (st : Strand) (t : Word) : (st.cJump t).whi = st.whi := rfl
@[simp] theorem Strand.cJump_wn (st : Strand) (t : Word) : (st.cJump t).wn = st.wn := rfl
@[simp] theorem Strand.cJump_tl (st : Strand) (t : Word) : (st.cJump t).tl = st.tl := rfl
@[simp] theorem Strand.cJump_c (st : Strand) (t : Word) : (st.cJump t).c = st.c.jump t := rfl
@[simp] theorem Strand.cJump_l (st : Strand) (t : Word) : (st.cJump t).l = st.l := rfl
@[simp] theorem Strand.cJump_xs (st : Strand) (t : Word) : (st.cJump t).xs = st.xs := rfl
@[simp] theorem Strand.cJump_ss (st : Strand) (t : Word) : (st.cJump t).ss = st.ss := rfl
@[simp] theorem Strand.cJump_lqprev (st : Strand) (t : Word) : (st.cJump t).lqprev = st.lqprev := rfl
@[simp] theorem Strand.cJump_episode (st : Strand) (t : Word) : (st.cJump t).episode = st.episode := rfl
@[simp] theorem Strand.cJump_contest (st : Strand) (t : Word) : (st.cJump t).contest = st.contest := rfl
@[simp] theorem Strand.cJump_ops (st : Strand) (t : Word) : (st.cJump t).ops = st.ops := rfl
@[simp] theorem Strand.cJump_ordered (st : Strand) (t : Word) : (st.cJump t).ordered = st.ordered := rfl
@[simp] theorem Strand.cJump_rmax (st : Strand) (t : Word) : (st.cJump t).rmax = st.rmax := rfl
@[simp] theorem Strand.cJump_margin (st : Strand) (t : Word) : (st.cJump t).margin = st.margin := rfl
@[simp] theorem Strand.cJump_heads (st : Strand) (t : Word) : (st.cJump t).heads = st.heads := rfl
@[simp] theorem Strand.cJump_hfact (st : Strand) (t : Word) : (st.cJump t).hfact = st.hfact := rfl
@[simp] theorem Strand.cJump_hfret (st : Strand) (t : Word) : (st.cJump t).hfret = st.hfret := rfl
@[simp] theorem Strand.cJump_hfdep (st : Strand) (t : Word) : (st.cJump t).hfdep = st.hfdep := rfl
@[simp] theorem Strand.cJump_tlb (st : Strand) (t : Word) : (st.cJump t).tlb = st.tlb := rfl
@[simp] theorem Strand.cJump_pages (st : Strand) (t : Word) : (st.cJump t).pages = st.pages := rfl
@[simp] theorem Strand.cJump_scyc (st : Strand) (t : Word) : (st.cJump t).scyc = st.scyc := rfl
@[simp] theorem Strand.cJump_wdcount (st : Strand) (t : Word) : (st.cJump t).wdcount = st.wdcount := rfl
@[simp] theorem Strand.cJump_quantum (st : Strand) (t : Word) : (st.cJump t).quantum = st.quantum := rfl
@[simp] theorem Strand.cJump_lateBars (st : Strand) (t : Word) : (st.cJump t).lateBars = st.lateBars := rfl
@[simp] theorem Strand.cJump_pendingFaults (st : Strand) (t : Word) : (st.cJump t).pendingFaults = st.pendingFaults := rfl

/-! ### cStay -/

@[simp] theorem Strand.cStay_uid (st : Strand) (w : CWait) : (st.cStay w).uid = st.uid := rfl
@[simp] theorem Strand.cStay_launch (st : Strand) (w : CWait) : (st.cStay w).launch = st.launch := rfl
@[simp] theorem Strand.cStay_index (st : Strand) (w : CWait) : (st.cStay w).index = st.index := rfl
@[simp] theorem Strand.cStay_queue (st : Strand) (w : CWait) : (st.cStay w).queue = st.queue := rfl
@[simp] theorem Strand.cStay_pkt (st : Strand) (w : CWait) : (st.cStay w).pkt = st.pkt := rfl
@[simp] theorem Strand.cStay_fn (st : Strand) (w : CWait) : (st.cStay w).fn = st.fn := rfl
@[simp] theorem Strand.cStay_det (st : Strand) (w : CWait) : (st.cStay w).det = st.det := rfl
@[simp] theorem Strand.cStay_nbv (st : Strand) (w : CWait) : (st.cStay w).nbv = st.nbv := rfl
@[simp] theorem Strand.cStay_wdlimit (st : Strand) (w : CWait) : (st.cStay w).wdlimit = st.wdlimit := rfl
@[simp] theorem Strand.cStay_started (st : Strand) (w : CWait) : (st.cStay w).started = st.started := rfl
@[simp] theorem Strand.cStay_x (st : Strand) (w : CWait) : (st.cStay w).x = st.x := rfl
@[simp] theorem Strand.cStay_b (st : Strand) (w : CWait) : (st.cStay w).b = st.b := rfl
@[simp] theorem Strand.cStay_s (st : Strand) (w : CWait) : (st.cStay w).s = st.s := rfl
@[simp] theorem Strand.cStay_t (st : Strand) (w : CWait) : (st.cStay w).t = st.t := rfl
@[simp] theorem Strand.cStay_acc (st : Strand) (w : CWait) : (st.cStay w).acc = st.acc := rfl
@[simp] theorem Strand.cStay_k (st : Strand) (w : CWait) : (st.cStay w).k = st.k := rfl
@[simp] theorem Strand.cStay_cb (st : Strand) (w : CWait) : (st.cStay w).cb = st.cb := rfl
@[simp] theorem Strand.cStay_tshape (st : Strand) (w : CWait) : (st.cStay w).tshape = st.tshape := rfl
@[simp] theorem Strand.cStay_dqfmtlx (st : Strand) (w : CWait) : (st.cStay w).dqfmtlx = st.dqfmtlx := rfl
@[simp] theorem Strand.cStay_dqfmtxs (st : Strand) (w : CWait) : (st.cStay w).dqfmtxs = st.dqfmtxs := rfl
@[simp] theorem Strand.cStay_srseed (st : Strand) (w : CWait) : (st.cStay w).srseed = st.srseed := rfl
@[simp] theorem Strand.cStay_srctr (st : Strand) (w : CWait) : (st.cStay w).srctr = st.srctr := rfl
@[simp] theorem Strand.cStay_dqsnlx (st : Strand) (w : CWait) : (st.cStay w).dqsnlx = st.dqsnlx := rfl
@[simp] theorem Strand.cStay_dqsnxs (st : Strand) (w : CWait) : (st.cStay w).dqsnxs = st.dqsnxs := rfl
@[simp] theorem Strand.cStay_tvec (st : Strand) (w : CWait) : (st.cStay w).tvec = st.tvec := rfl
@[simp] theorem Strand.cStay_tepc (st : Strand) (w : CWait) : (st.cStay w).tepc = st.tepc := rfl
@[simp] theorem Strand.cStay_tcause (st : Strand) (w : CWait) : (st.cStay w).tcause = st.tcause := rfl
@[simp] theorem Strand.cStay_act (st : Strand) (w : CWait) : (st.cStay w).act = st.act := rfl
@[simp] theorem Strand.cStay_intr (st : Strand) (w : CWait) : (st.cStay w).intr = st.intr := rfl
@[simp] theorem Strand.cStay_cost (st : Strand) (w : CWait) : (st.cStay w).cost = st.cost := rfl
@[simp] theorem Strand.cStay_tokens (st : Strand) (w : CWait) : (st.cStay w).tokens = st.tokens := rfl
@[simp] theorem Strand.cStay_dqlx (st : Strand) (w : CWait) : (st.cStay w).dqlx = st.dqlx := rfl
@[simp] theorem Strand.cStay_dqxs (st : Strand) (w : CWait) : (st.cStay w).dqxs = st.dqxs := rfl
@[simp] theorem Strand.cStay_bq (st : Strand) (w : CWait) : (st.cStay w).bq = st.bq := rfl
@[simp] theorem Strand.cStay_rq (st : Strand) (w : CWait) : (st.cStay w).rq = st.rq := rfl
@[simp] theorem Strand.cStay_ms (st : Strand) (w : CWait) : (st.cStay w).ms = st.ms := rfl
@[simp] theorem Strand.cStay_wlo (st : Strand) (w : CWait) : (st.cStay w).wlo = st.wlo := rfl
@[simp] theorem Strand.cStay_whi (st : Strand) (w : CWait) : (st.cStay w).whi = st.whi := rfl
@[simp] theorem Strand.cStay_wn (st : Strand) (w : CWait) : (st.cStay w).wn = st.wn := rfl
@[simp] theorem Strand.cStay_tl (st : Strand) (w : CWait) : (st.cStay w).tl = st.tl := rfl
@[simp] theorem Strand.cStay_c (st : Strand) (w : CWait) : (st.cStay w).c = st.c.stay w := rfl
@[simp] theorem Strand.cStay_l (st : Strand) (w : CWait) : (st.cStay w).l = st.l := rfl
@[simp] theorem Strand.cStay_xs (st : Strand) (w : CWait) : (st.cStay w).xs = st.xs := rfl
@[simp] theorem Strand.cStay_ss (st : Strand) (w : CWait) : (st.cStay w).ss = st.ss := rfl
@[simp] theorem Strand.cStay_lqprev (st : Strand) (w : CWait) : (st.cStay w).lqprev = st.lqprev := rfl
@[simp] theorem Strand.cStay_episode (st : Strand) (w : CWait) : (st.cStay w).episode = st.episode := rfl
@[simp] theorem Strand.cStay_contest (st : Strand) (w : CWait) : (st.cStay w).contest = st.contest := rfl
@[simp] theorem Strand.cStay_ops (st : Strand) (w : CWait) : (st.cStay w).ops = st.ops := rfl
@[simp] theorem Strand.cStay_ordered (st : Strand) (w : CWait) : (st.cStay w).ordered = st.ordered := rfl
@[simp] theorem Strand.cStay_rmax (st : Strand) (w : CWait) : (st.cStay w).rmax = st.rmax := rfl
@[simp] theorem Strand.cStay_margin (st : Strand) (w : CWait) : (st.cStay w).margin = st.margin := rfl
@[simp] theorem Strand.cStay_heads (st : Strand) (w : CWait) : (st.cStay w).heads = st.heads := rfl
@[simp] theorem Strand.cStay_hfact (st : Strand) (w : CWait) : (st.cStay w).hfact = st.hfact := rfl
@[simp] theorem Strand.cStay_hfret (st : Strand) (w : CWait) : (st.cStay w).hfret = st.hfret := rfl
@[simp] theorem Strand.cStay_hfdep (st : Strand) (w : CWait) : (st.cStay w).hfdep = st.hfdep := rfl
@[simp] theorem Strand.cStay_tlb (st : Strand) (w : CWait) : (st.cStay w).tlb = st.tlb := rfl
@[simp] theorem Strand.cStay_pages (st : Strand) (w : CWait) : (st.cStay w).pages = st.pages := rfl
@[simp] theorem Strand.cStay_scyc (st : Strand) (w : CWait) : (st.cStay w).scyc = st.scyc := rfl
@[simp] theorem Strand.cStay_wdcount (st : Strand) (w : CWait) : (st.cStay w).wdcount = st.wdcount := rfl
@[simp] theorem Strand.cStay_quantum (st : Strand) (w : CWait) : (st.cStay w).quantum = st.quantum := rfl
@[simp] theorem Strand.cStay_lateBars (st : Strand) (w : CWait) : (st.cStay w).lateBars = st.lateBars := rfl
@[simp] theorem Strand.cStay_pendingFaults (st : Strand) (w : CWait) : (st.cStay w).pendingFaults = st.pendingFaults := rfl

/-! ### wx -/

@[simp] theorem Strand.wx_uid (st : Strand) (r : Reg) (v : Word) : (st.wx r v).uid = st.uid := by
  unfold Strand.wx; split <;> rfl
@[simp] theorem Strand.wx_launch (st : Strand) (r : Reg) (v : Word) : (st.wx r v).launch = st.launch := by
  unfold Strand.wx; split <;> rfl
@[simp] theorem Strand.wx_index (st : Strand) (r : Reg) (v : Word) : (st.wx r v).index = st.index := by
  unfold Strand.wx; split <;> rfl
@[simp] theorem Strand.wx_queue (st : Strand) (r : Reg) (v : Word) : (st.wx r v).queue = st.queue := by
  unfold Strand.wx; split <;> rfl
@[simp] theorem Strand.wx_pkt (st : Strand) (r : Reg) (v : Word) : (st.wx r v).pkt = st.pkt := by
  unfold Strand.wx; split <;> rfl
@[simp] theorem Strand.wx_fn (st : Strand) (r : Reg) (v : Word) : (st.wx r v).fn = st.fn := by
  unfold Strand.wx; split <;> rfl
@[simp] theorem Strand.wx_det (st : Strand) (r : Reg) (v : Word) : (st.wx r v).det = st.det := by
  unfold Strand.wx; split <;> rfl
@[simp] theorem Strand.wx_nbv (st : Strand) (r : Reg) (v : Word) : (st.wx r v).nbv = st.nbv := by
  unfold Strand.wx; split <;> rfl
@[simp] theorem Strand.wx_wdlimit (st : Strand) (r : Reg) (v : Word) : (st.wx r v).wdlimit = st.wdlimit := by
  unfold Strand.wx; split <;> rfl
@[simp] theorem Strand.wx_started (st : Strand) (r : Reg) (v : Word) : (st.wx r v).started = st.started := by
  unfold Strand.wx; split <;> rfl
@[simp] theorem Strand.wx_b (st : Strand) (r : Reg) (v : Word) : (st.wx r v).b = st.b := by
  unfold Strand.wx; split <;> rfl
@[simp] theorem Strand.wx_s (st : Strand) (r : Reg) (v : Word) : (st.wx r v).s = st.s := by
  unfold Strand.wx; split <;> rfl
@[simp] theorem Strand.wx_t (st : Strand) (r : Reg) (v : Word) : (st.wx r v).t = st.t := by
  unfold Strand.wx; split <;> rfl
@[simp] theorem Strand.wx_acc (st : Strand) (r : Reg) (v : Word) : (st.wx r v).acc = st.acc := by
  unfold Strand.wx; split <;> rfl
@[simp] theorem Strand.wx_k (st : Strand) (r : Reg) (v : Word) : (st.wx r v).k = st.k := by
  unfold Strand.wx; split <;> rfl
@[simp] theorem Strand.wx_cb (st : Strand) (r : Reg) (v : Word) : (st.wx r v).cb = st.cb := by
  unfold Strand.wx; split <;> rfl
@[simp] theorem Strand.wx_tshape (st : Strand) (r : Reg) (v : Word) : (st.wx r v).tshape = st.tshape := by
  unfold Strand.wx; split <;> rfl
@[simp] theorem Strand.wx_dqfmtlx (st : Strand) (r : Reg) (v : Word) : (st.wx r v).dqfmtlx = st.dqfmtlx := by
  unfold Strand.wx; split <;> rfl
@[simp] theorem Strand.wx_dqfmtxs (st : Strand) (r : Reg) (v : Word) : (st.wx r v).dqfmtxs = st.dqfmtxs := by
  unfold Strand.wx; split <;> rfl
@[simp] theorem Strand.wx_srseed (st : Strand) (r : Reg) (v : Word) : (st.wx r v).srseed = st.srseed := by
  unfold Strand.wx; split <;> rfl
@[simp] theorem Strand.wx_srctr (st : Strand) (r : Reg) (v : Word) : (st.wx r v).srctr = st.srctr := by
  unfold Strand.wx; split <;> rfl
@[simp] theorem Strand.wx_dqsnlx (st : Strand) (r : Reg) (v : Word) : (st.wx r v).dqsnlx = st.dqsnlx := by
  unfold Strand.wx; split <;> rfl
@[simp] theorem Strand.wx_dqsnxs (st : Strand) (r : Reg) (v : Word) : (st.wx r v).dqsnxs = st.dqsnxs := by
  unfold Strand.wx; split <;> rfl
@[simp] theorem Strand.wx_tvec (st : Strand) (r : Reg) (v : Word) : (st.wx r v).tvec = st.tvec := by
  unfold Strand.wx; split <;> rfl
@[simp] theorem Strand.wx_tepc (st : Strand) (r : Reg) (v : Word) : (st.wx r v).tepc = st.tepc := by
  unfold Strand.wx; split <;> rfl
@[simp] theorem Strand.wx_tcause (st : Strand) (r : Reg) (v : Word) : (st.wx r v).tcause = st.tcause := by
  unfold Strand.wx; split <;> rfl
@[simp] theorem Strand.wx_act (st : Strand) (r : Reg) (v : Word) : (st.wx r v).act = st.act := by
  unfold Strand.wx; split <;> rfl
@[simp] theorem Strand.wx_intr (st : Strand) (r : Reg) (v : Word) : (st.wx r v).intr = st.intr := by
  unfold Strand.wx; split <;> rfl
@[simp] theorem Strand.wx_cost (st : Strand) (r : Reg) (v : Word) : (st.wx r v).cost = st.cost := by
  unfold Strand.wx; split <;> rfl
@[simp] theorem Strand.wx_tokens (st : Strand) (r : Reg) (v : Word) : (st.wx r v).tokens = st.tokens := by
  unfold Strand.wx; split <;> rfl
@[simp] theorem Strand.wx_dqlx (st : Strand) (r : Reg) (v : Word) : (st.wx r v).dqlx = st.dqlx := by
  unfold Strand.wx; split <;> rfl
@[simp] theorem Strand.wx_dqxs (st : Strand) (r : Reg) (v : Word) : (st.wx r v).dqxs = st.dqxs := by
  unfold Strand.wx; split <;> rfl
@[simp] theorem Strand.wx_bq (st : Strand) (r : Reg) (v : Word) : (st.wx r v).bq = st.bq := by
  unfold Strand.wx; split <;> rfl
@[simp] theorem Strand.wx_rq (st : Strand) (r : Reg) (v : Word) : (st.wx r v).rq = st.rq := by
  unfold Strand.wx; split <;> rfl
@[simp] theorem Strand.wx_ms (st : Strand) (r : Reg) (v : Word) : (st.wx r v).ms = st.ms := by
  unfold Strand.wx; split <;> rfl
@[simp] theorem Strand.wx_wlo (st : Strand) (r : Reg) (v : Word) : (st.wx r v).wlo = st.wlo := by
  unfold Strand.wx; split <;> rfl
@[simp] theorem Strand.wx_whi (st : Strand) (r : Reg) (v : Word) : (st.wx r v).whi = st.whi := by
  unfold Strand.wx; split <;> rfl
@[simp] theorem Strand.wx_wn (st : Strand) (r : Reg) (v : Word) : (st.wx r v).wn = st.wn := by
  unfold Strand.wx; split <;> rfl
@[simp] theorem Strand.wx_tl (st : Strand) (r : Reg) (v : Word) : (st.wx r v).tl = st.tl := by
  unfold Strand.wx; split <;> rfl
@[simp] theorem Strand.wx_c (st : Strand) (r : Reg) (v : Word) : (st.wx r v).c = st.c := by
  unfold Strand.wx; split <;> rfl
@[simp] theorem Strand.wx_l (st : Strand) (r : Reg) (v : Word) : (st.wx r v).l = st.l := by
  unfold Strand.wx; split <;> rfl
@[simp] theorem Strand.wx_xs (st : Strand) (r : Reg) (v : Word) : (st.wx r v).xs = st.xs := by
  unfold Strand.wx; split <;> rfl
@[simp] theorem Strand.wx_ss (st : Strand) (r : Reg) (v : Word) : (st.wx r v).ss = st.ss := by
  unfold Strand.wx; split <;> rfl
@[simp] theorem Strand.wx_lqprev (st : Strand) (r : Reg) (v : Word) : (st.wx r v).lqprev = st.lqprev := by
  unfold Strand.wx; split <;> rfl
@[simp] theorem Strand.wx_episode (st : Strand) (r : Reg) (v : Word) : (st.wx r v).episode = st.episode := by
  unfold Strand.wx; split <;> rfl
@[simp] theorem Strand.wx_contest (st : Strand) (r : Reg) (v : Word) : (st.wx r v).contest = st.contest := by
  unfold Strand.wx; split <;> rfl
@[simp] theorem Strand.wx_ops (st : Strand) (r : Reg) (v : Word) : (st.wx r v).ops = st.ops := by
  unfold Strand.wx; split <;> rfl
@[simp] theorem Strand.wx_ordered (st : Strand) (r : Reg) (v : Word) : (st.wx r v).ordered = st.ordered := by
  unfold Strand.wx; split <;> rfl
@[simp] theorem Strand.wx_rmax (st : Strand) (r : Reg) (v : Word) : (st.wx r v).rmax = st.rmax := by
  unfold Strand.wx; split <;> rfl
@[simp] theorem Strand.wx_margin (st : Strand) (r : Reg) (v : Word) : (st.wx r v).margin = st.margin := by
  unfold Strand.wx; split <;> rfl
@[simp] theorem Strand.wx_heads (st : Strand) (r : Reg) (v : Word) : (st.wx r v).heads = st.heads := by
  unfold Strand.wx; split <;> rfl
@[simp] theorem Strand.wx_hfact (st : Strand) (r : Reg) (v : Word) : (st.wx r v).hfact = st.hfact := by
  unfold Strand.wx; split <;> rfl
@[simp] theorem Strand.wx_hfret (st : Strand) (r : Reg) (v : Word) : (st.wx r v).hfret = st.hfret := by
  unfold Strand.wx; split <;> rfl
@[simp] theorem Strand.wx_hfdep (st : Strand) (r : Reg) (v : Word) : (st.wx r v).hfdep = st.hfdep := by
  unfold Strand.wx; split <;> rfl
@[simp] theorem Strand.wx_tlb (st : Strand) (r : Reg) (v : Word) : (st.wx r v).tlb = st.tlb := by
  unfold Strand.wx; split <;> rfl
@[simp] theorem Strand.wx_pages (st : Strand) (r : Reg) (v : Word) : (st.wx r v).pages = st.pages := by
  unfold Strand.wx; split <;> rfl
@[simp] theorem Strand.wx_scyc (st : Strand) (r : Reg) (v : Word) : (st.wx r v).scyc = st.scyc := by
  unfold Strand.wx; split <;> rfl
@[simp] theorem Strand.wx_wdcount (st : Strand) (r : Reg) (v : Word) : (st.wx r v).wdcount = st.wdcount := by
  unfold Strand.wx; split <;> rfl
@[simp] theorem Strand.wx_quantum (st : Strand) (r : Reg) (v : Word) : (st.wx r v).quantum = st.quantum := by
  unfold Strand.wx; split <;> rfl
@[simp] theorem Strand.wx_lateBars (st : Strand) (r : Reg) (v : Word) : (st.wx r v).lateBars = st.lateBars := by
  unfold Strand.wx; split <;> rfl
@[simp] theorem Strand.wx_pendingFaults (st : Strand) (r : Reg) (v : Word) : (st.wx r v).pendingFaults = st.pendingFaults := by
  unfold Strand.wx; split <;> rfl

/-! ### wb -/

@[simp] theorem Strand.wb_uid (st : Strand) (n : Nat) (v : Word) : (st.wb n v).uid = st.uid := by
  unfold Strand.wb; split <;> rfl
@[simp] theorem Strand.wb_launch (st : Strand) (n : Nat) (v : Word) : (st.wb n v).launch = st.launch := by
  unfold Strand.wb; split <;> rfl
@[simp] theorem Strand.wb_index (st : Strand) (n : Nat) (v : Word) : (st.wb n v).index = st.index := by
  unfold Strand.wb; split <;> rfl
@[simp] theorem Strand.wb_queue (st : Strand) (n : Nat) (v : Word) : (st.wb n v).queue = st.queue := by
  unfold Strand.wb; split <;> rfl
@[simp] theorem Strand.wb_pkt (st : Strand) (n : Nat) (v : Word) : (st.wb n v).pkt = st.pkt := by
  unfold Strand.wb; split <;> rfl
@[simp] theorem Strand.wb_fn (st : Strand) (n : Nat) (v : Word) : (st.wb n v).fn = st.fn := by
  unfold Strand.wb; split <;> rfl
@[simp] theorem Strand.wb_det (st : Strand) (n : Nat) (v : Word) : (st.wb n v).det = st.det := by
  unfold Strand.wb; split <;> rfl
@[simp] theorem Strand.wb_nbv (st : Strand) (n : Nat) (v : Word) : (st.wb n v).nbv = st.nbv := by
  unfold Strand.wb; split <;> rfl
@[simp] theorem Strand.wb_wdlimit (st : Strand) (n : Nat) (v : Word) : (st.wb n v).wdlimit = st.wdlimit := by
  unfold Strand.wb; split <;> rfl
@[simp] theorem Strand.wb_started (st : Strand) (n : Nat) (v : Word) : (st.wb n v).started = st.started := by
  unfold Strand.wb; split <;> rfl
@[simp] theorem Strand.wb_x (st : Strand) (n : Nat) (v : Word) : (st.wb n v).x = st.x := by
  unfold Strand.wb; split <;> rfl
@[simp] theorem Strand.wb_s (st : Strand) (n : Nat) (v : Word) : (st.wb n v).s = st.s := by
  unfold Strand.wb; split <;> rfl
@[simp] theorem Strand.wb_t (st : Strand) (n : Nat) (v : Word) : (st.wb n v).t = st.t := by
  unfold Strand.wb; split <;> rfl
@[simp] theorem Strand.wb_acc (st : Strand) (n : Nat) (v : Word) : (st.wb n v).acc = st.acc := by
  unfold Strand.wb; split <;> rfl
@[simp] theorem Strand.wb_k (st : Strand) (n : Nat) (v : Word) : (st.wb n v).k = st.k := by
  unfold Strand.wb; split <;> rfl
@[simp] theorem Strand.wb_cb (st : Strand) (n : Nat) (v : Word) : (st.wb n v).cb = st.cb := by
  unfold Strand.wb; split <;> rfl
@[simp] theorem Strand.wb_tshape (st : Strand) (n : Nat) (v : Word) : (st.wb n v).tshape = st.tshape := by
  unfold Strand.wb; split <;> rfl
@[simp] theorem Strand.wb_dqfmtlx (st : Strand) (n : Nat) (v : Word) : (st.wb n v).dqfmtlx = st.dqfmtlx := by
  unfold Strand.wb; split <;> rfl
@[simp] theorem Strand.wb_dqfmtxs (st : Strand) (n : Nat) (v : Word) : (st.wb n v).dqfmtxs = st.dqfmtxs := by
  unfold Strand.wb; split <;> rfl
@[simp] theorem Strand.wb_srseed (st : Strand) (n : Nat) (v : Word) : (st.wb n v).srseed = st.srseed := by
  unfold Strand.wb; split <;> rfl
@[simp] theorem Strand.wb_srctr (st : Strand) (n : Nat) (v : Word) : (st.wb n v).srctr = st.srctr := by
  unfold Strand.wb; split <;> rfl
@[simp] theorem Strand.wb_dqsnlx (st : Strand) (n : Nat) (v : Word) : (st.wb n v).dqsnlx = st.dqsnlx := by
  unfold Strand.wb; split <;> rfl
@[simp] theorem Strand.wb_dqsnxs (st : Strand) (n : Nat) (v : Word) : (st.wb n v).dqsnxs = st.dqsnxs := by
  unfold Strand.wb; split <;> rfl
@[simp] theorem Strand.wb_tvec (st : Strand) (n : Nat) (v : Word) : (st.wb n v).tvec = st.tvec := by
  unfold Strand.wb; split <;> rfl
@[simp] theorem Strand.wb_tepc (st : Strand) (n : Nat) (v : Word) : (st.wb n v).tepc = st.tepc := by
  unfold Strand.wb; split <;> rfl
@[simp] theorem Strand.wb_tcause (st : Strand) (n : Nat) (v : Word) : (st.wb n v).tcause = st.tcause := by
  unfold Strand.wb; split <;> rfl
@[simp] theorem Strand.wb_act (st : Strand) (n : Nat) (v : Word) : (st.wb n v).act = st.act := by
  unfold Strand.wb; split <;> rfl
@[simp] theorem Strand.wb_intr (st : Strand) (n : Nat) (v : Word) : (st.wb n v).intr = st.intr := by
  unfold Strand.wb; split <;> rfl
@[simp] theorem Strand.wb_cost (st : Strand) (n : Nat) (v : Word) : (st.wb n v).cost = st.cost := by
  unfold Strand.wb; split <;> rfl
@[simp] theorem Strand.wb_tokens (st : Strand) (n : Nat) (v : Word) : (st.wb n v).tokens = st.tokens := by
  unfold Strand.wb; split <;> rfl
@[simp] theorem Strand.wb_dqlx (st : Strand) (n : Nat) (v : Word) : (st.wb n v).dqlx = st.dqlx := by
  unfold Strand.wb; split <;> rfl
@[simp] theorem Strand.wb_dqxs (st : Strand) (n : Nat) (v : Word) : (st.wb n v).dqxs = st.dqxs := by
  unfold Strand.wb; split <;> rfl
@[simp] theorem Strand.wb_bq (st : Strand) (n : Nat) (v : Word) : (st.wb n v).bq = st.bq := by
  unfold Strand.wb; split <;> rfl
@[simp] theorem Strand.wb_rq (st : Strand) (n : Nat) (v : Word) : (st.wb n v).rq = st.rq := by
  unfold Strand.wb; split <;> rfl
@[simp] theorem Strand.wb_ms (st : Strand) (n : Nat) (v : Word) : (st.wb n v).ms = st.ms := by
  unfold Strand.wb; split <;> rfl
@[simp] theorem Strand.wb_wlo (st : Strand) (n : Nat) (v : Word) : (st.wb n v).wlo = st.wlo := by
  unfold Strand.wb; split <;> rfl
@[simp] theorem Strand.wb_whi (st : Strand) (n : Nat) (v : Word) : (st.wb n v).whi = st.whi := by
  unfold Strand.wb; split <;> rfl
@[simp] theorem Strand.wb_wn (st : Strand) (n : Nat) (v : Word) : (st.wb n v).wn = st.wn := by
  unfold Strand.wb; split <;> rfl
@[simp] theorem Strand.wb_tl (st : Strand) (n : Nat) (v : Word) : (st.wb n v).tl = st.tl := by
  unfold Strand.wb; split <;> rfl
@[simp] theorem Strand.wb_c (st : Strand) (n : Nat) (v : Word) : (st.wb n v).c = st.c := by
  unfold Strand.wb; split <;> rfl
@[simp] theorem Strand.wb_l (st : Strand) (n : Nat) (v : Word) : (st.wb n v).l = st.l := by
  unfold Strand.wb; split <;> rfl
@[simp] theorem Strand.wb_xs (st : Strand) (n : Nat) (v : Word) : (st.wb n v).xs = st.xs := by
  unfold Strand.wb; split <;> rfl
@[simp] theorem Strand.wb_ss (st : Strand) (n : Nat) (v : Word) : (st.wb n v).ss = st.ss := by
  unfold Strand.wb; split <;> rfl
@[simp] theorem Strand.wb_lqprev (st : Strand) (n : Nat) (v : Word) : (st.wb n v).lqprev = st.lqprev := by
  unfold Strand.wb; split <;> rfl
@[simp] theorem Strand.wb_episode (st : Strand) (n : Nat) (v : Word) : (st.wb n v).episode = st.episode := by
  unfold Strand.wb; split <;> rfl
@[simp] theorem Strand.wb_contest (st : Strand) (n : Nat) (v : Word) : (st.wb n v).contest = st.contest := by
  unfold Strand.wb; split <;> rfl
@[simp] theorem Strand.wb_ops (st : Strand) (n : Nat) (v : Word) : (st.wb n v).ops = st.ops := by
  unfold Strand.wb; split <;> rfl
@[simp] theorem Strand.wb_ordered (st : Strand) (n : Nat) (v : Word) : (st.wb n v).ordered = st.ordered := by
  unfold Strand.wb; split <;> rfl
@[simp] theorem Strand.wb_rmax (st : Strand) (n : Nat) (v : Word) : (st.wb n v).rmax = st.rmax := by
  unfold Strand.wb; split <;> rfl
@[simp] theorem Strand.wb_margin (st : Strand) (n : Nat) (v : Word) : (st.wb n v).margin = st.margin := by
  unfold Strand.wb; split <;> rfl
@[simp] theorem Strand.wb_heads (st : Strand) (n : Nat) (v : Word) : (st.wb n v).heads = st.heads := by
  unfold Strand.wb; split <;> rfl
@[simp] theorem Strand.wb_hfact (st : Strand) (n : Nat) (v : Word) : (st.wb n v).hfact = st.hfact := by
  unfold Strand.wb; split <;> rfl
@[simp] theorem Strand.wb_hfret (st : Strand) (n : Nat) (v : Word) : (st.wb n v).hfret = st.hfret := by
  unfold Strand.wb; split <;> rfl
@[simp] theorem Strand.wb_hfdep (st : Strand) (n : Nat) (v : Word) : (st.wb n v).hfdep = st.hfdep := by
  unfold Strand.wb; split <;> rfl
@[simp] theorem Strand.wb_tlb (st : Strand) (n : Nat) (v : Word) : (st.wb n v).tlb = st.tlb := by
  unfold Strand.wb; split <;> rfl
@[simp] theorem Strand.wb_pages (st : Strand) (n : Nat) (v : Word) : (st.wb n v).pages = st.pages := by
  unfold Strand.wb; split <;> rfl
@[simp] theorem Strand.wb_scyc (st : Strand) (n : Nat) (v : Word) : (st.wb n v).scyc = st.scyc := by
  unfold Strand.wb; split <;> rfl
@[simp] theorem Strand.wb_wdcount (st : Strand) (n : Nat) (v : Word) : (st.wb n v).wdcount = st.wdcount := by
  unfold Strand.wb; split <;> rfl
@[simp] theorem Strand.wb_quantum (st : Strand) (n : Nat) (v : Word) : (st.wb n v).quantum = st.quantum := by
  unfold Strand.wb; split <;> rfl
@[simp] theorem Strand.wb_lateBars (st : Strand) (n : Nat) (v : Word) : (st.wb n v).lateBars = st.lateBars := by
  unfold Strand.wb; split <;> rfl
@[simp] theorem Strand.wb_pendingFaults (st : Strand) (n : Nat) (v : Word) : (st.wb n v).pendingFaults = st.pendingFaults := by
  unfold Strand.wb; split <;> rfl

end Sys2Proof.Machine
end

