-- ==== Sys2Proof/Laws/Memory.lean ====
section
/-! SUPPORT. Laws of memory: what a read gives after a write, and that every memory operation keeps the one form. -/

namespace Sys2Proof.Machine

@[simp] theorem readByte_writeByte_self (m : List Host.Cell) (a : Nat) (v : Byte) : readByte (writeByte m a v) a = v :=
  cellGet_cellSet_self _ _ _ _

theorem readByte_writeByte_of_ne (m : List Host.Cell) {a b : Nat} (v : Byte) (h : b ≠ a) :
    readByte (writeByte m a v) b = readByte m b := cellGet_cellSet_of_ne _ _ _ h

theorem readByte_writeBytes_below (m : List Host.Cell) (a b : Nat) (vs : List Byte) (h : b < a) :
    readByte (writeBytes m a vs) b = readByte m b := by
  induction vs generalizing m a with
  | nil => rfl
  | cons v vs ih => rw [writeBytes, ih _ _ (by omega), readByte_writeByte_of_ne _ _ (by omega)]

theorem readByte_writeBytes_above (m : List Host.Cell) (a b : Nat) (vs : List Byte) (h : a + vs.length ≤ b) :
    readByte (writeBytes m a vs) b = readByte m b := by
  induction vs generalizing m a with
  | nil => rfl
  | cons v vs ih =>
    simp only [List.length_cons] at h
    rw [writeBytes, ih _ _ (by omega), readByte_writeByte_of_ne _ _ (by omega)]

/-- The byte a write of bytes leaves at a place it covers. -/
theorem readByte_writeBytes (m : List Host.Cell) (a i : Nat) (vs : List Byte) (h : i < vs.length) :
    readByte (writeBytes m a vs) (a + i) = vs[i] := by
  induction vs generalizing m a i with
  | nil => simp at h
  | cons v vs ih =>
    cases i with
    | zero => rw [writeBytes, readByte_writeBytes_below _ _ _ _ (by omega)]; simp
    | succ i =>
      simp only [List.length_cons] at h
      rw [writeBytes, show a + (i + 1) = a + 1 + i by omega, ih _ _ _ (by omega)]
      simp

theorem readBytes_congr (m n : List Host.Cell) (a k : Nat) (h : ∀ i, i < k → readByte m (a + i) = readByte n (a + i)) :
    readBytes m a k = readBytes n a k := by
  induction k generalizing a with
  | zero => rfl
  | succ k ih =>
    rw [readBytes, readBytes, show readByte m a = readByte n a from h 0 (by omega), ih (a + 1)]
    intro i hi
    rw [show a + 1 + i = a + (i + 1) by omega]
    exact h _ (by omega)

/-- Bytes read where they were written. -/
theorem readBytes_writeBytes (m : List Host.Cell) (a : Nat) (vs : List Byte) :
    readBytes (writeBytes m a vs) a vs.length = vs := by
  induction vs generalizing m a with
  | nil => rfl
  | cons v vs ih =>
    rw [writeBytes, List.length_cons, readBytes, ih]
    rw [readByte_writeBytes_below _ _ _ _ (by omega), readByte_writeByte_self]

@[simp] theorem leBytes_length (n v : Nat) : (leBytes n v).length = n := by
  induction n generalizing v with
  | zero => rfl
  | succ n ih => simp [leBytes, ih]

theorem leNat_leBytes (n v : Nat) : leNat (leBytes n v) = v % 256 ^ n := by
  induction n generalizing v with
  | zero => simp [leBytes, leNat, Nat.mod_one]
  | succ n ih =>
    rw [leBytes, leNat, ih, Nat.pow_succ, Nat.mul_comm (256 ^ n), Nat.mod_mul]
    simp [BitVec.toNat_ofNat]

/-- A number read where it was written. -/
theorem readNat_writeNat (m : List Host.Cell) (a n v : Nat) : readNat (writeNat m a n v) a n = v % 256 ^ n := by
  have h := readBytes_writeBytes m a (leBytes n v)
  rw [leBytes_length] at h
  rw [readNat, writeNat, h, leNat_leBytes]

/-- A number read apart from the bytes that were written. -/
theorem readNat_writeBytes_apart (m : List Host.Cell) (a b k : Nat) (vs : List Byte)
    (h : b + k ≤ a ∨ a + vs.length ≤ b) : readNat (writeBytes m a vs) b k = readNat m b k := by
  unfold readNat
  rw [readBytes_congr _ m]
  intro i hi
  rcases h with h | h
  · exact readByte_writeBytes_below _ _ _ _ (by omega)
  · exact readByte_writeBytes_above _ _ _ _ (by omega)

/-! ### The one form -/

theorem Memory.wf_writeByte {m : List Host.Cell} (a : Nat) (v : Byte) (h : Memory.wf m = true) :
    Memory.wf (writeByte m a v) = true := cellsWf_cellSet _ _ _ _ h

theorem Memory.wf_writeBytes {m : List Host.Cell} (a : Nat) (vs : List Byte) (h : Memory.wf m = true) :
    Memory.wf (writeBytes m a vs) = true := by
  induction vs generalizing m a with
  | nil => exact h
  | cons v vs ih => exact ih _ (Memory.wf_writeByte _ _ h)

theorem Memory.wf_writeNat {m : List Host.Cell} (a n v : Nat) (h : Memory.wf m = true) :
    Memory.wf (writeNat m a n v) = true := Memory.wf_writeBytes _ _ h

theorem Memory.wf_writeRow {m : List Host.Cell} (a : Nat) (r : Row) (h : Memory.wf m = true) :
    Memory.wf (writeRow m a r) = true := Memory.wf_writeNat _ _ _ h

theorem Memory.wf_atomicMem {m : List Host.Cell} (k : AtomKind) (a v e : Nat) (h : Memory.wf m = true) :
    Memory.wf (atomicMem m k a v e).2 = true := Memory.wf_writeNat _ _ _ h

theorem Memory.wf_writePieces {m : List Host.Cell} (ks : List (Nat × Nat)) (bs : List Byte) (h : Memory.wf m = true) :
    Memory.wf (writePieces m ks bs) = true := by
  induction ks generalizing m bs with
  | nil => exact h
  | cons p ks ih => exact ih _ (Memory.wf_writeBytes _ _ h)

theorem Memory.wf_foldl {β : Type} (f : List Host.Cell → β → List Host.Cell)
    (hf : ∀ m b, Memory.wf m = true → Memory.wf (f m b) = true) (l : List β) {m : List Host.Cell}
    (h : Memory.wf m = true) : Memory.wf (l.foldl f m) = true := by
  induction l generalizing m with
  | nil => exact h
  | cons b l ih => exact ih (hf _ _ h)

theorem Memory.wf_maskedWrite {m : List Host.Cell} (k : Nat) (row : Row) (mask : BitVec 128)
    (h : Memory.wf m = true) : Memory.wf (maskedWrite m k row mask) = true := by
  refine Memory.wf_foldl _ (fun m i hm => ?_) _ h
  split
  · exact Memory.wf_writeByte _ _ hm
  · exact hm

/-- Memory right after reset has the one form. -/
theorem Memory.wf_reset : Memory.wf State.reset.mem = true := rfl

end Sys2Proof.Machine
end

