-- ==== Sys2Proof/Laws/Ops.lean ====
section
/-! SUPPORT. One lemma for each shared operation of words and records, which says once what it does. -/

namespace Sys2Proof.Machine

/-! ### Registers of C -/

@[simp] theorem Strand.rx_zero (st : Strand) : st.rx 0 = 0 := by simp [Strand.rx]

theorem Strand.wx_zero (st : Strand) (v : Word) : st.wx 0 v = st := by simp [Strand.wx]

theorem Strand.rx_wx_self (st : Strand) {r : Reg} (v : Word) (h : r ≠ 0) : (st.wx r v).rx r = v := by
  unfold Strand.rx Strand.wx
  rw [if_neg h, if_neg h]
  simp

theorem Strand.rx_wx_of_ne (st : Strand) {r q : Reg} (v : Word) (h : q ≠ r) : (st.wx r v).rx q = st.rx q := by
  unfold Strand.wx
  split
  · rfl
  · unfold Strand.rx
    split
    · rfl
    · have : r.toNat ≠ q.toNat := fun e => h (BitVec.eq_of_toNat_eq e.symm)
      simp [this]

@[simp] theorem Strand.rx_cNext (st : Strand) (r : Reg) : st.cNext.rx r = st.rx r := rfl
@[simp] theorem Strand.rx_cPass (st : Strand) (t : Word) (r : Reg) : (st.cPass t).rx r = st.rx r := rfl
@[simp] theorem Strand.rx_cJump (st : Strand) (t : Word) (r : Reg) : (st.cJump t).rx r = st.rx r := rfl
@[simp] theorem Strand.rx_cStay (st : Strand) (w : CWait) (r : Reg) : (st.cStay w).rx r = st.rx r := rfl

theorem Strand.rb_wb_self (st : Strand) {n : Nat} (v : Word) (h : n < 32) : (st.wb n v).rb n = v := by
  simp [Strand.rb, Strand.wb, h]

theorem Strand.rb_wb_of_ne (st : Strand) {n m : Nat} (v : Word) (h : m ≠ n) : (st.wb n v).rb m = st.rb m := by
  unfold Strand.wb
  split
  · unfold Strand.rb
    split
    · simp [Ne.symm h]
    · rfl
  · rfl

/-! ### C's place -/

@[simp] theorem CSeq.next_pc (c : CSeq) : c.next.pc = c.pc + 8 := rfl
@[simp] theorem CSeq.next_seqno (c : CSeq) : c.next.seqno = c.seqno + 1 := rfl
@[simp] theorem CSeq.next_wait (c : CSeq) : c.next.wait = .idle := rfl
@[simp] theorem CSeq.pass_pc (c : CSeq) (t : Word) : (c.pass t).pc = c.pc + 8 := rfl
@[simp] theorem CSeq.pass_seqno (c : CSeq) (t : Word) : (c.pass t).seqno = c.seqno + 1 := rfl
@[simp] theorem CSeq.pass_wait (c : CSeq) (t : Word) : (c.pass t).wait = .idle := rfl
@[simp] theorem CSeq.next_targets (c : CSeq) : c.next.targets = c.targets := rfl
@[simp] theorem CSeq.jump_targets (c : CSeq) (t : Word) : (c.jump t).targets = [] := rfl
@[simp] theorem CSeq.jump_pc (c : CSeq) (t : Word) : (c.jump t).pc = t := rfl
@[simp] theorem CSeq.jump_seqno (c : CSeq) (t : Word) : (c.jump t).seqno = c.seqno + 1 := rfl
@[simp] theorem CSeq.jump_wait (c : CSeq) (t : Word) : (c.jump t).wait = .idle := rfl
@[simp] theorem CSeq.stay_wait (c : CSeq) (w : CWait) : (c.stay w).wait = w := rfl
@[simp] theorem CSeq.stay_pc (c : CSeq) (w : CWait) : (c.stay w).pc = c.pc := rfl

/-! ### Tokens and counters -/

theorem Strand.tokensAt_setTokens_self (st : Strand) {x y : Nat} (v : Nat) (h : 4 * x + y < 16) :
    (st.setTokens x y v).tokensAt x y = v := by simp [Strand.tokensAt, Strand.setTokens, h]

theorem Strand.tokensAt_setTokens_of_ne (st : Strand) {x y a b : Nat} (v : Nat) (h : 4 * x + y ≠ 4 * a + b) :
    (st.setTokens x y v).tokensAt a b = st.tokensAt a b := by
  unfold Strand.setTokens
  split
  · unfold Strand.tokensAt
    split
    · simp [h]
    · rfl
  · rfl

theorem Strand.tlAt_setTl_self (st : Strand) {i : Nat} (t : Timeline) (h : i < 9) : (st.setTl i t).tlAt i = t := by
  simp [Strand.tlAt, Strand.setTl, h]

theorem Strand.tlAt_setTl_of_ne (st : Strand) {i j : Nat} (t : Timeline) (h : j ≠ i) :
    (st.setTl i t).tlAt j = st.tlAt j := by
  unfold Strand.setTl
  split
  · unfold Strand.tlAt
    split
    · simp [Ne.symm h]
    · rfl
  · rfl

/-! ### Words of C -/

/-- What C executes is executed by the strand that runs. -/
theorem onC_eq {s : State} {st : Strand} (h : CRuns s st) (f : Nat → Strand → Out) :
    onC s f = f (runKey s.curTile) st := by
  obtain ⟨h1, h2, h3, h4⟩ := h
  simp [onC, h1, h2, h3, h4]

/-- A word of C that answers a next state was executed by a strand that runs. -/
theorem onC_next {s t : State} {f : Nat → Strand → Out} (h : onC s f = .next t) :
    ∃ st, CRuns s st ∧ f (runKey s.curTile) st = .next t := by
  unfold onC at h
  split at h
  · next st hst =>
    split at h
    · next hc =>
      simp only [Bool.and_eq_true, decide_eq_true_eq, Bool.not_eq_true'] at hc
      exact ⟨st, ⟨hst, hc.1.1, hc.1.2, hc.2⟩, h⟩
    · cases h
  · cases h

/-- A word that changes only its strand. -/
theorem onStrand_eq {s : State} {st : Strand} (h : CRuns s st) (f : Strand → Strand) :
    onStrand s f = .next (s.withStrand (f st)) := onC_eq h _

theorem onStrand_next {s t : State} {f : Strand → Strand} (h : onStrand s f = .next t) :
    ∃ st, CRuns s st ∧ t = s.withStrand (f st) := by
  obtain ⟨st, hc, h⟩ := onC_next h
  exact ⟨st, hc, by simpa [State.withStrand] using h.symm⟩

/-- A word that writes a result to xd and completes. -/
theorem writeBack_eq {s : State} {st : Strand} (h : CRuns s st) (xd : Reg) (f : Strand → Word) :
    writeBack s xd f = .next (s.withStrand ((st.wx xd (f st)).cNext)) := onStrand_eq h _

theorem writeBack_next {s t : State} {xd : Reg} {f : Strand → Word} (h : writeBack s xd f = .next t) :
    ∃ st, CRuns s st ∧ t = s.withStrand ((st.wx xd (f st)).cNext) := onStrand_next h

/-! ### The strand that has the turn -/

@[simp] theorem State.withStrand_mem (s : State) (st : Strand) : (s.withStrand st).mem = s.mem := rfl
@[simp] theorem State.withStrand_dev (s : State) (st : Strand) : (s.withStrand st).dev = s.dev := rfl
@[simp] theorem State.withStrand_planner (s : State) (st : Strand) : (s.withStrand st).planner = s.planner := rfl

@[simp] theorem State.withStrand_find (s : State) (st : Strand) :
    (s.withStrand st).strands.find? (runKey s.curTile) = some st := by
  simp [State.withStrand]

/-- A change of the strand that has the turn changes nothing else. -/
theorem sameBut_withStrand (s : State) (st : Strand) : SameBut s (s.withStrand st) := by
  refine ⟨rfl, fun k hk => ?_⟩
  simp [State.withStrand, PMap.find?_insert_of_ne _ _ hk]

/-- A result in xd and the advance of C change no other register. -/
theorem sameButReg_wx_cNext (st : Strand) (xd : Reg) (v : Word) : SameButReg xd st ((st.wx xd v).cNext) := by
  constructor
  · unfold Strand.wx
    split <;> rfl
  · intro r hr
    exact st.rx_wx_of_ne v hr

/-! ### Decode of a record -/

/-- A record decoded now: its token pops are made, and its body goes on with the operation it forms. -/
theorem decodeRec_eq {s : State} {st : Strand} {q : Seqr} {i : Instr} {r : Rec} (h : Decodes s st q i r)
    (body : State → Dec → Out) :
    decodeRec i r s body =
      let st1 := popTokens st q r
      let d := readAtDecode st1 q r
      body (s.withStrand st1) ⟨runKey s.curTile, st1, formOp st1 q i d, d, waitAtDecode st1 i r d⟩ := by
  obtain ⟨⟨h1, h2, h3, h4, h5⟩, h6, h7, h8, h9⟩ := h
  subst h2
  simp [decodeRec, h1, h3, h4, h5, h6, h7, h8, h9, State.withStrand]

/-! ### Taking an exception -/

/-- A strand without an open episode has none to settle. -/
theorem abandonEpisode_none {st : Strand} (h : st.episode = none) : abandonEpisode st = st := by
  simp [abandonEpisode, h]

/-- A fault of C that a handler takes: TEPC, TCAUSE, ACT and the pc, and one record with DELIVERED. -/
theorem takeFault_delivered {s : State} {key : Nat} {st : Strand} {r : Raise} (h : st.handles r.code = true)
    (he : st.episode = none) :
    takeFault s key st r =
      (logRecord s r (st.at key .c (st.c.seqno + 1)) { delivered := true }).setStrand key
        { st with
          tepc := st.c.pc, tcause := trapCause r, act := true
          c := { st.c with pc := st.tvec, seqno := st.c.seqno + 1, wait := .idle, window := [], targets := [] } } := by
  simp [takeFault, h, Strand.enterHandler, abandonEpisode_none he]

/-- A fault of C that no handler takes ends the strand. -/
theorem takeFault_ends {s : State} {key : Nat} {st : Strand} {r : Raise} (h : st.handles r.code = false) :
    takeFault s key st r = endByFault s key st r .c (st.c.seqno + 1) (r.code = .timing) := by
  simp [takeFault, h]

/-! ### Tokens that a path gives back -/

/-- Tokens given back to FIFOs into X: each FIFO has as many more as it is named. -/
theorem giveBack_tokensAt (l : List Nat) (st : Strand) {x : Nat} (h : x < 4) :
    (l.foldl (fun st j => st.setTokens j 2 (st.tokensAt j 2 + 1)) st).tokensAt x 2 = st.tokensAt x 2 + l.count x := by
  induction l generalizing st with
  | nil => rfl
  | cons j l ih =>
    rw [List.foldl_cons, ih, List.count_cons]
    by_cases e : j = x
    · subst e
      rw [Strand.tokensAt_setTokens_self _ _ (by omega)]
      simp
      omega
    · rw [Strand.tokensAt_setTokens_of_ne _ _ (by omega)]
      simp [e]

/-- Tokens given back to FIFOs into X change no FIFO into another sequencer. -/
theorem giveBack_tokensAt_of_ne (l : List Nat) (st : Strand) {x y : Nat} (h : y < 4) (e : y ≠ 2) :
    (l.foldl (fun st j => st.setTokens j 2 (st.tokensAt j 2 + 1)) st).tokensAt x y = st.tokensAt x y := by
  induction l generalizing st with
  | nil => rfl
  | cons j l ih => rw [List.foldl_cons, ih, Strand.tokensAt_setTokens_of_ne _ _ (by omega)]

/-! ### Pages -/

/-- The live pages below n + 1 are those below n, and n where it is live. -/
theorem livePages_succ (n : Nat) : livePages (n + 1) = livePages n + (livePage n).toNat := by
  unfold livePages livePage
  by_cases h : n % 128 < 96 <;> simp [h] <;> omega

/-! ### Copies that DRAIN waits for -/

/-- An issue reads nothing exactly where it has a layout and no element in bounds. -/
theorem Op.readsRow_false (o : Op) (n : Nat) : o.readsRow n = false ↔
    ∃ l, o.layout = some l ∧ ∀ p < o.issueElems l, inBounds l (idxOf o.r n) p = false := by
  unfold Op.readsRow
  cases o.layout <;> simp [anyInBounds]

/-- The issues from n on read nothing exactly where none of them does. -/
theorem Op.readsNone_iff (o : Op) (k n : Nat) :
    o.readsNone n k = true ↔ ∀ m, n ≤ m → m < n + k → o.readsRow m = false := by
  induction k generalizing n with
  | zero => simp only [Op.readsNone, true_iff]; omega
  | succ k ih =>
    simp only [Op.readsNone, Bool.and_eq_true, Bool.not_eq_true', ih]
    constructor
    · rintro ⟨h, g⟩ m hm hk
      rcases Nat.eq_or_lt_of_le hm with rfl | hl
      · exact h
      · exact g m hl (by omega)
    · exact fun h => ⟨h n (Nat.le_refl n) (by omega), fun m hm hk => h m (by omega) (by omega)⟩

theorem Op.drained_iff (o : Op) : o.drained = true ↔ o.phase = .complete ∨ ∃ r,
    (o.ins = .rld r ∨ o.ins = .tld r ∨ o.ins = .kld r ∨ o.ins = .rqld r) ∧
    (o.phase = .done ∨ (o.phase = .running ∧ o.waiting = [] ∧ ∀ m, o.n ≤ m → m < r.total →
      ∃ l, o.layout = some l ∧ ∀ p < o.issueElems l, inBounds l (idxOf o.r m) p = false)) := by
  have h (r : Rec) : o.readsNone o.n (r.total - o.n) = true ↔ ∀ m, o.n ≤ m → m < r.total →
      ∃ l, o.layout = some l ∧ ∀ p < o.issueElems l, inBounds l (idxOf o.r m) p = false := by
    rw [Op.readsNone_iff]
    simp only [Op.readsRow_false]
    exact ⟨fun g m hm hl => g m hm (by omega), fun g m hm hl => g m hm (by omega)⟩
  unfold Op.drained
  simp only [Bool.or_eq_true, decide_eq_true_eq]
  refine or_congr Iff.rfl ?_
  split <;> simp_all [and_assoc]

theorem copiesDone_iff (st : Strand) (ch v : Nat) : CopiesDone st ch v ↔ st.drained ch v = true := by
  simp only [CopiesDone, Strand.drained, List.all_eq_true, List.mem_range, Bool.or_eq_true, List.contains_iff_mem,
    List.any_eq_true, Bool.and_eq_true, decide_eq_true_eq, and_assoc, Op.drained_iff]
  constructor
  · intro h i hi
    exact h _ (by omega) (by omega)
  · intro h n hn hv
    have := h (n - (st.tlAt ch).completion - 1) (by omega)
    rwa [show (st.tlAt ch).completion + 1 + (n - (st.tlAt ch).completion - 1) = n by omega] at this

/-! ### Exchanges of slots (R362, R383) -/

/-- What the begin and the end of an exchange do to the tiles, and that they leave strands and memory. -/
theorem beginExchange_tile (s : State) (tile : Nat) :
    beginExchange s tile = s.setTile tile { s.tile tile with exchanging := true } := rfl
@[simp] theorem beginExchange_strands (s : State) (tile : Nat) : (beginExchange s tile).strands = s.strands := rfl
@[simp] theorem beginExchange_mem (s : State) (tile : Nat) : (beginExchange s tile).mem = s.mem := rfl
@[simp] theorem beginExchange_dev (s : State) (tile : Nat) : (beginExchange s tile).dev = s.dev := rfl
@[simp] theorem swapDone_strands (s : State) (tile : Nat) : (swapDone s tile).strands = s.strands := by
  unfold swapDone; dsimp only; split <;> rfl
@[simp] theorem swapDone_mem (s : State) (tile : Nat) : (swapDone s tile).mem = s.mem := by
  unfold swapDone; dsimp only; split <;> rfl

/-- While the slots exchange, no turn on the tile executes anything. -/
theorem turnOf_exchanging (s : State) (tile : Nat) (q : Seqr) (h : (s.tile tile).exchanging = true) :
    turnOf s tile q = .over s := by
  unfold turnOf swapLets
  dsimp only
  split
  · rfl
  · simp [h]

/-! ### Errors that no fault can follow, and tokens on an open path -/

@[simp] theorem eventMeet_clean (s : State) (w : Where) (sl : Slot) (ix : Nat) (wr : Bool) (h : s.health = .clean) :
    eventMeet s w sl ix wr = s := if_pos h

@[simp] theorem Strand.pathPops_of_no_path (st : Strand) (x y : Nat) (h : st.episode = none) : st.pathPops x y = 0 := by
  simp [Strand.pathPops, h]

theorem Strand.tokenRoom_iff (st : Strand) (x y : Nat) :
    st.tokenRoom x y = true ↔ st.tokensAt x y + st.pathPops x y < 32 := decide_eq_true_iff

end Sys2Proof.Machine
end

