-- ==== Sys2Proof/Laws/Kept.lean ====
section
/-! SUPPORT. The shared operations keep the one form of memory. -/

namespace Sys2Proof.Machine

namespace State.MemOk

variable {s : State}

theorem setStrand (h : s.MemOk) (k : Nat) (st : Strand) : (s.setStrand k st).MemOk := h
theorem setDev (h : s.MemOk) (d : Device) : (s.setDev d).MemOk := h
theorem setPlanner (h : s.MemOk) (p : Planner) : (s.setPlanner p).MemOk := h
theorem setTile (h : s.MemOk) (k : Nat) (v : Tile) : (s.setTile k v).MemOk := h
theorem send (h : s.MemOk) (m : Msg) : (s.send m).MemOk := h
theorem setMem {m : List Host.Cell} (h : Memory.wf m = true) : (s.setMem m).MemOk := h

theorem foldl {β : Type} (f : State → β → State) (hf : ∀ s b, s.MemOk → (f s b).MemOk) (l : List β) {s : State}
    (h : s.MemOk) : (l.foldl f s).MemOk := by
  induction l generalizing s with
  | nil => exact h
  | cons b l ih => exact ih (hf _ _ h)

theorem sendPieces (port : Option Nat) (l : List (Nat × List Byte)) {s : State} (h : s.MemOk) :
    (sendPieces s port l).MemOk := by
  induction l generalizing s with
  | nil => exact h
  | cons p l ih => exact ih (s := (s.drawId.2).send _) h

theorem writeTarget (h : s.MemOk) (t : Target) (o : Nat) (bs : List Byte) : (writeTarget s t o bs).MemOk := by
  unfold Machine.writeTarget
  split
  · exact Memory.wf_writeBytes _ _ h
  · split <;> exact sendPieces _ _ h
  · exact sendPieces _ _ h

theorem procWrite {fn va : Nat} {bs : List Byte} {t : State} (h : s.MemOk) (e : procWrite s fn va bs = .ok t) :
    t.MemOk := by
  unfold Machine.procWrite at e
  split at e
  · cases e
  · cases e; exact h.writeTarget _ _ _

theorem askPieces (lead uid : Nat) (port : Option Nat) (use : FarFor) (l : List (Nat × Nat)) {s : State} (h : s.MemOk) :
    (askPieces lead uid port use l s).MemOk := by
  induction l generalizing s with
  | nil => exact h
  | cons p l ih => exact ih (s := State.send _ _) h

theorem askRead (h : s.MemOk) (uid : Nat) (port : Option Nat) (a n : Nat) (use : FarFor) :
    (askRead s uid port a n use).2.MemOk := askPieces _ _ _ _ _ h

theorem procAsk (h : s.MemOk) (port : Option Nat) (a : Nat) : (procAsk s port a).MemOk := by
  unfold Machine.procAsk
  split
  · exact h
  · exact h.askRead _ _ _ _ _

theorem procAskRows (fn : Nat) (l : List Nat) {s : State} (h : s.MemOk) : (procAskRows s fn l).MemOk := by
  induction l generalizing s with
  | nil => exact h
  | cons a l ih =>
    unfold Machine.procAskRows
    split
    · exact ih (h.procAsk _ _)
    · exact ih h

theorem ringWrite {fn va : Nat} {bs : List Byte} {t : State} (h : s.MemOk) (e : ringWrite s fn va bs = some t) :
    t.MemOk := by
  unfold Machine.ringWrite at e
  split at e
  · cases e; exact h.procWrite ‹_›
  · cases e
  · cases e; exact h

theorem ringStore {r : RingRec} {t : State} (h : s.MemOk) (e : ringStore s r = some t) : t.MemOk := by
  unfold Machine.ringStore at e
  dsimp only at e
  split at e
  · cases e; exact h
  · split at e
    · split at e
      · exact ringWrite (s := s.forgetRows) h e
      · split at e
        · cases e
        · cases e; exact h
        · exact (procWrite (s := s.forgetRows) h ‹_›).ringWrite e
    all_goals first
      | (cases e; done)
      | (cases e; exact h)

theorem ringMeet (h : s.MemOk) (r : RingRec) : (ringMeet s r).MemOk := by
  unfold Machine.ringMeet
  dsimp only
  repeat' split
  all_goals exact h

theorem flushRings (fuel : Nat) {s : State} (h : s.MemOk) : (flushRings fuel s).MemOk := by
  induction fuel generalizing s with
  | zero => exact h
  | succ n ih =>
    unfold Machine.flushRings
    split
    · exact h
    · split
      · exact ih ((setDev (h.ringStore ‹_›) _).ringMeet _)
      · exact procAskRows _ _ h

theorem flushAll (h : s.MemOk) : (flushAll s).MemOk := flushRings _ h

theorem toRing (h : s.MemOk) (r : RingRec) : (toRing s r).MemOk := flushAll (setDev h _)

theorem logRecord (h : s.MemOk) (r : Raise) (w : Where) (f : Flags) : (logRecord s r w f).MemOk := by
  unfold Machine.logRecord
  dsimp only
  split <;> split <;> first
    | exact h
    | (refine toRing ?_ _; exact h)

/-- An access that no strand's fault can follow takes its health. -/
theorem eventMeet (h : s.MemOk) (w : Where) (sl : Slot) (ix : Nat) (wr : Bool) : (eventMeet s w sl ix wr).MemOk := by
  unfold Machine.eventMeet
  dsimp only
  repeat' split
  all_goals first
    | exact h
    | exact logRecord (s := { s with health := .clean }) h _ _ _

theorem procMeet (h : s.MemOk) (fn queue pkt : Nat) (w : Bool) : (procMeet s fn queue pkt w).MemOk := eventMeet h _ _ _ _

theorem outerMeet (h : s.MemOk) (fn : Nat) (w : Bool) : (outerMeet s fn w).MemOk := h.procMeet _ _ _ _

theorem traceRecord (h : s.MemOk) (fn kind seq tile seqno aux : Nat) (scyc : Option Nat) :
    (traceRecord s fn kind seq tile seqno aux scyc).MemOk := by
  unfold Machine.traceRecord
  split
  · exact h.toRing _
  · exact h

theorem traceStrand (h : s.MemOk) (key : Nat) (st : Strand) (kind seq seqno aux : Nat) :
    (traceStrand s key st kind seq seqno aux).MemOk := h.traceRecord _ _ _ _ _ _ _

theorem storeStatus (h : s.MemOk) (fn queue pkt signal status : Nat) :
    (storeStatus s fn queue pkt signal status).MemOk := by
  unfold Machine.storeStatus
  split
  · exact h
  · split
    · exact (h.procWrite ‹_›).procMeet _ _ _ _
    · exact h
    · exact logRecord h _ _ _

theorem completeLaunch (h : s.MemOk) (lid status : Nat) : (completeLaunch s lid status).MemOk := by
  unfold Machine.completeLaunch
  split
  · exact h
  · exact storeStatus (setDev h _) _ _ _ _ _

theorem modLaunch (h : s.MemOk) (lid : Nat) (f : Launch → Launch) : (modLaunch s lid f).MemOk := h

theorem launchCheck (h : s.MemOk) (lid : Nat) : (launchCheck s lid).MemOk := by
  unfold Machine.launchCheck
  split
  · exact h
  · refine iteInduction (motive := State.MemOk) (fun _ => h) fun _ => ?_
    exact iteInduction (motive := State.MemOk) (fun _ => h.completeLaunch _ _) fun _ => h

theorem sendDrops (l : Launch) (n : Nat) (h : s.MemOk) : (sendDrops s l n).MemOk := by
  induction n with
  | zero => exact h
  | succ n ih =>
    unfold Machine.sendDrops
    dsimp only
    split
    · exact ih
    · exact ih

theorem faultLaunch (h : s.MemOk) (lid : Nat) (r : Raise) : (faultLaunch s lid r).MemOk := h

theorem gangLost (h : s.MemOk) (lid : Nat) : (gangLost s lid).MemOk := by
  unfold Machine.gangLost
  split
  · split
    · exact sendDrops _ _ (faultLaunch (modLaunch h _ _) _ _)
    · exact h
  · exact h

theorem settleSet (h : s.MemOk) (fn id : Nat) (e : SetEntry) : (settleSet s fn id e).MemOk := h

theorem leaveSet (h : s.MemOk) (fn id uid : Nat) : (leaveSet s fn id uid).MemOk := by
  unfold Machine.leaveSet
  split
  · exact h
  · split
    · exact h
    · dsimp only
      split <;> exact h

theorem joinSet (h : s.MemOk) (fn id uid : Nat) : (joinSet s fn id uid).1.MemOk := by
  unfold Machine.joinSet
  split
  · split
    · exact h
    · split <;> exact h
  · split <;> exact h

theorem arriveSet (h : s.MemOk) (fn id uid : Nat) : (arriveSet s fn id uid).MemOk := by
  unfold Machine.arriveSet
  split <;> exact h

theorem leaveAll (h : s.MemOk) (fn uid : Nat) : (leaveAll s fn uid).MemOk :=
  foldl _ (fun _ _ h => h.leaveSet _ _ _) _ h

theorem reloadAttr (h : s.MemOk) (tile : Nat) : (reloadAttr s tile).MemOk := h

theorem ackSlot (h : s.MemOk) (key : Nat) : (ackSlot s key).MemOk := by
  unfold Machine.ackSlot
  cases s.dev.ivpending.find? key with
  | none => exact h
  | some a =>
    have keep {s1 : State} (h1 : s1.MemOk) : ((if s.dev.ivctl.getLsbD 29 && key % 2 = 0 then
        Machine.reloadAttr (Machine.outerMeet s1 0 false) (key / 2) else s1) : State).MemOk :=
      iteInduction (motive := State.MemOk) (fun _ => (h1.outerMeet 0 false).reloadAttr _) fun _ => h1
    refine setDev (keep ?_) _
    cases s.strands.find? key with
    | none => exact h
    | some st => exact iteInduction (motive := State.MemOk) (fun _ => h)
                   fun _ => iteInduction (motive := State.MemOk) (fun _ => h) fun _ => h

theorem ackOrHold (h : s.MemOk) (key : Nat) : (ackOrHold s key).MemOk := by
  unfold Machine.ackOrHold
  split
  · exact h.ackSlot _
  · exact h

theorem promote (h : s.MemOk) (key : Nat) : (promote s key).MemOk := by
  unfold Machine.promote
  split
  · split
    · split
      · exact h
      · exact h
    · exact h
  · exact h

theorem noteEnd (h : s.MemOk) (lid : Nat) (why : EndCause) : (noteEnd s lid why).MemOk := by
  unfold Machine.noteEnd
  split
  · exact h
  · refine launchCheck ?_ _
    split
    · exact sendDrops _ _ (modLaunch h _ _)
    · exact h

theorem swapDone (h : s.MemOk) (tile : Nat) : (swapDone s tile).MemOk := by
  unfold Machine.swapDone
  dsimp only
  split <;> exact h

theorem dropQuantum (h : s.MemOk) (tile : Nat) : (dropQuantum s tile).MemOk := by
  unfold Machine.dropQuantum
  split
  · exact h.swapDone _
  · exact h

theorem freeStrand (h : s.MemOk) (key : Nat) (st : Strand) (why : EndCause) : (freeStrand s key st why).MemOk := by
  unfold Machine.freeStrand
  refine noteEnd (promote (dropQuantum (traceStrand (ackOrHold ?_ _) _ _ _ _ _ _) _) _) _ _
  exact h.leaveAll st.fn st.uid

theorem endByFault (h : s.MemOk) (key : Nat) (st : Strand) (r : Raise) (q : Seqr) (n : Nat) (imp : Bool) :
    (endByFault s key st r q n imp).MemOk := (h.logRecord _ _ _).freeStrand _ _ _

/-- Taking an exception keeps the form of memory. -/
theorem takeFault (h : s.MemOk) (key : Nat) (st : Strand) (r : Raise) : (takeFault s key st r).MemOk := by
  unfold Machine.takeFault
  dsimp only
  split
  · exact h.logRecord _ _ _
  · exact h.endByFault _ _ _ _ _ _

theorem takeImprecise (h : s.MemOk) (key : Nat) (st : Strand) (r : Raise) (n : Nat) :
    (takeImprecise s key st r n).MemOk := by
  unfold Machine.takeImprecise
  dsimp only
  split
  · split <;> exact h.logRecord _ _ _
  · exact h.endByFault _ _ _ _ _ _

/-- An access takes its health. -/
theorem suffer (h : s.MemOk) (key : Nat) (st : Strand) (q : Seqr) (n : Nat) (sl : Slot) (ix : Nat) (w : Bool) (e : Health) :
    (suffer s key st q n sl ix w e).1.MemOk := by
  unfold Machine.suffer
  dsimp only
  repeat' split
  all_goals first
    | exact h
    | exact h.logRecord _ _ _

theorem meetHealth (h : s.MemOk) (key : Nat) (st : Strand) (q : Seqr) (n : Nat) (sl : Slot) (ix : Nat) (w : Bool) :
    (meetHealth s key st q n sl ix w).1.MemOk := by
  unfold Machine.meetHealth
  split
  · exact h
  · exact suffer (s := { s with health := .clean }) h _ _ _ _ _ _ _ _

theorem usePage (h : s.MemOk) (key : Nat) (st : Strand) (i : Nat) (e : TlbEntry) : (s.usePage key st i e).MemOk := by
  unfold State.usePage
  split <;> exact h

/-- An access resolved leaves memory as it is. -/
theorem resolve {key va ix : Nat} {tlb : Option Nat} {w : Bool} {sl : Slot} {t : Target × State} (h : s.MemOk)
    (e : resolve s key tlb va w sl ix = .ok t) : t.2.MemOk := by
  unfold Machine.resolve raiseAt at e
  split at e
  · cases e
  split at e
  · cases e
  split at e
  · split at e
    · cases e
    · cases e; exact h
  split at e
  · cases e
  split at e
  · cases e
  · cases e
  split at e
  · cases e
  dsimp only at e
  split at e
  · split at e
    · cases e; exact usePage h _ _ _ _
    · cases e
  split at e
  · cases e
  split at e
  · injection e with e; subst e; exact usePage h _ _ _ _
  split at e
  · injection e with e; subst e; exact usePage h _ _ _ _
  · cases e

theorem readRowAt {key va ix : Nat} {tlb : Option Nat} {sl : Slot} {fs : List FarRow} {t : Row × State}
    (h : s.MemOk) (e : readRowAt s key tlb va sl ix fs = .ok t) : t.2.MemOk := by
  unfold Machine.readRowAt at e
  split at e
  · cases e
  · next hr => injection e with e; subst e; exact resolve (t := (_, _)) h hr
  · next hr =>
    split at e
    · injection e with e; subst e; exact resolve (t := (_, _)) h hr
    · cases e

theorem writeRowAt {key va ix o : Nat} {tlb : Option Nat} {sl : Slot} {bs : List Byte} {t : State}
    (h : s.MemOk) (e : writeRowAt s key tlb va sl ix o bs = .ok t) : t.MemOk := by
  unfold Machine.writeRowAt at e
  split at e
  · cases e
  · next hr => injection e with e; subst e; exact (resolve (t := (_, _)) h hr).writeTarget _ _ _

end State.MemOk

end Sys2Proof.Machine
end

