-- ==== Sys2Proof/Laws/Step.lean ====
section
/-! SUPPORT. What the turns of one cycle can do (R23, R29, R162, R208): a property that every turn and every record's run keep is
kept by a cycle, and what each field of the strand is once a turn is joined to those before it. -/

namespace Sys2Proof.Machine

@[simp] theorem joinTurn_mem (t : State) (old held : Strand) (ls : List Landing) : (joinTurn t old held ls).mem = t.mem := by
  unfold joinTurn; split <;> rfl

@[simp] theorem cycleTurn_fst (s : State) (tile : Nat) (q : Seqr) : (cycleTurn s tile q).1 = turnOf s tile q := by
  unfold cycleTurn; split <;> simp_all

@[simp] theorem Strand.rb_setPred (st : Strand) (n k : Nat) (v : Bool) : (st.setPred k v).rb n = st.rb n := rfl

/-- One landing and a base register. -/
theorem Strand.land_rb (st new : Strand) (l : Landing) (n : Nat) (h : n < 32) :
    (st.land new l).rb n = if l = .base n then new.rb n else st.rb n := by
  unfold Strand.land
  split
  · rename_i k
    by_cases hk : n = k
    · subst hk; simp [Strand.rb_wb_self, h]
    · rw [Strand.rb_wb_of_ne _ _ hk, if_neg (fun e => hk (by injection e with e; exact e.symm))]
  all_goals rfl

/-- A base register after a turn joined to those before it: its own value where it lands, else the one held. -/
theorem Strand.joined_rb (old held new : Strand) (ls : List Landing) {n : Nat} (h : n < 32) :
    (old.joined held new ls).rb n = if Landing.base n ∈ ls then new.rb n else held.rb n := by
  unfold Strand.joined
  have key (t : Strand) : (ls.foldl (fun t l => t.land new l) t).rb n =
      if Landing.base n ∈ ls then new.rb n else t.rb n := by
    induction ls generalizing t with
    | nil => simp
    | cons l ls ih =>
      rw [List.foldl_cons, ih, Strand.land_rb _ _ _ _ h]
      by_cases hm : Landing.base n ∈ ls
      · simp [hm]
      · by_cases hl : l = .base n
        · simp [hl]
        · have hl' : ¬Landing.base n = l := fun e => hl e.symm
          simp [hm, hl, hl']
  exact key _

/-- A landing leaves tokens and queues. -/
theorem Strand.land_queues (st new : Strand) (l : Landing) :
    (st.land new l).tokens = st.tokens ∧ (st.land new l).dqlx = st.dqlx ∧ (st.land new l).dqxs = st.dqxs ∧
      (st.land new l).bq = st.bq ∧ (st.land new l).rq = st.rq := by
  unfold Strand.land Strand.wb
  split <;> (try split) <;> simp [Strand.setPred]

/-- Tokens and queues after a turn joined to those before it: counted from the start of the cycle (R29). -/
theorem Strand.joined_queues (old held new : Strand) (ls : List Landing) :
    (old.joined held new ls).tokens = Vector.ofFn (fun i => held.tokens[i] + new.tokens[i] - old.tokens[i]) ∧
      (old.joined held new ls).dqlx = joinDq old.dqlx held.dqlx new.dqlx ∧
      (old.joined held new ls).dqxs = joinDq old.dqxs held.dqxs new.dqxs ∧
      (old.joined held new ls).bq = joinQueue old.bq held.bq new.bq ∧
      (old.joined held new ls).rq = joinQueue old.rq held.rq new.rq := by
  unfold Strand.joined
  have key (t : Strand) : let u := ls.foldl (fun t l => t.land new l) t
      u.tokens = t.tokens ∧ u.dqlx = t.dqlx ∧ u.dqxs = t.dqxs ∧ u.bq = t.bq ∧ u.rq = t.rq := by
    induction ls generalizing t with
    | nil => simp
    | cons l ls ih =>
      obtain ⟨a, b, c, d, e⟩ := t.land_queues new l
      obtain ⟨a', b', c', d', e'⟩ := ih (t.land new l)
      exact ⟨a'.trans a, b'.trans b, c'.trans c, d'.trans d, e'.trans e⟩
  exact key _

/-- Pops and pushes of one queue in one cycle, by two sequencers, in either order of their turns: what the pops leave, then what was
pushed (R29). -/
theorem joinQueue_pops {α : Type} (old pushed : List α) {k : Nat} (h : k ≤ old.length) :
    joinQueue old (old ++ pushed) (old.drop k) = old.drop k ++ pushed ∧
      joinQueue old (old.drop k) (old ++ pushed) = old.drop k ++ pushed := by
  constructor
  · unfold joinQueue
    rcases Nat.eq_zero_or_pos k with rfl | hk
    · simp
    · have : (old.drop k).length < old.length := by simp; omega
      rw [if_pos this]
      have e : old.length - (old.drop k).length = k := by simp; omega
      rw [e, List.drop_append_of_le_length h]
  · rw [joinQueue, if_neg (by simp)]; simp

/-- A property that is kept by strand updates, by a change of the health, and by the run of a record is kept as a cycle ends. -/
theorem closeCycle_keeps {P : State → Prop} (set : ∀ s k v, P s → P (s.setStrand k v))
    (fare : ∀ s h, P s → P { s with health := h }) (cycle : ∀ s b, P s → P { s with cycle := b })
    (run : ∀ key q n f s, P s → P (runOp key q n f s)) (uid : Nat) (fares : List (Seqr × Health)) {s : State} (h : P s) :
    P (closeCycle uid fares s) := by
  unfold closeCycle
  have key (l : List Nat) (p : State × List (Seqr × Health)) (hp : P p.1) : P (l.foldl (closeChannel uid) p).1 := by
    induction l generalizing p with
    | nil => exact hp
    | cons e l ih =>
      refine ih _ ?_
      unfold closeChannel
      split
      · exact hp
      · split
        · exact hp
        · exact run _ _ _ _ _ (fare _ _ (set _ _ _ hp))
  have hk := key (List.range 4) (s, fares) h
  exact cycle _ none (fare _ .clean hk)

/-- A property that strand updates, turns, records' runs and the naming of who executes keep is kept by the turns of a cycle. -/
theorem runCycle_keeps {P : State → Prop} (set : ∀ s k v, P s → P (s.setStrand k v))
    (turn : ∀ s tile q t, P s → runTurn (turnOf s tile q) = .next t → P t)
    (who : ∀ s tile q j h, P s → P { s with curTile := tile, curSeq := q, cycle := j, health := h })
    (close : ∀ uid fares s, P s → P (closeCycle uid fares s)) {tile : Nat} {old : Strand} :
    ∀ {qs : List (Seqr × Health)} {taken : List Landing} {fares : List (Seqr × Health)} {s t : State},
      P s → runCycle tile old taken fares qs s = .next t → P t
  | [], _, _, s, t, hs, h => by cases h; exact close _ _ _ hs
  | (q, hl) :: rest, taken, fares, s, t, hs, h => by
    simp only [runCycle, cycleTurn_fst] at h
    split at h
    · cases h; exact close _ _ _ hs
    · split at h
      · cases h; exact close _ _ _ hs
      · split at h
        · rename_i u hu
          refine runCycle_keeps set turn who close ?_ h
          have hp := turn _ _ _ _ (who _ _ _ _ _ (set _ _ _ hs)) hu
          unfold joinTurn
          split
          · exact hp
          · exact set _ _ _ hp
        · rename_i hne; exact absurd h (hne t)

/-- Where every turn answers a next state, so does a cycle. -/
theorem runCycle_goes (turn : ∀ s tile q, Goes (runTurn (turnOf s tile q))) (tile : Nat) (old : Strand) :
    ∀ (qs : List (Seqr × Health)) (taken : List Landing) (fares : List (Seqr × Health)) (s : State),
      Goes (runCycle tile old taken fares qs s)
  | [], _, _, s => ⟨_, rfl⟩
  | (q, hl) :: rest, taken, fares, s => by
    simp only [runCycle, cycleTurn_fst]
    split
    · exact ⟨_, rfl⟩
    · rename_i held _
      split
      · exact ⟨_, rfl⟩
      · obtain ⟨u, hu⟩ := turn (beginJoint s tile old held q hl) tile q
        rw [hu]
        exact runCycle_goes turn tile old rest _ _ _

end Sys2Proof.Machine
end

