-- ==== Sys2Proof/Tests/Slice0.lean ====
section
/-! SUPPORT. Small tests of the model: refused terms, words and records written out from the spec's encodings, single steps
with results worked out by hand from the rules, and witnesses that the hypotheses of the obligations can be met. -/

set_option Elab.async false
set_option linter.unusedSimpArgs false

open Sys2Proof Sys2Proof.Machine

namespace Sys2Proof.Tests

/-! ### Small states -/

/-- A strand of launch 1 at 0x200000 in every sequencer. -/
def strand0 : Strand := { Strand.blank with
  uid := 1, launch := 1, c := CSeq.start 0x200000 false, l := RSeq.start 0x200000 false,
  xs := RSeq.start 0x200000 false, ss := RSeq.start 0x200000 false }
/-- That strand on tile 0, with the turn at a sequencer. -/
def state0 (q : Seqr) (st : Strand) : State := { State.reset with strands := [(0, st)], curSeq := q }
/-- The next state of an outcome. -/
def after (o : Out) : State := match o with | .next s => s | _ => State.reset
/-- The strand on tile 0. -/
def ranIn (s : State) : Strand := (s.strands.find? 0).getD Strand.blank
/-- The strand after an outcome. -/
def strandAfter (o : Out) : Strand := ranIn (after o)
/-- The strand after an instruction. -/
def ran (i : Instr) (s : State) : Strand := strandAfter (exec i s)
/-- C's state with x6 and x7. -/
def cWith (a b : Nat) : State := state0 .c ((strand0.wx 6 (BitVec.ofNat 64 a)).wx 7 (BitVec.ofNat 64 b))
/-- The strand after a word with x6 and x7. -/
def ranC (i : Instr) (a b : Nat) : Strand := ran i (cWith a b)
/-- The first address of the local window (R88). -/
def slice : Nat := 0xFC00000000000000
/-- b2, b3 and b4 at offsets 0, 256 and 512 of the slice. -/
def bases : Strand :=
  ((strand0.wb 2 (BitVec.ofNat 64 slice)).wb 3 (BitVec.ofNat 64 (slice + 256))).wb 4 (BitVec.ofNat 64 (slice + 512))
/-- A strand's state with two numbers at offsets 0 and 256 of tile 0's slice. -/
def holding (a b : Nat) (q : Seqr) (st : Strand) : State :=
  { state0 q st with mem := writeNat (writeNat [] (sliceKey 0 0) 8 a) (sliceKey 0 256) 8 b }
/-- The words −2 and 7 at offset 0, the word 7 at offset 256. -/
def loaded : Seqr → Strand → State := holding 0x00000007FFFFFFFE 7
/-- Every FIFO of tokens full but that from C to C. -/
def tokens : Strand := { strand0 with tokens := Vector.replicate 16 32 }
/-- The bits of a record from its header, trip counts, operands and modifiers (R131). -/
def recBits (header trips : BitVec 64) (d a b : BitVec 120) (mods : BitVec 24) : RecWord :=
  header ++ trips ++ d ++ a ++ b ++ mods
/-- The reason of a refusal. -/
def refusal (o : Except Reject Instr) : Option Reject := match o with | .ok _ => none | .error e => some e
/-- A record of one issue. -/
def r1 : Rec := { (default : Rec) with t3 := 1, t2 := 1, t1 := 1, t0 := 1 }
/-- A record of a sequencer itself. -/
def r9 : Rec := { r1 with eng := 9 }
/-- Base register n. -/
def at_ (n : BitVec 6) : Opd := { Opd.zero with base := n }
/-- COPY of the row at offset 0 to offset 512, on ch1. -/
def rCopy : Rec := { r1 with eng := 1, dk := 1, ak := 1, d := at_ 4, a := { at_ 2 with off := 5 } }
/-- RLD of the row at offset 0. -/
def rRld : Rec := { r1 with dk := 3, ak := 1, a := at_ 2 }
/-- RST to offset 512 on ch2. -/
def rRst : Rec := { r1 with eng := 2, dk := 1, ak := 3, d := at_ 4, a := at_ 1 }
/-- RQLD of the count at offset 0. -/
def rRqld : Rec := { rRld with d := at_ 3 }
/-- BQPUSH of field 2 of a row. -/
def rBqpush : Rec := { r9 with dk := 3, d := { at_ 2 with off := 4 } }
/-- RMERGE at distance 126, continued. -/
def rRmerge : Rec := { r9 with dk := 3, fn := 1, d := { at_ 0 with off := 126 } }
/-- TLD of t3 from offset 0 as INT32. -/
def rTld : Rec := { r1 with dk := 2, ak := 1, fmt := 9, d := at_ 3, a := at_ 2 }
/-- KLD of k1 from offset 0. -/
def rKld : Rec := { r1 with dk := 2, ak := 1, d := at_ 33, a := at_ 2 }
/-- GATHER to offset 256 of the row that the index at offset 512 selects. -/
def rGather : Rec := { r1 with eng := 6, dk := 1, ak := 1, bk := 1, d := at_ 3, a := at_ 2, b := at_ 4 }
/-- LOOPQ of four records with the difference. -/
def rLoopq : Rec := { r9 with t1 := 3, ak := 3, a := at_ 3, fn := 1 }
/-- BRQ five records on, on bit 15. -/
def rBrq : Rec := { r9 with d := { Opd.zero with off := 5 }, a := { Opd.zero with off := 0x8000 }, bk := 3, b := at_ 2 }
/-- A vector record of one INT32 element with operands at offsets 0 and 256, result at 512. -/
def rVec : Rec := { r1 with eng := 5, fmt := 9, dk := 1, ak := 1, bk := 1, d := at_ 4, a := at_ 2, b := at_ 3 }
/-- The same with one operand. -/
def rOne : Rec := { rVec with bk := 0, b := Opd.zero }
/-- MMA of t0 and t1 into acc0. -/
def rMma : Rec := { r1 with eng := 4, dk := 2, ak := 2, bk := 2, d := at_ 16, a := at_ 0, b := at_ 1 }
/-- A record of X on an accumulator. -/
def rAcc (n : BitVec 6) : Rec := { r1 with eng := 4, dk := 2, d := at_ n }

/-- A record in another format. -/
def withFmt (f : BitVec 4) : Instr → Instr
  | .vadd r => .vadd { r with fmt := f } | .vsub r => .vsub { r with fmt := f } | .vmul r => .vmul { r with fmt := f }
  | .vdiv r => .vdiv { r with fmt := f } | .vfma r => .vfma { r with fmt := f } | .vmin r => .vmin { r with fmt := f }
  | .vsqrt r => .vsqrt { r with fmt := f } | .vrcp r => .vrcp { r with fmt := f } | .vrsq r => .vrsq { r with fmt := f }
  | .vexp r => .vexp { r with fmt := f } | .vlog r => .vlog { r with fmt := f } | .vtanh r => .vtanh { r with fmt := f }
  | .vsigm r => .vsigm { r with fmt := f } | .vabs r => .vabs { r with fmt := f } | .vcvt r => .vcvt { r with fmt := f }
  | i => i
/-- t0 holds the INT8 row (2, −1, 3), t1 the row (4, 5, 6). -/
def tiled : Strand := { strand0 with
  t := (strand0.t.set 0 ⟨6, [(0, 0x03FF02)], []⟩).set 1 ⟨6, [(0, 0x060504)], []⟩
  tshape := (strand0.tshape.set 0 0x00030101).set 1 0x00030101 }
/-- AWRM of one element of acc0 as INT32 to offset 512. -/
def rAwrm : Rec := { r1 with eng := 4, dk := 1, ak := 2, fmt := 9, d := at_ 4, a := at_ 16 }
/-- Two strands on tile 0. -/
def twoSlots : State := { State.reset with strands := [(0, strand0), (1, { strand0 with uid := 2 })] }

/-- A record over bitmaps. -/
def rBits : Rec := { rVec with fmt := 0, d := { at_ 4 with s0 := 1 }, a := { at_ 2 with s0 := 1 }, b := { at_ 3 with s0 := 1 } }

/-! ### Terms and records that are refused -/

/-- Each check refuses a term that breaks it (R125, R128, R132 to R142). -/
theorem test_ill_formed_terms : ([
    (.c, .lotteryDraw, .unassigned), (.l, .add 1 2 3, .unassigned), (.c, .copy r1, .sequencer),
    (.c, .cvta 1 2 3, .selector), (.c, .tlwait 1 10, .selector), (.c, .qpush 0, .selector), (.c, .qpop 0, .selector),
    (.c, .pfpr 1 2 6, .selector), (.c, .ld 1 2 3 2 0, .annotation), (.c, .st 1 2 3 1 0, .annotation),
    (.c, .aadd 1 2 3 5 1 0, .annotation), (.c, .fence 0 0, .annotation), (.c, .csrr 1 0x1C, .csr),
    (.l, .copy { rCopy with eng := 4 }, .engine), (.x, .copy rCopy, .sequencer), (.l, .copy { rCopy with fmt := 1 }, .format),
    (.l, .copy { rCopy with push := 2 }, .tokens), (.l, .copy { rCopy with stg := 8 }, .stage),
    (.l, .copy { rCopy with fn := 1 }, .function), (.l, .sync { r9 with t0 := 2 }, .trips),
    (.l, .copy { rCopy with bk := 2 }, .kind), (.l, .copy { rCopy with d := { Opd.zero with base := 48 } }, .operand .d),
    (.l, .copy { rCopy with b := { Opd.zero with off := 1 } }, .operand .b),
    (.x, .vadd { rVec with moda := 1 }, .modifier .a), (.x, .mmanm { rMma with msk := 0 }, .mask),
    (.s, .rst { rRst with a := at_ 0 }, .queue)] : List (Seqr × Instr × Reject)).map
      (fun p => decide (p.2.1.reject p.1 = some p.2.2)) = List.replicate 26 true := by decide +kernel

/-- Fewer bytes than an instruction has are no instruction; the bytes after one are left (R123, R129). -/
theorem test_decode_bytes :
    (decodeBytes .c (leBytes 7 0)).toOption = none ∧ (decodeBytes .l (leBytes 63 0)).toOption = none ∧
    (decodeBytes .c (leBytes 8 0x9500000000000000 ++ [7])).toOption = some (.endC, [7]) := by decide +kernel

/-- The words of the spec's own examples (R124; the control chapter's worked words). -/
theorem test_worked_words : ([
    (0x28140000FFFFFFF8, .movi 5 0xFFFFFFF8), (0x2C30700000000000, .movb 12 7), (0x7400900000000000, .tlwait 9 0),
    (0x7518000400000001, .tlread 6 4 1), (0x7800000200000000, .qpush 2), (0x7900000800000000, .qpop 2),
    (0x7000000000000102, .join 0 0x0102), (0x7A00700100000400, .cbld 1 7 0x400), (0x7D00C00000000003, .csrw 0 12 3),
    (0x8028B30000000000, .launch 10 11 12), (0x900C414100000000, .probe 3 4 5 1), (0x9200000000000007, .trap 7),
    (0x9500000000000000, .endC), (0x6214719E00000080, .aadd 5 7 6 3 3 0x80), (0x6020901A00000040, .ld 8 9 3 1 0x40)]
      : List (Word × Instr)).map (fun p => decide ((decodeWord p.1).toOption = some p.2)) = List.replicate 15 true := by
  decide +kernel

/-- Word and table numbering: the decoder behind `decodeTableWord`, and the step that a placed word gives. -/
theorem test_placed_word_runs :
    decodeTableWord 64 0x28140000FFFFFFF8 = some (.movi 5 0xFFFFFFF8) ∧
    (strandAfter (step (State.reset.withFetchWord 64 0x28140000FFFFFFF8))).rx 5 = -8 := by decide +kernel

/-- A placed record runs as the next step: END of L (R213). -/
theorem test_placed_record_runs :
    (strandAfter (step (State.reset.withFetchWord 512 (recBits 0x1790000000000000 0x0001000100010001 0 0 0 0).toNat))).l.ended
      = true := by decide +kernel

/-! ### Words of C -/

/-- R158, R159: results at the corners, worked out by hand. -/
theorem test_arithmetic_results : ([
    (.add 5 6 7, 2 ^ 64 - 1, 2, 1), (.sub 5 6 7, 1, 2, 2 ^ 64 - 1), (.adds 5 6 7, 2 ^ 63 - 1, 1, 2 ^ 63 - 1),
    (.subs 5 6 7, 2 ^ 63, 1, 2 ^ 63), (.mul 5 6 7, 2 ^ 33, 2 ^ 32 + 1, 2 ^ 33), (.mulh 5 6 7, 2 ^ 64 - 1, 2, 2 ^ 64 - 1),
    (.mulhu 5 6 7, 2 ^ 64 - 1, 2, 1), (.div 5 6 7, 2 ^ 64 - 7, 2, 2 ^ 64 - 3), (.div 5 6 7, 5, 0, 2 ^ 64 - 1),
    (.div 5 6 7, 2 ^ 63, 2 ^ 64 - 1, 2 ^ 63), (.divu 5 6 7, 2 ^ 64 - 7, 2, 2 ^ 63 - 4), (.rem 5 6 7, 2 ^ 64 - 7, 2, 2 ^ 64 - 1),
    (.rem 5 6 7, 5, 0, 5), (.remu 5 6 7, 7, 4, 3), (.and 5 6 7, 12, 10, 8), (.or 5 6 7, 12, 10, 14), (.xor 5 6 7, 12, 10, 6),
    (.sll 5 6 7, 3, 127, 2 ^ 63), (.srl 5 6 7, 2 ^ 63, 65, 2 ^ 62), (.sra 5 6 7, 2 ^ 63, 63, 2 ^ 64 - 1),
    (.min 5 6 7, 2 ^ 64 - 1, 1, 2 ^ 64 - 1), (.max 5 6 7, 2 ^ 64 - 1, 1, 1), (.minu 5 6 7, 2 ^ 64 - 1, 1, 1),
    (.maxu 5 6 7, 2 ^ 64 - 1, 1, 2 ^ 64 - 1), (.slt 5 6 7, 2 ^ 64 - 1, 1, 1), (.sltu 5 6 7, 2 ^ 64 - 1, 1, 0),
    (.add 0 6 7, 1, 1, 0)] : List (Instr × Nat × Nat × Nat)).map
      (fun p => decide (((ranC p.1 p.2.1 p.2.2.1).rx (if p.1 = .add 0 6 7 then 0 else 5)).toNat = p.2.2.2)) =
        List.replicate 27 true := by decide +kernel

/-- R160 to R162: immediates are sign-extended, shifts take six bits, windows convert. -/
theorem test_immediate_results : ([
    (.addi 5 6 0xFFFFFFFF, 0, 2 ^ 64 - 1), (.andi 5 6 0x80000000, 2 ^ 64 - 1, 2 ^ 64 - 2 ^ 31), (.ori 5 6 1, 2, 3),
    (.xori 5 6 0xFFFFFFFF, 0, 2 ^ 64 - 1), (.slli 5 6 63, 3, 2 ^ 63), (.srli 5 6 63, 2 ^ 63, 1), (.srai 5 6 1, 2 ^ 63, 3 * 2 ^ 62),
    (.slti 5 6 0xFFFFFFFF, 2 ^ 64 - 2, 1), (.movi 5 0x80000000, 0, 2 ^ 64 - 2 ^ 31), (.movhi 5 6 0xABCD, 2 ^ 64 - 1, 0xABCDFFFFFFFF),
    (.cvta 5 6 2, 0xFC00000000000010, 0xFE00000000000010), (.cvta 5 6 0, 0xFE00000000800010, 0), (.isap 5 6 3, 2 ^ 56 - 1, 1),
    (.isap 5 6 0, 0xFC00000000600000, 0)] : List (Instr × Nat × Nat)).map
      (fun p => decide (((ranC p.1 p.2.1 0).rx 5).toNat = p.2.2)) = List.replicate 14 true := by decide +kernel

/-- R162: a base register and a stage predicate written. -/
theorem test_base_and_predicate : (ranC (.movb 31 6) 9 0).rb 31 = 9 ∧ (ranC (.pset 7 6) 3 0).s = 0x80 ∧
    ((ranC (.movxb 5 0) 9 0).rx 5 = 0) ∧ ((ranC (.pget 5 7) 0 0).rx 5 = 0) := by decide +kernel

/-- R163, R164: targets from the branch's own address 0x200000; JR reads before it links. -/
theorem test_branch_targets : ([
    (.beq 6 7 0x3FFFFFFFFD, 4, 4, 0x1FFFE8), (.bne 6 7 2, 4, 4, 0x200008), (.blt 6 7 2, 2 ^ 64 - 1, 0, 0x200010),
    (.bge 6 7 2, 2 ^ 64 - 1, 0, 0x200008), (.bltu 6 7 2, 2 ^ 64 - 1, 0, 0x200008), (.bgeu 6 7 2, 2 ^ 64 - 1, 0, 0x200010),
    (.jmp 0x2000000000, 0, 0, 0xFFFFFF0000200000), (.call 5 1, 0, 0, 0x200008), (.jr 6 6, 0x30000F, 0, 0x300008)]
      : List (Instr × Nat × Nat × Nat)).map (fun p => decide ((ranC p.1 p.2.1 p.2.2.1).c.pc.toNat = p.2.2.2)) =
        List.replicate 9 true ∧ (ranC (.jr 6 6) 0x30000F 0).rx 6 = 0x200008 := by decide +kernel

/-- R93, R165: the eight bytes that bits [6:3] select, lowest first, in a tile's own slice. -/
theorem test_load_and_store :
    (ran (.ld 5 6 0 0 0x1FFFFFFFD) (loaded .c (strand0.wx 6 (BitVec.ofNat 64 (slice + 10))))).rx 5 = 0x00000007FFFFFFFE ∧
    readNat (after (exec (.st 6 7 0 0 8) (loaded .c ((strand0.wx 6 0x1122334455667788).wx 7 (BitVec.ofNat 64 slice))))).mem
      (sliceKey 0 8) 8 = 0x1122334455667788 := by decide +kernel

/-- R88, R165: beyond the populated part of a slice the strand ends with ADDRESS, having no handler. -/
theorem test_load_address_fault :
    (after (exec (.ld 5 6 0 0 0) (cWith (slice + 0x600000) 0))).strands = [] ∧
    ((after (exec (.ld 5 6 0 0 0) (cWith (slice + 0x600000) 0))).records.map (fun p => p.2.extractLsb' 0 8)) = [6] := by
  decide +kernel

/-- R107, R166: an atomic waits for its owner, which adds to the aligned eight bytes and answers the old value. -/
theorem test_atomic_add :
    let s := after (exec (.aadd 5 6 7 0 0 0) (loaded .c ((strand0.wx 6 (BitVec.ofNat 64 slice)).wx 7 2)))
    (ranIn s).c.wait = .answer 1 ∧
    readNat (after (exec (.atomicPerform 0) s)).mem (sliceKey 0 0) 8 = 0x0000000800000000 ∧
    (ranIn (after (exec (.atomicPerform 0) s))).rx 5 = 0x00000007FFFFFFFE := by decide +kernel

/-- R107: a float atomic rounds once: 1.5 + 2.25 at the addressed four bytes. -/
theorem test_atomic_float :
    let m := writeNat [] (sliceKey 0 4) 4 0x3FC00000
    let s := after (exec (.afadd32 5 6 7 0 0 0) { state0 .c ((strand0.wx 6 (BitVec.ofNat 64 (slice + 4))).wx 7 0x40100000) with mem := m })
    readNat (after (exec (.atomicPerform 0) s)).mem (sliceKey 0 0) 8 = 0x4070000000000000 ∧
    (ranIn (after (exec (.atomicPerform 0) s))).rx 5 = 0x3FC00000 := by decide +kernel

/-- R173: a token added and one removed. -/
theorem test_tokens :
    (ran (.qpush 2) (state0 .c strand0)).tokensAt 0 2 = 1 ∧ (ran (.qpop 2) (state0 .c tokens)).tokensAt 2 0 = 31 ∧
    (ran (.qpop 2) (state0 .c strand0)).c.wait = .stalled ∧ (ran (.qpush 2) (state0 .c tokens)).c.wait = .stalled := by
  decide +kernel

/-- R26, R174: a legal shape is stored and the old value given; ROWS 129 raises ILLEGAL_OP and writes nothing. -/
theorem test_csr_write :
    (ranC (.csrw 5 6 3) 0x01008000 0).tshape[3] = 0x01008000 ∧
    (after (exec (.csrw 5 6 3) (cWith 0x01008100 0))).strands = [] ∧
    (ranC (.csrr 5 0x14) 0 0).rx 5 = 0 ∧ (ranC (.csrs 5 6 0x400) 6 0).rx 5 = 1 ∧
    (after (exec (.csrc 5 6 0x400) (cWith 1 0))).dev.lseed = 1 := by decide +kernel

/-- R182, R183: TRAP enters the handler, TRET returns. -/
theorem test_trap_and_return :
    let st := ran (.trap 7) (state0 .c { strand0 with tvec := 0x300000 })
    st.c.pc = 0x300000 ∧ st.tepc = 0x200008 ∧ st.tcause = 0x8000000000000007 ∧ st.act = true ∧
    (ran .tret (state0 .c st)).c.pc = 0x200008 ∧ (ran .tret (state0 .c st)).act = false := by decide +kernel

/-- R168, R85: a JOIN reaches its home and its answer lets C go on. -/
theorem test_join :
    let s := after (exec (.join 0 5) (state0 .c strand0))
    let s2 := after (exec (.setAnswerArrival 0) (after (exec (.setRequestApply 0) s)))
    (ranIn s).c.wait = .setReq ∧ s2.dev.sets = [(5, ⟨[1], []⟩)] ∧ (ranIn s2).c.pc = 0x200008 ∧
    (after (exec (.join 0 0) (state0 .c strand0))).strands = [] := by decide +kernel

/-- R169, R171, R172, R170, R167, R184: words that complete at once. -/
theorem test_plain_words : ([.nop, .fence 3 3, .tlwait 0 9, .drain 3, .tlread 5 0 0, .quiesce, .probe 5 0 0 0]
      : List Instr).map (fun i => (ranC i 0 0).c.pc) = List.replicate 7 0x200008 ∧
    (ranC .endC 0 0).c.ended = true ∧ (ranC (.leave 0 9) 0 0).c.wait = .setReq ∧
    (after (exec (.sbar 0 9) (state0 .c strand0))).records.map (fun p => p.2.extractLsb' 0 16) = [0x020D] := by decide +kernel

/-- R177: CBLD in its two turns: eight rows of the slice. -/
theorem test_codebook :
    let s := after (exec (.cbld 1 6 0) (loaded .c (strand0.wx 6 (BitVec.ofNat 64 slice))))
    ((ran (.cbld 1 6 0) s).cb[1]).toNat = 7 * 2 ^ 2048 + 0x7FFFFFFFE := by decide +kernel

/-- R178: a launch on a queue that is not enabled raises LAUNCH with slot A. -/
theorem test_launch_fault :
    (after (exec (.launch 5 6 7) (cWith 0 0))).records.map (fun p => p.2.extractLsb' 0 16) = [0x020A] := by decide +kernel

/-- R310, R326: planner words send a request; an arena size of 0 raises ILLEGAL_OP. -/
theorem test_planner_words : ([.tregReg 5 6, .tregUpd 5 6, .tregRst 5 6, .tregDel 5 6, .plan 5 6 7 0 1, .phint 5 6 1,
      .ppinOn 6, .ppinOff 6, .prun 5 6 7, .prel 6, .statrd 5 6 7, .pfpr 5 6 0] : List Instr).map
        (fun i => decide ((after (exec i (cWith 0 0))).planner.reqs = [.word 1 i])) = List.replicate 12 true ∧
    (after (exec (.plan 5 6 7 0 0) (cWith 0 0))).strands = [] := by decide +kernel

/-- R312: the planner answers a TREG.DEL of no tensor with bit 63 and the status of an unknown TID. -/
theorem test_planner_answer :
    let s := after (exec (.tregDel 5 6) (cWith 0 0))
    (ranIn (after (exec .plannerRequestApply { s with dev := { s.dev with ready := 0x10 } }))).rx 5 = 0x8000000000000006 := by
  decide +kernel

/-! ### Records -/

/-- R198 to R207: rows moved by the movement records in a tile's slice. -/
theorem test_movement_records :
    readNat (after (exec (.copy rCopy) (loaded .l bases))).mem (sliceKey 0 512) 4 = 0xFFFFFFFE ∧
    ((ran (.rld rRld) (loaded .l bases)).dqlx.rows.map BitVec.toNat) = [0x7FFFFFFFE] ∧
    readNat (after (exec (.rst rRst) (loaded .s { bases with dqxs := ⟨[77], 0⟩ }))).mem (sliceKey 0 512) 128 = 77 ∧
    ((ran (.rqld rRqld) (loaded .l bases)).rq) = [0xFFFFFFFE] ∧
    ((ran (.bqpush rBqpush) (loaded .l { bases with ms := [0x1234567890ABCDEF] })).bq) = [0x5678] ∧
    ((ran (.rmerge rRmerge) (loaded .l { bases with ms := [3], wn := 1, whi := 2 ^ 1016 })).dqlx.rows.map BitVec.toNat)
      = [2 ^ 1016 / 2 ^ 1008 + 3 * 2 ^ 16] := by decide +kernel

/-- R199, R201, R202: TLD sets a tile register and its tag, KLD a mask register, GATHER follows an index. -/
theorem test_register_loads :
    ((ran (.tld rTld) (loaded .l { bases with tshape := bases.tshape.set 3 0x00080103 })).t[3]).tag = 9 ∧
    ((ran (.kld rKld) (loaded .l bases)).k[1]).bits.toNat = 0x7FFFFFFFE ∧
    readNat (after (exec (.gather rGather) (loaded .l bases))).mem (sliceKey 0 256) 8 = 0x7FFFFFFFE := by decide +kernel

/-- R208 to R213, R300: the records a sequencer carries out itself. -/
theorem test_sequencer_records :
    (ran (.loop { r9 with t1 := 3, t0 := 5 }) (loaded .l bases)).l.loops = [⟨0x200040, 0x200100, 5⟩] ∧
    (ran (.loopq rLoopq) (loaded .x { bases with rq := [9, 4], lqprev := 7 })).xs.loops = [⟨0x200040, 0x200100, 2⟩] ∧
    (ran (.endl r9) (loaded .x { bases with xs := { bases.xs with loops := [⟨0x1FFFC0, 0x200000, 2⟩] } })).xs.pc = 0x1FFFC0 ∧
    (ran (.rot { r9 with fn := 2 }) (loaded .s { bases with s := 3, ss := { bases.ss with kc := 1 } })).s = 6 ∧
    (ran (.drainRec r9) (loaded .l bases)).l.pc = 0x200040 ∧ (ran (.sync r9) (loaded .x bases)).xs.pc = 0x200040 ∧
    (ran (.tlwaitRec { r9 with ak := 1, a := { Opd.zero with base := 9 } }) (loaded .s bases)).ss.pc = 0x200040 ∧
    (ran (.endRec r9) (loaded .s bases)).ss.ended = true ∧
    (ran (.brq rBrq) (loaded .x { bases with bq := [0x8001] })).xs.pc = 0x200140 ∧
    (ran (.hcfgRet { r1 with eng := 8, fn := 16 }) (loaded .x { bases with hfact := true, hfret := 0x300000 })).xs.pc = 0x300000 := by
  decide +kernel

/-- R229, R240, R241, R246: INT32 elements −2 and 7. -/
theorem test_integer_elements : ([
    (.vadd rVec, 5), (.vsub rVec, 2 ^ 32 - 9), (.vmul rVec, 2 ^ 32 - 14), (.vmin rVec, 2 ^ 32 - 2), (.vmax rVec, 7),
    (.vand rVec, 6), (.vor rVec, 2 ^ 32 - 1), (.vxor rVec, 2 ^ 32 - 7), (.vshl rVec, 2 ^ 32 - 256), (.vshr rVec, 2 ^ 32 - 1),
    (.vnot rOne, 1), (.vcopy rOne, 2 ^ 32 - 2), (.vabs rOne, 2), (.vneg rOne, 2), (.vclmul { rVec with fn := 1 }, 0xFFFFFFFA),
    (.vfill { rOne with ak := 0, a := { Opd.zero with off := 0xABCD } }, 0xABCD),
    (.viota { rOne with ak := 0, a := { Opd.zero with off := 0xFFFFFFFE } }, 2 ^ 32 - 2), (.vsel rVec, 2 ^ 32 - 2),
    (.vrsum rOne, 2 ^ 32 - 2), (.vrmax rOne, 2 ^ 32 - 2), (.vrmin rOne, 2 ^ 32 - 2), (.vscan rOne, 2 ^ 32 - 2),
    (.vcmp { rVec with fn := 2 }, 1), (.vband { rBits with fn := 1, t0 := 4 }, 8), (.vpopc { rOne with fmt := 0, fn := 1, t0 := 5, a := { at_ 2 with s0 := 1 } }, 4)]
      : List (Instr × Nat)).map (fun p => decide (p.1.wf .x = true ∧
        readNat (after (exec p.1 (loaded .x bases))).mem (sliceKey 0 512) 4 = p.2)) = List.replicate 25 true := by decide +kernel

/-- R229, R230: FP32 elements, each correctly rounded: 1.5 with 2.25, 1 over 3, and exact values of the functions. -/
theorem test_float_elements : ([
    (.vadd rVec, 0x3FC00000, 0x40100000, 0x40700000), (.vsub rVec, 0x3FC00000, 0x40100000, 0xBF400000),
    (.vmul rVec, 0x3FC00000, 0x40100000, 0x40580000), (.vdiv rVec, 0x3F800000, 0x40400000, 0x3EAAAAAB),
    (.vfma rVec, 0x3FC00000, 0x40100000, 0x40580000), (.vmin rVec, 0x00000000, 0x80000000, 0x80000000),
    (.vsqrt rOne, 0x40000000, 0, 0x3FB504F3), (.vrcp rOne, 0x40800000, 0, 0x3E800000), (.vrsq rOne, 0x40800000, 0, 0x3F000000),
    (.vexp rOne, 0, 0, 0x3F800000), (.vlog rOne, 0x3F800000, 0, 0), (.vtanh rOne, 0x80000000, 0, 0x80000000),
    (.vsigm rOne, 0, 0, 0x3F000000), (.vabs rOne, 0xBFC00000, 0, 0x3FC00000),
    (.vcvt { rOne with b := { Opd.zero with base := 8 } }, 0x3FC00000, 0, 0x3E00)] : List (Instr × Nat × Nat × Nat)).map
      (fun p => decide (readNat (after (exec (withFmt 1 p.1) (holding p.2.1 p.2.2.1 .x bases))).mem (sliceKey 0 512) 4 = p.2.2.2)) =
        List.replicate 15 true := by decide +kernel

/-- R238, R239, R244, R245: header rows: one of two entries ranked, one pair found, one element kept, one put back. -/
theorem test_header_rows :
    let m := writeNat (writeNat (writeNat [] (sliceKey 0 0) 8 0x0000000700000005) (sliceKey 0 256) 4 6) (sliceKey 0 516) 4 1
    let s := { state0 .x bases with mem := m }
    let topk := (after (exec (.vtopk { rOne with t0 := 2, a := { at_ 2 with s0 := 4 } }) s)).mem
    let isect := (after (exec (.visect { rBits with t0 := 3, d := at_ 4 }) s)).mem
    let comp := (after (exec (.vcomp { rVec with t0 := 2, d := { at_ 4 with s0 := 4 }, a := { at_ 2 with s0 := 4 }, b := { at_ 3 with s0 := 1 } }) s)).mem
    readNat topk (sliceKey 0 512) 4 = 1 ∧ readNat topk (sliceKey 0 640) 16 = 7 + 2 ^ 64 ∧
    readNat isect (sliceKey 0 512) 4 = 1 ∧ readNat isect (sliceKey 0 640) 8 = 2 ^ 32 + 1 ∧
    readNat comp (sliceKey 0 512) 4 = 1 ∧ readNat comp (sliceKey 0 640) 4 = 7 := by decide +kernel

/-- R254, R260, R265, R266, R277, R284: a product of INT8 rows (2, −1, 3) and (4, 5, 6) is 21; accumulators made 0,
written out, and committed. -/
theorem test_matrix_records :
    (ran (.mma { rMma with fn := 1 }) (state0 .x tiled)).accAt 0 = ⟨10, [(0, 0x4003 * 2 ^ 80 + 5 * 2 ^ 75)]⟩ ∧
    (ran (.azero (rAcc 17)) (state0 .x strand0)).accAt 1 = ⟨10, []⟩ ∧
    (ran (.sdiscard (rAcc 20)) (state0 .x (strand0.setAcc 4 ⟨10, [(3, 5)]⟩))).accAt 4 = ⟨0, [(3, 5)]⟩ ∧
    (ran (.scommit (rAcc 20)) (state0 .x (strand0.setAcc 4 ⟨10, [(3, 5)]⟩))).accAt 0 = ⟨10, [(3, 5)]⟩ ∧
    readNat (after (exec (.awrm rAwrm) (state0 .x (bases.setAcc 0 ⟨10, [(0, 0x4003 * 2 ^ 80 + 5 * 2 ^ 75)]⟩)))).mem (sliceKey 0 512) 4 = 21 ∧
    (ran (.sreset { r1 with eng := 7, a := { Opd.zero with off := 0x3F800000 } }) (state0 .x strand0)).margin = 0x3F800000 := by
  decide +kernel

/-! ### Events -/

/-- R72, R73: the generator from seed 1, twice, worked out by hand. -/
theorem test_lottery_generator : lotteryNext 1 = 0x40822041 ∧ lotteryNext (lotteryNext 1) = 0x100041060C011441 := by decide +kernel

/-- R81, R365, R344: 19 cycles and one tick pass for a strand that runs. -/
theorem test_clock :
    let s := after (step { state0 .c strand0 with agenda := [.clock 19 1] })
    s.dev.devtime = 1 ∧ (ranIn s).wdcount = 1 ∧ (ranIn s).scyc = 0 ∧ s.agenda = [] := by decide +kernel

/-- R362, R383: the slots of tile 0 are exchanged; a tick while they exchange counts toward neither watchdog. -/
theorem test_swap :
    let s := after (exec (.swap 0) { twoSlots with tiles := [(0, { Tile.reset with swap := some true })] })
    let t := after (step { s with agenda := [.clock 1 1] })
    let u := after (exec (.swap 0) t)
    (t.strands.map (fun p => (p.1, p.2.uid, p.2.wdcount))) = [(0, 2, 0), (1, 1, 0)] ∧ t.dev.devtime = 1 ∧ u.tile 0 = Tile.reset ∧
      ((after (step { u with agenda := [.clock 1 1] })).strands.map (fun p => p.2.wdcount)) = [1, 0] := by decide +kernel

/-- R367 to R370: KILLCTL that names no strand completes at once; reset keeps memory. -/
theorem test_kill_and_reset :
    (after (exec (.killStrand 0x800001FF) State.reset)).dev.killctl = 0x1FF ∧
    readNat (after (exec .reset (loaded .c strand0))).mem (sliceKey 0 0) 4 = 0xFFFFFFFE ∧
    (after (exec .reset (loaded .c strand0))).strands = [] := by decide +kernel

/-- R68, R397: QCTL without a legal size is not stored; PWRCTL is clamped. -/
theorem test_host_registers :
    (after (exec (.qctlWrite 3 0x83000000) State.reset)).dev.qctl = [] ∧
    (after (exec (.qctlWrite 3 0x84000000) State.reset)).dev.qctl = [(3, 0x84000000)] ∧
    (after (exec (.pwrctlWrite 100) State.reset)).dev.pwrctl = 600 := by decide +kernel

/-! ### Encodings written out from their fields -/

/-- R124, R126, R127: words of the arith family written out from their fields. -/
theorem test_decode_arith : ∀ p ∈ ([
    (0x01042FC000000000, .add 1 2 63),
    (0x0210718000000000, .sub 4 7 6),
    (0x031CC34000000000, .adds 7 12 13),
    (0x0429150000000000, .subs 10 17 20),
    (0x053566C000000000, .mul 13 22 27),
    (0x0641B88000000000, .mulh 16 27 34),
    (0x074E0A4000000000, .mulhu 19 32 41),
    (0x085A5C0000000000, .div 22 37 48),
    (0x0966ADC000000000, .divu 25 42 55),
    (0x0A72FF8000000000, .rem 28 47 62),
    (0x0B7F414000000000, .remu 31 52 5),
    (0x0C8B930000000000, .and 34 57 12),
    (0x0D97E4C000000000, .or 37 62 19),
    (0x0EA0368000000000, .xor 40 3 26),
    (0x0FAC884000000000, .sll 43 8 33),
    (0x10B8DA0000000000, .srl 46 13 40),
    (0x11C52BC000000000, .sra 49 18 47),
    (0x12D17D8000000000, .min 52 23 54),
    (0x13DDCF4000000000, .max 55 28 61),
    (0x14EA110000000000, .minu 58 33 4),
    (0x15F662C000000000, .maxu 61 38 11),
    (0x1602B48000000000, .slt 0 43 18),
    (0x170F064000000000, .sltu 3 48 25)] : List (Word × Instr)),
    (decodeWord p.1).toOption = some p.2 := by decide +kernel

/-- R124, R126, R127: words of the immediate family written out from their fields. -/
theorem test_decode_immediate : ∀ p ∈ ([
    (0x20FC100080000001, .addi 63 1 0x80000001),
    (0x21F82000FFFF0000, .andi 62 2 0xFFFF0000),
    (0x22F4300012345678, .ori 61 3 0x12345678),
    (0x23F0400000000001, .xori 60 4 0x1),
    (0x24EC50000000003F, .slli 59 5 0x3F),
    (0x25E8600000000020, .srli 58 6 0x20),
    (0x26E4700000000001, .srai 57 7 0x1),
    (0x27E08000FFFFFFFF, .slti 56 8 0xFFFFFFFF),
    (0x28DC00007FFFFFFF, .movi 55 0x7FFFFFFF),
    (0x29D8A000DEADBEEF, .movhi 54 10 0xDEADBEEF)] : List (Word × Instr)),
    (decodeWord p.1).toOption = some p.2 := by decide +kernel

/-- R124, R126, R127: words of the window family written out from their fields. -/
theorem test_decode_window : ∀ p ∈ ([
    (0x2A24A00200000000, .cvta 9 10 2),
    (0x2B2CC00300000000, .isap 11 12 3),
    (0x2C7CD00000000000, .movb 31 13),
    (0x2D39E00000000000, .movxb 14 30),
    (0x2E00F00700000000, .pset 7 15),
    (0x2F40000500000000, .pget 16 5)] : List (Word × Instr)),
    (decodeWord p.1).toOption = some p.2 := by decide +kernel

/-- R124, R126, R127: words of the branch family written out from their fields. -/
theorem test_decode_branch : ∀ p ∈ ([
    (0x40001FC000000001, .beq 1 63 0x1),
    (0x41002FBFFFFFFFFF, .bne 2 62 0x3FFFFFFFFF),
    (0x42003F6000000000, .blt 3 61 0x2000000000),
    (0x43004F1FFFFFFFFF, .bge 4 60 0x1FFFFFFFFF),
    (0x44005EC000000010, .bltu 5 59 0x10),
    (0x45006EBFFFFFFFF0, .bgeu 6 58 0x3FFFFFFFF0),
    (0x4600003FFFFFFFFD, .jmp 0x3FFFFFFFFD),
    (0x4704000000000100, .call 1 0x100),
    (0x4808300000000000, .jr 2 3)] : List (Word × Instr)),
    (decodeWord p.1).toOption = some p.2 := by decide +kernel

/-- R124, R126, R127: words of the memory family written out from their fields. -/
theorem test_decode_memory : ∀ p ∈ ([
    (0x60209001FFFFFFF8, .ld 8 9 0 0 0x1FFFFFFF8),
    (0x6100A2D4FFFFFFF8, .st 11 10 2 2 0xFFFFFFF8),
    (0x6251EA0000000000, .aadd 20 30 40 0 0 0),
    (0x6355FA4A00000008, .amin 21 31 41 1 1 8),
    (0x645A0A9400000010, .amax 22 32 42 2 2 16),
    (0x655E1ADE00000018, .aminu 23 33 43 3 3 24),
    (0x66622B2200000020, .amaxu 24 34 44 4 1 32),
    (0x67663B6400000028, .axchg 25 35 45 4 2 40),
    (0x686A4BA600000030, .acas 26 36 46 4 3 48),
    (0x696E5BCE00000038, .afadd32 27 37 47 1 3 56),
    (0x6A726C1200000040, .afadd16 28 38 48 2 1 64),
    (0x6B00002200000000, .fence 4 1)] : List (Word × Instr)),
    (decodeWord p.1).toOption = some p.2 := by decide +kernel

/-- R124, R126, R127: words of the sync family written out from their fields. -/
theorem test_decode_sync : ∀ p ∈ ([
    (0x700050000000FFFF, .join 5 0xFFFF),
    (0x7100600000000001, .leave 6 1),
    (0x7200700000008000, .sbar 7 0x8000),
    (0x7400800900000000, .tlwait 8 9),
    (0x7524000800000001, .tlread 9 8 1),
    (0x7600000300000000, .drain 3),
    (0x7800000300000000, .qpush 3),
    (0x7900000C00000000, .qpop 3),
    (0x7A00A00380000000, .cbld 3 10 0x80000000),
    (0x7C2C00000000053F, .csrr 11 0x53F),
    (0x7D30D000000002FF, .csrw 12 13 0x2FF),
    (0x7E38F00000000401, .csrs 14 15 0x401),
    (0x7F4110000000001B, .csrc 16 17 0x1B)] : List (Word × Instr)),
    (decodeWord p.1).toOption = some p.2 := by decide +kernel

/-- R124, R126, R127: words of the system family written out from their fields. -/
theorem test_decode_system : ∀ p ∈ ([
    (0x800420C000000000, .launch 1 2 3),
    (0x9010518000000000, .probe 4 5 6 0),
    (0x9100000000000000, .quiesce),
    (0x92000000FFFFFFFF, .trap 0xFFFFFFFF),
    (0x9300000000000000, .tret),
    (0x9400000000000000, .nop),
    (0x9500000000000000, .endC),
    (0xA004200000000000, .tregReg 1 2),
    (0xA004200100000000, .tregUpd 1 2),
    (0xA004200200000000, .tregRst 1 2),
    (0xA004200300000000, .tregDel 1 2),
    (0xA10C414000010009, .plan 3 4 5 9 1),
    (0xA21870000000000F, .phint 6 7 15),
    (0xA300800000000001, .ppinOn 8),
    (0xA300800000000000, .ppinOff 8),
    (0xA424A2C000000000, .prun 9 10 11),
    (0xA500C00000000000, .prel 12),
    (0xA634E3C000000000, .statrd 13 14 15),
    (0xA741100500000000, .pfpr 16 17 5)] : List (Word × Instr)),
    (decodeWord p.1).toOption = some p.2 := by decide +kernel

/-- R125, R128: words that C's decoder refuses as unassigned. -/
theorem test_refuses_unassigned : ([0x0000000000000000, 0x1800000000000000, 0xFF00000000000000] : List Word).all (fun w => refusal (decodeWord w) = some .unassigned) = true := by decide +kernel

/-- R125, R128: words that C's decoder refuses as unused. -/
theorem test_refuses_unused : ([0x010420C000000001, 0x9404000000000000, 0x2404200000000040, 0x9500000000000001] : List Word).all (fun w => refusal (decodeWord w) = some .unused) = true := by decide +kernel

/-- R125, R128: words that C's decoder refuses as selector. -/
theorem test_refuses_selector : ([0x2A04200300000000, 0x7400100A00000000, 0x7800000000000000, 0x7900000500000000, 0x7600000400000000, 0x900420C200000000] : List Word).all (fun w => refusal (decodeWord w) = some .selector) = true := by decide +kernel

/-- R125, R128: words that C's decoder refuses as annotation. -/
theorem test_refuses_annotation : ([0x6020901C00000000, 0x6020901800000000, 0x6100920A00000000, 0x620420EA00000000, 0x6B00000000000000] : List Word).all (fun w => refusal (decodeWord w) = some .annotation) = true := by decide +kernel

/-- R125, R128: words that C's decoder refuses as csr. -/
theorem test_refuses_csr : ([0x7C0400000000001C, 0x7D04100000000402, 0x7C04000000000540] : List Word).all (fun w => refusal (decodeWord w) = some .csr) = true := by decide +kernel

/-- R131 to R134, R141: records of the move family written out from their fields. -/
theorem test_decode_move_records : ∀ p ∈ ([
    (.l, recBits 0x0110400000000520 0x0001000100010010 0xC0000000000000000000000000001 0x80000000000000000000000000001 0x0 0x0,
      .copy { r1 with eng := 1, push := 4, dk := 1, ak := 1, su := 1, t0 := 16, d := { Opd.zero with base := 3, s0 := 1 }, a := { Opd.zero with base := 2, s0 := 1 } }),
    (.l, recBits 0x0230000000000540 0x0001000100010001 0xBFFFFFFF80FFFFF00002FFFFD00004 0x7C0000000000000000000000000000 0x100000000000000000000000000000 0x0,
      .copyf { r1 with eng := 3, dk := 1, ak := 1, bk := 1, d := { Opd.zero with base := 47, off := 0x3ffffff80, s3 := 0xfffff, s2 := 2, s1 := 0xffffd, s0 := 4 }, a := { Opd.zero with base := 31 }, b := { Opd.zero with base := 4 } }),
    (.l, recBits 0x0320000000000D60 0x000100010001FFFF 0x0 0x80000000000000000000000000001 0x140000000000000000000000000000 0x0,
      .rld { r1 with eng := 2, dk := 3, ak := 1, bk := 1, su := 1, t0 := 65535, a := { Opd.zero with base := 2, s0 := 1 }, b := { Opd.zero with base := 5 } }),
    (.s, recBits 0x0400000000000710 0x0001000100010001 0x180000000000000000000000000000 0x40000000000000000000000000000 0x0 0x0,
      .rst { r1 with eng := 0, dk := 1, ak := 3, fn := 16, d := { Opd.zero with base := 6 }, a := { Opd.zero with base := 1 } }),
    (.l, recBits 0x050E000000000900 0x0001000100010020 0x3C0000000000000000000000000000 0x80000000000000000000000000000 0x0 0x0,
      .tld { r1 with eng := 0, fmt := 14, dk := 2, ak := 1, t0 := 32, d := { Opd.zero with base := 15 }, a := { Opd.zero with base := 2 } }),
    (.l, recBits 0x061F000000000900 0x0001000100010040 0x840000000000000000000000000000 0x80000000000000000000000000000 0x0 0x0,
      .kld { r1 with eng := 1, fmt := 15, dk := 2, ak := 1, t0 := 64, d := { Opd.zero with base := 33 }, a := { Opd.zero with base := 2 } }),
    (.l, recBits 0x0760000000000D41 0x0001000100010001 0x0 0x80000000000000000000000000000 0xC0000000000000000000000000000 0x0,
      .gather { r1 with eng := 6, dk := 3, ak := 1, bk := 1, fn := 1, a := { Opd.zero with base := 2 }, b := { Opd.zero with base := 3 } }),
    (.s, recBits 0x0800000000000751 0x0001000100010001 0x80000000000000000000000000000 0x40000000000000000000000000000 0xC0000000000000000000000000000 0x0,
      .scatter { r1 with eng := 0, dk := 1, ak := 3, bk := 1, fn := 17, d := { Opd.zero with base := 2 }, a := { Opd.zero with base := 1 }, b := { Opd.zero with base := 3 } }),
    (.l, recBits 0x0990000000000C00 0x0001000100010004 0x7F00000000000000000000 0x0 0x0 0x0,
      .rmerge { r1 with eng := 9, dk := 3, t0 := 4, d := { Opd.zero with base := 0, off := 127 } }),
    (.l, recBits 0x0A90000000000C00 0x0001000100010001 0x80000007E00000000000000000000 0x0 0x0 0x0,
      .bqpush { r1 with eng := 9, dk := 3, d := { Opd.zero with base := 2, off := 126 } }),
    (.l, recBits 0x0B30000000000D01 0x0001000100010001 0xC0000000000000000000000000000 0x80000000000000000000000000000 0x0 0x0,
      .rqld { r1 with eng := 3, dk := 3, ak := 1, fn := 1, d := { Opd.zero with base := 3 }, a := { Opd.zero with base := 2 } })] : List (Seqr × RecWord × Instr)),
    (decodeRecord p.1 p.2.1).toOption = some p.2.2 := by decide +kernel

/-- R131 to R134, R141: records of the sequencer family written out from their fields. -/
theorem test_decode_sequencer_records : ∀ p ∈ ([
    (.x, recBits 0x1090000000000000 0x00010001000C0002 0x0 0x0 0x0 0x0,
      .loop { r1 with eng := 9, t1 := 12, t0 := 2 }),
    (.x, recBits 0x1190000000000301 0x0001000100050001 0x0 0xC0000000000000000000000000000 0x0 0x0,
      .loopq { r1 with eng := 9, ak := 3, fn := 1, t1 := 5, a := { Opd.zero with base := 3 } }),
    (.l, recBits 0x1290000000000100 0x0001000100010001 0x0 0xBFFFFFFC000000000000000000000 0x0 0x0,
      .endl { r1 with eng := 9, ak := 1, a := { Opd.zero with base := 2, off := 0x3ffffffc0 } }),
    (.s, recBits 0x1390000000000003 0x0001000100010007 0x0 0x0 0x0 0x0,
      .rot { r1 with eng := 9, fn := 3, t0 := 7 }),
    (.l, recBits 0x149000FFFF000003 0x0001000100010001 0x0 0x0 0x0 0x0,
      .drainRec { r1 with eng := 9, pred := 65535, fn := 3 }),
    (.s, recBits 0x1590000000000109 0x0001000100010001 0x0 0x80000000100000000000000000000 0x0 0x0,
      .tlwaitRec { r1 with eng := 9, ak := 1, fn := 9, a := { Opd.zero with base := 2, off := 1 } }),
    (.x, recBits 0x16901A0000000000 0x0001000100010001 0x0 0x0 0x0 0x0,
      .sync { r1 with eng := 9, push := 1, pop := 10 }),
    (.l, recBits 0x1790800000000000 0x0001000100010001 0x0 0x0 0x0 0x0,
      .endRec { r1 with eng := 9, push := 8 }),
    (.x, recBits 0x18900000000000C3 0x0001000100010001 0x3FFFFFFFE00000000000000000000 0xFFFF00000000000000000000 0x80000000000000000000000000000 0x0,
      .brq { r1 with eng := 9, bk := 3, fn := 3, d := { Opd.zero with off := 0x3fffffffe }, a := { Opd.zero with off := 65535 }, b := { Opd.zero with base := 2 } }),
    (.x, recBits 0x6380000000000102 0x0001000100010001 0x0 0x100000000000000000000000000000 0x0 0x0,
      .hcfg { r1 with eng := 8, ak := 1, fn := 2, a := { Opd.zero with base := 4 } }),
    (.x, recBits 0x6380000000B80010 0x0001000100010001 0x0 0x0 0x0 0x0,
      .hcfgRet { r1 with eng := 8, stg := 184, fn := 16 })] : List (Seqr × RecWord × Instr)),
    (decodeRecord p.1 p.2.1).toOption = some p.2.2 := by decide +kernel

/-- R131 to R134, R141: records of the vectorArith family written out from their fields. -/
theorem test_decode_vectorArith_records : ∀ p ∈ ([
    (.x, recBits 0x205100000000F55D 0x0002000300040008 0x100000000000000000000000000004 0x80000000000000000000000000000 0x40000000000000000000000000000 0x4C5000,
      .vadd { r1 with eng := 5, fmt := 1, msk := 15, dk := 1, ak := 1, bk := 1, fn := 29, t3 := 2, t2 := 3, t1 := 4, t0 := 8, d := { Opd.zero with base := 4, s0 := 4 }, a := { Opd.zero with base := 2 }, b := { Opd.zero with base := 1 }, moda := 0x4C5 }),
    (.x, recBits 0x2152000000000540 0x0001000100010001 0xC0000000000000000000000000000 0x80000000000000000000000000000 0x40000000000000000000000000000 0x0,
      .vsub { r1 with eng := 5, fmt := 2, dk := 1, ak := 1, bk := 1, d := { Opd.zero with base := 3 }, a := { Opd.zero with base := 2 }, b := { Opd.zero with base := 1 } }),
    (.x, recBits 0x2259000000000540 0x0001000100010008 0xC0000000000000000000000000000 0x80000000000000000000000000000 0x40000000000000000000000000000 0x8C7,
      .vmul { r1 with eng := 5, fmt := 9, dk := 1, ak := 1, bk := 1, t0 := 8, d := { Opd.zero with base := 3 }, a := { Opd.zero with base := 2 }, b := { Opd.zero with base := 1 }, modb := 0x8C7 }),
    (.x, recBits 0x2350000000000544 0x0001000100010001 0xC0000000000000000000000000000 0x80000000000000000000000000000 0x40000000000000000000000000000 0x0,
      .vfma { r1 with eng := 5, dk := 1, ak := 1, bk := 1, fn := 4, d := { Opd.zero with base := 3 }, a := { Opd.zero with base := 2 }, b := { Opd.zero with base := 1 } }),
    (.x, recBits 0x2450000000000540 0x0001000100010001 0xC0000000000000000000000000000 0x80000000000000000000000000000 0x40000000000000000000000000000 0x0,
      .vdiv { r1 with eng := 5, dk := 1, ak := 1, bk := 1, d := { Opd.zero with base := 3 }, a := { Opd.zero with base := 2 }, b := { Opd.zero with base := 1 } }),
    (.x, recBits 0x2550000000000D40 0x0001000100010001 0x40000000000000000000000000000 0x80000000000000000000000000000 0x40000000000000000000000000000 0x0,
      .vmin { r1 with eng := 5, dk := 3, ak := 1, bk := 1, d := { Opd.zero with base := 1 }, a := { Opd.zero with base := 2 }, b := { Opd.zero with base := 1 } }),
    (.x, recBits 0x2650000000000740 0x0001000100010001 0xC0000000000000000000000000000 0x0 0x40000000000000000000000000000 0x0,
      .vmax { r1 with eng := 5, dk := 1, ak := 3, bk := 1, d := { Opd.zero with base := 3 }, a := { Opd.zero with base := 0 }, b := { Opd.zero with base := 1 } }),
    (.x, recBits 0x2750000000000500 0x0001000100010001 0xC0000000000000000000000000000 0x80000000000000000000000000000 0x0 0x0,
      .vabs { r1 with eng := 5, dk := 1, ak := 1, d := { Opd.zero with base := 3 }, a := { Opd.zero with base := 2 } }),
    (.x, recBits 0x2850000000000500 0x0001000100010001 0xC0000000000000000000000000000 0x80000000000000000000000000000 0x0 0x0,
      .vneg { r1 with eng := 5, dk := 1, ak := 1, d := { Opd.zero with base := 3 }, a := { Opd.zero with base := 2 } }),
    (.x, recBits 0x2950000000000500 0x0001000100010001 0xC0000000000000000000000000000 0x80000000000000000000000000000 0x0 0x0,
      .vexp { r1 with eng := 5, dk := 1, ak := 1, d := { Opd.zero with base := 3 }, a := { Opd.zero with base := 2 } }),
    (.x, recBits 0x2A50000000000500 0x0001000100010001 0xC0000000000000000000000000000 0x80000000000000000000000000000 0x0 0x0,
      .vlog { r1 with eng := 5, dk := 1, ak := 1, d := { Opd.zero with base := 3 }, a := { Opd.zero with base := 2 } }),
    (.x, recBits 0x2B50000000000500 0x0001000100010001 0xC0000000000000000000000000000 0x80000000000000000000000000000 0x0 0x0,
      .vrcp { r1 with eng := 5, dk := 1, ak := 1, d := { Opd.zero with base := 3 }, a := { Opd.zero with base := 2 } }),
    (.x, recBits 0x2C50000000000500 0x0001000100010001 0xC0000000000000000000000000000 0x80000000000000000000000000000 0x0 0x0,
      .vrsq { r1 with eng := 5, dk := 1, ak := 1, d := { Opd.zero with base := 3 }, a := { Opd.zero with base := 2 } }),
    (.x, recBits 0x2D50000000000500 0x0001000100010001 0xC0000000000000000000000000000 0x80000000000000000000000000000 0x0 0x0,
      .vtanh { r1 with eng := 5, dk := 1, ak := 1, d := { Opd.zero with base := 3 }, a := { Opd.zero with base := 2 } }),
    (.x, recBits 0x2E50000000000500 0x0001000100010001 0xC0000000000000000000000000000 0x80000000000000000000000000000 0x0 0x0,
      .vsigm { r1 with eng := 5, dk := 1, ak := 1, d := { Opd.zero with base := 3 }, a := { Opd.zero with base := 2 } }),
    (.x, recBits 0x4750000000000500 0x0001000100010001 0xC0000000000000000000000000000 0x80000000000000000000000000000 0x0 0x0,
      .vsqrt { r1 with eng := 5, dk := 1, ak := 1, d := { Opd.zero with base := 3 }, a := { Opd.zero with base := 2 } })] : List (Seqr × RecWord × Instr)),
    (decodeRecord p.1 p.2.1).toOption = some p.2.2 := by decide +kernel

/-- R131 to R134, R141: records of the vectorSelect family written out from their fields. -/
theorem test_decode_vectorSelect_records : ∀ p ∈ ([
    (.x, recBits 0x2F50000000000947 0x0001000100010001 0xBC0000000000000000000000000000 0x80000000000000000000000000000 0x40000000000000000000000000000 0x0,
      .vcmp { r1 with eng := 5, dk := 2, ak := 1, bk := 1, fn := 7, d := { Opd.zero with base := 47 }, a := { Opd.zero with base := 2 }, b := { Opd.zero with base := 1 } }),
    (.x, recBits 0x3050000000003540 0x0001000100010001 0xC0000000000000000000000000000 0x80000000000000000000000000000 0x40000000000000000000000000000 0x0,
      .vsel { r1 with eng := 5, msk := 3, dk := 1, ak := 1, bk := 1, d := { Opd.zero with base := 3 }, a := { Opd.zero with base := 2 }, b := { Opd.zero with base := 1 } }),
    (.x, recBits 0x3151000000000500 0x0001000100010001 0xC0000000000000000000000000000 0x80000000000000000000000000000 0x260000000000000000000000000000 0x0,
      .vcvt { r1 with eng := 5, fmt := 1, dk := 1, ak := 1, d := { Opd.zero with base := 3 }, a := { Opd.zero with base := 2 }, b := { Opd.zero with base := 9, off := 8589934592 } }),
    (.x, recBits 0x3259000000000500 0x0001000100010400 0xC0000000000000000000000000000 0x80000000000000000000000000000 0x0 0x0,
      .vrsum { r1 with eng := 5, fmt := 9, dk := 1, ak := 1, t0 := 1024, d := { Opd.zero with base := 3 }, a := { Opd.zero with base := 2 } }),
    (.x, recBits 0x3350000000000500 0x0001000100010001 0xC0000000000000000000000000000 0x80000000000000000000000000000 0x0 0x0,
      .vrmax { r1 with eng := 5, dk := 1, ak := 1, d := { Opd.zero with base := 3 }, a := { Opd.zero with base := 2 } }),
    (.x, recBits 0x3450000000000500 0x0001000100010001 0xC0000000000000000000000000000 0x80000000000000000000000000000 0x0 0x0,
      .vrmin { r1 with eng := 5, dk := 1, ak := 1, d := { Opd.zero with base := 3 }, a := { Opd.zero with base := 2 } }),
    (.x, recBits 0x3550000000000500 0x0001000100010001 0xC0000000000000000000000000000 0x80000000000000000000000000000 0x0 0x0,
      .vscan { r1 with eng := 5, dk := 1, ak := 1, d := { Opd.zero with base := 3 }, a := { Opd.zero with base := 2 } }),
    (.x, recBits 0x3650000000000501 0x0001000100010001 0xC0000000000000000000000000000 0x80000000000000000000000000000 0x0 0x0,
      .vtopk { r1 with eng := 5, dk := 1, ak := 1, fn := 1, d := { Opd.zero with base := 3 }, a := { Opd.zero with base := 2 } }),
    (.x, recBits 0x375F000000000500 0x0001000100010001 0xC0000000000000000000000000000 0x80000000000000000000000000000 0x0 0x0,
      .vdrop { r1 with eng := 5, fmt := 15, dk := 1, ak := 1, d := { Opd.zero with base := 3 }, a := { Opd.zero with base := 2 } }),
    (.x, recBits 0x4450000000000500 0x0001000100010001 0xC0000000000000000000000000000 0x80000000000000000000000000000 0x0 0x0,
      .vcopy { r1 with eng := 5, dk := 1, ak := 1, d := { Opd.zero with base := 3 }, a := { Opd.zero with base := 2 } }),
    (.x, recBits 0x4559000000000400 0x0001000100010001 0x80000000000000000000000000000 0xFFFFFFFF00000000000000000000 0x0 0x0,
      .vfill { r1 with eng := 5, fmt := 9, dk := 1, d := { Opd.zero with base := 2 }, a := { Opd.zero with off := 4294967295 } }),
    (.x, recBits 0x4659000000000400 0x0001000100010001 0x80000000000000000000000000000 0xFFFFFFFE000000000000000FFFFD 0x0 0x0,
      .viota { r1 with eng := 5, fmt := 9, dk := 1, d := { Opd.zero with base := 2 }, a := { Opd.zero with off := 4294967294, s0 := 0xffffd } })] : List (Seqr × RecWord × Instr)),
    (decodeRecord p.1 p.2.1).toOption = some p.2.2 := by decide +kernel

/-- R131 to R134, R141: records of the vectorBits family written out from their fields. -/
theorem test_decode_vectorBits_records : ∀ p ∈ ([
    (.x, recBits 0x3850000000000540 0x0001000100010001 0xC0000000000000000000000000000 0x80000000000000000000000000000 0x40000000000000000000000000000 0x0,
      .vand { r1 with eng := 5, dk := 1, ak := 1, bk := 1, d := { Opd.zero with base := 3 }, a := { Opd.zero with base := 2 }, b := { Opd.zero with base := 1 } }),
    (.x, recBits 0x3950000000000540 0x0001000100010001 0xC0000000000000000000000000000 0x80000000000000000000000000000 0x40000000000000000000000000000 0x0,
      .vor { r1 with eng := 5, dk := 1, ak := 1, bk := 1, d := { Opd.zero with base := 3 }, a := { Opd.zero with base := 2 }, b := { Opd.zero with base := 1 } }),
    (.x, recBits 0x3A50000000000540 0x0001000100010001 0xC0000000000000000000000000000 0x80000000000000000000000000000 0x40000000000000000000000000000 0x0,
      .vxor { r1 with eng := 5, dk := 1, ak := 1, bk := 1, d := { Opd.zero with base := 3 }, a := { Opd.zero with base := 2 }, b := { Opd.zero with base := 1 } }),
    (.x, recBits 0x3B50000000000500 0x0001000100010001 0xC0000000000000000000000000000 0x80000000000000000000000000000 0x0 0x0,
      .vnot { r1 with eng := 5, dk := 1, ak := 1, d := { Opd.zero with base := 3 }, a := { Opd.zero with base := 2 } }),
    (.x, recBits 0x3C50000000000540 0x0001000100010001 0xC0000000000000000000000000000 0x80000000000000000000000000000 0x40000000000000000000000000000 0x0,
      .vshl { r1 with eng := 5, dk := 1, ak := 1, bk := 1, d := { Opd.zero with base := 3 }, a := { Opd.zero with base := 2 }, b := { Opd.zero with base := 1 } }),
    (.x, recBits 0x3D50000000000541 0x0001000100010001 0xC0000000000000000000000000000 0x80000000000000000000000000000 0x40000000000000000000000000000 0x0,
      .vshr { r1 with eng := 5, dk := 1, ak := 1, bk := 1, fn := 1, d := { Opd.zero with base := 3 }, a := { Opd.zero with base := 2 }, b := { Opd.zero with base := 1 } }),
    (.x, recBits 0x3E50000000000641 0x0001000100010001 0xC0000000000000000000000000000 0x800000000000000000000000000000 0x40000000000000000000000000000 0x0,
      .vband { r1 with eng := 5, dk := 1, ak := 2, bk := 1, fn := 1, d := { Opd.zero with base := 3 }, a := { Opd.zero with base := 32 }, b := { Opd.zero with base := 1 } }),
    (.x, recBits 0x3F50000000000501 0x0001000100010001 0xC0000000000000000000000000000 0x80000000000000000000000000000 0x0 0x0,
      .vpopc { r1 with eng := 5, dk := 1, ak := 1, fn := 1, d := { Opd.zero with base := 3 }, a := { Opd.zero with base := 2 } }),
    (.x, recBits 0x4050000000000540 0x0001000100010001 0xC0000000000000000000000000000 0x80000000000000000000000000000 0x40000000000000000000000000000 0x0,
      .visect { r1 with eng := 5, dk := 1, ak := 1, bk := 1, d := { Opd.zero with base := 3 }, a := { Opd.zero with base := 2 }, b := { Opd.zero with base := 1 } }),
    (.x, recBits 0x4150000000000541 0x0001000100010001 0xC0000000000000000000000000000 0x80000000000000000000000000000 0x40000000000000000000000000000 0x0,
      .vclmul { r1 with eng := 5, dk := 1, ak := 1, bk := 1, fn := 1, d := { Opd.zero with base := 3 }, a := { Opd.zero with base := 2 }, b := { Opd.zero with base := 1 } }),
    (.x, recBits 0x4250000000001500 0x0001000100010001 0xC0000000000000000000000000000 0x80000000000000000000000000000 0x0 0x0,
      .vcomp { r1 with eng := 5, msk := 1, dk := 1, ak := 1, d := { Opd.zero with base := 3 }, a := { Opd.zero with base := 2 } }),
    (.x, recBits 0x4350000000000541 0x0001000100010001 0xC0000000000000000000000000000 0x80000000000000000000000000000 0x140000000000000000000000000000 0x0,
      .vexpand { r1 with eng := 5, dk := 1, ak := 1, bk := 1, fn := 1, d := { Opd.zero with base := 3 }, a := { Opd.zero with base := 2 }, b := { Opd.zero with base := 5 } })] : List (Seqr × RecWord × Instr)),
    (decodeRecord p.1 p.2.1).toOption = some p.2.2 := by decide +kernel

/-- R131 to R134, R141: records of the matrix family written out from their fields. -/
theorem test_decode_matrix_records : ∀ p ∈ ([
    (.x, recBits 0x5040000000000A87 0x0001000100010001 0x400000000000000000000000000000 0x0 0x3C0000000000000000000000000000 0x0,
      .mma { r1 with eng := 4, dk := 2, ak := 2, bk := 2, fn := 7, d := { Opd.zero with base := 16 }, a := { Opd.zero with base := 0 }, b := { Opd.zero with base := 15 } }),
    (.x, recBits 0x5143000000001A80 0x0001000100010001 0x5C0000000000000000000000000000 0x40000000000000000000000000000 0x80000000000000000000000000000 0x0,
      .mmanm { r1 with eng := 4, fmt := 3, msk := 1, dk := 2, ak := 2, bk := 2, d := { Opd.zero with base := 23 }, a := { Opd.zero with base := 1 }, b := { Opd.zero with base := 2 } }),
    (.x, recBits 0x5240000000000A8F 0x0001000100010001 0x4C0000000000000000000000000000 0x40000000000000000000000000000 0x80000000000000000000000000000 0x0,
      .mmacb { r1 with eng := 4, dk := 2, ak := 2, bk := 2, fn := 15, d := { Opd.zero with base := 19 }, a := { Opd.zero with base := 1 }, b := { Opd.zero with base := 2 } }),
    (.x, recBits 0x5342000000000980 0x0001000100010080 0x400000000000000000000000000000 0x40000000000000000000000000000 0x80000000000000000000000000000 0x0,
      .mmag { r1 with eng := 4, fmt := 2, dk := 2, ak := 1, bk := 2, t0 := 128, d := { Opd.zero with base := 16 }, a := { Opd.zero with base := 1 }, b := { Opd.zero with base := 2 } }),
    (.x, recBits 0x544000000000FA80 0x0001000100010001 0x400000000000000000000000000000 0x40000000000000000000000000000 0x80000000000000000000000000000 0x0,
      .mmak { r1 with eng := 4, msk := 15, dk := 2, ak := 2, bk := 2, d := { Opd.zero with base := 16, off := 0 }, a := { Opd.zero with base := 1 }, b := { Opd.zero with base := 2 } }),
    (.x, recBits 0x5540000000000800 0x0001000100010001 0x500000000000000000000000000000 0x0 0x0 0x0,
      .azero { r1 with eng := 4, dk := 2, d := { Opd.zero with base := 20 } }),
    (.x, recBits 0x5641000000000E08 0x0001000100800080 0x40000000000000000000000000000 0x400000000000000000000000000000 0x0 0x0,
      .awrq { r1 with eng := 4, fmt := 1, dk := 3, ak := 2, fn := 8, t1 := 128, t0 := 128, d := { Opd.zero with base := 1 }, a := { Opd.zero with base := 16 } }),
    (.x, recBits 0x5743000000000600 0x0001000100020001 0x40000000000000000000008000000 0x400000000000000000000000000000 0x0 0x0,
      .awrm { r1 with eng := 4, fmt := 3, dk := 1, ak := 2, t1 := 2, d := { Opd.zero with base := 1, s1 := 128 }, a := { Opd.zero with base := 16 } }),
    (.x, recBits 0x5843000000000A00 0x0001000100100020 0x380000000000000000000000000000 0x440000000000000000000000000000 0x0 0x0,
      .awrt { r1 with eng := 4, fmt := 3, dk := 2, ak := 2, t1 := 16, t0 := 32, d := { Opd.zero with base := 14 }, a := { Opd.zero with base := 17 } }),
    (.x, recBits 0x5943000000000900 0x0001000100010001 0xC0000000000000000000000000000 0x100000000000000000000000000080 0x0 0x0,
      .tlds { r1 with eng := 4, fmt := 3, dk := 2, ak := 1, d := { Opd.zero with base := 3 }, a := { Opd.zero with base := 4, s0 := 128 } }),
    (.x, recBits 0x5A40000000000600 0x0001000100010001 0x100000000000000000000000000000 0xC0000000000000000000000000000 0x0 0x0,
      .tsts { r1 with eng := 4, dk := 1, ak := 2, d := { Opd.zero with base := 4 }, a := { Opd.zero with base := 3 } }),
    (.x, recBits 0x5B4B000000000B00 0x0001000100010009 0xC0000000000000000000000000000 0x0 0x0 0x0,
      .tqld { r1 with eng := 4, fmt := 11, dk := 2, ak := 3, t0 := 9, d := { Opd.zero with base := 3 }, a := { Opd.zero with base := 0 } }),
    (.x, recBits 0x5C40000000000E00 0x0001000100010002 0x40000000000000000000000000000 0xC0000000000000000000000000000 0x0 0x0,
      .tstq { r1 with eng := 4, dk := 3, ak := 2, t0 := 2, d := { Opd.zero with base := 1 }, a := { Opd.zero with base := 3 } }),
    (.x, recBits 0x5D40000000000800 0x0001000100010001 0x500000000000000000000000000000 0x0 0x0 0x0,
      .scommit { r1 with eng := 4, dk := 2, d := { Opd.zero with base := 20 } }),
    (.x, recBits 0x5E40000000000800 0x0001000100010001 0x5C0000000000000000000000000000 0x0 0x0 0x0,
      .sdiscard { r1 with eng := 4, dk := 2, d := { Opd.zero with base := 23 } }),
    (.x, recBits 0x5F41000000000943 0x0001000100010001 0x400000000000000000000000000000 0x40000000000000000000000000000 0x80000000000000000000000000000 0x0,
      .mnest { r1 with eng := 4, fmt := 1, dk := 2, ak := 1, bk := 1, fn := 3, d := { Opd.zero with base := 16 }, a := { Opd.zero with base := 1 }, b := { Opd.zero with base := 2 } })] : List (Seqr × RecWord × Instr)),
    (decodeRecord p.1 p.2.1).toOption = some p.2.2 := by decide +kernel

/-- R131 to R134, R141: records of the attention family written out from their fields. -/
theorem test_decode_attention_records : ∀ p ∈ ([
    (.x, recBits 0x6070000000000680 0x0001000100020040 0x40000000000000000000000400080 0x40000000000000000000000000000 0x80000000000000000000000000000 0x0,
      .scout { r1 with eng := 7, dk := 1, ak := 2, bk := 2, t1 := 2, t0 := 64, d := { Opd.zero with base := 1, s1 := 4, s0 := 128 }, a := { Opd.zero with base := 1 }, b := { Opd.zero with base := 2 } }),
    (.x, recBits 0x6170000000000900 0x0001000100010080 0x840000000000000000000000000000 0x80000000000000000000000000004 0x0 0x0,
      .thresh { r1 with eng := 7, dk := 2, ak := 1, t0 := 128, d := { Opd.zero with base := 33 }, a := { Opd.zero with base := 2, s0 := 4 } }),
    (.x, recBits 0x6270000000000000 0x0001000100010001 0x0 0x3F80000000000000000000000000 0x0 0x0,
      .sreset { r1 with eng := 7, a := { Opd.zero with off := 1065353216 } }),
    (.x, recBits 0x6480000000000203 0x0001000100010001 0x0 0x240000000000000000000000000000 0x0 0x0,
      .hproj { r1 with eng := 8, ak := 2, fn := 3, a := { Opd.zero with base := 9 } }),
    (.x, recBits 0x6580000000000001 0x0001000100010001 0x0 0x0 0x0 0x0,
      .hreset { r1 with eng := 8, fn := 1 }),
    (.x, recBits 0x6680000000000642 0x0001000100010080 0x40000000000000000000000000004 0x80000000000000000000000000000 0xC0000000000000000000000000000 0x0,
      .kstore { r1 with eng := 8, dk := 1, ak := 2, bk := 1, fn := 2, t0 := 128, d := { Opd.zero with base := 1, s0 := 4 }, a := { Opd.zero with base := 2 }, b := { Opd.zero with base := 3 } }),
    (.x, recBits 0x6780000000000604 0x0001000100010040 0x40000000000000000000000000000 0x80000000000000000000000000000 0xFFFF00000000000000000000 0x0,
      .hgather { r1 with eng := 8, dk := 1, ak := 2, fn := 4, t0 := 64, d := { Opd.zero with base := 1 }, a := { Opd.zero with base := 2 }, b := { Opd.zero with off := 65535 } }),
    (.x, recBits 0x6880000000000403 0x0001000100010001 0x40000000000000000000000000000 0x0 0x0 0x0,
      .hcount { r1 with eng := 8, dk := 1, fn := 3, d := { Opd.zero with base := 1 } })] : List (Seqr × RecWord × Instr)),
    (decodeRecord p.1 p.2.1).toOption = some p.2.2 := by decide +kernel


/-! ### Witnesses: words of C -/

/-- An HBM entry of page 0x200000 at physical address 0, readable and writable (R112). -/
def page : TlbEntry := ⟨0x200000, true, 7, 0⟩
/-- The same without permission to write. -/
def readOnly : TlbEntry := ⟨0x200000, true, 3, 0⟩
/-- The same page in host memory. -/
def hostPage : TlbEntry := ⟨0x200000, true, 0x1000000000000007, 0⟩
/-- A strand whose C holds one entry, with x6. -/
def mapped (e : TlbEntry) (a : Nat) : Strand := { strand0.wx 6 (BitVec.ofNat 64 a) with tlb := strand0.tlb.set 0 [e] }
/-- A state with stack 0 of HBM trained. -/
def trained (s : State) : State := { s with dev := { s.dev with ready := 0x20 } }

/-- A packet of strands, flags, a gang, its ports and its deadline (R66). -/
def packet (type strands det gang ports deadline : Nat) : BitVec 512 :=
  BitVec.ofNat 512 (type + 2 ^ 9 * det + 2 ^ 32 * strands + 2 ^ 64 * 0x202000 + 2 ^ 376 * ports + 2 ^ 416 * gang + 2 ^ 448 * deadline)
/-- Launch 1 of a packet, of function 0, with a number of strands bound. -/
def launch1 (p : BitVec 512) (bound : Nat) : Launch := {
  uid0 := 1, queue := 0, pkt := 0, fn := 0, packet := p, header := BitVec.ofNat 512 0x4000000000, groups := [], next := Vector.replicate 4 0
  bound := bound, ended := 0, started := true, status := 1, killed := false, gang := .none, ackSent := false, desync := false
  parked := false, scyc := 0, stage := none, issuer := none }
/-- Function 0's table at 0x4000 maps the page at 0x200000 to physical address 0 (R111, R112). -/
def tables : List Host.Cell :=
  writeNat (writeNat (writeNat (writeNat [] 0x4000 8 0x5001) 0x5000 8 0x6001) 0x6000 8 0x7001) 0x7008 8 7
/-- A module with that table, and READY bits. -/
def paged (ready : BitVec 32) : State := { State.reset with
  mem := tables, dev := { Device.reset with ptbase := Device.reset.ptbase.set 0 0x4000, ready := ready } }
theorem witness_WordsRoundTrip : (Instr.aadd 63 63 63 4 3 0x1FFFFFFFF).wf .c = true ∧ decodeWord 0x9400000000000000 = .ok .nop :=
  ⟨by decide +kernel, rfl⟩

theorem witness_RecordsRoundTrip : Seqr.l ≠ .c ∧ (Instr.copy rCopy).wf .l = true ∧ Seqr.s ≠ .c ∧ (Instr.rst rRst).wf .s = true ∧
    Seqr.x ≠ .c ∧ (Instr.vadd rVec).wf .x = true ∧
    (decodeRecord .x (recBits 0x1690000000000000 0x0001000100010001 0 0 0 0)).toOption = some (.sync r9) := by decide +kernel

theorem witness_ThreeRegisterWordsCompute : CRuns (cWith 0 0) ((strand0.wx 6 0).wx 7 0) ∧
    (strand0.wx 7 0).rx 7 = 0 ∧ (strand0.wx 7 1).rx 7 ≠ 0 ∧
    (((strand0.wx 6 0x8000000000000000).wx 7 0xFFFFFFFFFFFFFFFF).rx 6).toInt = -2 ^ 63 ∧
    (((strand0.wx 6 0x8000000000000000).wx 7 0xFFFFFFFFFFFFFFFF).rx 7).toInt = -1 ∧
    ((strand0.wx 7 0xFFFFFFFFFFFFFFFE).rx 7).toInt ≠ -1 := ⟨⟨rfl, rfl, rfl, rfl⟩, by decide +kernel⟩

theorem witness_ImmediateWordsCompute : CRuns (cWith 0 0) ((strand0.wx 6 0).wx 7 0) := ⟨rfl, rfl, rfl, rfl⟩

theorem witness_WindowWordsConvert :
    let a : Nat := 0xFE00000007FFFFFF
    CRuns (cWith a 0) ((strand0.wx 6 0xFE00000007FFFFFF).wx 7 0) ∧ (cWith a 0).curTile < Config.tiles ∧
    InWindow 0 a 2 15 0x7FFFFF ∧ InWindow 0 0xFD00000007FFFFFF 1 15 0x7FFFFF := by
  refine ⟨⟨rfl, rfl, rfl, rfl⟩, by decide +kernel, ?_, ?_⟩ <;> unfold InWindow <;> omega

theorem witness_WindowWordsConvert_to_zero :
    ∀ w n o a, InWindow 0 0xFE00000008000000 w n o → ¬InWindow 0 a 1 n o := by
  intro w n o a h h'; unfold InWindow at h h'; omega

theorem witness_WindowWordsConvert_isap : (∃ n o, InWindow 0 0xFC000000005FFFFF 0 n o ∧ o < 0x600000) ∧
    ¬((0 = 3 ∧ 0xFC00000000600000 < 2 ^ 56) ∨ ∃ n o, InWindow 0 0xFC00000000600000 0 n o ∧ o < 0x600000) := by
  constructor
  · exact ⟨0, 0x5FFFFF, by unfold InWindow; omega, by omega⟩
  · rintro (h | ⟨n, o, h, ho⟩)
    · omega
    · unfold InWindow at h; omega

theorem witness_BaseAndPredicateMoves : CRuns (cWith 0 0) ((strand0.wx 6 0).wx 7 0) := ⟨rfl, rfl, rfl, rfl⟩

theorem witness_BranchesGoWhereTheyShould : CRuns (cWith 4 4) ((strand0.wx 6 4).wx 7 4) ∧ ((strand0.wx 6 4).wx 7 4).rx 6 = 4 ∧
    ((strand0.wx 6 0xFFFFFFFFFFFFFFFF).wx 7 0).rx 6 ≠ ((strand0.wx 6 4).wx 7 0).rx 7 := ⟨⟨rfl, rfl, rfl, rfl⟩, by decide +kernel⟩

theorem witness_RegisterWordsChangeOneRegister : resultReg (.add 0 6 7) = some 0 ∧ resultReg (.tlread 63 9 1) = some 63 ∧
    exec (.add 0 6 7) (cWith 1 2) = .next (after (exec (.add 0 6 7) (cWith 1 2))) ∧
    exec (.tlread 63 9 1) (cWith 1 2) = .next (after (exec (.tlread 63 9 1) (cWith 1 2))) := ⟨rfl, rfl, rfl, rfl⟩

theorem witness_LoadsAndStoresMoveEightBytes_slice :
    let st := strand0.wx 6 0xFC000000005FFFFF
    CRuns (state0 .c st) st ∧ st.c.wait.pending = false ∧ (state0 .c st).health = .clean ∧
      Reaches (state0 .c st) st (st.rx 6 + (0 : BitVec 33).signExtend 64).toNat false (sliceKey 0 0x5FFFFF) :=
  ⟨⟨rfl, rfl, rfl, rfl⟩, rfl, rfl, .inl ⟨⟨0, 0, 0x5FFFFF⟩, by decide +kernel⟩⟩

theorem witness_LoadsAndStoresMoveEightBytes_page :
    let st := mapped page 0x3FFFFF
    let s := trained (state0 .c st)
    CRuns s st ∧ s.health = .clean ∧ Reaches s st (scalarAddr st 6 0) true 0x1FFFFF :=
  ⟨⟨rfl, rfl, rfl, rfl⟩, rfl, .inr ⟨by decide +kernel, page, by decide +kernel⟩⟩

theorem witness_ScalarAccessFaults :
    scalarAccess (.ld 5 6 0 0 0) = some (6, 0, false) ∧ scalarAccess (.afadd16 5 6 7 0 0 0) = some (6, 0, true) ∧
    CRuns (cWith 0 0) ((strand0.wx 6 0).wx 7 0) ∧ ((strand0.wx 6 0).wx 7 0).c.wait.pending = false ∧
    decodeAddr 0 (scalarAddr (strand0.wx 6 0x0100000000000000) 6 0) = none ∧
    decodeAddr 0 (scalarAddr (strand0.wx 6 0xFC00000000600000) 6 0) = some ⟨0, 0, 0x600000⟩ ∧
    translate (trained (cWith 0 0)) strand0 0 (2 ^ 56 - 1) = .nothing ∧
    translate (trained (cWith 0 0)) (mapped readOnly 0) 0 0x200000 = .found readOnly ∧ readOnly.writable = false ∧
    translate (trained (cWith 0 0)) { mapped hostPage 0 with det := true } 0 0x200000 = .found hostPage ∧
    hostPage.target 0x200000 = .far none 0 := ⟨rfl, rfl, ⟨rfl, rfl, rfl, rfl⟩, by decide +kernel⟩

/-- A strand that waits for request 1. -/
def awaiting : Strand := strand0.cStay (.answer 1)
/-- A compare-and-swap of that strand. -/
def casReq : AtomReq := ⟨1, 1, .cas, sliceKey 0 0, 5, 7, 5, strand0.at 0 .c 1⟩

theorem witness_AtomicWordsPerformAtTheOwner :
    let st := strand0.wx 6 0xFC00000000000000
    atomicWordOf (.acas 5 6 7 3 3 0) = some (.cas, 5, 6, 7, 0) ∧ CRuns (state0 .c st) st ∧ st.c.wait.pending = false ∧
    Reaches (state0 .c st) st (scalarAddr st 6 0) true (sliceKey 0 0) ∧
    (let s := { state0 .c awaiting with dev := { Device.reset with atoms := [casReq] } }
     s.health = .clean ∧ s.dev.atoms[0]? = some casReq ∧ findUid s 1 = some (0, awaiting) ∧ awaiting.c.wait = .answer casReq.id ∧
       findUid { s with strands := [] } casReq.uid = none) :=
  ⟨rfl, ⟨rfl, rfl, rfl, rfl⟩, rfl, .inl ⟨⟨0, 0, 0⟩, by decide +kernel⟩, by decide +kernel⟩

/-- A strand with one operation outstanding on ch0. -/
def busy : Strand := strand0.setTl 0 ⟨1, 0, []⟩

theorem witness_PlainWordsComplete : CRuns (cWith 0 0) ((strand0.wx 6 0).wx 7 0) ∧
    (cWith 0 0).dev.ivpending.find? (runKey 0) = none ∧
    ({ Device.reset with ivpending := [(0, 3)] } : Device).ivpending.find? (runKey 0) = some 3 ∧ busy.quiet = false ∧
    strand0.quiet = true ∧ attrReady { Device.reset with ivpending := [(0, 3)] } = true ∧
    Device.reset.ivctl.getLsbD 29 = false ∧ bitsOf Device.reset.ivctl.toNat 24 4 = strand0.fn ∧
    page ∈ (mapped page 0).tlb[0] := ⟨⟨rfl, rfl, rfl, rfl⟩, by decide +kernel⟩

/-- The strand is the member of set 5 of function 0. -/
def member : State := { state0 .c strand0 with dev := { Device.reset with sets := [(5, ⟨[1], []⟩)] } }

theorem witness_SetWordsAskTheHome : CRuns member strand0 ∧ strand0.c.wait = .idle ∧
    (((strand0.wx 6 0xFFFF).rx 6).toNat + (1 : BitVec 16).toNat) % 2 ^ 16 = 0 ∧
    (((strand0.wx 6 0xFFFF).rx 6).toNat + (2 : BitVec 16).toNat) % 2 ^ 16 ≠ 0 ∧
    isMember member strand0 6 = false ∧ isMember member strand0 5 = true ∧ strand0.quiet = true ∧
    (let vs := [1, 0, 0, 0, 0, 0, 0, 0, 0]
     busy.issues = vs ∧ busy.reached vs = false ∧ (busy.cStay (.sbar 5 vs false false)).c.wait = .sbar 5 vs false false ∧
     (busy.cStay (.sbar 5 vs false false)).reached vs = false ∧
     (let st := (strand0.setTl 0 ⟨1, 1, []⟩).cStay (.sbar 5 vs false false)
      st.c.wait = .sbar 5 vs false false ∧ st.reached vs = true)) ∧
    (strand0.cStay (.sbar 5 [] true false)).c.wait = .sbar 5 [] true false ∧
    (strand0.cStay (.sbar 5 [] true true)).c.wait = .sbar 5 [] true true :=
  ⟨⟨rfl, rfl, rfl, rfl⟩, by decide +kernel⟩

/-- A state with sets, one request and one answer for the strand. -/
def asking (sets : PMap SetEntry) (op : SetOp) : State := { member with
  dev := { Device.reset with sets := sets, setReqs := [⟨1, 0, 5, op⟩], setAnswers := [⟨1, 5, op, false⟩] } }

theorem witness_SetRequestsAndAnswers :
    (asking [] .join).dev.setReqs[0]? = some ⟨1, 0, 5, .join⟩ ∧ findUid (asking [] .join) 1 = some (0, strand0) ∧
    setCount (asking [(1, ⟨[1], []⟩), (2, ⟨[1], []⟩), (3, ⟨[1], []⟩), (5, ⟨[2], []⟩)] .join) 1 = 3 ∧
    setCount (asking [(1, ⟨[1], []⟩), (2, ⟨[1], []⟩), (3, ⟨[1], []⟩), (4, ⟨[1], []⟩), (5, ⟨[2], []⟩)] .join) 1 = 4 ∧
    (asking [(5, ⟨[2], []⟩)] .join).dev.sets.find? (setKey 0 5) = some ⟨[2], []⟩ ∧ 1 ∉ [2] ∧
    (asking [(5, ⟨[1], []⟩)] .arrive).dev.sets.find? (setKey 0 5) = some ⟨[1], []⟩ ∧
    (asking [(5, ⟨[1, 2], [⟨[1, 2], [2]⟩]⟩)] .arrive).dev.sets.find? (setKey 0 5) = some ⟨[1, 2], [⟨[1, 2], [2]⟩]⟩ ∧
    (asking [] .leave).dev.setAnswers[0]? = some ⟨1, 5, .leave, false⟩ ∧ (asking [] .leave).dev.trcctl.getLsbD 31 = false ∧
    (strand0.cStay .setReq).c.wait = .setReq ∧ (asking [] .arrive).dev.setAnswers[0]? = some ⟨1, 5, .arrive, false⟩ ∧ 5 ∉ strand0.lateBars ∧
    strand0.c.kept.inBarrier 5 = false ∧ (strand0.cStay (.sbar 5 [] true false)).c.wait = .sbar 5 [] true false ∧
    (strand0.cStay (.sbar 6 [] true true)).c.wait = .sbar 6 [] true true ∧ 6 ≠ 5 ∧
    ({ strand0 with c := { strand0.c with kept := .sbar 5 [] true false } } : Strand).c.kept = .sbar 5 [] true false ∧ ((List.range 4096).map (fun n => (n, (⟨[2], []⟩ : SetEntry)))).length = 4096 := by
  decide +kernel

/-- The strand of an RLD on ch0 whose row is read and stands before a full dq.lx, or that has not begun. -/
def pushingRow (p : Phase) : Strand := { busy with
  ops := [{ formOp strand0 .l (.rld { r1 with dk := 3 }) AtDecode.none with num := 1, n := 1, phase := p, out := [9] }] }

/-- R215: DRAIN counts an RLD whose reads are made, though its push still stands. -/
theorem test_drain_counts_reads : (pushingRow .running).drained 0 1 = true ∧ (pushingRow .accepted).drained 0 1 = false := by
  decide +kernel

/-- R197, R215: DRAIN counts an RLD whose issues that are left have no element in bounds, of a layout of 128 bytes. -/
theorem test_drain_counts_fills :
    let o : Op := { formOp strand0 .l (.rld { r1 with dk := 3, t0 := 2 }) AtDecode.none with
      num := 1, phase := .running, out := [9], layout := some (BitVec.ofNat 1024 (128 + 2 ^ 256 * 128 + 2 ^ 288)) }
    { o with n := 1 }.drained = true ∧ o.drained = false := by decide +kernel

theorem witness_TimelineWords : CRuns (cWith 0 0) ((strand0.wx 6 0).wx 7 0) ∧ (9 : BitVec 4).toNat < 10 ∧
    strand0.c.wait = .idle ∧ CopiesDone strand0 0 (strand0.tlAt 0).issue ∧ ¬CopiesDone busy 0 (busy.tlAt 0).issue ∧
    (busy.cStay (.drain 1)).c.wait = .drain 1 ∧ CopiesDone (pushingRow .running) 0 1 ∧ ¬CopiesDone (pushingRow .accepted) 0 1 := by
  simp only [copiesDone_iff]
  exact ⟨⟨rfl, rfl, rfl, rfl⟩, by decide +kernel⟩

theorem witness_TokenWords : CRuns (cWith 0 0) ((strand0.wx 6 0).wx 7 0) ∧ strand0.tokensAt 0 1 < 32 ∧ strand0.episode = none ∧
    32 ≤ tokens.tokensAt 0 3 ∧ 0 < tokens.tokensAt 3 0 ∧ strand0.tokensAt 3 0 = 0 := ⟨⟨rfl, rfl, rfl, rfl⟩, by decide +kernel⟩

theorem witness_CsrReadsGiveTheRegister : CRuns (cWith 0 0) ((strand0.wx 6 0).wx 7 0) ∧ strand0.fn = 0 := ⟨⟨rfl, rfl, rfl, rfl⟩, rfl⟩

theorem witness_CsrWordsWriteOrFault : CRuns (cWith 7 0) ((strand0.wx 6 7).wx 7 0) ∧
    ([0x00, 0x13, 0x14, 0x18, 0x1B, 0x20, 0x21, 0x2FF, 0x300, 0x400, 0x401, 0x53F].all fun n =>
      csrMay strand0 n && 0 &&& csrRsv n == 0 && csrAllowed (cWith 7 0) n 0 && csrListed n) = true ∧
    ({ strand0 with fn := 1 } : Strand).fn ≠ 0 ∧ 2 ^ 32 ≤ (BitVec.ofNat 64 (2 ^ 32)).toNat ∧
    128 < bitsOf 0x8100 8 8 ∧ 256 < bitsOf 0x1010000 16 9 ∧ bitsOf 0x2000000 25 7 ≠ 0 ∧ bitsOf 4 2 6 ≠ 0 ∧
    bitsOf 0x100 16 9 = 0 ∧ bitsOf 0x100 8 8 ≠ 0 ∧ bitsOf 0x10102 0 2 = 2 ∧ bitsOf 0x10102 16 9 % 2 ≠ 0 ∧ bitsOf 0x20103 0 2 = 3 ∧
    bitsOf 0x20103 16 9 % 4 ≠ 0 :=
  ⟨⟨rfl, rfl, rfl, rfl⟩, by decide +kernel⟩

theorem witness_CodebookLoads :
    let st := strand0.wx 6 0xFC000000005FFC00
    CRuns (state0 .c st) st ∧ st.c.wait = .idle ∧ bookInUse st 3 = false ∧
    bookInUse { strand0 with ops := [{ formOp strand0 .x (.mmacb { rMma with fn := 6 }) AtDecode.none with phase := .running, foot := [⟨.a, .book 3, false⟩] }] } 3 = true ∧
    (st.cStay (.cbld 3 [] none)).c.wait = .cbld 3 [] none ∧ (state0 .c st).health = .clean ∧
    (∀ r, r < 8 → decodeAddr 0 (((st.rx 6 + (0 : BitVec 32).signExtend 64).toNat + 128 * r) % 2 ^ 64) = some ⟨0, 0, 0x5FFC00 + 128 * r⟩ ∧
      0 ≠ 3 ∧ 0x5FFC00 + 128 * r < 0x600000 ∧ (state0 .c st).dev.failed 0 = false) :=
  ⟨⟨rfl, rfl, rfl, rfl⟩, by decide +kernel⟩

/-- Queue 5 of function 0, 16 entries, at 0x200000, with a packet of TYPE 3 at 0x202000. -/
def queued (w : Nat) : State := { trained (state0 .c ((mapped page 0x202000).wx 7 5)) with
  mem := writeNat (writeNat [] 0x2000 64 3) 0 8 w
  dev := { Device.reset with ready := 0x20, qbase := [(5, 0x200000)], qctl := [(5, 0x84000000)] } }

theorem witness_LaunchPlacesAPacket :
    let st := (mapped page 0x202000).wx 7 5
    CRuns (queued 15) st ∧ st.c.wait = .idle ∧ (queued 15).health = .clean ∧ queueEn (queued 15).dev 5 = true ∧ queueFn (queued 15).dev 5 = st.fn ∧
    ¬((strand0.wx 7 256).rx 7).toNat ≤ 255 ∧
    OneEntry (queued 15) st page [0x202000, 0x200000, 0x200080, 0x2004C0] ∧
    (let w := readNat (queued 15).mem (page.keyOf 0x200000 / 8 * 8) 8
     w < readNat (writeNat (queued 15).mem (page.keyOf 0x200000 / 8 * 8) 8 (w + 1)) (page.keyOf (0x200000 + 128) / 8 * 8) 8
      + 2 ^ queueLogsz (queued 15).dev 5) ∧
    (let w := readNat (queued 16).mem (page.keyOf 0x200000 / 8 * 8) 8
     ¬(w < readNat (writeNat (queued 16).mem (page.keyOf 0x200000 / 8 * 8) 8 (w + 1)) (page.keyOf (0x200000 + 128) / 8 * 8) 8
      + 2 ^ queueLogsz (queued 16).dev 5)) ∧
    readNat (queued 15).mem (page.keyOf 0x202000) 64 % 256 ≠ 0 ∧ readNat (queued 15).mem (page.keyOf 0x202040) 64 % 256 = 0 := by
  refine ⟨⟨rfl, rfl, rfl, rfl⟩, rfl, rfl, by decide +kernel, by decide +kernel, by decide +kernel, ?_, by decide +kernel⟩
  exact ⟨rfl, by decide +kernel, by decide +kernel, by decide +kernel⟩

theorem witness_ProbeConfirmsBytes : CRuns (cWith 0 0) ((strand0.wx 6 0).wx 7 0) ∧ strand0.c.wait = .idle ∧ busy.quiet = false ∧
    strand0.quiet = true ∧ decodeAddr 0 (2 ^ 56) = none ∧ decodeAddr 0 0xFC00000000600000 = some ⟨0, 0, 0x600000⟩ ∧
    decodeAddr 0 0xFC000000005FFFFF = some ⟨0, 0, 0x5FFFFF⟩ ∧
    0xFC000000005FFFFF + 1 ≤ (0xFC000000005FFFFF / 2 ^ 16 + 1) * 2 ^ 16 ∧
    (let s := { trained (cWith 0 0) with mem := tables, dev := { (trained (cWith 0 0)).dev with ptbase := Device.reset.ptbase.set 0 0x4000 } }
     CRuns s ((strand0.wx 6 0).wx 7 0) ∧ probeWalk s strand0 0x3FFFFF = .found page) ∧ page.writable = true ∧
    0x3FFFFF + 1 ≤ page.page + (if page.big then 2 ^ 21 else 2 ^ 16) ∧
    probeWalk (trained (cWith 0 0)) { strand0 with det := true } 0x200000 = .nothing ∧ (trained (cWith 0 0)).health = .clean ∧
    probeWalk { trained (cWith 0 0) with health := .memLasting } { strand0 with det := true } 0x200000 ≠ .held := by
  unfold CRuns; decide +kernel

/-- A strand with a handler. -/
def handled : Strand := { strand0 with tvec := 0x300000 }

theorem witness_TrapsAndReturns : CRuns (state0 .c handled) handled ∧ handled.tvec ≠ 0 ∧ handled.act = false ∧ strand0.tvec = 0 ∧
    ({ handled with act := true } : Strand).act = true ∧ ({ handled with act := true, intr := true } : Strand).intr = true :=
  ⟨⟨rfl, rfl, rfl, rfl⟩, by decide +kernel⟩

theorem witness_ExceptionsEnterTheHandler : CRuns (state0 .c handled) handled ∧ Code.illegalOp.toHandler = true ∧ handled.tvec ≠ 0 ∧
    handled.act = false ∧ handled.episode = none ∧ ringBase (state0 .c handled) .fault handled.fn = 0 ∧ 2 ^ 47 - 1 < 2 ^ 47 :=
  ⟨⟨rfl, rfl, rfl, rfl⟩, by decide +kernel⟩

/-- A machine whose function 0 has its fault log at 0x200000, with this write index. -/
def logging (w : Nat) : State := { paged 0x21 with
  strands := [(0, handled)], curSeq := .c, mem := writeNat tables 0 8 w
  dev := { (paged 0x21).dev with fltbase := Device.reset.fltbase.set 0 0x200000 } }

theorem witness_ExceptionsEnterTheHandler_log :
    CRuns (logging 255) handled ∧ CRuns (logging 256) handled ∧ (logging 256).health = .clean ∧
    (let s := logging 255
     ringBase s .fault handled.fn = 0x200000 ∧ s.dev.ringQueue = [] ∧ (procTarget s 0 0x200000 true).toOption = some (.cell 0) ∧
     (procTarget s 0 0x200080 false).toOption = some (.cell 128) ∧ readNat s.mem 0 8 = 255 ∧
     (procTarget s 0 (0x200000 + 256 + 64 * 255) true).toOption = some (.cell (256 + 64 * 255)) ∧
     255 ≠ readNat s.mem (rowOf 128) 8 + 256 ∧
     (procTarget (s.setMem (writeNat s.mem (rowOf (256 + 64 * 255) + (0x200000 + 256 + 64 * 255) % 128) 64 7)) 0 0x200000 true).toOption
       = some (.cell 0)) ∧
    256 = readNat (logging 256).mem (rowOf 128) 8 + 256 := by
  unfold CRuns; decide +kernel

theorem witness_OtherFaultsEndTheStrand :
    let l := launch1 (packet 1 2 0 0 0 0) 1
    let s := { state0 .c strand0 with dev := { Device.reset with launches := [(1, l)] } }
    s.strands.find? (runKey s.curTile) = some strand0 ∧ Code.xlate.toHandler = false ∧ strand0.tvec = 0 ∧
    ({ handled with act := true } : Strand).act = true ∧ ringBase s .fault strand0.fn = 0 ∧ s.dev.trcctl.getLsbD 31 = false ∧
    s.dev.launches.find? strand0.launch = some l ∧ l.gang = .none ∧ l.stage = none ∧ l.killed = false ∧ s.dev.killedLaunches = [] ∧
    l.ended + 1 < pkStrands l.packet ∧ 0 + 1 = pkStrands (packet 1 1 0 0 0 0) ∧ pkSignal (packet 1 1 0 0 0 0) = 0 ∧ s.dev.ivpending = [] ∧ s.strands.find? (runKey s.curTile + 1) = none :=
  by decide +kernel

theorem witness_PlannerWordsAskThePlanner : CRuns (cWith 0 0) ((strand0.wx 6 0).wx 7 0) ∧ strand0.c.wait ≠ .planner ∧
    isPlanWord (.plan 5 6 7 0 1) = true ∧ isPlanWord (.pfpr 5 6 5) = true := ⟨⟨rfl, rfl, rfl, rfl⟩, by decide +kernel⟩

/-! ### Witnesses: planner and steps -/

/-- A decoder that gives an instruction answers it. -/
theorem ok_of_toOption {x : Except Reject Instr} {i : Instr} (h : x.toOption = some i) : x = .ok i := by
  cases x with
  | error => simp [Except.toOption] at h
  | ok j => simp [Except.toOption] at h; rw [h]

/-- A decoder that gives a reason refuses with it. -/
theorem error_of_refusal {x : Except Reject Instr} {e : Reject} (h : refusal x = some e) : x = .error e := by
  cases x with
  | ok => simp [refusal] at h
  | error f => simp [refusal] at h; rw [h]

/-- Whether an outcome is a next state. -/
def isNext (o : Out) : Bool := match o with | .next _ => true | _ => false

/-- A next state is the one that `after` gives. -/
theorem next_of_isNext {o : Out} (h : isNext o = true) : o = .next (after o) := by cases o <;> simp_all [isNext, after]

/-- A strand that waits for the planner, with x6. -/
def planning (a : Nat) : Strand := (strand0.wx 6 (BitVec.ofNat 64 a)).cStay .planner
/-- A tensor of function 0: one row of 32 INT8 elements at 0x200000. -/
def tensor1 : Tensor := { Tensor.free with live := true, base := 0x200000, pitch := 128, dims := [1, 32], fmt := 6, serial := 3 }
/-- A plan of no operators and no stages, run once. -/
def plan1 : Plan := {
  tile := 0, nodes := [], root := 0, hints := 0, arena := 0, arenaLen := 1, nbv := 1, det := false,
  cost := costReset, ops := [], stages := [], dests := [], total := 9, fp := 7, recorded := [], pinned := false,
  released := false, lastStatus := 0, lastReplanned := false, lastFp := 0, replans := 0, ended := 0 }
/-- The run of number 1 of the plan in slot 2. -/
def run1 : Run := {
  num := 1, slot := 2, queue := 0, fn := 0, uid := 1, launch := 1, pseqno := 1, det := false, nbv := 1,
  seed := 0, phase := .claim, stage := 0, tensors := [], values := [], replanned := false, killed := false }
/-- A planner with the tensor as TID 1 and the plan in slot 2, and these requests. -/
def planner1 (reqs : List PlanReq) : Planner :=
  { Planner.reset with tensors := [(1, tensor1)], plans := [(2, ⟨1, 0, some plan1⟩)], reqs := reqs, monIssue := 1 }
/-- A state with that planner, trained, and one strand that waits for it. -/
def planned (a : Nat) (reqs : List PlanReq) : State := { state0 .c (planning a) with
  planner := planner1 reqs, dev := { Device.reset with ready := 0x10 } }

theorem witness_PlannerAppliesRequests :
    let s := planned 0x100000002 [.word 1 (.prel 6)]
    s.planner.reqs = .word 1 (.prel 6) :: [] ∧ s.dev.ready.getLsbD 4 = true ∧
    findUid s 1 = some (0, planning 0x100000002) ∧ s.strands.find? 0 = some (planning 0x100000002) ∧
    (planning 0x100000002).c.wait = .planner ∧ s.dev.procRows = [] ∧
    tensorOf s.planner 0 1 = some tensor1 ∧ tensorOf s.planner 0 2 = none ∧
    planSlot s (0x100000002 % 2 ^ 12) = ⟨1, 0, some plan1⟩ ∧
    ((planning 0x100000002).rx 6).toNat = 1 * 2 ^ 32 + 0 * 2 ^ 28 + ((planning 0x100000002).rx 6).toNat % 2 ^ 12 ∧
    running s 2 = false ∧ (planSlot s 3).plan = none := by decide +kernel

theorem witness_SamplesAndPlanRuns :
    (planned 0 [.sample 1 .l 1 0 0 0 0x200080 0]).planner.reqs = .sample 1 .l 1 0 0 0 0x200080 0 :: [] ∧
    (planned 0 []).dev.procRows = [] ∧ sampleTensor 0 0x200080 [(1, tensor1)] = none ∧
    sampleTensor 0 0x20001F [(1, tensor1)] = some (1, tensor1, 0, 31) ∧ tensor1.blkaddr = 0 ∧ tensor1.fmt < 11 ∧ (planned 0 []).health = .clean ∧
    ((sampleElems (planned 0 []) (fnAim (planned 0 []) 0 0 false) tensor1 0 (tensor1.base + 0 * tensor1.pitch) 0).toOption.map
      List.length) = some 32 ∧
    (let s := { planned 0 [] with planner := { planner1 [] with runs := [run1, { run1 with num := 2, killed := true }] } }
     findRun s 1 = some run1 ∧ s.planner.plans.find? 2 = some ⟨1, 0, some plan1⟩ ∧ plan1.released = false ∧ run1.phase = .claim ∧
     s.planner.monEarly = [] ∧ 1 = s.planner.monCompletion + 1 ∧ plan1.stages.length ≤ run1.stage ∧
     findRun s 2 = some { run1 with num := 2, killed := true }) := by decide +kernel

/-- The strand on tile 0 with the turn of C next. -/
def turning (q : Seqr) (st : Strand) : State := { state0 .c st with agenda := [.seq 0 q .clean] }
/-- A row fetched ahead for C: eight NOPs and more. -/
def nopRow : Row := BitVec.ofNat 1024 0x9400000000000000
/-- The strand whose C has that row. -/
def fetched : Strand := { strand0 with c := { strand0.c with window := [(0x200000, nopRow)] } }

theorem witness_StepRunsTheDecodedInstruction_window :
    TurnComes (turning .c fetched) 0 .c .clean fetched (beginTurn { turning .c fetched with agenda := [] } 0 .c .clean) ∧
    Fetches (beginTurn { turning .c fetched with agenda := [] } 0 .c .clean) 0 fetched .c nopRow
      (beginTurn { turning .c fetched with agenda := [] } 0 .c .clean) ∧
    decodeAt .c (bitsAt .c (fetched.pcOf .c) nopRow) = .ok .nop := by
  refine ⟨⟨rfl, rfl, ⟨[], rfl, rfl⟩, rfl, rfl, rfl, by decide +kernel, by decide +kernel, by decide +kernel, fun _ => .inl rfl⟩, .inl ⟨0x200000, ?_, rfl⟩, ok_of_toOption ?_⟩
  all_goals decide +kernel

/-- A state whose HBM holds an END record at physical address 0, page 0x200000 mapped for record fetch. -/
def recordPage : State := { trained (turning .l { strand0 with tlb := strand0.tlb.set 7 [page] }) with
  mem := writeNat [] 0 64 (recBits 0x1790000000000000 0x0001000100010001 0 0 0 0).toNat }

theorem witness_StepRunsTheDecodedInstruction_memory :
    let st := { strand0 with tlb := strand0.tlb.set 7 [page] }
    let s0 := beginTurn { recordPage with agenda := [] } 0 .l .clean
    TurnComes recordPage 0 .l .clean st s0 ∧
    Fetches s0 0 st .l (readRow s0.mem 0) (s0.setStrand (runKey 0) (landRow (st.touch (fetchTlb .l) page) .l (rowOf (st.pcOf .l).toNat) (readRow s0.mem 0))) ∧
    (decodeAt .l (bitsAt .l (st.pcOf .l) (readRow s0.mem 0))).toOption = some (.endRec r9) := by
  refine ⟨⟨rfl, rfl, ⟨[], rfl, rfl⟩, rfl, rfl, rfl, by decide +kernel, by decide +kernel, by decide +kernel, fun h => by simp at h⟩,
    .inr ⟨by decide +kernel, by decide +kernel, rfl, page, 0, by decide +kernel, by decide +kernel, by decide +kernel, rfl, rfl⟩, by decide +kernel⟩

/-- An episode of a BRQ predicted taken. -/
def episode0 : Episode := ⟨0x200000, 1, { rBrq with fn := 3 }, [], 0, [], none, none⟩

/-- An MMA into acc0 with a reserved bit of its function field set. -/
def pathRow : RecWord := (encodeRecord (.mma rMma)).getD 0 ||| BitVec.ofNat 512 (2 ^ 451)

theorem witness_BadFetchesFault :
    let bad : Strand := { strand0 with c := { strand0.c with window := [(0x200000, 0)] }, l := { strand0.l with window := [(0x200000, 0)] } }
    let high : Strand := { strand0 with c := { strand0.c with pc := 0x0100000000000000 } }
    TurnComes (turning .c bad) 0 .c .clean bad (beginTurn { turning .c bad with agenda := [] } 0 .c .clean) ∧
    TurnComes (turning .l bad) 0 .l .clean bad (beginTurn { turning .l bad with agenda := [] } 0 .l .clean) ∧
    (Fetches (beginTurn { turning .c bad with agenda := [] } 0 .c .clean) 0 bad .c 0 (beginTurn { turning .c bad with agenda := [] } 0 .c .clean)) ∧
    (Fetches (beginTurn { turning .l bad with agenda := [] } 0 .l .clean) 0 bad .l 0 (beginTurn { turning .l bad with agenda := [] } 0 .l .clean)) ∧
    decodeAt .c (bitsAt .c (bad.pcOf .c) 0) = .error .unassigned ∧ decodeAt .l (bitsAt .l (bad.pcOf .l) 0) = .error .unassigned ∧
    decodeOpen bad .l = true ∧
    TurnComes (turning .c high) 0 .c .clean high (beginTurn { turning .c high with agenda := [] } 0 .c .clean) ∧
    (high.windowOf .c).find? (fun p => p.1 = rowOf (high.pcOf .c).toNat) = none ∧ 2 ^ 56 ≤ (high.pcOf .c).toNat ∧
    translate (trained (turning .c strand0)) strand0 (fetchTlb .c) (strand0.pcOf .c).toNat = .nothing ∧
    (let path : Strand := { bad with xs := { bad.xs with window := [(0x200000, 0)] }, episode := some episode0 }
     TurnComes (turning .x path) 0 .x .clean path (beginTurn { turning .x path with agenda := [] } 0 .x .clean) ∧
     Fetches (beginTurn { turning .x path with agenda := [] } 0 .x .clean) 0 path .x 0 (beginTurn { turning .x path with agenda := [] } 0 .x .clean) ∧
     decodeOpen path .x = true ∧ recordFields (BitVec.ofNat 512 (bitsAt .x (path.pcOf .x) 0)) = none ∧
     (∃ i rr, recordFields pathRow = some i ∧ i.rec? = some rr ∧ pathOk path episode0 i rr = true) ∧
     refusal (decodeAt .x (bitsAt .x (path.pcOf .x) (pathRow.setWidth 1024))) ≠ none ∧ decodeOpen { path with episode := some { episode0 with count := 32 } } .x = false) ∧
    (strand0.l.window.find? (fun p => p.1 = rowOf (strand0.pcOf .l).toNat) = none) := by
  refine ⟨⟨rfl, rfl, ⟨[], rfl, rfl⟩, rfl, rfl, rfl, by decide +kernel, by decide +kernel, by decide +kernel, fun _ => .inl rfl⟩,
    ⟨rfl, rfl, ⟨[], rfl, rfl⟩, rfl, rfl, rfl, by decide +kernel, by decide +kernel, by decide +kernel, fun h => by simp at h⟩,
    .inl ⟨0x200000, by decide +kernel, rfl⟩, .inl ⟨0x200000, by decide +kernel, rfl⟩,
    error_of_refusal (by decide +kernel), error_of_refusal (by decide +kernel), by decide +kernel,
    ⟨rfl, rfl, ⟨[], rfl, rfl⟩, rfl, rfl, rfl, by decide +kernel, by decide +kernel, by decide +kernel, fun _ => .inl rfl⟩,
    by decide +kernel, by decide +kernel, by decide +kernel,
    ⟨⟨rfl, rfl, ⟨[], rfl, rfl⟩, rfl, rfl, rfl, by decide +kernel, by decide +kernel, by decide +kernel, fun h => by simp at h⟩,
      .inl ⟨0x200000, by decide +kernel, rfl⟩, by decide +kernel, by decide +kernel, ⟨.mma { rMma with fn := 8 }, { rMma with fn := 8 }, by decide +kernel⟩,
      by decide +kernel, by decide +kernel⟩, by decide +kernel⟩

theorem witness_EveryStepGoes : State.reset.Live ∧ (turning .c fetched).Live :=
  ⟨⟨rfl, fun i h => by simp [State.reset] at h⟩, ⟨rfl, fun i h => by simp [turning] at h⟩⟩

theorem witness_StepsKeepTheFormOfMemory : recordPage.MemOk ∧ step recordPage = .next (after (step recordPage)) :=
  ⟨by unfold State.MemOk; decide +kernel, next_of_isNext (by decide +kernel)⟩

theorem witness_TimePasses :
    let s := { twoSlots with agenda := [.clock 19 1] }
    let g := { s with strands := [(0, { strand0 with started := false })], dev := { s.dev with
      launches := [(1, launch1 (packet 1 1 1 0 0 0) 1)] } }
    s.agenda = .clock 19 1 :: [] ∧ s.dev.shutdown = false ∧ s.dev.stopped = false ∧ s.strands.find? 0 = some strand0 ∧
    strand0.started = true ∧ s.strands.find? 1 = some { strand0 with uid := 2 } ∧
    g.strands.find? 0 = some { strand0 with started := false } ∧
    g.dev.launches.find? 1 = some (launch1 (packet 1 1 1 0 0 0) 1) ∧ (s.tile (0 / 2)).exchanging = false ∧
    (({ s with tiles := [(0, { Tile.reset with exchanging := true })] } : State).tile (0 / 2)).exchanging = true := by decide +kernel

theorem witness_StopsHoldTheMachine :
    let s := { turning .c strand0 with dev := { Device.reset with stopped := true } }
    s.agenda = .seq 0 .c .clean :: [] ∧ (∀ m ∈ ([] : List Move), m.live = false) ∧ s.dev.shutdown = false ∧ s.dev.stopped = true := by
  decide +kernel

/-! ### Witnesses: records -/

/-- Whether an address names bytes of an SRAM slice with this key. -/
def sramAt (s : State) (a k : Nat) : Bool :=
  match decodeAddr s.curTile a with
  | none => false
  | some p => p.win ≠ 3 && decide (p.off < 0x600000) && (p.win = 0 || !s.dev.failed p.tile) && k = sliceKey p.tile p.off

/-- The place of an SRAM operand can be computed. -/
theorem atSram_iff (s : State) (a k : Nat) : AtSram s a k ↔ sramAt s a k = true := by
  unfold AtSram sramAt
  cases decodeAddr s.curTile a <;> simp [and_assoc]

/-- Whether a record sequencer has the turn. -/
def hasTurn (s : State) (st : Strand) (q : Seqr) : Bool :=
  s.strands.find? (runKey s.curTile) == some st && s.curSeq == q && q != .c && st.started && !(st.rseq q).ended
/-- Whether a record is decoded now. -/
def decodesNow (s : State) (st : Strand) (q : Seqr) (i : Instr) (r : Rec) : Bool :=
  hasTurn s st q && (mayDecode st q i r && (decodeBreaks st q i r == none && ((st.rseq q).wait == none && popsReady st q r)))
/-- Whether a record stands alone. -/
def aloneNow (s : State) (st : Strand) (q : Seqr) (i : Instr) (r : Rec) : Bool :=
  engineRecord i == some r && (i.wf q && (s.curSeq == q && (s.cycle.isNone && (s.health == .clean && (decodesNow s st q i r && (st.ops == [] &&
    (st.episode == none && (stageHolds (popTokens st q r) r && r.total != 0))))))))
/-- Whether a product's operands fit. -/
def fitsNow (st : Strand) (r : Rec) (fa fb : Nat) (ta tb : Bool) (fac m n k : Nat) : Bool :=
  let sa := st.shape r.a.base.toNat
  let sb := st.shape r.b.base.toNat
  let ea := rowElems fa (shWidth sa)
  let eb := rowElems fb (shWidth sb)
  decide (0 < shRows sa ∧ 0 < shRows sb ∧
    regFormat (st.tile r.a.base.toNat).tag r.fmt = some fa ∧ regFormat (st.tile r.b.base.toNat).tag r.fmt = some fb ∧
    ewCode (fmtWidth fa) = shEw sa ∧ ewCode (fmtWidth fb) = shEw sb ∧
    (isBlockFmt fa = true → ta = false ∧ modOn r.moda = false) ∧
    (isBlockFmt fb = true → tb = false ∧ modOn r.modb = false) ∧
    modBreaks r.moda ea = false ∧ modBreaks r.modb eb = false ∧
    m = (if ta then ea else shRows sa) ∧ k = (if ta then shRows sa else ea * fac) ∧
    n = (if tb then eb else shRows sb) ∧ k = (if tb then shRows sb else eb) ∧ m ≤ 128 ∧ n ≤ 128)

theorem recRuns_iff (s : State) (st : Strand) (q : Seqr) : RecRuns s st q ↔ hasTurn s st q = true := by
  simp [RecRuns, hasTurn, and_assoc]
theorem decodes_iff (s : State) (st : Strand) (q : Seqr) (i : Instr) (r : Rec) :
    Decodes s st q i r ↔ decodesNow s st q i r = true := by simp [Decodes, decodesNow, recRuns_iff]
theorem standsAlone_iff (s : State) (st : Strand) (q : Seqr) (i : Instr) (r : Rec) :
    StandsAlone s st q i r ↔ aloneNow s st q i r = true := by simp [StandsAlone, aloneNow, decodes_iff]
theorem ownRuns_iff (s : State) (st : Strand) (q : Seqr) (i : Instr) (r : Rec) : OwnRuns s st q i r ↔
    (s.curSeq == q && (decodesNow s st q i r && (predOk st q ((st.rseq q).seqno + 1) r.pred.toNat && r.push == 0))) = true := by
  simp [OwnRuns, decodes_iff]
theorem ownWaits_iff (s : State) (st : Strand) (q : Seqr) (i : Instr) (r : Rec) (w : Wait) : OwnWaits s st q i r w ↔
    (s.curSeq == q && (hasTurn s st q && (mayDecode st q i r && ((st.rseq q).wait == some w &&
      (predOk st q ((st.rseq q).seqno + 1) r.pred.toNat && r.push == 0))))) = true := by
  simp [OwnWaits, recRuns_iff]
theorem productFits_iff (st : Strand) (r : Rec) (fa fb : Nat) (ta tb : Bool) (fac m n k : Nat) :
    ProductFits st r fa fb ta tb fac m n k ↔ fitsNow st r fa fb ta tb fac m n k = true := by
  simp only [ProductFits, fitsNow, decide_eq_true_eq]

/-- A strand with records of L under way. -/
def crowded (n : Nat) : Strand := { bases with
  ops := List.replicate n { formOp bases .l (.copy rCopy) AtDecode.none with num := 1, phase := .running } }

theorem witness_EngineRecordsAreDecoded_room :
    Decodes (state0 .x (crowded 64)) (crowded 64) .x (.vadd rVec) rVec ∧ 64 ≤ trackedCount (popTokens (crowded 64) .x rVec) ∧
    Decodes (state0 .x (crowded 63)) (crowded 63) .x (.vadd rVec) rVec ∧ trackedCount (popTokens (crowded 63) .x rVec) < 64 ∧
    stageHolds (popTokens (crowded 64) .x rVec) rVec = true := by
  simp only [decodes_iff]; decide +kernel

theorem witness_EngineRecordsAreDecoded :
    let s := loaded .x bases
    engineRecord (.vadd rVec) = some rVec ∧ RecRuns s bases .x ∧ mayDecode bases .x (.vadd rVec) rVec = true ∧
    (bases.rseq .x).wait = none ∧ Decodes s bases .x (.vadd rVec) rVec ∧
    decodeBreaks { bases with xs := { bases.xs with loops := [⟨0x1FFFC0, 0x200000, 2⟩] } } .x (.vadd rVec) rVec = some .none ∧
    popsReady bases .x { rVec with pop := 1 } = false ∧
    stageHolds (popTokens bases .x { rVec with stg := 0x80 }) { rVec with stg := 0x80 } = false ∧
    ({ rVec with t0 := 0 } : Rec).total = 0 ∧ stageHolds (popTokens bases .x rVec) rVec = true ∧ rVec.total ≠ 0 ∧
    (let path : Strand := { bases with episode := some episode0 }
     let last : Strand := { path with xs := { path.xs with loops := [⟨0x1FFFC0, 0x200000, 2⟩] } }
     mayDecode last .x (.mma rMma) rMma = true ∧ decodeBreaks last .x (.mma rMma) rMma = some .none ∧ last.episode = some episode0 ∧
     RecRuns (loaded .x path) path .x ∧ Decodes (loaded .x path) path .x (.mma { rMma with stg := 0x80 }) { rMma with stg := 0x80 } ∧
     stageHolds (popTokens path .x { rMma with stg := 0x80 }) { rMma with stg := 0x80 } = false) := by
  simp only [standsAlone_iff, ownRuns_iff, ownWaits_iff, decodes_iff, recRuns_iff, productFits_iff, Pairs, atSram_iff]; decide +kernel

/-- COPYF of the row at offset 0 to offset 512 by the layout at offset 256, on ch1. -/
def rCopyf : Rec := { rCopy with bk := 1, b := at_ 3 }
/-- SCATTER of a row to the row from offset 512 on that the index at offset 256 selects. -/
def rScatter : Rec := { r1 with eng := 2, dk := 1, ak := 3, bk := 1, d := at_ 4, a := at_ 1, b := at_ 3 }
/-- A strand whose dq.xs holds one row. -/
def holdsRow (v : Nat) : Strand := { bases with dqxs := ⟨[BitVec.ofNat 1024 v], 0⟩ }
/-- A state whose offset 0 holds the words 0x1001 to 0x1004, with this layout at offset 256. -/
def laidOut (lay : Nat) (q : Seqr) (st : Strand) : State :=
  { state0 q st with mem := writeNat (writeNat [] (sliceKey 0 0) 16 0x00001004000010030000100200001001) (sliceKey 0 256) 128 lay }
/-- A layout of 32-bit elements, three of a first dimension of 2 before it, filled with 9. -/
def layout1 : Nat := 2 + 2 ^ 128 * 0xFFFFFFFF + 2 ^ 288 * 3 + 2 ^ 320 * 9

/-- R196, R197: an element out of bounds takes FILL, one in bounds is copied. R203: a popped row goes where its index says. -/
theorem test_fill_and_scatter :
    let m := (after (exec (.copyf rCopyf) (laidOut layout1 .l bases))).mem
    readNat m (sliceKey 0 512) 16 = 0x00000009000010030000100200000009 ∧
    readNat (after (exec (.scatter rScatter) (holding 0 2 .s (holdsRow 77)))).mem (sliceKey 0 768) 128 = 77 := by decide +kernel

theorem witness_CopyMovesARow :
    StandsAlone (loaded .l bases) bases .l (.copy rCopy) rCopy ∧ rCopy.total = 1 ∧ rCopy.fn = 0 ∧
    AtSram (loaded .l bases) (bases.opAddr .l rCopy.a) (sliceKey 0 5) ∧ AtSram (loaded .l bases) (bases.opAddr .l rCopy.d) (sliceKey 0 512) ∧
    (let s := laidOut layout1 .l bases
     let lay := readRow s.mem (sliceKey 0 256)
     StandsAlone s bases .l (.copyf rCopyf) rCopyf ∧ rCopyf.fn = 0 ∧ rCopyf.total = 1 ∧ AtSram s (bases.opAddr .l rCopyf.b) (sliceKey 0 256) ∧
     AtSram s (bases.opAddr .l rCopyf.a) (sliceKey 0 5) ∧ AtSram s (bases.opAddr .l rCopyf.d) (sliceKey 0 512) ∧
     rowNat lay 36 1 ≤ 3 ∧ rowNat lay 37 3 = 0 ∧ rowNat lay 44 84 = 0 ∧ signedOf 32 (rowNat lay 16 4) + 0 < 0 ∧
     rowNat lay 0 4 = 2 ∧ rowNat lay 4 4 = 0 ∧ signedOf 32 (rowNat lay 16 4) + 1 = 0) ∧
    (let s := holding 5 2 .l bases
     let g : Rec := { rGather with b := at_ 3, d := at_ 4 }
     StandsAlone s bases .l (.gather g) g ∧ g.total = 1 ∧ AtSram s (bases.opAddr .l g.b) (sliceKey 0 256) ∧
     rowNat (readRow s.mem (sliceKey 0 256)) 0 4 = 2 ∧ AtSram s (bases.opAddr .l g.a + 128 * 2) (sliceKey 0 256) ∧
     AtSram s (bases.opAddr .l g.d) (sliceKey 0 512) ∧ rowNat (readRow (holding 5 (2 ^ 32 - 1) .l bases).mem (sliceKey 0 256)) 0 4 = 2 ^ 32 - 1 ∧
     StandsAlone s bases .l (.gather { g with dk := 3, d := at_ 0 }) { g with dk := 3, d := at_ 0 } ∧ bases.dqlx.rows.length < 16) ∧
    (let s := holding 0 2 .s (holdsRow 77)
     StandsAlone s (holdsRow 77) .s (.scatter rScatter) rScatter ∧ rScatter.total = 1 ∧ rScatter.fn.getLsbD 4 = false ∧
     AtSram s ((holdsRow 77).opAddr .s rScatter.b) (sliceKey 0 256) ∧ (holdsRow 77).dqfmtxs = 0 ∧ (holdsRow 77).dqxs = ⟨[77], 0⟩ ∧
     AtSram s ((holdsRow 77).opAddr .s rScatter.d + 128 * 2) (sliceKey 0 768)) := by
  simp only [standsAlone_iff, ownRuns_iff, ownWaits_iff, decodes_iff, recRuns_iff, productFits_iff, Pairs, atSram_iff]; decide +kernel

theorem witness_IntegerElementsAreComputed :
    StandsAlone (loaded .x bases) bases .x (.vadd rVec) rVec ∧ StandsAlone (loaded .x bases) bases .x (.vxor rVec) rVec ∧
    rVec.total = 1 ∧ rVec.fmt = 9 ∧ rVec.fn.toNat / 8 = 0 ∧ rVec.msk = 0 ∧ rVec.moda = 0 ∧ rVec.modb = 0 ∧ rVec.dk = 1 ∧
    rVec.ak = 1 ∧ rVec.bk = 1 ∧ AtSram (loaded .x bases) 0xFC00000000000000 (sliceKey 0 0) ∧
    AtSram (loaded .x bases) 0xFC00000000000100 (sliceKey 0 256) ∧ AtSram (loaded .x bases) 0xFC00000000000200 (sliceKey 0 512) ∧
    (({ rVec with fn := 4 } : Rec).fn.getLsbD 2 = true) ∧
    (let s := loaded .x bases
     let g : Rec := { rVec with fmt := 1, fn := 24 }
     let c : Rec := { rOne with fmt := 1, b := { Opd.zero with base := 8, off := 0x200000000 } }
     StandsAlone s bases .x (.vfma g) g ∧ g.total = 1 ∧ vecF (.vfma g) g = 1 ∧ g.bk ≠ 3 ∧ dwFormat 1 (g.fn.toNat / 8) = 2 ∧
     AtSram s (bases.elemAddr .x g g.a 4 0) (sliceKey 0 0) ∧ AtSram s (bases.elemAddr .x g g.b 4 0) (sliceKey 0 256) ∧
     AtSram s (bases.elemAddr .x g g.d 2 0) (sliceKey 0 512) ∧ StandsAlone s bases .x (.vsigm { g with bk := 0, b := Opd.zero }) { g with bk := 0, b := Opd.zero } ∧
     StandsAlone s bases .x (.vcvt c) c ∧ vecF (.vcvt c) c = 1 ∧ c.b.base.toNat / 4 = 2 ∧ AtSram s (bases.elemAddr .x c c.a 4 0) (sliceKey 0 0) ∧
     AtSram s (bases.elemAddr .x c c.d 2 0) (sliceKey 0 512)) := by
  simp only [standsAlone_iff, ownRuns_iff, ownWaits_iff, decodes_iff, recRuns_iff, productFits_iff, Pairs, atSram_iff]; decide +kernel

/-- The values 1.5, 0 and −2 of FP32, and a magnitude between two integers. -/
theorem witness_IntegerElementsAreComputed_numbers :
    (decodeFloat 1 0x3FC00000).Is (3 / 2) ∧ (decodeFloat 1 0).Is 0 ∧ (decodeFloat 1 0xC0000000).Is (-2) ∧ (decodeFloat 1 0x3F800000).Is 1 ∧
    (decodeFloat 1 0x7FC00000).isNaN = true ∧ (decodeFloat 1 0xFF800000).isInf = true ∧
    RoundsUp .rne 2 (3 / 4) ∧ RoundsUp .rne 3 (1 / 2) ∧ ¬RoundsUp .rne 2 (1 / 2) ∧ ¬RoundsUp .rtz 2 (3 / 4) ∧ RoundsUp (.stoch 5) 2 (3 / 4) ∧
    ((5 : Nat) : Rat) * 2 ^ (-1 : Int) = ((2 : Nat) : Rat) + 1 / 2 ∧ (0 : Rat) ≤ 1 / 2 ∧ (1 / 2 : Rat) < 1 := by
  unfold Val.Is Val.rat RoundsUp; decide +kernel

/-- An INT8 tile register of rows. -/
def tile8 (rows : List (Nat × BitVec 2048)) : TileReg := ⟨6, rows, []⟩
/-- t0 holds four INT8 rows (2, 3), t1 the row (4, 5, 6, 7), and k1 keeps the first two of four positions of every block. -/
def pruned : Strand := { strand0 with
  t := (strand0.t.set 0 (tile8 [(0, 0x0302), (1, 0x0302), (2, 0x0302), (3, 0x0302)])).set 1 (tile8 [(0, 0x07060504)])
  tshape := (strand0.tshape.set 0 0x00020401).set 1 0x00040101
  k := strand0.k.set 1 ⟨15, 4⟩ }
/-- t0 holds one row of one code for eight weights, t1 the row of eight E4M3 values 1.0. -/
def coded : Strand := { strand0 with
  t := (strand0.t.set 0 ⟨14, [(0, 0)], [(0, 0x7F)]⟩).set 1 ⟨4, [(0, 0x3838383838383838)], []⟩
  tshape := (strand0.tshape.set 0 0x00080102).set 1 0x00200101 }
/-- t1 holds the INT8 row (4, 5, 6), t5 the index 1. -/
def indexed : Strand := { bases with
  t := (bases.t.set 1 (tile8 [(0, 0x060504)])).set 5 ⟨9, [(0, 1)], []⟩
  tshape := (bases.tshape.set 1 0x00030101).set 5 0x00040103 }
/-- Two registers for one INT8 row of three elements each. -/
def nesting : Strand := { bases with tshape := (bases.tshape.set 0 0x00030101).set 1 0x00030101 }
/-- The bases, acc0 holding 21, and t3 for one INT32 element. -/
def accHolds : Strand := { bases.setAcc 0 ⟨10, [(0, 0x4003 * 2 ^ 80 + 5 * 2 ^ 75)]⟩ with tshape := bases.tshape.set 3 0x00040103 }
/-- MMAG of one row that t5 names, from offset 0 on. -/
def rMmag : Rec := { r1 with eng := 4, fmt := 6, dk := 2, ak := 1, bk := 2, fn := 21, d := at_ 16, a := { at_ 2 with s0 := 128 }, b := at_ 1 }
/-- MNEST of the rows at offsets 0 and 256 through t0 and t1. -/
def rMnest : Rec := { r1 with eng := 4, fmt := 6, dk := 2, ak := 1, bk := 1, fn := 1, d := at_ 16, a := at_ 2, b := at_ 3 }

/-- A state of X with the rows (2, −1, 3) at offsets 0 and 128 and (4, 5, 6) at offset 256. -/
def threeRows (st : Strand) : State :=
  { state0 .x st with mem := writeNat (writeNat (writeNat [] (sliceKey 0 0) 3 0x03FF02) (sliceKey 0 128) 3 0x03FF02) (sliceKey 0 256) 3 0x060504 }
/-- The number 21 in the accumulators' format. -/
def twentyOne : AccReg := ⟨10, [(0, 0x4003 * 2 ^ 80 + 5 * 2 ^ 75)]⟩

/-- R256: 2·4 + 3·5 under a mask that keeps the first two of four. -/
theorem test_pruned_product :
    let i : Instr := .mmanm { rMma with msk := 1, fn := 1 }
    let issued := match mmanmIssue (state0 .x pruned) 0 pruned ((formOp pruned .x i AtDecode.none).capture pruned) with
      | .ok p => (ranIn p.1).accAt 0
      | .error _ => ⟨0, []⟩
    ((ran i (state0 .x pruned)).accAt 0).tag = 10 ∧ issued =
      ⟨10, [(0, 0x4003 * 2 ^ 80 + 7 * 2 ^ 75), (128, 0x4003 * 2 ^ 80 + 7 * 2 ^ 75), (256, 0x4003 * 2 ^ 80 + 7 * 2 ^ 75),
        (384, 0x4003 * 2 ^ 80 + 7 * 2 ^ 75)]⟩ := by decide +kernel

/-- R263: the gathered row (2, −1, 3) with (4, 5, 6). -/
theorem test_gathered_product : (ran (.mmag rMmag) (threeRows indexed)).accAt 0 = twentyOne := by decide +kernel

/-- R264, R269, R266: the same product under a mask that keeps it and from loaded rows; 21 rounded into a queue and a tile. -/
theorem test_products_and_reads :
    (ran (.mmak { rMma with fn := 1, msk := 1 }) (state0 .x { tiled with k := tiled.k.set 1 ⟨15, 1⟩ })).accAt 0 = twentyOne ∧
    (ran (.mnest rMnest) (threeRows nesting)).accAt 0 = twentyOne ∧
    (ran (.awrq { rAwrm with dk := 3, d := at_ 1 }) (loaded .x accHolds)).dqxs.rows.map BitVec.toNat = [21] ∧
    ((ran (.awrt { rAwrm with dk := 2, d := at_ 3 }) (loaded .x accHolds)).tile 3).rows = [(0, 21)] := by decide +kernel

theorem witness_MatrixRecordsCompute :
    let r : Rec := { rMma with fn := 1 }
    StandsAlone (state0 .x tiled) tiled .x (.mma r) r ∧ Pairs 6 6 ∧
    ProductFits tiled r 6 6 (r.fn.getLsbD 1) (r.fn.getLsbD 2) 1 1 1 3 ∧ r.fn.getLsbD 0 = true ∧
    StandsAlone (state0 .x (tiled.setAcc 0 ⟨10, []⟩)) (tiled.setAcc 0 ⟨10, []⟩) .x (.mma rMma) rMma ∧ (tiled.setAcc 0 ⟨10, []⟩).accAt 0 = ⟨10, []⟩ := by
  simp only [standsAlone_iff, ownRuns_iff, ownWaits_iff, decodes_iff, recRuns_iff, productFits_iff, Pairs, atSram_iff]; decide +kernel

theorem witness_MatrixRecordsCompute_pruned :
    let r : Rec := { rMma with msk := 1, fn := 1 }
    StandsAlone (state0 .x pruned) pruned .x (.mmanm r) r ∧ ProductFits pruned r 6 6 false (r.fn.getLsbD 3) 2 4 1 4 ∧
    (pruned.maskAt 1).tag = 15 ∧ 4 % 4 = 0 ∧ r.fn.getLsbD 1 = false ∧ r.fn.getLsbD 2 = false ∧
    (pruned.maskAt 1).bits.extractLsb' 0 2 < (pruned.maskAt 1).bits.extractLsb' 2 2 := by
  simp only [standsAlone_iff, ownRuns_iff, ownWaits_iff, decodes_iff, recRuns_iff, productFits_iff, Pairs, atSram_iff]; decide +kernel

theorem witness_MatrixRecordsCompute_codebook :
    let r : Rec := { rMma with fn := 1 }
    StandsAlone (state0 .x coded) coded .x (.mmacb r) r ∧ ProductFits coded r 14 4 false (r.fn.getLsbD 3) 8 1 1 32 ∧ coded.c.wait = .idle := by
  simp only [standsAlone_iff, ownRuns_iff, ownWaits_iff, decodes_iff, recRuns_iff, productFits_iff, Pairs, atSram_iff]; decide +kernel

theorem witness_MatrixRecordsCompute_gathered :
    let s := holding 0 0 .x indexed
    StandsAlone s indexed .x (.mmag rMmag) rMmag ∧ 0 < shRows (indexed.shape 1) ∧ shRows (indexed.shape 1) ≤ 128 ∧
    regFormat (indexed.tile 1).tag rMmag.fmt = some 6 ∧ ewCode (fmtWidth 6) = shEw (indexed.shape 1) ∧
    rowElems 6 (shWidth (indexed.shape 1)) = 3 ∧ 3 * fmtWidth 6 ≤ 1024 ∧ modBreaks rMmag.moda 3 = false ∧ modBreaks rMmag.modb 3 = false ∧
    rMmag.fn.toNat % 16 = 5 ∧ 0 < shRows (indexed.shape 5) ∧ (indexed.tile 5).tag = 9 ∧
    rMmag.t0.toNat ≤ shRows (indexed.shape 5) * shWidth (indexed.shape 5) / 4 ∧ elemAt ((indexed.tile 5).rowNat 0) 32 0 = 1 ∧
    AtSram s (addrPlus (indexed.opAddr .x rMmag.a) (unitOf rMmag * ((1 : Nat) * rMmag.a.s0.toInt))) (sliceKey 0 128) := by
  simp only [standsAlone_iff, ownRuns_iff, ownWaits_iff, decodes_iff, recRuns_iff, productFits_iff, Pairs, atSram_iff]; decide +kernel

theorem witness_MatrixRecordsCompute_masked :
    let r : Rec := { rMma with fn := 1, msk := 1 }
    let st := { tiled with k := tiled.k.set 1 ⟨15, 1⟩ }
    StandsAlone (state0 .x st) st .x (.mmak r) r ∧ ProductFits st r 6 6 (r.fn.getLsbD 1) (r.fn.getLsbD 2) 1 1 1 3 ∧ (st.maskAt 1).tag = 15 ∧
    r.d.off.toNat % 2 ^ 16 = 0 ∧ r.fn.getLsbD 3 = false ∧
    StandsAlone (state0 .x st) st .x (.mmak { r with fn := 9 }) { r with fn := 9 } := by
  simp only [standsAlone_iff, ownRuns_iff, ownWaits_iff, decodes_iff, recRuns_iff, productFits_iff, Pairs, atSram_iff]; decide +kernel

theorem witness_MatrixRecordsCompute_nested :
    let s := loaded .x nesting
    StandsAlone s nesting .x (.mnest rMnest) rMnest ∧ rMnest.total = 1 ∧ rMnest.fn.toNat / 2 * 2 = 0 ∧ 0 < shRows (nesting.shape 0) ∧
    shRows (nesting.shape 0) = 1 ∧ shRows (nesting.shape 1) = 1 ∧ shWidth (nesting.shape 0) = 3 ∧ shWidth (nesting.shape 1) = 3 ∧
    ewCode (fmtWidth 6) = shEw (nesting.shape 0) ∧ ewCode (fmtWidth 6) = shEw (nesting.shape 1) ∧ rowElems 6 3 = 3 ∧
    modBreaks rMnest.moda 3 = false ∧ modBreaks rMnest.modb 3 = false ∧
    AtSram s (addrPlus (nesting.opAddr .x rMnest.a) 0) (sliceKey 0 0) ∧ AtSram s (addrPlus (nesting.opAddr .x rMnest.b) 0) (sliceKey 0 256) := by
  simp only [standsAlone_iff, ownRuns_iff, ownWaits_iff, decodes_iff, recRuns_iff, productFits_iff, Pairs, atSram_iff]; decide +kernel

theorem witness_MatrixRecordsCompute_written :
    let s := loaded .x accHolds
    let q : Rec := { rAwrm with dk := 3, d := at_ 1 }
    let w : Rec := { rAwrm with dk := 2, d := at_ 3 }
    rAwrm.t1 = 1 ∧ (accHolds.accAt 0).tag = 10 ∧ StandsAlone s accHolds .x (.awrq q) q ∧ 1 * fmtWidth 9 ≤ 1024 ∧ accHolds.dqxs.rows.length < 16 ∧
    StandsAlone s accHolds .x (.awrm rAwrm) rAwrm ∧ AtSram s (accHolds.opAddr .x rAwrm.d) (sliceKey 0 512) ∧
    StandsAlone s accHolds .x (.awrt w) w ∧ 0 < shRows (accHolds.shape 3) ∧ ewCode (fmtWidth 9) = shEw (accHolds.shape 3) ∧
    1 * fmtWidth 9 ≤ shWidth (accHolds.shape 3) * 8 ∧ shWidth (accHolds.shape 3) ≤ 256 := by
  simp only [standsAlone_iff, ownRuns_iff, ownWaits_iff, decodes_iff, recRuns_iff, productFits_iff, Pairs, atSram_iff]; decide +kernel
/-- SRESET of margin 1. -/
def rSreset : Rec := { r1 with eng := 7, a := { Opd.zero with off := 0x3F800000 } }

theorem witness_RegisterRecordsOfX :
    StandsAlone (state0 .x strand0) strand0 .x (.azero (rAcc 23)) (rAcc 23) ∧
    StandsAlone (state0 .x strand0) strand0 .x (.sdiscard (rAcc 20)) (rAcc 20) ∧
    StandsAlone (state0 .x (strand0.setAcc 7 ⟨10, []⟩)) (strand0.setAcc 7 ⟨10, []⟩) .x (.scommit (rAcc 23)) (rAcc 23) ∧
    ((strand0.setAcc 7 ⟨10, []⟩).accAt ((rAcc 23).d.base.toNat - 16)).tag ≠ 0 ∧
    StandsAlone (state0 .x strand0) strand0 .x (.sreset rSreset) rSreset := by
  simp only [standsAlone_iff, ownRuns_iff, ownWaits_iff, decodes_iff, recRuns_iff, productFits_iff, Pairs, atSram_iff]; decide +kernel

/-- Head 0 configured: dimension 2, four hyperplanes, four buckets, chain array at offset 4096; t0 holds four BF16 rows of two
elements, t1 and t2 one FP16 row each. -/
def hawk : Strand := { (bases.setHead 0 { bases.head 0 with
    dim := 2, np := 4, bexp := 2, dthresh := 16, limit := 8, nnodes := 3, tile := 0, off := 4096, cv := true, pv := true }) with
  t := ((bases.t.set 0 ⟨3, [(0, 0x3F803F80), (1, 0xBF80), (2, 0x3F80)], []⟩).set 1 ⟨2, [(0, 0x3C003C00)], []⟩).set 2 ⟨2, [(0, 0x40003C00)], []⟩
  tshape := ((bases.tshape.set 0 0x00040402).set 1 0x00040102).set 2 0x00040102 }
/-- SCOUT of one score of t1 against t2, to offset 512. -/
def rScout : Rec := { r1 with eng := 7, dk := 1, ak := 2, bk := 2, d := at_ 4, a := at_ 1, b := at_ 2 }
/-- THRESH of the estimate at offset 0 into bit 5 of k1. -/
def rThresh : Rec := { r1 with eng := 7, dk := 2, ak := 1, d := { at_ 33 with off := 5 }, a := at_ 2 }
/-- HCFG of head 0 from the descriptor at offset 0. -/
def rHcfg : Rec := { r1 with eng := 8, ak := 1, a := at_ 2 }
/-- HPROJ of head 0 from t0. -/
def rHproj : Rec := { r1 with eng := 8, ak := 2, a := at_ 0 }
/-- The descriptor of that head (R290). -/
def descriptor : Nat :=
  (slice + 4096) + 2 ^ 64 * 3 + 2 ^ 96 * 8 + 2 ^ 112 * 16 + 2 ^ 128 * 4 + 2 ^ 136 * 2 + 2 ^ 144 * 2 + 2 ^ 192 * 0x300000
/-- A state of X whose offset 0 holds a row. -/
def rowAt (v : Nat) (st : Strand) : State := { state0 .x st with mem := writeNat [] (sliceKey 0 0) 128 v }

/-- R286, R287: (1, 1) with (1, 2) scores 2⁻² + 1 by leading powers; an estimate above the margin sets the tile's bit. R290, R292: a descriptor and
four hyperplanes are taken. -/
theorem test_scores_and_heads :
    readNat (after (exec (.scout rScout) (state0 .x hawk))).mem (sliceKey 0 512) 4 = 0x3FA00000 ∧
    ((ran (.thresh rThresh) (rowAt 0x3F800000 { hawk with k := hawk.k.set 1 ⟨0, 0⟩ })).k[1]) = ⟨15, 32⟩ ∧
    ((ran (.hcfg rHcfg) (rowAt descriptor bases)).head 0).off = 4096 ∧ ((ran (.hcfg rHcfg) (rowAt descriptor bases)).head 0).dthresh = 16 ∧
    cellGet 0 ((ran (.hproj rHproj) (state0 .x hawk)).head 0).proj 128 = 0xBF80 := by decide +kernel

theorem witness_RegisterRecordsOfX_heads :
    StandsAlone (state0 .x hawk) hawk .x (.scout rScout) rScout ∧ shRows (hawk.shape 1) = 1 ∧ shRows (hawk.shape 2) = 1 ∧
    regFormat (hawk.tile 1).tag rScout.fmt = some 2 ∧ regFormat (hawk.tile 2).tag rScout.fmt = some 2 ∧ rowElems 2 (shWidth (hawk.shape 1)) = 2 ∧
    rowElems 2 (shWidth (hawk.shape 2)) = 2 ∧ modBreaks rScout.moda 2 = false ∧ modBreaks rScout.modb 2 = false ∧
    AtSram (state0 .x hawk) (hawk.opAddr .x rScout.d / 4 * 4) (sliceKey 0 512) ∧
    StandsAlone (rowAt 1 hawk) hawk .x (.thresh rThresh) rThresh ∧ AtSram (rowAt 1 hawk) (hawk.opAddr .x rThresh.a / 4 * 4) (sliceKey 0 0) ∧
    (hawk.maskAt (rThresh.d.base.toNat - 32)).tag = 0 ∧
    StandsAlone (state0 .x hawk) hawk .x (.hproj rHproj) rHproj ∧ (hawk.head 0).cv = true ∧ (hawk.tile 0).tag = 3 ∧ 0 < shRows (hawk.shape 0) ∧
    shWidth (hawk.shape 0) = 2 * (hawk.head 0).dim ∧ (hawk.head 0).np ≤ shRows (hawk.shape 0) ∧ modBreaks rHproj.moda 2 = false := by
  simp only [standsAlone_iff, ownRuns_iff, ownWaits_iff, decodes_iff, recRuns_iff, productFits_iff, Pairs, atSram_iff]; decide +kernel
theorem witness_RegisterRecordsOfX_descriptor :
    let s := rowAt descriptor bases
    let row := readRow s.mem (sliceKey 0 0)
    StandsAlone s bases .x (.hcfg rHcfg) rHcfg ∧ AtSram s (rowOf (bases.opAddr .x rHcfg.a)) (sliceKey 0 0) ∧ rowNat row 32 96 = 0 ∧
    rowNat row 19 5 = 0 ∧ rowNat row 24 8 % 64 = 0 ∧ 1 ≤ rowNat row 18 1 ∧ rowNat row 18 1 ≤ 128 ∧ 4 ≤ rowNat row 16 1 ∧ rowNat row 16 1 ≤ 12 ∧
    1 ≤ rowNat row 17 1 ∧ rowNat row 17 1 ≤ rowNat row 16 1 ∧ 1 ≤ rowNat row 14 2 ∧ rowNat row 14 2 ≤ 4096 ∧ 1 ≤ rowNat row 12 2 ∧
    rowNat row 0 8 % 128 = 0 ∧ decodeAddr s.curTile (rowNat row 0 8) = some ⟨0, 0, 4096⟩ ∧
    4096 + 128 * (1 + (2 ^ rowNat row 17 1 + 3) / 4 + (rowNat row 8 4 + 3) / 4) ≤ 0x600000 := by
  simp only [standsAlone_iff, ownRuns_iff, ownWaits_iff, decodes_iff, recRuns_iff, productFits_iff, Pairs, atSram_iff]; decide +kernel
/-- The strand whose L reads offset 0. -/
def merging : Strand := { bases with ms := [1], wn := 1, dqlx := ⟨List.replicate 15 0, 0⟩, rq := List.replicate 63 0, bq := List.replicate 31 0 }

theorem witness_RowStreamsMoveRows :
    rRld.total = 1 ∧ bases.dqfmtxs = 0 ∧ StandsAlone (loaded .l merging) merging .l (.rld rRld) rRld ∧ rRld.bk = 0 ∧
    AtSram (loaded .l merging) 0xFC00000000000000 (sliceKey 0 0) ∧ rRld.dk = 3 ∧ merging.dqlx.rows.length < 16 ∧
    StandsAlone (loaded .l merging) merging .l (.rld { rRld with dk := 0 }) { rRld with dk := 0 } ∧ merging.ms.length < 8 ∧
    StandsAlone (loaded .s { bases with dqxs := ⟨[7], 0⟩ }) { bases with dqxs := ⟨[7], 0⟩ } .s (.rst rRst) rRst ∧ rRst.fn = 0 ∧
    StandsAlone (loaded .l merging) merging .l (.rqld rRqld) rRqld ∧ merging.rq.length < 64 := by
  simp only [standsAlone_iff, ownRuns_iff, ownWaits_iff, decodes_iff, recRuns_iff, productFits_iff, Pairs, atSram_iff]; decide +kernel

theorem witness_RowStreamsMoveRows_merge :
    let s := loaded .l merging
    s.curSeq = .l ∧ rBqpush.eng = 9 ∧ merging.ops = [] ∧ stageHolds (popTokens merging .l rBqpush) rBqpush = true ∧ rBqpush.push = 0 ∧
    merging.ms = 1 :: [] ∧ Decodes s merging .l (.bqpush rBqpush) rBqpush ∧ rBqpush.fn = 0 ∧ merging.bq.length < 32 ∧
    Decodes s merging .l (.rmerge rRmerge) rRmerge ∧ rRmerge.fn = 1 ∧ merging.wn ≠ 0 ∧ merging.dqlx.rows.length < 16 ∧
    Decodes s merging .l (.rmerge { rRmerge with fn := 0 }) { rRmerge with fn := 0 } := by
  simp only [standsAlone_iff, ownRuns_iff, ownWaits_iff, decodes_iff, recRuns_iff, productFits_iff, Pairs, atSram_iff]; decide +kernel

/-- A strand with shapes of one INT32 element for t3 and of two such rows for t2, t2 tagged, and a row in dq.lx. -/
def streaming : Strand := { bases with
  t := bases.t.set 2 ⟨9, [(0, 0x55)], []⟩
  tshape := (bases.tshape.set 3 0x00040203).set 2 0x00040103, dqlx := ⟨[0x66], 0⟩ }
/-- TQLD of t3 as INT32. -/
def rTqld : Rec := { r1 with eng := 4, fmt := 9, dk := 2, ak := 3, d := at_ 3 }
/-- TSTS of t2 to offset 512. -/
def rTsts : Rec := { r1 with eng := 4, dk := 1, ak := 2, d := at_ 4, a := at_ 2 }

/-- R201, R267, R268: a popped row becomes row 0 of t3, row 1 is zeroed; a row of t2 is stored and pushed. -/
theorem test_tile_streams :
    ((ran (.tqld rTqld) (loaded .x { streaming with t := streaming.t.set 3 ⟨6, [(1, 7)], []⟩ })).tile 3).rows = [(0, 0x66)] ∧
    readNat (after (exec (.tsts rTsts) (loaded .x streaming))).mem (sliceKey 0 512) 4 = 0x55 ∧
    (ran (.tstq { rTsts with dk := 3, d := at_ 1 }) (loaded .x streaming)).dqxs.rows.map BitVec.toNat = [0x55] := by decide +kernel

theorem witness_RowStreamsMoveRows_registers :
    let s := loaded .x streaming
    let tl : Rec := { rTqld with ak := 1, a := at_ 2 }
    let q : Rec := { rTsts with dk := 3, d := at_ 1 }
    StandsAlone (loaded .l streaming) streaming .l (.kld rKld) rKld ∧ rKld.total = 1 ∧ AtSram (loaded .l streaming) 0xFC00000000000000 (sliceKey 0 0) ∧
    StandsAlone (loaded .l streaming) streaming .l (.tld rTld) rTld ∧ StandsAlone s streaming .x (.tlds tl) tl ∧ tl.bk = 0 ∧ rTld.bk = 0 ∧
    StandsAlone s streaming .x (.tqld rTqld) rTqld ∧ streaming.dqfmtlx = 0 ∧ streaming.dqlx = ⟨[0x66], 0⟩ ∧ rTqld.total = 1 ∧
    ewCode (fmtWidth 9) = shEw (streaming.shape 3) ∧ 1 ≤ shRows (streaming.shape 3) ∧ 0 < shWidth (streaming.shape 3) ∧
    shWidth (streaming.shape 3) ≤ 128 ∧ modBreaks rTqld.moda (rowElems 9 (shWidth (streaming.shape 3))) = false ∧ isBlockFmt 9 = false ∧
    StandsAlone s streaming .x (.tsts rTsts) rTsts ∧ (streaming.tile 2).tag = 9 ∧ 1 ≤ shRows (streaming.shape 2) ∧
    AtSram s (streaming.opAddr .x rTsts.d) (sliceKey 0 512) ∧ StandsAlone s streaming .x (.tstq q) q ∧ streaming.dqxs.rows.length < 16 := by
  simp only [standsAlone_iff, ownRuns_iff, ownWaits_iff, decodes_iff, recRuns_iff, productFits_iff, Pairs, atSram_iff]; decide +kernel
/-- VFILL of one INT32 element. -/
def rFill : Rec := { rOne with ak := 0, a := { Opd.zero with off := 0xFFFFFFFF } }

theorem witness_WordElementsAreComputed :
    StandsAlone (loaded .x bases) bases .x (.vshl rVec) rVec ∧
    StandsAlone (loaded .x bases) bases .x (.vshr { rVec with fn := 1 }) { rVec with fn := 1 } ∧
    StandsAlone (loaded .x bases) bases .x (.vnot rOne) rOne ∧ StandsAlone (loaded .x bases) bases .x (.vneg rOne) rOne ∧
    StandsAlone (loaded .x bases) bases .x (.vfill rFill) rFill ∧ rOne.total = 1 ∧ rFill.total = 1 ∧ rOne.fmt = 9 ∧ rOne.msk = 0 ∧
    rOne.moda = 0 ∧ rOne.modb = 0 ∧ rOne.dk = 1 ∧ rOne.ak = 1 ∧ rOne.fn = 0 ∧ AtSram (loaded .x bases) 0xFC00000000000200 (sliceKey 0 512) ∧
    AtSram (loaded .x bases) 0xFC00000000000000 (sliceKey 0 0) ∧ AtSram (loaded .x bases) 0xFC00000000000100 (sliceKey 0 256) := by
  simp only [standsAlone_iff, ownRuns_iff, ownWaits_iff, decodes_iff, recRuns_iff, productFits_iff, Pairs, atSram_iff]; decide +kernel

/-- The words −2 and 7 at offset 0, 5 at offset 256, and the headers 3 and 1 for VTOPK, VISECT and VCOMP at offset 512. -/
def listing (st : Strand) : State := { loaded .x st with mem := writeNat (loaded .x st).mem (sliceKey 0 512) 16 0x00000004000000090000000300000000 }
/-- k1 keeps element 0. -/
def masking : Strand := { bases with k := bases.k.set 1 ⟨15, 1⟩ }
/-- A record of two INT32 elements from offset 0 on to offset 512 on. -/
def rTwo : Rec := { rOne with t0 := 2, d := { at_ 4 with s0 := 4 }, a := { at_ 2 with s0 := 4 } }

theorem witness_WordElementsAreComputed_bits :
    let s := listing bases
    StandsAlone s bases .x (.vcmp { rVec with fn := 3 }) { rVec with fn := 3 } ∧ StandsAlone s bases .x (.vcmp { rVec with fmt := 1 }) { rVec with fmt := 1 } ∧
    rVec.total = 1 ∧ rVec.msk = 0 ∧ StandsAlone (listing masking) masking .x (.vsel { rVec with msk := 1 }) { rVec with msk := 1 } ∧ (masking.maskAt 1).tag = 15 ∧
    StandsAlone s bases .x (.vclmul { rVec with fn := 1 }) { rVec with fn := 1 } ∧ StandsAlone s bases .x (.vclmul rVec) rVec ∧
    StandsAlone s bases .x (.vdrop { rOne with fmt := 0 }) { rOne with fmt := 0 } ∧ vecF (.vdrop { rOne with fmt := 0 }) { rOne with fmt := 0 } = 0 ∧
    rowNat (readRow s.mem (sliceKey 0 0)) 14 2 = 0 ∧ StandsAlone s bases .x (.vband { rVec with fmt := 15, fn := 1 }) { rVec with fmt := 15, fn := 1 } ∧
    StandsAlone s bases .x (.visect { rVec with fmt := 15 }) { rVec with fmt := 15 } ∧ 1 ≤ rowNat (readRow s.mem (sliceKey 0 512)) 4 4 ∧
    AtSram s (bases.opAddr .x rVec.a / 4 * 4) (sliceKey 0 0) ∧ AtSram s (bases.opAddr .x rVec.b / 4 * 4) (sliceKey 0 256) ∧
    AtSram s (bases.opAddr .x rVec.d / 8 * 8) (sliceKey 0 512) ∧ AtSram s (rowOf (bases.opAddr .x rVec.d)) (sliceKey 0 512) ∧
    AtSram s (addrPlus (rowOf (bases.opAddr .x rVec.d)) 128) (sliceKey 0 512 + 128) ∧ AtSram s (rowOf (bases.opAddr .x rVec.a)) (sliceKey 0 0) := by
  simp only [standsAlone_iff, ownRuns_iff, ownWaits_iff, decodes_iff, recRuns_iff, productFits_iff, Pairs, atSram_iff]; decide +kernel
theorem witness_WordElementsAreComputed_pairs :
    let s := listing bases
    let c : Rec := { rOne with fmt := 15, t0 := 8, fn := 1, a := { at_ 2 with s0 := 1 } }
    StandsAlone s bases .x (.vpopc c) c ∧ AtSram s (bases.opAddr .x c.a) (sliceKey 0 0) ∧ AtSram s (bases.elemAddr .x c c.d 4 0) (sliceKey 0 512) ∧
    StandsAlone s bases .x (.vrsum rTwo) rTwo ∧ StandsAlone s bases .x (.vrsum { rTwo with fn := 4 }) { rTwo with fn := 4 } ∧
    StandsAlone s bases .x (.vrmax rTwo) rTwo ∧ StandsAlone s bases .x (.vrmin { rTwo with fmt := 1 }) { rTwo with fmt := 1 } ∧
    StandsAlone s bases .x (.vscan { rTwo with fn := 5 }) { rTwo with fn := 5 } ∧ StandsAlone s bases .x (.vscan { rTwo with fmt := 1 }) { rTwo with fmt := 1 } ∧
    StandsAlone s bases .x (.viota { rTwo with ak := 0, a := { Opd.zero with off := 9, s0 := 3 } }) { rTwo with ak := 0, a := { Opd.zero with off := 9, s0 := 3 } } ∧
    (∀ e, e < 2 → AtSram s (bases.elemAddr .x rTwo rTwo.a 4 e) (sliceKey 0 0 + 4 * e)) ∧
    (∀ e, e < 2 → AtSram s (bases.elemAddr .x rTwo rTwo.d 4 e) (sliceKey 0 512 + 4 * e)) ∧ sliceKey 0 512 + 4 * 0 + 4 ≤ sliceKey 0 512 + 4 * 1 ∧
    StandsAlone (listing masking) masking .x (.vexpand { rTwo with msk := 1, fn := 1 }) { rTwo with msk := 1, fn := 1 } := by
  simp only [standsAlone_iff, ownRuns_iff, ownWaits_iff, decodes_iff, recRuns_iff, productFits_iff, Pairs, atSram_iff]; decide +kernel
theorem witness_WordElementsAreComputed_lists :
    let s := { listing bases with mem := writeNat (listing bases).mem (sliceKey 0 516) 4 1 }
    StandsAlone s bases .x (.vtopk { rTwo with d := at_ 4 }) { rTwo with d := at_ 4 } ∧ rowNat (readRow s.mem (sliceKey 0 512)) 4 4 = 1 ∧
    AtSram s (rowOf (bases.opAddr .x rTwo.d)) (sliceKey 0 512) ∧ AtSram s (addrPlus (rowOf (bases.opAddr .x rTwo.d)) 128) (sliceKey 0 512 + 128) ∧
    StandsAlone (listing masking) masking .x (.vcomp { rTwo with msk := 1 }) { rTwo with msk := 1 } ∧
    (∀ c, c < 2 → AtSram s (addrPlus (bases.elemAddr .x rTwo rTwo.d 4 c) 128) (sliceKey 0 640 + 4 * c)) ∧
    2 ≤ rowNat (readRow (listing bases).mem (sliceKey 0 512)) 4 4 ∧ sliceKey 0 512 + 4 ≤ sliceKey 0 640 + 4 * 0 ∧
    sliceKey 0 640 + 4 * 0 + 4 ≤ sliceKey 0 640 + 4 * 1 := by
  simp only [standsAlone_iff, ownRuns_iff, ownWaits_iff, decodes_iff, recRuns_iff, productFits_iff, Pairs, atSram_iff]; decide +kernel
/-- A strand of L with n loops open. -/
def looping (n : Nat) (left : BitVec 32) : Strand := { bases with l := { bases.l with loops := List.replicate n ⟨0x1FFFC0, 0x200000, left⟩ } }
/-- LOOP of three records, n times. -/
def rLoop (n : BitVec 16) : Rec := { r9 with t1 := 3, t0 := n }

theorem witness_LoopRecords_loop :
    OwnRuns (state0 .l bases) bases .l (.loop (rLoop 1)) (rLoop 1) ∧ stageHolds (popTokens bases .l (rLoop 1)) (rLoop 1) = true ∧
    0 < (rLoop 1).t0.toNat ∧ ((popTokens bases .l (rLoop 1)).rseq .l).loops.length < 4 ∧ (rLoop 0).t0 = 0 ∧
    OwnRuns (state0 .l { bases with l := { bases.l with loops := List.replicate 4 ⟨0x1FFFC0, 0x300000, 2⟩ } })
      { bases with l := { bases.l with loops := List.replicate 4 ⟨0x1FFFC0, 0x300000, 2⟩ } } .l (.loop (rLoop 1)) (rLoop 1) ∧
    OwnRuns (state0 .l bases) bases .l (.loop { rLoop 1 with stg := 0x80 }) { rLoop 1 with stg := 0x80 } ∧
    stageHolds (popTokens bases .l { rLoop 1 with stg := 0x80 }) { rLoop 1 with stg := 0x80 } = false := by
  simp only [standsAlone_iff, ownRuns_iff, ownWaits_iff, decodes_iff, recRuns_iff, productFits_iff, Pairs, atSram_iff]; decide +kernel

theorem witness_LoopRecords_loopq :
    let st := { bases with rq := [9, 4], lqprev := 7 }
    OwnRuns (state0 .x st) st .x (.loopq rLoopq) rLoopq ∧ stageHolds (popTokens st .x rLoopq) rLoopq = true ∧ st.rq = 9 :: [4] ∧
    OwnRuns (state0 .x bases) bases .x (.loopq rLoopq) rLoopq ∧ bases.rq = [] ∧
    0 < (9 : BitVec 32).toNat - st.lqprev.toNat ∧ (7 : BitVec 32).toNat - st.lqprev.toNat = 0 ∧
    OwnRuns (state0 .x bases) bases .x (.loopq { rLoopq with stg := 0x80 }) { rLoopq with stg := 0x80 } := by
  simp only [standsAlone_iff, ownRuns_iff, ownWaits_iff, decodes_iff, recRuns_iff, productFits_iff, Pairs, atSram_iff]; decide +kernel

/-- ENDL with a bump of b2 by −8. -/
def rEndl : Rec := { r9 with ak := 1, a := { at_ 2 with off := 0x3FFFFFFF8 } }

theorem witness_LoopRecords_endl :
    OwnRuns (state0 .l (looping 1 2)) (looping 1 2) .l (.endl r9) r9 ∧ OwnRuns (state0 .l (looping 1 1)) (looping 1 1) .l (.endl r9) r9 ∧
    OwnRuns (state0 .l (looping 1 2)) (looping 1 2) .l (.endl rEndl) rEndl ∧
    ((popTokens (looping 1 2) .l r9).rseq .l).loops = ⟨0x1FFFC0, 0x200000, 2⟩ :: [] ∧ r9.dk ≠ 1 ∧ r9.ak ≠ 1 ∧ r9.bk ≠ 1 ∧ rEndl.ak = 1 ∧
    1 < (2 : BitVec 32).toNat ∧ (1 : BitVec 32).toNat ≤ 1 ∧ bcOn ((state0 .l bases).tile 0) = false := by
  simp only [standsAlone_iff, ownRuns_iff, ownWaits_iff, decodes_iff, recRuns_iff, productFits_iff, Pairs, atSram_iff]; decide +kernel

theorem witness_LoopRecords_others :
    OwnRuns (state0 .s bases) bases .s (.rot r9) r9 ∧ OwnRuns (state0 .s bases) bases .s (.rot { r9 with fn := 3, t0 := 9 }) { r9 with fn := 3, t0 := 9 } ∧
    OwnRuns (state0 .s bases) bases .s (.rot { r9 with fn := 2, stg := 0x80 }) { r9 with fn := 2, stg := 0x80 } ∧
    stageHolds (popTokens bases .s r9) r9 = true ∧ OwnRuns (state0 .s bases) bases .s (.endRec r9) r9 ∧
    OwnRuns (state0 .x { bases with hfact := true }) { bases with hfact := true } .x (.hcfgRet { r1 with eng := 8, fn := 16 }) { r1 with eng := 8, fn := 16 } ∧
    stageHolds (popTokens bases .x { r1 with eng := 8, fn := 16 }) { r1 with eng := 8, fn := 16 } = true ∧
    (let o : Op := { formOp bases .x (.hcount { r1 with eng := 8 }) AtDecode.none with num := 1, phase := .running }
     let st := { bases with hfact := true, ops := [o] }
     OwnRuns (state0 .x st) st .x (.hcfgRet { r1 with eng := 8, fn := 16 }) { r1 with eng := 8, fn := 16 } ∧
       o.r.eng = 8 ∧ o.empty = false ∧ o.phase ≠ .complete) := by
  simp only [standsAlone_iff, ownRuns_iff, ownWaits_iff, decodes_iff, recRuns_iff, productFits_iff, Pairs, atSram_iff]; decide +kernel

/-- TLWAIT of ch0 at the value in b9 plus n. -/
def rTlw (n : BitVec 34) : Rec := { r9 with ak := 1, a := { at_ 9 with off := n } }

theorem witness_WaitsAndBranchesOfSequencers :
    OwnRuns (state0 .s busy) busy .s (.drainRec r9) r9 ∧ OwnRuns (state0 .s bases) bases .s (.drainRec r9) r9 ∧
    ¬CopiesDone busy r9.fn.toNat (busy.tlAt r9.fn.toNat).issue ∧ CopiesDone bases r9.fn.toNat (bases.tlAt r9.fn.toNat).issue ∧
    OwnRuns (state0 .s busy) busy .s (.tlwaitRec (rTlw 1)) (rTlw 1) ∧ OwnRuns (state0 .s busy) busy .s (.tlwaitRec (rTlw 0)) (rTlw 0) ∧
    OwnRuns (state0 .x bases) bases .x (.sync r9) r9 ∧ bases.quiet = true ∧
    OwnRuns (state0 .x bases) bases .x (.sync { r9 with stg := 0x80 }) { r9 with stg := 0x80 } ∧
    stageHolds (popTokens bases .x { r9 with stg := 0x80 }) { r9 with stg := 0x80 } = false ∧
    (let st := { bases with ops := [formOp bases .x (.vadd rVec) AtDecode.none] }
     OwnRuns (state0 .x st) st .x (.sync r9) r9 ∧ ∃ o ∈ st.ops, o.q = .x ∧ o.retired = false) := by
  simp only [copiesDone_iff, standsAlone_iff, ownRuns_iff, ownWaits_iff, decodes_iff, recRuns_iff, productFits_iff, Pairs, atSram_iff]; decide +kernel

theorem witness_WaitsAndBranchesOfSequencers_branch :
    let st := { bases with bq := [0x8001] }
    OwnRuns (state0 .x st) st .x (.brq rBrq) rBrq ∧ st.bq = 0x8001 :: [] ∧ (0x8001 : BitVec 16) &&& BitVec.ofNat 16 rBrq.a.off.toNat ≠ 0 ∧
    (1 : BitVec 16) &&& BitVec.ofNat 16 rBrq.a.off.toNat = 0 ∧
    (bases.rseq .x).pc + BitVec.ofInt 64 (64 * rBrq.d.off.toInt) ≠ (bases.rseq .x).pc + 64 ∧
    OwnRuns (state0 .x bases) bases .x (.brq rBrq) rBrq ∧ bases.bq = [] ∧ rBrq.fn.getLsbD 0 = false ∧
    OwnRuns (state0 .x bases) bases .x (.brq { rBrq with fn := 3 }) { rBrq with fn := 3 } := by
  simp only [standsAlone_iff, ownRuns_iff, ownWaits_iff, decodes_iff, recRuns_iff, productFits_iff, Pairs, atSram_iff]; decide +kernel

/-- L waits at a DRAIN for value 1 of ch0. -/
def draining : Strand := { busy with l := { busy.l with wait := some (.drain 0 1), read := ⟨true, 0, 0, 0⟩ } }
/-- S waits at a TLWAIT for value 1 of ch0, X at a SYNC for the issue values of that strand. -/
def waiting : Strand := { busy with
  ss := { busy.ss with wait := some (.tl 0 1), read := ⟨true, 0, 0, 0⟩ }, xs := { busy.xs with wait := some (.sync busy.issues), read := ⟨true, 0, 0, 0⟩ } }

theorem witness_WaitsAndBranchesOfSequencers_waiting :
    OwnWaits (state0 .l draining) draining .l (.drainRec r9) r9 (.drain 0 1) ∧ (draining.rseq .l).read.run = true ∧
    OwnWaits (state0 .s waiting) waiting .s (.tlwaitRec (rTlw 1)) (rTlw 1) (.tl 0 1) ∧ (waiting.rseq .s).read.run = true ∧ (rTlw 1).fn ≠ 9 ∧
    OwnWaits (state0 .x waiting) waiting .x (.sync r9) r9 (.sync busy.issues) ∧ (waiting.rseq .x).read.run = true ∧
    CopiesDone (draining.setTl 0 ⟨1, 1, []⟩) r9.fn.toNat 1 ∧ ¬CopiesDone draining r9.fn.toNat 1 ∧ waiting.reached busy.issues = false ∧ (waiting.setTl 0 ⟨1, 1, []⟩).reached busy.issues = true ∧ waiting.ops = [] ∧
    (draining.tlAt r9.fn.toNat).completion < 1 ∧ 1 ≤ ((draining.setTl 0 ⟨1, 1, []⟩).tlAt r9.fn.toNat).completion := by
  simp only [copiesDone_iff, standsAlone_iff, ownRuns_iff, ownWaits_iff, decodes_iff, recRuns_iff, productFits_iff, Pairs, atSram_iff]; decide +kernel

/-- The strand after a predicted BRQ. -/
def ahead : Strand := ran (.brq { rBrq with fn := 3 }) (state0 .x bases)

theorem witness_RunAheadIsResolved :
    (state0 .x ahead).strands.find? (runKey 0) = some ahead ∧ ahead.episode = some episode0 ∧ episode0.outcome = none ∧
    episode0.fault = none ∧ ahead.ops.length = 1 ∧ (ahead.ops.all fun b => b.q = .x && b.seqno = episode0.seqno && !b.redirect) = true ∧
    ahead.bq = [] ∧ ({ ahead with bq := [0x8000] } : Strand).bq = 0x8000 :: [] ∧
    decide ((0x8000 : BitVec 16) &&& BitVec.ofNat 16 episode0.r.a.off.toNat ≠ 0) = episode0.r.fn.getLsbD 1 ∧
    decide ((1 : BitVec 16) &&& BitVec.ofNat 16 episode0.r.a.off.toNat ≠ 0) ≠ episode0.r.fn.getLsbD 1 := by decide +kernel

/-- R275: a mispredicted path gives back the tokens that its records popped from L's FIFO to X. -/
theorem test_path_gives_back_tokens :
    let st := { ahead with bq := [1], episode := some { episode0 with popped := [1, 1] } }
    (((after (exec (.runaheadResolution 0) (state0 .x st))).strands.find? 0).map (fun t => (t.tokensAt 1 2, t.tokensAt 0 2))) =
      some (st.tokensAt 1 2 + 2, st.tokensAt 0 2) := by decide +kernel

/-- A copy on ch1 that has made its issues, pushing to X. -/
def copied (p : Phase) : Op := { formOp bases .l (.copy { rCopy with push := 4 }) AtDecode.none with num := 1, phase := p }
/-- The strand that holds it. -/
def holdingOp (o : Op) : Strand := { bases.setTl 1 ⟨1, 0, []⟩ with ops := [o] }
/-- A vector record with its row to push. -/
def pushing : Op := { formOp bases .x (.vadd { rVec with dk := 3, d := at_ 1 }) AtDecode.none with
  num := 1, phase := .running, n := 1, out := [9] }

theorem witness_OperationsCompleteAndRetire :
    (state0 .l (holdingOp (copied .done))).strands.find? (runKey 0) = some (holdingOp (copied .done)) ∧
    readyOp (state0 .l (holdingOp (copied .done))) (holdingOp (copied .done)) 1 = some (copied .done) ∧ (copied .done).late = none ∧
    (holdingOp (copied .done)).det = false ∧ ({ holdingOp (copied .done) with det := true } : Strand).det = true ∧ (∃ sl ∈ (copied .done).readSlots,
      ({ copied .done with n := (copied .done).n - 1 } : Op).failElems { holdingOp (copied .done) with det := true } .memLasting sl ≠ []) ∧
    readyOp (state0 .l { holdingOp (copied .done) with det := true }) { holdingOp (copied .done) with det := true } 1 = some (copied .done) ∧
    ((holdingOp (copied .done)).tlAt 1).early = [] ∧ (copied .done).num = ((holdingOp (copied .done)).tlAt 1).completion + 1 ∧
    (holdingOp (copied .complete)).findOp .l (copied .complete).seqno = some (copied .complete) ∧ (copied .complete).phase = .complete ∧
    (copied .complete).retired = false ∧ retireTurn (holdingOp (copied .complete)) (copied .complete) = true ∧
    (∀ j, j < 4 → (copied .complete).r.push.getLsbD j = true → (holdingOp (copied .complete)).tokensAt Seqr.l.code j + (holdingOp (copied .complete)).pathPops Seqr.l.code j < 32) ∧
    (copied .complete).r.push.getLsbD 2 = true ∧ 32 ≤ tokens.tokensAt Seqr.l.code 2 + tokens.pathPops Seqr.l.code 2 ∧
    ((state0 .x { bases with ops := [pushing] }).tile 0).exchanging = false ∧
    (({ state0 .x bases with tiles := [(0, { Tile.reset with exchanging := true })] } : State).tile 0).exchanging = true ∧
    ({ bases with ops := [pushing] } : Strand).ops = [pushing] ∧ pushing.q = .x ∧ pushing.phase = .running ∧ pushing.waiting = [] ∧
    pushing.out = [9] ∧ pushing.total ≤ pushing.n ∧ pushing.pushes = some 1 ∧ pushing.late = none ∧ bases.dqxs.rows.length < 16 ∧
    pushing.r.eng.toNat < 9 ∧ (copied .complete).late = none ∧ (copied .done).redirect = false ∧
    (let o : Op := { formOp bases .l (.copy rCopy) AtDecode.none with num := 1, phase := .done }
     (holdingOp o).findOp .l o.seqno = some o ∧ o.retired = false ∧ o.r.push = 0 ∧ o.r.eng.toNat < 7 ∧ o.late = none) := by
  decide +kernel

theorem witness_OperationsCompleteAndRetire_path :
    let o : Op := { formOp bases .x (.mmag rMmag) AtDecode.none with num := 1, phase := .done, redirect := true }
    let st := { bases.setTl 4 ⟨1, 0, []⟩ with ops := [o], episode := some episode0, det := true, tshape := bases.tshape.set 5 0x00040100 }
    (state0 .x st).strands.find? (runKey 0) = some st ∧ readyOp (state0 .x st) st 4 = some o ∧ o.late = none ∧ st.det = true ∧
    (∃ sl ∈ o.readSlots, ({ o with n := o.n - 1 } : Op).failElems st .memLasting sl ≠ []) ∧ o.redirect = true ∧ st.episode = some episode0 := by decide +kernel

/-- A link into bucket 3 of four at offset 0 of tile 0's slice, and one of another tile's chain array. -/
def link1 : LinkReq := ⟨1, 1, 0, sliceKey 0 0, 2, 5, 1, 3, 77, strand0.at 0 .x 1⟩
def link2 : LinkReq := { link1 with base := sliceKey 1 0 }
/-- HGATHER of one query row in t1, list header at offset 512, FB_ID 1. -/
def rHgather : Rec := { r1 with eng := 8, dk := 1, ak := 2, d := at_ 4, a := at_ 1, b := { Opd.zero with off := 1 } }
/-- An HGATHER with one bucket to read. -/
def gathering : Op := { formOp hawk .x (.hgather rHgather) ⟨true, BitVec.ofNat 64 (slice + 512), 0, 0⟩ with
  num := 1, phase := .running, hg := some ⟨[(3, 0)], 1, [], none, 0⟩ }
/-- KSTORE of one key in t1, cache row at offset 512, token b3. -/
def rKstore : Rec := { r1 with eng := 8, dk := 1, ak := 2, bk := 1, d := at_ 4, a := at_ 1, b := at_ 3 }
/-- HCOUNT of head 0 to offset 512. -/
def rHcount : Rec := { r1 with eng := 8, dk := 1, d := at_ 4 }
/-- Head 0 with its projection. -/
def projected : Strand := hawk.setHead 0 { hawk.head 0 with pv := true, proj := [(0, 0x3F80), (129, 0xBF80)] }
/-- An HRESET with its row 1 to write. -/
def resetting : Op := { formOp projected .x (.hreset { r1 with eng := 8 }) AtDecode.none with
  num := 1, phase := .running, hg := some ⟨[(1, 0)], 0, [], none, 0⟩ }

/-- R293, R295: the key (1, 1) of FP16 lies in the bucket of hyperplanes (1, 0), (0, −1), 0 and 0, and its row and link go out;
R296: a link waits for an earlier one of its strand and tile. R301, R303: rows of counts and of empty buckets. -/
theorem test_hawkmoth_records :
    let s := after (exec (.kstore rKstore) (loaded .x projected))
    readNat s.mem (sliceKey 0 512) 4 = 0x3C003C00 ∧ s.dev.links.map (fun l => (l.base, l.bucket, l.token)) = [(sliceKey 0 4096, 2, 256)] ∧
    (after (exec (.hawkmothLink 1) { state0 .x bases with dev := { Device.reset with links := [link1, { link1 with token := 78 }] } })).dev.links
      = [{ link1 with token := 78 }] ∧
    readNat (after (exec (.hcount rHcount) (loaded .x { projected with hfact := true }))).mem (sliceKey 0 536) 2 = 0x100 ∧
    readNat (after (exec (.stallRelease 0 .x) (loaded .x { projected with ops := [resetting] }))).mem (sliceKey 0 4224) 32 =
      2 ^ 224 - 2 ^ 32 := by decide +kernel

theorem witness_LinksAndChainReads :
    let s := { state0 .x bases with dev := { Device.reset with links := [link1, link2] } }
    s.dev.links[0]? = some link1 ∧ s.dev.links[1]? = some link2 ∧ s.health = .clean ∧ s.dev.links = [] ++ link1 :: [link2] ∧
    s.dev.links = [link1] ++ link2 :: [] ∧ (∀ e ∈ [link1], e.uid ≠ link2.uid ∨ e.base / 2 ^ 23 ≠ link2.base / 2 ^ 23) ∧
    link1.bucket < 2 ^ link1.bexp ∧ readNat s.mem (bucketKey link1.base link1.bucket) 4 < 4 ∧
    0 < link1.limit ∧ readNat s.mem link1.base 4 < link1.nnodes ∧ 4 < link1.limit ∧ link1.limit ≤ (2 ^ 31 + 5) % 2 ^ 31 := by decide +kernel

theorem witness_LinksAndChainReads_chain :
    let st := { projected with ops := [gathering] }
    let s := loaded .x st
    let c := chainRead s.mem (st.head gathering.head).key (st.head gathering.head).bexp 3
    s.strands.find? (runKey 0) = some st ∧ s.health = .clean ∧ st.ops.find? (fun o => isGather o.ins && o.phase = .running) = some gathering ∧
    gathering.hg = some ⟨[(3, 0)], 1, [], none, 0⟩ ∧ gathering.ins = .hgather rHgather ∧ c.1 = false ∧ c.2.length ≤ (st.head gathering.head).dthresh ∧
    gathering.q = .x ∧ gathering.out = [] ∧ gathering.buf = [] ∧ gathering.waiting = [] ∧ gathering.n = 0 ∧ gathering.late = none ∧
    st.episode = none ∧ rHgather.eng = 8 ∧ rHgather.dk = 1 ∧ 0 = s.curTile ∧ AtSram s (rowOf (gathering.addrAt .d 0)) (sliceKey 0 512) ∧
    max ([] ++ c.2).length 0 = 0 := by
  simp only [standsAlone_iff, ownRuns_iff, ownWaits_iff, decodes_iff, recRuns_iff, productFits_iff, Pairs, atSram_iff]; decide +kernel
theorem witness_LinksAndChainReads_records :
    let s := loaded .x projected
    let h := projected.head 0
    StandsAlone s projected .x (.kstore rKstore) rKstore ∧ h.cv = true ∧ h.pv = true ∧ (projected.tile 1).tag = 2 ∧ 0 < shRows (projected.shape 1) ∧
    1 ≤ shRows (projected.shape 1) ∧ shWidth (projected.shape 1) = 2 * h.dim ∧ modBreaks rKstore.moda h.dim = false ∧ rKstore.t0 = 1 ∧ 1 ≤ h.dim ∧
    h.dim ≤ 64 ∧ projected.opAddr .x rKstore.b % 2 ^ 32 ≠ 2 ^ 32 - 1 ∧ AtSram s (projected.opAddr .x rKstore.d) (sliceKey 0 512) ∧
    StandsAlone s projected .x (.hreset { r1 with eng := 8 }) { r1 with eng := 8 } ∧ AtSram s h.key h.key ∧ 1 ≤ h.bexp ∧
    StandsAlone s projected .x (.hgather rHgather) rHgather ∧ AtSram s (rowOf (projected.opAddr .x rHgather.d)) (sliceKey 0 512) ∧
    readNat s.mem (sliceKey 0 512 + 4) 4 ≤ h.dthresh ∧ rHgather.t0.toNat ≤ shRows (projected.shape 1) ∧
    StandsAlone s projected .x (.hcount rHcount) rHcount ∧ h.fbwhy < 256 := by
  simp only [standsAlone_iff, ownRuns_iff, ownWaits_iff, decodes_iff, recRuns_iff, productFits_iff, Pairs, atSram_iff]; decide +kernel
theorem witness_LinksAndChainReads_reset :
    let st := { projected with ops := [resetting] }
    let s := loaded .x st
    s.strands.find? (runKey 0) = some st ∧ 0 = s.curTile ∧ s.health = .clean ∧ (s.tile 0).exchanging = false ∧ st.ops = [resetting] ∧ st.episode = none ∧
    resetting.ins = .hreset { r1 with eng := 8 } ∧ resetting.q = .x ∧ resetting.phase = .running ∧ resetting.retired = false ∧
    resetting.waiting = [] ∧ resetting.out = [] ∧ resetting.n = 0 ∧ resetting.late = none ∧ ({ r1 with eng := 8 } : Rec).total = 1 ∧
    resetting.hg = some ⟨(1, 0) :: [], 0, [], none, 0⟩ ∧ AtSram s (st.head 0).key (st.head 0).key := by
  simp only [standsAlone_iff, ownRuns_iff, ownWaits_iff, decodes_iff, recRuns_iff, productFits_iff, Pairs, atSram_iff]; decide +kernel
theorem witness_AnswersArrive :
    (let st := mapped page 0
     let s := trained (state0 .c st)
     s.strands.find? (runKey 0) = some st ∧ st.started = true ∧ st.c.ended = false ∧ s.health = .clean ∧ (0x200100 : Word).toNat < 2 ^ 56 ∧
     translate s st 0 0x200100 = .found page ∧ page.target 0x200100 = .cell 0x100 ∧ stackReady s.dev.ready 0x100 = true ∧
     rowOf 0x1FFF80 < rowOf st.c.pc.toNat ∧ rowOf st.c.pc.toNat ≤ rowOf 0x200100 ∧ rowOf 0x200100 ≤ rowOf st.c.pc.toNat + 256 ∧ st.c.window = []) ∧
    (let f : FarReq := ⟨1, 1, 1, none, 8, .load 5 11⟩
     let s := { state0 .c awaiting with dev := { Device.reset with far := [f] } }
     s.dev.far.find? (fun g => g.id = 1) = some f ∧ s.dev.far.find? (fun g => g.id = 2) = none ∧ f.port = none ∧ f.lead = f.id ∧
     findUid s f.uid = some (0, awaiting) ∧ awaiting.c.wait = .answer f.id ∧ (∀ g ∈ s.dev.far, g.lead = f.id ∧ g.id = 1) ∧ s.dev.parts = [] ∧
     f.addr % 128 = 11 % 128 / 8 * 8 ∧ ({ f with use := .atom 5 .add 8 } : FarReq).use.isAtomic = true ∧
     (let g : FarReq := { f with id := 2, addr := 16 }
      let t := { s with dev := { s.dev with far := [f, g] } }
      t.dev.far.find? (fun g => g.id = 1) = some f ∧ f.use.isAtomic = false ∧ g ∈ t.dev.far ∧ g.id ≠ 1 ∧ g.lead = f.lead)) := by
  decide +kernel

/-! ### Witnesses: the module -/

/-- A module that holds a launch and strands, with these READY bits. -/
def module_ (l : Launch) (strands : PMap Strand) (ready : BitVec 32) : State := { State.reset with
  strands := strands, dev := { Device.reset with launches := [(1, l)], ready := ready } }
/-- Queue 3 with five tickets at 0x200000, its head this packet, and a kernel header at 0x202000. -/
def heading (p : BitVec 512) (header : Nat) : State := { paged 0x21 with
  mem := writeNat (writeNat (writeNat tables 0 8 1) 256 64 p.toNat) 0x2000 64 header
  dev := { (paged 0x21).dev with qbase := [(3, 0x200000)], qctl := [(3, 0x84000005)] } }

/-- Its head a NOP packet. -/
def drawing : State := heading 3 0

theorem witness_LotteryDrawsByTickets :
    let e : Entrant := ⟨3, 0, 3⟩
    dispatchHeld drawing.dev = false ∧ drawing.dev.held = none ∧ drawing.dev.drawing = none ∧ drawing.health = .clean ∧ (∀ q ∈ servedQueues drawing.dev, queueHead drawing q ≠ .broken) ∧
    headsComing drawing (servedQueues drawing.dev) = false ∧ entrants drawing = [] ++ e :: [] ∧ entrants (paged 0x21) = [] ∧
    (lotteryNext 1).toNat * 5 / 2 ^ 64 < 0 + queueTickets drawing.dev 3 ∧ bpHits drawing.dev 3 e.packet = [] ∧ pkType e.packet = 3 ∧
    pkSignal e.packet = 0 ∧ stageRun drawing 3 0 = none ∧ (procTarget drawing 0 0x200100 true).toOption = some (.cell 256) ∧
    (procTarget drawing 0 0x200080 true).toOption = some (.cell 128) ∧
    (procTarget (drawing.setMem (writeBytes drawing.mem (rowOf 256 + 0x200100 % 128) [0])) 0 0x200080 true).toOption = some (.cell 128) := by
  decide +kernel

/-- A computed place is the place. -/
theorem ok_of_some {x : Res Target} {v : Target} (h : x.toOption = some v) : x = .ok v := by
  cases x with
  | error => simp [Except.toOption] at h
  | ok j => simp [Except.toOption] at h; rw [h]

/-- The one head of the queues is drawn. -/
theorem draws (s : State) (e : Entrant) (ks kr : Nat) (h :
    let y : Word := s.dev.lseed ^^^ (s.dev.lseed <<< 13)
    let z := y ^^^ (y >>> 7)
    let slot := queueBase s.dev e.queue + 256 + 64 * (e.rd % 2 ^ queueLogsz s.dev e.queue)
    let read := queueBase s.dev e.queue + 128
    dispatchHeld s.dev = false ∧ s.dev.held = none ∧ s.dev.drawing = none ∧ s.health = .clean ∧ (∀ q ∈ servedQueues s.dev, queueHead s q ≠ .broken) ∧
    headsComing s (servedQueues s.dev) = false ∧ bpHits s.dev e.queue e.packet = [] ∧ stageRun s e.queue e.rd = none ∧ entrants s = [e] ∧
    (z ^^^ (z <<< 17)).toNat * queueTickets s.dev e.queue / 2 ^ 64 < queueTickets s.dev e.queue ∧
    (procTarget s (queueFn s.dev e.queue) slot true).toOption = some (.cell ks) ∧
    (procTarget s (queueFn s.dev e.queue) read true).toOption = some (.cell kr) ∧
    (procTarget (s.setMem (writeBytes s.mem (rowOf ks + slot % 128) [0])) (queueFn s.dev e.queue) read true).toOption = some (.cell kr)) :
    ∃ s2, DrawsHead s e s2 := by
  obtain ⟨a, b, w, p, c, d, x, f, g, n, i, j, k⟩ := h
  unfold DrawsHead
  refine ⟨_, a, b, w, p, c, d, x, f, [], [], ks, kr, g, by simp, ?_, ok_of_some i, ok_of_some j, ok_of_some k, rfl⟩
  simpa [g] using n

theorem witness_LotteryDrawsByTickets_nop : ∃ s2, DrawsHead (heading 3 0) ⟨3, 0, 3⟩ s2 := draws (heading 3 0) ⟨3, 0, 3⟩ 256 128 (by decide +kernel)

theorem witness_LotteryDrawsByTickets_type : ∃ s2, DrawsHead (heading 4 0) ⟨3, 0, 4⟩ s2 := draws (heading 4 0) ⟨3, 0, 4⟩ 256 128 (by decide +kernel)

/-- A launch of one strand of NBV 1, and one of NBV 2. -/
def launching : BitVec 512 := packet 1 1 0 0 0 0 ||| 0x10000
def launching2 : BitVec 512 := packet 1 1 0 0 0 0 ||| 0x20000
/-- A gang of one strand with a partner at port 2. -/
def arming (deadline : Nat) : BitVec 512 := packet 2 1 0 7 4 deadline ||| 0x10000

/-- R76: the launch drawn enters the table under the next name, its one strand named. -/
theorem test_packet_is_accepted : (after (exec .lotteryDraw (heading launching 1))).dev.nextUid = 2 := by decide +kernel

theorem witness_LotteryDrawsByTickets_launch : ∃ s2, DrawsHead (heading launching 1) ⟨3, 0, launching⟩ s2 :=
  draws (heading launching 1) ⟨3, 0, launching⟩ 256 128 (by decide +kernel)

theorem witness_LotteryDrawsByTickets_nbv : ∃ s2, DrawsHead (heading launching2 2) ⟨3, 0, launching2⟩ s2 :=
  draws (heading launching2 2) ⟨3, 0, launching2⟩ 256 128 (by decide +kernel)

theorem witness_LotteryDrawsByTickets_gang : ∃ s2, DrawsHead (heading (arming 9) 1) ⟨3, 0, arming 9⟩ s2 :=
  draws (heading (arming 9) 1) ⟨3, 0, arming 9⟩ 256 128 (by decide +kernel)

theorem witness_LotteryDrawsByTickets_late : ∃ s2, DrawsHead (heading (arming 0) 1) ⟨3, 0, arming 0⟩ s2 :=
  draws (heading (arming 0) 1) ⟨3, 0, arming 0⟩ 256 128 (by decide +kernel)

theorem witness_LotteryDrawsByTickets_packets :
    pkStrands (packet 1 0 0 0 0 0) = 0 ∧ ([launching, launching2, arming 9, arming 0].all fun x => (pkType x == 1 || pkType x == 2) && pkStrands x == 1 && pkMapN x == 0 &&
      pkSignal x == 0 && !pkDet x && bitsOf x.toNat 10 6 == 0 && bitsOf x.toNat 52 12 == 0 && bitsOf x.toNat 368 8 == 0 &&
      pkInitset x == 0 && pkKaddr x == 0x202000) = true ∧ 0x202000 % 64 = 0 ∧
    pkGang (arming 9) = 7 ∧ pkDeadline (arming 9) = 9 ∧ pkDeadline (arming 0) = 0 ∧ pkGang launching = 0 ∧ pkPorts launching = 0 ∧
    pkDeadline launching = 0 ∧ pkNbv launching = 1 ∧ pkNbv launching2 = 2 ∧ headerOk 1 = true ∧ headerOk 2 = true := by decide +kernel

theorem witness_LotteryDrawsByTickets_header :
    let s := heading launching 1
    (procTarget s 0 0x202000 false).toOption = some (.cell 0x2000) ∧ readNat s.mem (rowOf 0x2000 + 0x202000 % 128 / 64 * 64) 64 = 1 ∧
    ringBase s .fault 0 = 0 ∧ s.dev.trcctl.getLsbD 31 = false ∧ s.dev.devtime.toNat = 0 ∧ s.strands = [] := by decide +kernel

theorem witness_LotteryDrawsByTickets_signal : ∃ m, Signalled (heading 3 0) 0 (BitVec.ofNat 512 (3 + 2 ^ 192 * 0x203000)) 1 m :=
  ⟨_, .inr ⟨by decide +kernel, 0x3000, ok_of_some (by decide +kernel), rfl⟩⟩

/-- An armed gang 7 with a partner at port 2 and its deadline at tick 9. -/
def armed (bound : Nat) : Launch := { launch1 (packet 2 1 0 7 4 9) bound with gang := .armed, started := false }
/-- The module that holds it, at a tick, with acknowledgements. -/
def gangAt (tick : Nat) (bound : Nat) (acks : List (Nat × Nat)) : State :=
  let s := module_ (armed bound) [(0, { strand0 with started := false })] 0
  { s with dev := { s.dev with devtime := BitVec.ofNat 64 tick, armAcks := acks } }

theorem witness_GangsDecideTogether :
    (gangAt 8 1 []).dev.launches.find? 1 = some (armed 1) ∧ (armed 1).gang = .armed ∧ decisionTick (gangAt 8 1 []) (armed 1) = false ∧
    decisionTick (gangAt 9 1 [(7, 2)]) (armed 1) = true ∧ (gangAt 9 1 []).dev.stopped = false ∧ (gangAt 9 1 []).dev.trcctl.getLsbD 31 = false ∧
    (∀ p, p < 8 → (pkPorts (armed 1).packet).testBit p = true → (pkGang (armed 1).packet, p) ∈ (gangAt 9 1 [(7, 2)]).dev.armAcks) ∧
    (armed 1).bound = pkStrands (armed 1).packet ∧ (armed 0).bound ≠ pkStrands (armed 0).packet ∧
    (2 < 8 ∧ (pkPorts (armed 1).packet).testBit 2 = true ∧ (pkGang (armed 1).packet, 2) ∉ (gangAt 9 1 []).dev.armAcks) ∧
    (gangAt 8 1 []).dev.launches.any (fun p => p.2.gang = .armed && pkGang p.2.packet = 7 && decisionTick (gangAt 8 1 []) p.2) = false ∧
    (gangAt 9 1 []).dev.launches.any (fun p => p.2.gang = .armed && pkGang p.2.packet = 7 && decisionTick (gangAt 9 1 []) p.2) = true ∧
    (7, 2) ∉ (gangAt 8 1 []).dev.armAcks := by decide +kernel

theorem witness_GangsDecideTogether_commit :
    strandsOf ((gangAt 9 1 [(7, 2)]).setDev { (gangAt 9 1 []).dev with armAcks := [] }) 1 = [(0, { strand0 with started := false })] ∧
    (let l := { armed 1 with gang := .committed }
     ([(1, l)] : PMap Launch).filter (fun p => p.2.gang = .committed && pkGang p.2.packet = 7) = [(1, l)] ∧
     ([(1, l)] : PMap Launch).filter (fun p => p.2.gang = .committed && pkGang p.2.packet = 8) = []) := by decide +kernel

/-- A strand that is over. -/
def overStrand : Strand := { strand0 with c := CSeq.start 0 true, l := RSeq.start 0 true, xs := RSeq.start 0 true, ss := RSeq.start 0 true }
/-- A deterministic strand that waits on `tl.mon` for value 1. -/
def parkedStrand : Strand := { overStrand with det := true, c := { CSeq.start 0x200000 false with wait := .monWait 1 } }

theorem witness_StrandsBindAndEnd :
    (let s := module_ (launch1 (packet 1 2 0 0 0 0) 0) [] 1
     s.dev.launches.find? 1 = some (launch1 (packet 1 2 0 0 0 0) 0) ∧ s.dev.trcctl.getLsbD 31 = false ∧ s.dev.ready.getLsbD 0 = true ∧
     s.dev.ready.getLsbD 3 = false ∧ binder s 0 = some (1, 0) ∧ slotFor s 0 = some 0 ∧ hdOff (launch1 0 0).header 0 ≠ 0 ∧
     hdOff (launch1 0 0).header 1 = 0) ∧
    (let l := launch1 (packet 1 1 1 0 0 0) 0
     let s := module_ l [] 1
     pkDet l.packet = true ∧ l.bound = 0 ∧ l.killed = false ∧ detTurn s l = true ∧ detRoom s l = true ∧ l.gang = .none ∧ l.stage = none ∧
     pkStrands l.packet = 1 ∧ (freeRunning s (dieOf l.groups 1 0)).head? = some 0) ∧
    (let s := module_ (launch1 (packet 1 2 0 0 0 0) 2) [(0, overStrand)] 1
     slotOver s (runKey 0 + 1) = false ∧ s.strands.find? (runKey 0) = some overStrand ∧ overStrand.launch = 1 ∧ overStrand.started = true ∧ strandOver s overStrand = true ∧
     s.strands.find? (runKey 0 + 1) = none ∧ s.dev.ivpending = [] ∧ s.dev.killedLaunches = [] ∧ 0 + 1 ≠ pkStrands (packet 1 2 0 0 0 0) ∧
     0 + 1 = pkStrands (packet 1 1 0 0 0 0) ∧ pkSignal (packet 1 1 0 0 0 0) = 0 ∧ strandOver s strand0 = false ∧ launchParked s 1 = false) ∧
    (let s := module_ (launch1 (packet 1 2 0 0 0 0) 2) [(0, strand0), (1, overStrand)] 1
     slotOver s (runKey 0) = false ∧ s.strands.find? (runKey 0 + 1) = some overStrand ∧ strandOver s overStrand = true ∧
     (launch1 (packet 1 2 0 0 0 0) 2).stage = none ∧ (launch1 (packet 1 2 0 0 0 0) 2).killed = false) ∧
    (let s := { module_ (launch1 (packet 1 1 1 0 0 0) 1) [(0, parkedStrand)] 1 with planner := { Planner.reset with monIssue := 1 } }
     launchParked s 1 = true) := by decide +kernel

theorem witness_SwapsExchangeTheSlots :
    let b : Strand := { strand0 with uid := 2 }
    let a : Strand := { strand0 with quantum := 100000 }
    let s := { twoSlots with strands := [(0, a), (1, b)] }
    s.strands.find? (2 * 0) = some a ∧ s.strands.find? (2 * 0 + 1) = some b ∧ a.det = false ∧ b.det = false ∧ a.started = true ∧
    s.dev.quantum.toNat ≤ a.quantum ∧ (s.tile 0).swap = none ∧ s.dev.stopped = false ∧ strand0.quantum < s.dev.quantum.toNat ∧
    ({ Device.reset with swapreq := 0x80000000 } : Device).swapreq.getLsbD 31 = true ∧ s.dev.swapreq.getLsbD 31 = false ∧
    (0x80000000 : BitVec 32).getLsbD 31 = true ∧ (0x80000000 : BitVec 32).toNat % 512 = 0 ∧
    (({ s with tiles := [(0, { Tile.reset with swap := some true })] } : State).tile 0).swap = some true ∧ swapReady s a = true ∧
    (({ s with tiles := [(0, { Tile.reset with swap := some false })] } : State).tile 0).swap = some false ∧
    ¬(false = true ∨ strand0.det = false ∧ b.det = false ∧ strand0.started = true ∧ s.dev.quantum.toNat ≤ strand0.quantum) ∧
    swapReady s awaiting = false ∧ a.ops = [] ∧ a.episode = none ∧ s.dev.ivpending = [] ∧ s.dev.trcctl.getLsbD 31 = false ∧
    (({ s with tiles := [(0, { Tile.reset with swap := some true })] } : State).tile 0).exchanging = false ∧
    (({ s with tiles := [(0, { Tile.reset with exchanging := true })] } : State).tile 0).exchanging = true ∧ s.dev.swapreq.toNat % 512 = 0 := by
  decide +kernel

theorem witness_ImpreciseFaultsReachTheStrand :
    let st := { handled with wdlimit := 5, wdcount := 5, pendingFaults := [(⟨.gangLost, .none, 0⟩, 0)] }
    let s := { state0 .c st with dev := { Device.reset with ivpending := [(0, 1000000)] } }
    s.strands.find? (runKey 0) = some st ∧ (s.tile 0).exchanging = false ∧ st.wdlimit ≠ 0 ∧ st.wdlimit ≤ st.wdcount ∧ strand0.wdlimit = 0 ∧
    ({ st with wdcount := 4 } : Strand).wdcount < st.wdlimit ∧ s.dev.ivpending.find? (runKey 0) = some 1000000 ∧
    s.dev.ivlimit.toNat ≤ 1000000 ∧ st.pendingFaults = (⟨.gangLost, .none, 0⟩, 0) :: [] ∧ st.started = true ∧ st.c.ended = false ∧ st.episode = none ∧
    Code.gangLost.toHandler = true ∧ st.tvec ≠ 0 ∧ st.act = false ∧ st.c.wait.swappable = true ∧ ringBase s .fault st.fn = 0 ∧
    (st.cStay (.sbar 5 [] true false)).c.wait.swappable = true ∧ (st.cStay (.sbar 5 [] true false)).c.wait ≠ .idle ∧
    (let b := { st with tvec := 0 }
     let two := { s with strands := [(0, strand0), (1, b)] }
     b.pendingFaults = (⟨.gangLost, .none, 0⟩, 0) :: [] ∧ b.tvec = 0 ∧ strand0.pendingFaults = [] ∧
     two.strands.find? (runKey 0) = some strand0 ∧ two.strands.find? (runKey 0 + 1) = some b ∧
     ({ two with strands := [(0, strand0), (1, st)] } : State).strands.find? (runKey 0 + 1) = some st) := by decide +kernel

/-- R360: a fault that no handler takes ends a resident strand. -/
theorem test_resident_ends :
    let b := { strand0 with uid := 2, pendingFaults := [(⟨.gangLost, .none, 0⟩, 0)] }
    (after (exec (.impreciseFaultDelivery 0) { twoSlots with strands := [(0, strand0), (1, b)] })).strands.find? 1 = none := by
  decide +kernel

theorem witness_KillsEndTheirStrands :
    let l := launch1 (packet 1 1 0 0 0 0) 1
    let s := module_ l [(0, strand0)] 1
    ({ Device.reset with killctl := 0x80000000 } : Device).killctl.getLsbD 31 = true ∧ s.dev.killctl.getLsbD 31 = false ∧
    (0x1FF : BitVec 32).getLsbD 31 = false ∧ (0x80000000 : BitVec 32).getLsbD 31 = true ∧ s.dev.stopped = false ∧
    killTargets s 0x800001FF = [] ∧ idleTargets s 0x800001FF = [] ∧ killTargets s 0x80000000 = [(0, strand0)] ∧ killTargets s 0xC0000000 = [(0, strand0)] ∧
    findUid s 1 = some (0, strand0) ∧ s.strands.find? (0 + 1) = none ∧ s.dev.launches.find? strand0.launch = some l ∧ l.gang = .none ∧
    pkInitset l.packet = 0 ∧ s.dev.ivpending = [] ∧ s.dev.trcctl.getLsbD 31 = false := by decide +kernel

theorem witness_KillsEndTheirStrands_idle :
    let l := launch1 (packet 1 1 0 0 0 0) 0
    let s := module_ l [] 1
    killTargets s 0xC0000000 = [] ∧ idleTargets s 0xC0000000 = [1] ∧ s.dev.launches.find? 1 = some l ∧ l.gang = .none ∧
    pkInitset l.packet = 0 ∧ l.stage = none ∧ s.dev.killedLaunches = [] ∧ l.ended = l.bound ∧ s.health = .clean ∧ pkSignal l.packet = 0 ∧
    idleTargets (module_ { l with gang := .armed } [] 1) 0xC0000000 = [1] := by decide +kernel

/-- R368: a launch of which no strand is bound yet is killed. -/
theorem test_kill_idle_launch :
    (after (exec (.killLaunch 0xC0000000) (module_ (launch1 (packet 1 1 0 0 0 0) 0) [] 1))).dev.launches = [] := by decide +kernel

theorem witness_KillsEndTheirStrands_done :
    let l := launch1 (packet 1 1 0 0 0 0) 1
    let s := module_ l [(0, strand0)] 1
    (let k := { s with dev := { s.dev with killctl := 0x80000000, killing := [(1, 0, 0, 0, 0, 0)], killedLaunches := [1] } }
     k.dev.killctl.getLsbD 31 = true ∧ killWaits k = false ∧ killWaits { k with dev := { k.dev with atoms := [casReq] } } = true ∧
     k.dev.killing = [(1, 0, 0, 0, 0, 0)] ∧ k.dev.killedLaunches = [1] ∧ k.dev.launches.find? 1 = some l ∧ l.stage = none ∧
     l.killed = false ∧ pkSignal l.packet = 0 ∧ ringBase k .fault 0 = 0 ∧ k.dev.chryctl.getLsbD 29 = false ∧
     ({ l with ended := 1 } : Launch).ended = pkStrands l.packet ∧ l.ended ≠ pkStrands l.packet) := by decide +kernel

theorem witness_InvalidationsReachEverySlot :
    let s := { twoSlots with strands := [(0, strand0), (1, mapped page 0)] }
    ({ Device.reset with ivpending := [(0, 0)] } : Device).ivpending ≠ [] ∧ s.dev.ivpending = [] ∧ (0x3F000000 : BitVec 32).getLsbD 31 = false ∧
    (0x80000000 : BitVec 32).getLsbD 31 = true ∧ (0x80000000 : BitVec 32).getLsbD 29 = false ∧ s.dev.stopped = false ∧
    s.strands.find? 0 = some strand0 ∧ s.strands.find? 1 = some (mapped page 0) ∧ (mapped page 0).fn = bitsOf 0x80000000 24 4 ∧
    (let r : PageReq := ⟨3, 7, 1, none⟩
     (s.dev.linkmap.getLsbD 3 == (0 : BitVec 1).getLsbD 0) = true ∧ (s.dev.linkmap.getLsbD 3 == (1 : BitVec 1).getLsbD 0) = false ∧
     ({ Device.reset with pageReqs := [r] } : Device).pageReqs = [r] ∧ r.answer = none ∧ r.fn = (3 : BitVec 4).toNat ∧ r.tag = bitsOf (0x100000007 : Word).toNat 0 32 ∧
     r.fn = bitsOf (0x600000007 : Word).toNat 33 4 ∧ r.tag ≠ bitsOf (0x100000008 : Word).toNat 0 32) := by decide +kernel

/-- A module whose dispatch is halted at queue 3, the NOP packet held. -/
def halted (s : State) : State := { s with dev := { s.dev with bpstat := 0x80000003, held := some (3, 3) } }

theorem witness_StopsDumpsAndBreakpoints :
    State.reset.dev.bpstat.getLsbD 31 = false ∧ (halted drawing).dev.bpstat.getLsbD 31 = true ∧ (halted State.reset).dev.ready.getLsbD 0 = false ∧
    (halted drawing).dev.held = some (3, 3) ∧ (halted drawing).health = .clean ∧ (halted drawing).dev.stopped = false ∧ (halted drawing).dev.ready.getLsbD 0 = true ∧
    (let h := (halted drawing).setDev { (halted drawing).dev with bpstat := (halted drawing).dev.bpstat &&& 0x7FFFFFFF }
     queueHead h 3 = .packet 0 3 ∧ (∃ s2, acceptHead h 3 0 3 = .inr s2) ∧
     queueHead { h with mem := tables } 3 = .empty) ∧
    (let s := { State.reset with dev := { Device.reset with stopPending := true } }
     s.dev.stopPending = true ∧ s.dev.stopped = false ∧ ringBase s .fault 0 = 0) ∧
    (let s := { State.reset with dev := { Device.reset with stopped := true } }
     s.dev.stopped = true ∧ s.dev.cocctl.getLsbD 31 = false ∧ s.dev.launches = [] ∧ s.dev.ivpending = [] ∧ s.dev.killctl.getLsbD 31 = false) ∧
    ({ Device.reset with cocctl := 0x80000000 } : Device).cocctl.getLsbD 31 = true ∧ 511 < 512 := by
  refine ⟨?_, ?_, ?_, ?_, ?_, ?_, ?_, ⟨?_, ?_, ?_⟩, ?_⟩
  case refine_9 =>
    generalize hx : acceptHead _ _ _ _ = x
    have : x.isRight = true := by rw [← hx]; decide +kernel
    cases x with
    | inl => simp at this
    | inr s2 => exact ⟨s2, rfl⟩
  all_goals decide +kernel

theorem witness_StopsDumpsAndBreakpoints_trace :
    let st := { overStrand with c := CSeq.start 0x200000 false, det := true }
    let s := { state0 .c st with dev := { Device.reset with trcctl := 0x80000001, trcbase := Device.reset.trcbase.set 0 0x1000 } }
    s.dev.trcctl.getLsbD 31 = true ∧ s.dev.trcctl.toNat % 2 ^ 16 ≠ 0 ∧ s.dev.stopped = false ∧ s.strands = [(runKey 0, st)] ∧ st.started = true ∧
    isStage s st = false ∧ st.fn = bitsOf s.dev.trcctl.toNat 16 4 ∧ st.c.ended = false ∧ st.l.ended = true ∧ st.xs.ended = true ∧ st.ss.ended = true ∧
    ringBase s .trace st.fn ≠ 0 ∧ st.det = true ∧ State.reset.dev.trcctl.getLsbD 31 = false := by decide +kernel

theorem witness_HostRegisterWrites :
    (0x83000000 : BitVec 32).getLsbD 31 = true ∧ bitsOf (0x83000000 : BitVec 32).toNat 24 5 < 4 ∧ 16 < bitsOf (0x91000000 : BitVec 32).toNat 24 5 ∧
    (0 : BitVec 32).getLsbD 31 = false ∧ 4 ≤ bitsOf (0x84000000 : BitVec 32).toNat 24 5 ∧ bitsOf (0x90000000 : BitVec 32).toNat 24 5 ≤ 16 ∧
    queueEn drawing.dev 3 = true ∧ queueEn drawing.dev 255 = false ∧
    (State.reset.dev.linkmap.getLsbD 15 == (0 : BitVec 1).getLsbD 0) = true ∧ (State.reset.dev.linkmap.getLsbD 15 == (1 : BitVec 1).getLsbD 0) = false := by
  decide +kernel

/-- R389: offsets at the ends of the gaps of the table. -/
theorem witness_HostRegisterWrites_unlisted :
    ([0x0060, 0x00F8, 0x0120, 0x0FF8, 0x2058, 0x20E0, 0x20F8, 0x2380, 0x2FF8, 0x4000].all fun off =>
      (0x0060 ≤ off && off < 0x0100) || (0x0120 ≤ off && off < 0x1000) || (0x2058 ≤ off && off < 0x2060) ||
      (0x20E0 ≤ off && off < 0x2100) || (0x2380 ≤ off && off < 0x3000) || 0x4000 ≤ off) = true ∧
    ([0x0020, 0x0058].all fun off => 0x0020 ≤ off && off < 0x0060) = true ∧
    (barWrite State.reset 0 0x2378 (2 ^ 36)).dev.hwin[15] = 2 ^ 36 := by decide +kernel

theorem witness_HostAccessesReachMemory :
    let s := paged 0x20
    let w := { s with dev := { s.dev with hwin := s.dev.hwin.set 0 0x200000 } }
    (w.dev.linkmap.getLsbD 0 == (0 : BitVec 1).getLsbD 0) = true ∧ (w.dev.linkmap.getLsbD 0 == (1 : BitVec 1).getLsbD 0) = false ∧
    (outerKey w 0 0x20007F false).toOption = some 0x7F ∧ (outerKey w 0 0x20007F true).toOption = some 0x7F ∧ 0x20007F % 128 + 1 ≤ 128 ∧
    w.dev.stopped = false ∧ ringBase w .fault 0 = 0 ∧
    (match outerKey w 0 0x400000 false with | .error (.raise _) => true | _ => false) = true ∧
    (match outerKey w 0 (2 ^ 56) true with | .error (.raise _) => true | _ => false) = true ∧
    (match outerKey { w with dev := { w.dev with ready := 0 } } 0 0x200000 false with | .error .hold => true | _ => false) = true ∧
    (∀ j ∈ w.dev.outer, outerSource j ≠ some (false, 0)) ∧ w.dev.outer = [] ∧
    (let i := Instr.hostWrite 0 0 0 [1]
     let t := { w with dev := { w.dev with ready := 0, outer := [i] } }
     t.dev.outer = [i] ∧ i ∈ t.dev.outer ∧ outerSource i ≠ some (false, 3) ∧ outerSource i = some (false, 0) ∧ t.dev.ringQueue = [] ∧ t.dev.statuses = [] ∧ t.dev.ivpending = [] ∧
     (outerKey (setReady t (5 + (0 : BitVec 3).toNat) true) 0 0x200000 true).toOption = some 0) ∧
    ({ w.dev with stopped := true } : Device).stopped = true ∧ w.health = .clean ∧ ({ w with health := .softEcc } : State).health = .softEcc ∧
    (outerKey { w with health := .softEcc } 0 0x20007F false).toOption = some 0x7F := by decide +kernel

theorem witness_PeersAreServed :
    let s := paged 0x8020
    s.health = .clean ∧ s.dev.stopped = false ∧ s.dev.ready.getLsbD (15 + 0) = true ∧ s.dev.ready.getLsbD (15 + 7) = false ∧
    bitsOf s.dev.peerfn.toNat (4 * 0) 4 = 0 ∧ (outerKey s 0 0x3FFFFF true).toOption = some 0x1FFFFF ∧
    (match outerKey s 0 0x400000 true with | .error (.raise _) => true | _ => false) = true ∧ s.dev.far = [] ∧
    (match outerKey { s with dev := { s.dev with ready := 0x8000 } } 0 0x200000 true with | .error .hold => true | _ => false) = true ∧
    (∀ j ∈ s.dev.outer, outerSource j ≠ some (true, 0)) ∧
    (let f : FarReq := ⟨1, 1, 1, some 0, 0, .load 5 0⟩
     let l := launch1 (packet 1 1 0 0 0 0) 1
     let g := { armed 1 with gang := .committed, packet := packet 2 1 0 7 1 9 }
     let t := { state0 .c awaiting with dev := { Device.reset with launches := [(1, l)], far := [f] } }
     (∀ p ∈ t.dev.launches, ¬(p.2.gang = .committed ∧ (pkPorts p.2.packet).testBit 0 = true)) ∧ awaiting.launch = 1 ∧
     (module_ g [] 0).dev.launches.find? 1 = some g ∧ (module_ g [] 0).dev.far = [] ∧
     (module_ g [] 0).dev.launches.filter (fun p => p.2.gang = .committed && (pkPorts p.2.packet).testBit 0) = [(1, g)] ∧
     t.dev.far = [f] ∧ f.port = some 0 ∧ findUid t f.uid = some (0, awaiting) ∧ awaiting.c.wait = .answer f.lead ∧ f.use = .load 5 0) := by
  decide +kernel

theorem witness_ModuleEvents : State.reset.dev.ivpending = [] ∧ State.reset.dev.ringQueue = [] ∧ State.reset.dev.statuses = [] ∧
    State.reset.dev.outer = [] ∧ Part.die 3 ≠ .peer 0 0 0 ∧ 105 ≤ (105 : BitVec 8).toNat ∧ (104 : BitVec 8).toNat < 105 ∧ State.reset.dev.ready.getLsbD 3 = false ∧
    (after (exec .thermalShutdown State.reset)).agenda = [] ∧ (([] : List Move).head? ≠ some (.event .reset)) := by decide +kernel

/-! ### Cycles, draws, and the stages of plans -/

theorem witness_LotteryDrawsByTickets_kept :
    let s := { drawing with dev := { drawing.dev with drawing := some (3, 0, 3), qctl := [(3, 0x84000000)] } }
    dispatchHeld s.dev = false ∧ s.dev.held = none ∧ s.health = .clean ∧ stageRun s 3 0 = none ∧ queueTickets s.dev 3 = 0 ∧
    (procTarget s 0 0x200100 true).toOption = some (.cell 256) ∧ (procTarget s 0 0x200080 true).toOption = some (.cell 128) ∧
    (procTarget (s.setMem (writeBytes s.mem (rowOf 256 + 0x200100 % 128) [0])) 0 0x200080 true).toOption = some (.cell 128) := by
  decide +kernel

/-- R162, R208: MOVB to b3, and ENDL of L and of X that raise b2 by 5 and by 7, in one cycle: each bump starts from the old b2,
and X's prevails over L's. -/
theorem test_cycle_precedence :
    let bump (n : Nat) : Instr := .endl { r9 with ak := 1, a := { at_ 2 with off := BitVec.ofNat 34 n } }
    let row (i : Instr) : List (Nat × Row) := [(0x200000, BitVec.ofNat 1024 ((encode i).getD 0))]
    let seq (i : Instr) : RSeq := { RSeq.start 0x200000 false with loops := [⟨0x200000, 0x200000, 1⟩], window := row i }
    let st : Strand := { strand0.wb 2 100 with started := true, l := seq (bump 5), xs := seq (bump 7), c := { strand0.c with window := row (.movb 3 6) } }
    let t := ranIn (after (step { state0 .c ((st.wx 6 9).wb 3 1) with agenda := [.cycle 0 [(.x, .clean), (.l, .clean), (.c, .clean)]] }))
    t.rb 2 = 107 ∧ t.rb 3 = 9 ∧ t.c.seqno = 1 ∧ t.l.seqno = 1 ∧ t.xs.seqno = 1 := by decide +kernel

/-- R162, R208: PSET of s1 is lost under a START of L with PS and a count of 0 in the same cycle. -/
theorem test_cycle_predicate_lost :
    let row (i : Instr) : List (Nat × Row) := [(0x200000, BitVec.ofNat 1024 ((encode i).getD 0))]
    let st : Strand := { strand0 with
      started := true, l := { RSeq.start 0x200000 false with window := row (.rot { r9 with fn := 3, t0 := 0 }) }, c := { strand0.c with window := row (.pset 1 6) } }
    let run (qs : List (Seqr × Health)) : BitVec 8 := (ranIn (after (step { state0 .c (st.wx 6 1) with agenda := [.cycle 0 qs] }))).s
    run [(.c, .clean)] = 2 ∧ run [(.c, .clean), (.l, .clean)] = 0 := by decide +kernel

/-- R66, R371: the KADDR of a NOP is not examined. -/
theorem test_nop_breakpoint :
    let d := { Device.reset with bpcfg := Device.reset.bpcfg.set 0 0x80000003, bpaddr := Device.reset.bpaddr.set 0 0x202000 }
    bpMatch d 3 (packet 1 1 0 0 0 0) 0 = true ∧ bpMatch d 3 (packet 3 1 0 0 0 0) 0 = false := by decide +kernel

/-- R10, R178: a read index beyond the claimed one leaves the slot free. -/
theorem test_slot_behind : slotFree 16 3 9 = true ∧ slotFree 16 25 9 = false ∧ slotFree 16 24 9 = true := by decide

/-- R318: SOFTMAX of (0, −30000) toward zero: the largest FP32 below 1, and 0. -/
theorem test_softmax_far : softmaxRow ⟨1, 1, false, 0, 0⟩ 0 [.fin false 0 0, .fin true 30000 0] = [0x3F7FFFFF, 0] := by decide +kernel

/-- R286, R287, R318: estimates 1/4 and −1/4 under a margin of 1/4: the first key tile stays, the second may go. -/
theorem test_skippable :
    let v (n : Bool) : Val := .fin n 1 0
    let q : PVal := ⟨3, [[v false]], []⟩
    let k : PVal := ⟨3, List.replicate 64 [v false] ++ List.replicate 64 [v true], []⟩
    let may := skippable 0x3E800000 (scoutEstimates q k)
    may 0 0 = false ∧ may 0 1 = true := by decide +kernel

/-- R297, R319: a key of the query's bucket is on the list, one of the other bucket is not; a list above DTHRESH falls back. -/
theorem test_hawk_lists :
    let h : Head := { Head.start with dim := 1, bexp := 1, np := 1, dthresh := 1, limit := 4, proj := [(0, 0x3F80)] }
    let keys : List (List Val) := [[.fin false 1 0], [.fin true 1 0], [.fin false 2 0]]
    (hawkBlock (hawkChain [] h keys id) h false [[.fin true 3 0]]).1 = (0, [1]) ∧
    (hawkBlock (hawkChain [] h keys id) h false [[.fin false 3 0]]) = ((2, [0, 2]), some ⟨.denseFallback, .d, 2⟩) := by decide +kernel

/-- R330: a value is written with STAT where another stage reads its tensor, and not where its own stage alone does. -/
theorem test_stage_stat :
    let tensor : Node := { kind := 1, fmt := 6, rnd := 0, flags := 0, ins := [], param0 := 5, param1 := 0, dest := 0 }
    let op (code : List Nat) : POp := ⟨1, true, 5, 6, 0, 8, code, 1, 32, false⟩
    let p := { plan1 with nodes := [tensor, { tensor with kind := 5, ins := [0], param0 := 0 }], ops := [op [0x8000], op [1]], stages := [1, 2] }
    statDest p 0 5 = false ∧ statDest p 1 5 = true := by decide +kernel

/-- R23: copies of L and of S presented to ch1 in one cycle: L's is accepted, S's stands held, and S wins the next contest. -/
theorem test_cycle_contest :
    let row : List (Nat × Row) := [(0x200000, BitVec.ofNat 1024 ((encode (.copy rCopy)).getD 0))]
    let st : Strand := { bases with started := true, l := { RSeq.start 0x200000 false with window := row }, ss := { RSeq.start 0x200000 false with window := row } }
    let t := ranIn (after (step { state0 .c st with agenda := [.cycle 0 [(.s, .clean), (.l, .clean)]] }))
    t.ops.map (fun o => (o.q, o.phase, o.num)) = [(.s, .held, 0), (.l, .done, 1)] ∧ t.contest[1] = some .s ∧ (t.tlAt 1).issue = 1 := by
  decide +kernel

/-- R29: a token that C pushes is not there for X's record in the same cycle, and is in the next. -/
theorem test_cycle_token :
    let row (i : Instr) : List (Nat × Row) := [(0x200000, BitVec.ofNat 1024 ((encode i).getD 0))]
    let st : Strand := { strand0 with
      started := true, c := { strand0.c with window := row (.qpush 2) }, xs := { RSeq.start 0x200000 false with window := row (.rot { r9 with pop := 1 }) } }
    let s := after (step { state0 .c st with agenda := [.cycle 0 [(.c, .clean), (.x, .clean)], .cycle 0 [(.x, .clean)]] })
    (ranIn s).tokensAt 0 2 = 1 ∧ (ranIn s).xs.seqno = 0 ∧ (ranIn s).c.seqno = 1 ∧
      (ranIn (after (step s))).tokensAt 0 2 = 0 ∧ (ranIn (after (step s))).xs.seqno = 1 := by decide +kernel

/-- R28, R275: a token that an open path has popped keeps its room: with 31 tokens more, QPUSH stalls. -/
theorem test_token_room :
    let st (n : Nat) : Strand := { (strand0.setTokens 0 2 n) with episode := some { episode0 with popped := [0] } }
    (ran (.qpush 2) (state0 .c (st 31))).c.pc = strand0.c.pc ∧ (ran (.qpush 2) (state0 .c (st 30))).tokensAt 0 2 = 31 := by decide +kernel

/-- R274: on a path a broken MMA has its fault held, a broken VADD waits undecoded. -/
theorem test_path_malformed :
    let st (w : RecWord) : Strand := { strand0 with
      started := true, xs := { strand0.xs with window := [(0x200000, w.setWidth 1024)] }, episode := some episode0 }
    let held (w : RecWord) : Bool := ((ranIn (after (step { state0 .x (st w) with agenda := [.seq 0 .x .clean] }))).episode.bind (·.fault)).isSome
    held pathRow = true ∧ held ((encodeRecord (.vadd rVec)).getD 0 ||| BitVec.ofNat 512 (2 ^ 463)) = false := by decide +kernel

/-- R95, R303: a vector record on a row that HRESET has yet to write stands behind it; one on another row does not. -/
theorem test_behind_reset :
    let st : Strand := { projected with ops := [resetting], xs := { projected.xs with seqno := 1 } }
    let op (off : Nat) : Op := formOp st .x (.vadd { rVec with d := { at_ 2 with off := BitVec.ofNat 34 off } }) ⟨true, BitVec.ofNat 64 slice, 0, 0⟩
    behindChain 0 st (op 4224) = true ∧ behindChain 0 st (op 4096) = false := by decide +kernel

/-- R263: an error of MMAG's rows names a row that it gathers: j = 1 of two indices, the first all ones. -/
theorem test_gathered_rows :
    let st := { indexed with t := indexed.t.set 5 ⟨9, [(0, 2 ^ 32 - 1 + 2 ^ 32 * 7)], []⟩, tshape := indexed.tshape.set 5 0x00080103 }
    let o := formOp st .x (.mmag { rMmag with t0 := 2 }) AtDecode.none
    o.failPlace st .memLasting 0 = some (.a, 1) ∧ o.failPlace st .memLasting 5 = some (.a, 1) := by decide +kernel

/-- R364, R369: an atomic whose strand has gone is performed, and its corrected error is logged. -/
theorem test_gone_atomic :
    let t := after (exec (.atomicPerform 0) { state0 .c awaiting with
      strands := [], health := .softEcc, mem := writeNat [] (sliceKey 0 0) 8 7, dev := { Device.reset with atoms := [casReq] } })
    readNat t.mem (sliceKey 0 0) 8 = 5 ∧ t.records.map (fun r => r.2.extractLsb' 0 8) = [BitVec.ofNat 8 Code.softEcc.num] := by decide +kernel

/-- R401: a row beyond the window is not fetched. -/
theorem test_fetch_beyond :
    let got (va : Word) : Nat := (ranIn (after (exec (.instructionFetchReturn 0 .c va) (trained (state0 .c (mapped page 0)))))).c.window.length
    got 0x200100 = 1 ∧ got 0x200180 = 0 := by decide +kernel

/-- R177, R364: a codebook row of a host page that meets a retried link logs its event as it is asked for. -/
theorem test_book_retry :
    let st := (mapped hostPage 0x200000).cStay (.cbld 1 [] none)
    let t := after (exec (.cbld 1 6 0) { trained (state0 .c st) with health := .linkRetry })
    t.dev.far.length = 16 ∧ t.records.map (fun r => r.2.extractLsb' 0 8) = [BitVec.ofNat 8 Code.linkRetry.num] := by decide +kernel

/-- R384: a chain read's event names the cycle of its HGATHER's issue. -/
theorem test_chain_read_cycle :
    let st := { projected with det := true, scyc := 900, ops := [{ gathering with cycle := 40 }] }
    let t := after (exec (.chainRead 0) { loaded .x st with health := .softEcc })
    t.records.map (fun r => (r.2.extractLsb' 0 8, r.2.extractLsb' 320 64)) = [(BitVec.ofNat 8 Code.softEcc.num, 40)] := by decide +kernel

/-! ### Witnesses: clauses of planner, sums, chains and slots -/

/-- The descriptor row of a tensor: one row of 32 INT8 elements at 0x200000, TID 1. -/
def descRow : Nat := 0x200000 + 2 ^ 192 * 128 + 2 ^ 256 + 2 ^ 288 * 32 + 2 ^ 384 * 2 + 2 ^ 392 * 6 + 2 ^ 416
/-- A state whose planner has a word to apply that names a row at offset 0. -/
def describing (row : Nat) (i : Instr) : State := { planned slice [.word 1 i] with mem := writeNat [] (sliceKey 0 0) 64 row }

/-- A map that holds one thing at every one of some keys. -/
theorem find?_const {α : Type} (l : List Nat) (j : Nat) (c : α) (h : j ∈ l) : PMap.find? (l.map (fun n => (n, c))) j = some c := by
  induction l with
  | nil => cases h
  | cons n l ih =>
    simp only [List.map_cons, PMap.find?]
    split
    · rfl
    · next hn =>
      rcases List.mem_cons.mp h with rfl | h
      · exact absurd rfl hn
      · exact ih h

theorem witness_PlannerAppliesRequests_tensors :
    PlannerReaches (describing descRow (.tregReg 5 6)) 0 (planning slice) (rowOf ((planning slice).rx 6).toNat) false (sliceKey 0 0) ∧
    DescOk (describing descRow (.tregReg 5 6)).mem (sliceKey 0 0) ∧ ¬DescOk (describing 0 (.tregReg 5 6)).mem (sliceKey 0 0) ∧
    (∀ t, (planner1 []).tensors.find? 2 = some t → t.live = false) ∧
    (let m : PMap Tensor := (List.range 16384).map (fun n => (n, tensor1))
     ∀ j, 1 ≤ j → j ≤ 16383 → ¬∀ t, m.find? j = some t → t.live = false) ∧
    readNat (describing descRow (.tregUpd 5 6)).mem (sliceKey 0 0 + 52) 4 = 1 ∧ tensorOf (planner1 []) 0 1 = some tensor1 ∧
    tensorOf { planner1 [] with tensors := [] } 0 1 = none ∧ (describing descRow (.tregReg 5 6)).health = .clean := by
  refine ⟨.inl ⟨⟨0, 0, 0⟩, by decide +kernel⟩, by unfold DescOk; decide +kernel, by unfold DescOk; decide +kernel, ?_, ?_, by decide +kernel⟩
  · have h : (planner1 []).tensors.find? 2 = none := by decide +kernel
    intro t ht; rw [h] at ht; cases ht
  · intro m j _ h p
    exact absurd (p tensor1 (find?_const _ j tensor1 (List.mem_range.mpr (by omega)))) (by decide)

/-- A state whose planner has a STATRD of TID 1 to the slice to apply. -/
def statting : State := { planned 1 [.word 1 (.statrd 5 6 7)] with strands := [(0, (planning 1).wx 7 (BitVec.ofNat 64 slice))] }

theorem witness_PlannerAppliesRequests_statistics : statting.health = .clean ∧ statting.strands.find? 0 = some (ranIn statting) ∧
    tensorOf statting.planner 0 ((ranIn statting).rx 6).toNat = some tensor1 ∧ (ranIn statting).c.wait = .planner ∧
    (∀ j, j < 4 → PlannerReaches statting 0 (ranIn statting) ((rowOf ((ranIn statting).rx 7).toNat + 128 * j) % 2 ^ 64) true
      (sliceKey 0 0 + 128 * j)) := by
  refine ⟨rfl, by decide +kernel, by decide +kernel, by decide +kernel, fun j h => ?_⟩
  obtain rfl | rfl | rfl | rfl : j = 0 ∨ j = 1 ∨ j = 2 ∨ j = 3 := by omega
  · exact .inl ⟨⟨0, 0, 0⟩, by decide +kernel⟩
  · exact .inl ⟨⟨0, 0, 128⟩, by decide +kernel⟩
  · exact .inl ⟨⟨0, 0, 256⟩, by decide +kernel⟩
  · exact .inl ⟨⟨0, 0, 384⟩, by decide +kernel⟩

theorem witness_PlannerAppliesRequests_runs :
    let p : Plan := { plan1 with recorded := [⟨1, 3, [1, 32], 6⟩] }
    let s := { planned 0x100000002 [.word 1 (.prun 5 6 7)] with
      planner := { planner1 [.word 1 (.prun 5 6 7)] with plans := [(2, ⟨1, 0, some p⟩)], runs := [run1] } }
    planSlot s 2 = ⟨1, 0, some p⟩ ∧ p.pinned = false ∧ ({ p with pinned := true } : Plan).pinned = true ∧ running s 2 = true ∧ s.health = .clean ∧
    queueTakes s.dev (((planning 0x100000002).rx 7).toNat) 0 = false ∧
    queueTakes { s.dev with qctl := [(0, 0x80000000)] } (((planning 0x100000002).rx 7).toNat) 0 = true ∧ strand0.det = false ∧
    tensorOf s.planner 0 1 = some tensor1 ∧ tensor1.serial = 3 := by decide +kernel

/-- R312, R316, R332: a tensor registered in slot 2 and replaced in slot 1, what STATRD writes of TID 1, a run behind another. -/
theorem test_planner_tables :
    (let t := after (exec .plannerRequestApply (describing descRow (.tregReg 5 6)))
     (ranIn t).rx 5 = 2 ∧ (t.planner.tensors.find? 2).map (fun x => (x.base, x.dims, x.serial, x.gen)) = some (0x200000, [1, 32], 1, 1)) ∧
    (let t := after (exec .plannerRequestApply (describing (descRow + 2 ^ 12) (.tregUpd 5 6)))
     (ranIn t).rx 5 = 1 ∧ (t.planner.tensors.find? 1).map (fun x => (x.base, x.serial)) = some (0x201000, 3)) ∧
    (let t := after (exec .plannerRequestApply statting)
     (ranIn t).rx 5 = 0 ∧ readNat t.mem (sliceKey 0 0) 8 = 0x200000 ∧ readNat t.mem (sliceKey 0 48) 2 = 0x602 ∧
       readNat t.mem (sliceKey 0 52) 8 = 1 + 2 ^ 32 * 3) := by decide +kernel

/-- A strand whose cycle L, X and S share: it began with completion 0 on ch0 and rotation 0 of L. -/
def sharing : State := { state0 .c ({ strand0 with l := { strand0.l with rotb := 3 } }.setTl 0 ⟨1, 1, []⟩) with cycle := some ⟨strand0, []⟩ }

theorem witness_TimelineWords_began :
    Began (cWith 0 0) ((strand0.wx 6 0).wx 7 0) ((strand0.wx 6 0).wx 7 0) ∧ Began sharing (ranIn sharing) strand0 ∧
    Began { sharing with cycle := some ⟨{ strand0 with uid := 2 }, []⟩ } (ranIn sharing) (ranIn sharing) := by
  refine ⟨.inl ⟨rfl, rfl⟩, .inr ⟨_, rfl, fun _ => rfl, fun h => absurd ?_ h⟩, .inr ⟨_, rfl, fun h => absurd h ?_, fun _ => rfl⟩⟩ <;> decide +kernel

/-- R171, R176: TLREAD and a read of ROTB in a shared cycle give the values as it began. -/
theorem test_cycle_reads : (ran (.tlread 5 0 1) sharing).rx 5 = 0 ∧ (ran (.tlread 5 0 1) { sharing with cycle := none }).rx 5 = 1 ∧
    (ran (.csrr 5 0x16) sharing).rx 5 = 0 ∧ (ran (.csrr 5 0x16) { sharing with cycle := none }).rx 5 = 3 := by decide +kernel

theorem witness_AtomicWordsPerformAtTheOwner_sums :
    ({ casReq with kind := .fadd32 } : AtomReq).kind = .fadd32 ∧ ({ casReq with kind := .fadd16 } : AtomReq).kind = .fadd16 ∧
    (decodeFloat 1 0x3F800000).isNaN = false ∧ (decodeFloat 1 0x3F800000).isInf = false ∧ (decodeFloat 1 0x7FC00001).isNaN = true ∧
    decodeFloat 1 0x7F800000 = .inf false ∧ decodeFloat 1 0xFF800000 = .inf true ∧ (decodeFloat 1 0x80000000).neg = true := by decide +kernel

/-- R107: 1.0 + 2⁻²⁴ rounds to 1.0 in FP32, and a signalling NaN gives the canonical one in BF16. -/
theorem test_atomic_sums :
    let at_ (k : AtomKind) (old : Nat) (v : Word) : Nat := readNat (after (exec (.atomicPerform 0) { state0 .c awaiting with
      mem := writeNat [] (sliceKey 0 0) 4 old, dev := { Device.reset with atoms := [{ casReq with kind := k, v := v }] } })).mem (sliceKey 0 0) 4
    at_ .fadd32 0x3F800000 0x33800000 = 0x3F800000 ∧ at_ .fadd16 0x3F80 0x7F81 = 0x7FC0 := by decide +kernel

theorem witness_MatrixRecordsCompute_rule :
    (∀ v ∈ [decodeFloat 10 0, .ofInt 2, .ofInt 3], v.isNaN = false ∧ v.isInf = false) ∧
    (∃ v ∈ [decodeFloat 10 0, .nan], v.isNaN = true) ∧ (Val.inf false ∈ [Val.inf true, .inf false] ∧ Val.inf true ∈ [Val.inf true, .inf false]) ∧
    (Val.inf true ∈ [decodeFloat 10 0, .inf true] ∧ Val.inf (!true) ∉ [decodeFloat 10 0, .inf true] ∧
      ∀ v ∈ [decodeFloat 10 0, .inf true], v.isNaN = false) ∧
    (Val.ofInt 0).isNaN = false ∧ (Val.ofInt 0).isInf = false ∧ (Val.ofInt (-2)).isNaN = false ∧ (Val.ofInt (-2)).neg = true := by decide +kernel

theorem witness_LoopRecords_faults :
    let st := { bases with rq := [9], xs := { bases.xs with loops := List.replicate 4 ⟨0x1FFFC0, 0x300000, 2⟩ } }
    let ret : Rec := { r1 with eng := 8, fn := 16, stg := 0x80 }
    OwnRuns (state0 .x st) st .x (.loopq rLoopq) rLoopq ∧ stageHolds (popTokens st .x rLoopq) rLoopq = true ∧
    4 ≤ ((popTokens st .x rLoopq).rseq .x).loops.length ∧ rLoopq.fn ≠ 0 ∧ 0 < (9 : BitVec 32).toNat - st.lqprev.toNat ∧
    OwnRuns (state0 .x { bases with hfact := true }) { bases with hfact := true } .x (.hcfgRet ret) ret ∧
    stageHolds (popTokens bases .x ret) ret = false := by
  simp only [standsAlone_iff, ownRuns_iff, ownWaits_iff, decodes_iff, recRuns_iff, productFits_iff, Pairs, atSram_iff]; decide +kernel

/-- A state whose bucket 3 of the chain array at offset 0 counts w tokens, one node in use. -/
def linking (w : Nat) : State := { state0 .x bases with
  mem := writeNat (writeNat [] (sliceKey 0 0) 4 1) (bucketKey (sliceKey 0 0) 3) 4 w
  dev := { Device.reset with links := [{ link1 with limit := 100, nnodes := 4 }] } }

theorem witness_LinksAndChainReads_long :
    let q : LinkReq := { link1 with limit := 100, nnodes := 4 }
    let bk := bucketKey q.base q.bucket
    (linking 5).dev.links[0]? = some q ∧ (linking 5).dev.links = [] ++ q :: [] ∧ q.bucket < 2 ^ q.bexp ∧ (linking 5).health = .clean ∧
    readNat (linking 5).mem bk 4 = 5 ∧ (5 - 4) % 7 ≠ 0 ∧ readNat (linking 11).mem bk 4 = 11 ∧ (11 - 4) % 7 = 0 ∧
    readNat (linking 11).mem q.base 4 < q.nnodes ∧ 11 < q.limit ∧ readNat (linking 11).mem (bk + 24) 4 ≠ readNat (linking 11).mem q.base 4 ∧
    ({ q with nnodes := 1 } : LinkReq).nnodes ≤ readNat (linking 4).mem q.base 4 ∧ readNat (linking 4).mem bk 4 = 4 := by decide +kernel

/-- R296: the sixth token goes into the last node, the twelfth opens a new one, and the fifth overflows an exhausted pool. -/
theorem test_long_chains :
    let bk := bucketKey (sliceKey 0 0) 3
    let linked (s : State) : List Host.Cell := (after (exec (.hawkmothLink 0) s)).mem
    (let m := linked (linking 5); readNat m bk 4 = 6 ∧ readNat m (nodeKey (sliceKey 0 0) 2 0 + 4) 4 = 77 ∧ readNat m (sliceKey 0 0) 4 = 1) ∧
    (let m := linked (linking 11); readNat m bk 4 = 12 ∧ readNat m (nodeKey (sliceKey 0 0) 2 1) 4 = 77 ∧ readNat m (bk + 24) 4 = 1 ∧
      readNat m (nodeKey (sliceKey 0 0) 2 0 + 28) 4 = 1 ∧ readNat m (sliceKey 0 0) 4 = 2) ∧
    (let m := linked { linking 4 with dev := { Device.reset with links := [{ link1 with limit := 100, nnodes := 1 }] } }
     readNat m bk 4 = 2 ^ 31 + 4 ∧ readNat m (sliceKey 0 12) 4 = 1) := by decide +kernel

/-- A state whose HGATHER reads its last bucket, whose count word is w. -/
def fallingBack (w : Nat) (st : Strand) : State := { loaded .x st with
  mem := writeNat [] (bucketKey (st.head 0).key 3) 4 w }

theorem witness_LinksAndChainReads_fallback :
    let st := { projected with ops := [gathering] }
    let few := { projected.setHead 0 { projected.head 0 with dthresh := 1 } with ops := [gathering] }
    let s := fallingBack (2 ^ 31) st
    s.strands.find? (runKey 0) = some st ∧ s.health = .clean ∧ (chainRead s.mem (st.head gathering.head).key (st.head gathering.head).bexp 3).1 = true ∧
    gathering.out = [] ∧ gathering.buf = [] ∧ gathering.q = .x ∧ rHgather.dk = 1 ∧ AtSram s (rowOf (gathering.addrAt .d 0)) (sliceKey 0 512) ∧
    (let m := writeNat (writeNat (fallingBack 2 few).mem (bucketKey (few.head 0).key 3 + 4) 4 8) (bucketKey (few.head 0).key 3 + 8) 4 9
     let c := chainRead m (few.head 0).key (few.head 0).bexp 3
     c.1 = false ∧ [8, 9].Nodup ∧ (∀ x ∈ [8, 9], x ∈ [] ++ c.2) ∧ (few.head 0).dthresh < [8, 9].length) ∧
    (let o : Op := { gathering with phase := .done, late := some ⟨.denseFallback, .a, 0⟩ }
     let st (v : Word) : Strand := { (projected.setHead 0 { projected.head 0 with fbvec := v }).setTl 8 ⟨1, 0, []⟩ with ops := [o] }
     readyOp (state0 .x (st 0)) (st 0) 8 = some o ∧ (st 0).episode = none ∧ ((st 0).head (rHgather.fn.toNat % 4)).fbvec = 0 ∧
       readyOp (state0 .x (st 0x200000)) (st 0x200000) 8 = some o ∧ ((st 0x200000).head (rHgather.fn.toNat % 4)).fbvec ≠ 0 ∧
       (st 0x200000).hfact = false ∧ rHgather.push = 0) := by
  simp only [standsAlone_iff, ownRuns_iff, ownWaits_iff, decodes_iff, recRuns_iff, productFits_iff, Pairs, atSram_iff]; decide +kernel

/-- R299, R307: an overflowed bucket leaves a header of status 1 and the fallback of its row, which goes to FBVEC, or to C's handler. -/
theorem test_fallback :
    (let t := after (exec (.chainRead 0) (fallingBack (2 ^ 31) { projected with ops := [gathering] }))
     readNat t.mem (sliceKey 0 520) 4 = 1 ∧ (ranIn t).ops.map (·.late) = [some ⟨.denseFallback, .a, 0⟩]) ∧
    (let o : Op := { gathering with phase := .done, late := some ⟨.denseFallback, .a, 0⟩ }
     let st := { (projected.setHead 0 { projected.head 0 with fbvec := 0x300000 }).setTl 8 ⟨1, 0, []⟩ with ops := [o] }
     let t := ranIn (after (exec (.engineOperationComplete 0 8 .clean) (state0 .x st)))
     t.xs.pc = 0x300000 ∧ t.hfact = true ∧ (t.head 0).fbwhy = 1 ∧ (t.head 0).fbcnt = 1) := by decide +kernel

/-- A strand whose C has not taken a branch to 0x200800. -/
def branched : Strand := { mapped page 0 with c := { (mapped page 0).c with targets := [0x200800] } }

theorem witness_AnswersArrive_targets :
    (trained (state0 .c branched)).strands.find? (runKey 0) = some branched ∧
    translate (trained (state0 .c branched)) branched 0 0x200880 = .found page ∧ page.target 0x200880 = .cell 0x880 ∧
    (∃ b ∈ branched.c.targets, rowOf (0x200880 : Word).toNat = rowOf b.toNat ∨ rowOf (0x200880 : Word).toNat = rowOf b.toNat + 128) ∧
    rowOf branched.c.pc.toNat + 256 < rowOf (0x200900 : Word).toNat ∧
    (∀ b ∈ branched.c.targets, rowOf (0x200900 : Word).toNat ≠ rowOf b.toNat ∧ rowOf (0x200900 : Word).toNat ≠ rowOf b.toNat + 128) :=
  ⟨rfl, by decide +kernel, by decide +kernel, ⟨0x200800, by decide +kernel⟩, by decide +kernel, by
    intro b h; rw [show branched.c.targets = [0x200800] from rfl, List.mem_singleton] at h; subst h; decide +kernel⟩

/-- R155: the rows along the target of a branch that C has not taken are fetched ahead, and no others there. -/
theorem test_fetch_target :
    let got (va : Word) : Nat := (ranIn (after (exec (.instructionFetchReturn 0 .c va) (trained (state0 .c branched))))).c.window.length
    (ran (.beq 6 7 0x100) (state0 .c (strand0.wx 7 1))).c.targets = [0x200800] ∧
    got 0x200800 = 1 ∧ got 0x200880 = 1 ∧ got 0x200900 = 0 := by decide +kernel

theorem witness_StrandsBindAndEnd_slots :
    let l : Launch := { launch1 (packet 1 1 0 0 0 0) 1 with packet := BitVec.ofNat 512 (1 + 2 ^ 32 + 2 ^ 192 * 0x203000) }
    let s := { module_ l [(0, overStrand), (1, { strand0 with uid := 2 })] 0x21 with mem := tables }
    let s := { s with dev := { s.dev with ptbase := Device.reset.ptbase.set 0 0x4000 } }
    s.strands.find? (runKey 0) = some overStrand ∧ strandOver s overStrand = true ∧ overStrand.launch = 1 ∧
    s.strands.find? (runKey 0 + 1) = some { strand0 with uid := 2 } ∧ strand0.det = false ∧ ({ strand0 with det := true } : Strand).det = true ∧
    l.ended + 1 = pkStrands l.packet ∧ s.health = .clean ∧ (∃ m, Signalled s l.fn l.packet l.status m) ∧
    hdOff (BitVec.ofNat 512 (2 ^ 64)) 1 ≠ 0 ∧ hdOff (launch1 0 0).header 2 = 0 :=
  ⟨by decide +kernel, by decide +kernel, rfl, by decide +kernel, rfl, rfl, by decide +kernel, rfl,
    ⟨_, .inr ⟨by decide +kernel, 0x3000, ok_of_some (by decide +kernel), rfl⟩⟩, by decide +kernel, by decide +kernel⟩

/-- R79, R86: the end of the only strand stores 1 at SIGNAL, and the resident strand takes the slot. -/
theorem test_strand_end :
    let l : Launch := { launch1 (packet 1 1 0 0 0 0) 1 with packet := BitVec.ofNat 512 (1 + 2 ^ 32 + 2 ^ 192 * 0x203000) }
    let s := { module_ l [(0, overStrand), (1, { strand0 with uid := 2 })] 0x21 with mem := tables }
    let t := after (exec (.strandEnd 0) { s with dev := { s.dev with ptbase := Device.reset.ptbase.set 0 0x4000 } })
    readNat t.mem 0x3000 8 = 1 ∧ (t.strands.map (fun p => (p.1, p.2.uid))) = [(0, 2)] ∧ t.dev.launches = [] := by decide +kernel

/-- R63, R65: L stands at KADDR plus its header offset, S, which has none, has ended. -/
theorem test_header_addresses :
    let l : Launch := { launch1 (packet 1 2 0 0 0 0) 0 with header := BitVec.ofNat 512 (0x4000000000 + 2 ^ 64 * 0x80) }
    let st := ranIn (after (exec (.strandBind 0) (module_ l [] 1)))
    hdOff l.header 1 = 0x80 ∧ st.l.pc = 0x202080 ∧ st.l.ended = false ∧ st.ss.ended = true := by decide +kernel

/-- A module that traces function 0, on tile 0 a strand whose C and L run, on tile 1 one whose S runs. -/
def traced : State := { paged 0x21 with
  strands := [(0, { overStrand with c := CSeq.start 0x200000 false, l := RSeq.start 0x300000 false, det := true }),
    (2, { overStrand with uid := 2, ss := RSeq.start 0x400000 false })]
  dev := { (paged 0x21).dev with trcctl := 0x80000001, trcbase := Device.reset.trcbase.set 0 0x200000 } }

theorem witness_StopsDumpsAndBreakpoints_samples : traced.dev.trcctl.getLsbD 31 = true ∧ traced.dev.trcctl.toNat % 2 ^ 16 ≠ 0 ∧
    traced.dev.stopped = false ∧ (∀ p ∈ traced.strands, isStage traced p.2 = false) ∧
    ringBase traced .trace (bitsOf traced.dev.trcctl.toNat 16 4) ≠ 0 := by decide +kernel

/-- R379: the records of C and L of one strand and of S of the other. -/
theorem test_trace_records :
    let m := (after (exec .traceSample traced)).mem
    readNat m 0 8 = 3 ∧ readNat m 256 4 = 7 ∧ readNat m 280 8 = 0x200000 ∧ readNat m 288 4 = 0x107 ∧ readNat m 312 8 = 0x300000 ∧
    readNat m 320 4 = 0x10307 ∧ readNat m 328 8 = 2 ^ 63 ∧ readNat m 344 8 = 0x400000 := by decide +kernel

/-! ### The order of accesses -/

/-- R95, R301: an HCOUNT stands behind an earlier record of X that has yet to write its head's control row, and not behind one that
writes another row; R296: a vector record stands behind a KSTORE whose link is still to come. -/
theorem test_behind_chain :
    let st (e : Op) : Strand := { projected with ops := [e], xs := { projected.xs with seqno := 1 } }
    let vadd (off : Nat) (st : Strand) : Op :=
      formOp st .x (.vadd { rVec with d := { at_ 2 with off := BitVec.ofNat 34 off } }) ⟨true, BitVec.ofNat 64 slice, 0, 0⟩
    let count : Op := { formOp projected .x (.hcount rHcount) AtDecode.none with seqno := 2 }
    let stored : Op := { formOp projected .x (.kstore rKstore) AtDecode.none with num := 1, phase := .done }
    behindChain 0 (st (vadd 4096 projected)) count = true ∧ behindChain 0 (st (vadd 4224 projected)) count = false ∧
    behindChain 0 (st stored) (vadd 4224 (st stored)) = true ∧
    behindChain 0 (st { stored with phase := .complete }) (vadd 4224 (st stored)) = false := by decide +kernel

/-- R349: an operand chosen by an index may lie in its slice alone; the rows of the slot beyond it are no part of its footprint. -/
theorem test_slice_footprint :
    itemsMeet (.slices 0 1) (.rows (sliceKey 0 0x5FFF80 / 128) (sliceKey 0 0x600000 / 128)) = true ∧
    itemsMeet (.slices 0 1) (.rows (sliceKey 0 0x600000 / 128) (sliceKey 0 0x7FFF80 / 128)) = false ∧
    itemsMeet (.slices 0 1) (.rows (sliceKey 1 0 / 128) (sliceKey 1 0 / 128)) = false ∧ itemsMeet (.slices 0 16) (.slices 15 1) = true := by
  decide +kernel

/-- R343: a TLB entry keeps its number; of two that one cycle uses, the lower counts as used first. -/
theorem test_tlb_numbers :
    let e (p n : Nat) : TlbEntry := ⟨p, true, 7, n⟩
    tlbTouch 7 [] [e 0x200000 0] (e 0x400000 0) = [e 0x400000 1, e 0x200000 0] ∧
    tlbTouch 7 [] [e 0x400000 1, e 0x200000 0] (e 0x200000 0) = [e 0x200000 0, e 0x400000 1] ∧
    tlbTouch 7 [1] [e 0x400000 1, e 0x200000 0] (e 0x200000 0) = [e 0x400000 1, e 0x200000 0] := by decide +kernel

/-- R203: an index row on a host page is not taken for a row at the same address of a peer's page. -/
theorem test_far_rows : farRow [⟨none, 0, 5⟩, ⟨some 1, 0, 6⟩] (some 1) 0x10 = some 6 ∧ farRow [⟨none, 0, 5⟩] (some 1) 0x10 = none := by
  decide +kernel

/-- R215: DRAIN counts a TLD that has made its issues, and a KLD that has not begun it does not. -/
theorem test_drain_loads :
    let o (i : Instr) (p : Phase) : Op := { formOp strand0 .x i AtDecode.none with num := 1, phase := p }
    (o (.tld rTld) .done).drained = true ∧ (o (.kld rKld) .accepted).drained = false := by decide +kernel

end Sys2Proof.Tests
end

section
/-! PROOFS. The words of C that compute and branch (O4, O5, O8): what one word of each shape gives, the arithmetic of its
result, and its encoding. -/

namespace Sys2Proof.Machine

/-! ### The shapes of words -/

theorem gives_of_writeBack {i : Instr} {s : State} {st : Strand} {xd : Reg} {f : Strand → Word} {P : Word → Prop}
    (h : CRuns s st) (hi : exec i s = writeBack s xd f) (hP : P (f st)) : Gives i s st xd P :=
  ⟨f st, hi.trans (writeBack_eq h xd f), hP⟩

theorem gives_of_alu {i : Instr} {s : State} {st : Strand} {xd xa xb : Reg} {f : Word → Word → Word} {P : Word → Prop}
    (h : CRuns s st) (hi : exec i s = alu xd xa xb f s) (hP : P (f (st.rx xa) (st.rx xb))) : Gives i s st xd P :=
  gives_of_writeBack h hi hP

theorem gives_of_aluImm {i : Instr} {s : State} {st : Strand} {xd xa : Reg} {f : Word → Word} {P : Word → Prop}
    (h : CRuns s st) (hi : exec i s = aluImm xd xa f s) (hP : P (f (st.rx xa))) : Gives i s st xd P :=
  gives_of_writeBack h hi hP

/-! ### Results of the three-register words (R158) -/

theorem clamp64_toInt (i : Int) : (clamp64 i).toInt = max (-2 ^ 63) (min (2 ^ 63 - 1) i) :=
  BitVec.toInt_ofInt_eq_self (by decide) (by omega) (by omega)

theorem toInt_ofInt_mulHigh (a b : Word) :
    (BitVec.ofInt 64 (a.toInt * b.toInt / 2 ^ 64)).toInt = a.toInt * b.toInt / 2 ^ 64 := by
  have hle : a.toInt * b.toInt ≤ 2 ^ 126 := BitVec.toInt_mul_toInt_le
  have hge : -2 ^ 126 ≤ a.toInt * b.toInt := BitVec.le_toInt_mul_toInt
  exact BitVec.toInt_ofInt_eq_self (by decide) (by omega) (by omega)

theorem toNat_ofNat_mulHigh (a b : Word) :
    (BitVec.ofNat 64 (a.toNat * b.toNat / 2 ^ 64)).toNat = a.toNat * b.toNat / 2 ^ 64 := by
  have hlt : a.toNat * b.toNat / 2 ^ 64 < 2 ^ 64 :=
    Nat.div_lt_of_lt_mul (Nat.mul_lt_mul_of_lt_of_lt a.isLt b.isLt)
  rw [BitVec.toNat_ofNat, Nat.mod_eq_of_lt hlt]

theorem toNat_shiftLeft_eq_mul (a : Word) (n : Nat) : (a <<< n).toNat = a.toNat * 2 ^ n % 2 ^ 64 := by
  rw [BitVec.toNat_shiftLeft, Nat.shiftLeft_eq]

theorem toNat_shiftRight_eq_div (a : Word) (n : Nat) : (a >>> n).toNat = a.toNat / 2 ^ n := by
  rw [BitVec.toNat_ushiftRight, Nat.shiftRight_eq_div_pow]

theorem toInt_sshiftRight_eq_div (a : Word) (n : Nat) : (a.sshiftRight n).toInt = a.toInt / 2 ^ n := by
  rw [BitVec.toInt_sshiftRight, Int.shiftRight_eq_div_pow]
  norm_cast

/-- A choice by signed order takes the signed minimum or maximum. -/
theorem toInt_ite_slt (a b : Word) :
    (if a.slt b then a else b).toInt = min a.toInt b.toInt ∧ (if a.slt b then b else a).toInt = max a.toInt b.toInt := by
  rw [BitVec.slt_eq_decide]
  by_cases h : a.toInt < b.toInt <;> simp [h] <;> omega

theorem toNat_ite_ult (a b : Word) :
    (if a.ult b then a else b).toNat = min a.toNat b.toNat ∧ (if a.ult b then b else a).toNat = max a.toNat b.toNat := by
  rw [BitVec.ult_eq_decide]
  by_cases h : a.toNat < b.toNat <;> simp [h] <;> omega

theorem boolWord_slt (a b : Word) : boolWord (a.slt b) = if a.toInt < b.toInt then 1 else 0 := by
  simp [boolWord, BitVec.slt_eq_decide]

theorem boolWord_ult (a b : Word) : boolWord (a.ult b) = if a.toNat < b.toNat then 1 else 0 := by
  simp [boolWord, BitVec.ult_eq_decide]

/-! ### Division (R159) -/

theorem divWord_of_ne_zero {a b : Word} (hb : b ≠ 0) : divWord a b = a.sdiv b := by
  apply BitVec.eq_of_toInt_eq
  rw [divWord, if_neg hb, BitVec.toInt_ofInt, BitVec.toInt_sdiv]

theorem remWord_of_ne_zero {a b : Word} (hb : b ≠ 0) : remWord a b = a.srem b := by
  rw [remWord, if_neg hb, ← BitVec.toInt_srem, BitVec.ofInt_toInt]

theorem divuWord_of_ne_zero {a b : Word} (hb : b ≠ 0) : divuWord a b = a / b := by
  rw [divuWord, if_neg hb, ← BitVec.toNat_udiv, BitVec.ofNat_toNat, BitVec.setWidth_eq]

theorem remuWord_of_ne_zero {a b : Word} (hb : b ≠ 0) : remuWord a b = a % b := by
  rw [remuWord, if_neg hb, ← BitVec.toNat_umod, BitVec.ofNat_toNat, BitVec.setWidth_eq]

/-- The one quotient that 64 bits do not hold wraps to the dividend, with remainder 0. -/
theorem division_overflow {a b : Word} (h : a.toInt = -2 ^ 63 ∧ b.toInt = -1) :
    (a.sdiv b).toInt = -2 ^ 63 ∧ a.srem b = 0 := by
  obtain ⟨ha, hb⟩ := h
  constructor
  · rw [BitVec.toInt_sdiv, ha, hb]
    decide
  · apply BitVec.eq_of_toInt_eq
    rw [BitVec.toInt_srem, ha, hb]
    decide

theorem toInt_sdiv_of_no_overflow {a b : Word} (h : ¬(a.toInt = -2 ^ 63 ∧ b.toInt = -1)) :
    (a.sdiv b).toInt = a.toInt.tdiv b.toInt := by
  apply BitVec.toInt_sdiv_of_ne_or_ne
  by_cases ha : a.toInt = -2 ^ 63
  · exact .inr fun e => h ⟨ha, e ▸ by decide⟩
  · exact .inl fun e => ha (e ▸ by decide)

/-! ### Results of the immediate words (R160) -/

theorem add_signExtend_eq_ofInt (a : Word) (imm : BitVec 32) :
    a + imm.signExtend 64 = BitVec.ofInt 64 (a.toInt + imm.toInt) := by
  rw [BitVec.ofInt_add, BitVec.ofInt_toInt, BitVec.signExtend]

/-- A bit of a sign-extended immediate. -/
theorem getLsbD_signExtend_imm (imm : BitVec 32) {k : Nat} (hk : k < 64) :
    (imm.signExtend 64).getLsbD k = if k < 32 then imm.getLsbD k else imm.msb := by
  rw [BitVec.getLsbD_signExtend, decide_eq_true hk, Bool.true_and]

theorem toInt_signExtend_imm (imm : BitVec 32) : (imm.signExtend 64).toInt = imm.toInt :=
  BitVec.toInt_signExtend_of_le (by decide)

theorem toNat_append_lowHalf (imm : BitVec 32) (a : Word) :
    (imm ++ a.extractLsb' 0 32).toNat = imm.toNat * 2 ^ 32 + a.toNat % 2 ^ 32 := by
  have hlt : a.toNat % 2 ^ 32 < 2 ^ 32 := Nat.mod_lt _ (by decide)
  rw [BitVec.toNat_append, BitVec.extractLsb'_toNat, Nat.shiftRight_zero,
    ← Nat.shiftLeft_add_eq_or_of_lt hlt, Nat.shiftLeft_eq]

/-! ### Forms with fields of zero (R124) -/

/-- Two fields of zero are one field of zero. -/
theorem toNat_append_zeros {m : Nat} (x : BitVec m) (a b : Nat) : (x ++ 0#a ++ 0#b).toNat = (x ++ 0#(a + b)).toNat := by
  simp [BitVec.toNat_append, Nat.shiftLeft_add]

/-- A zero-extended shift amount is a field of zero above the amount. -/
theorem toNat_append_zeroExtend {m : Nat} (x : BitVec m) (sh : BitVec 6) :
    (x ++ sh.zeroExtend 32).toNat = (x ++ 0#26 ++ sh).toNat := by
  have hsh : sh.toNat % 4294967296 = sh.toNat := Nat.mod_eq_of_lt (by omega)
  simp [BitVec.toNat_append, ← Nat.shiftLeft_add, hsh]

theorem append_zero_zero {m : Nat} (x : BitVec m) : (x ++ 0#6 ++ 0#6 : BitVec (m + 12)) = x ++ 0#12 :=
  BitVec.eq_of_toNat_eq (toNat_append_zeros x 6 6)

theorem append_zero_zero_zero {m : Nat} (x : BitVec m) : (x ++ 0#6 ++ 0#6 ++ 0#6 : BitVec (m + 18)) = x ++ 0#18 :=
  (congrArg (· ++ 0#6) (append_zero_zero x)).trans (BitVec.eq_of_toNat_eq (toNat_append_zeros x 12 6))

theorem encFI_xc_sel_zero (opc : BitVec 8) (xd xa : Reg) (imm : BitVec 32) :
    encFI opc xd xa 0 0 imm = opc ++ xd ++ xa ++ 0#12 ++ imm :=
  congrArg (· ++ imm) (append_zero_zero (opc ++ xd ++ xa))

theorem encFI_shift (opc : BitVec 8) (xd xa : Reg) (sh : BitVec 6) :
    encFI opc xd xa 0 0 (sh.zeroExtend 32) = opc ++ xd ++ xa ++ 0#12 ++ 0#26 ++ sh :=
  (encFI_xc_sel_zero opc xd xa _).trans (BitVec.eq_of_toNat_eq (toNat_append_zeroExtend (opc ++ xd ++ xa ++ 0#12) sh))

theorem encFI_xa_xc_sel_zero (opc : BitVec 8) (xd : Reg) (imm : BitVec 32) :
    encFI opc xd 0 0 0 imm = opc ++ xd ++ 0#18 ++ imm :=
  congrArg (· ++ imm) (append_zero_zero_zero (opc ++ xd))

theorem encFB_offset_only (opc : BitVec 8) (off : BitVec 38) : encFB opc 0 0 0 off = opc ++ 0#18 ++ off :=
  congrArg (· ++ off) (append_zero_zero_zero opc)

theorem encFB_xa_xb_zero (opc : BitVec 8) (xd : Reg) (off : BitVec 38) :
    encFB opc xd 0 0 off = opc ++ xd ++ 0#12 ++ off :=
  congrArg (· ++ off) (append_zero_zero (opc ++ xd))

theorem encF3_xb_zero (opc : BitVec 8) (xd xa : Reg) : encF3 opc xd xa 0 = opc ++ xd ++ xa ++ 0#44 :=
  BitVec.eq_of_toNat_eq (toNat_append_zeros (opc ++ xd ++ xa) 6 38)

/-! ### Where branches go (R163, R164) -/

theorem branchTarget_eq_ofInt (pc : Word) (off : BitVec 38) :
    branchTarget pc off = BitVec.ofInt 64 (pc.toNat + 8 * off.toInt) := by
  rw [branchTarget, BitVec.signExtend, BitVec.ofInt_add, BitVec.ofInt_mul, BitVec.ofInt_natCast, BitVec.ofNat_toNat,
    BitVec.setWidth_eq, BitVec.mul_comm]
  rfl

theorem CSeq.mem_targets_pass (c : CSeq) (target t : Word) :
    t ∈ (c.pass target).targets ↔ t = target ∨ t ∈ c.targets := by
  by_cases h : target ∈ c.targets
  · have : (c.pass target).targets = c.targets := by simp [CSeq.pass, h]
    rw [this]
    exact ⟨.inr, fun ht => ht.elim (fun e => e ▸ h) id⟩
  · have : (c.pass target).targets = c.targets ++ [target] := by simp [CSeq.pass, h]
    rw [this, List.mem_append, List.mem_singleton, or_comm]

theorem lands_of_cJump {i : Instr} {s : State} {st : Strand} {t : Word} (h : CRuns s st)
    (hi : exec i s = .next (s.withStrand (st.cJump t))) : Lands i s st t := by
  obtain ⟨_, _, _, hended⟩ := h
  exact ⟨st.cJump t, hi, rfl, rfl, rfl, rfl, hended⟩

theorem lands_of_cPass {i : Instr} {s : State} {st : Strand} {t : Word} (h : CRuns s st)
    (hi : exec i s = .next (s.withStrand (st.cPass t))) : Lands i s st (st.c.pc + 8) := by
  obtain ⟨_, _, _, hended⟩ := h
  exact ⟨st.cPass t, hi, rfl, rfl, rfl, rfl, hended⟩

theorem exec_jmp_eq {s : State} {st : Strand} (h : CRuns s st) (off : BitVec 38) :
    exec (.jmp off) s = .next (s.withStrand (st.cJump (branchTarget st.c.pc off))) := onStrand_eq h _

theorem exec_call_eq {s : State} {st : Strand} (h : CRuns s st) (xd : Reg) (off : BitVec 38) :
    exec (.call xd off) s = .next (s.withStrand ((st.wx xd (st.c.pc + 8)).cJump (branchTarget st.c.pc off))) :=
  onStrand_eq h _

/-- JR's target is read before its link is written (R164). -/
theorem exec_jr_eq {s : State} {st : Strand} (h : CRuns s st) (xd xa : Reg) :
    exec (.jr xd xa) s = .next (s.withStrand ((st.wx xd (st.c.pc + 8)).cJump (st.rx xa &&& ~~~7#64))) :=
  onStrand_eq h _

/-- A conditional branch whose test decides the condition. -/
theorem branches_of_branch {i : Instr} {s : State} {st : Strand} {xa xb : Reg} {off : BitVec 38}
    {taken : Word → Word → Bool} {c : Prop} (h : CRuns s st) (hi : exec i s = branch xa xb off taken s)
    (hc : taken (st.rx xa) (st.rx xb) = true ↔ c) :
    Branches i s st (BitVec.ofInt 64 (st.c.pc.toNat + 8 * off.toInt)) c := by
  rw [← branchTarget_eq_ofInt]
  rw [branch, onStrand_eq h] at hi
  constructor
  · intro hyes
    rw [if_pos (hc.mpr hyes)] at hi
    exact lands_of_cJump h hi
  · intro hno
    rw [if_neg (mt hc.mp hno)] at hi
    exact ⟨lands_of_cPass h hi, _, hi, st.c.mem_targets_pass _⟩

theorem sameButReg_wx_cJump (st : Strand) (xd : Reg) (v t : Word) : SameButReg xd st ((st.wx xd v).cJump t) := by
  constructor
  · unfold Strand.wx
    split <;> rfl
  · intro r hr
    exact st.rx_wx_of_ne v hr

/-- A word that writes a link and goes elsewhere. -/
theorem links_of_cJump {i : Instr} {s : State} {st : Strand} {xd : Reg} {v t : Word}
    (hi : exec i s = .next (s.withStrand ((st.wx xd v).cJump t))) :
    ∃ st', exec i s = .next (s.withStrand st') ∧ SameButReg xd st st' ∧ (xd ≠ 0 → st'.rx xd = v) ∧ st'.rx 0 = 0 ∧
      st'.c.seqno = st.c.seqno + 1 ∧ st'.c.pc = t :=
  ⟨_, hi, sameButReg_wx_cJump st xd v t, st.rx_wx_self v, Strand.rx_zero _, by simp, rfl⟩

/-- Bits 2:0 cleared (R164). -/
theorem toNat_and_not_seven (a : Word) : (a &&& ~~~7#64).toNat = a.toNat / 8 * 8 := by
  have hshift : a &&& ~~~7#64 = a >>> 3 <<< 3 := by
    apply BitVec.eq_of_getLsbD_eq
    intro k hk
    have hseven : Nat.testBit 7 k = decide (k < 3) := Nat.testBit_two_pow_sub_one 3 k
    rw [BitVec.getLsbD_and, BitVec.getLsbD_not, BitVec.getLsbD_ofNat, hseven, BitVec.getLsbD_shiftLeft,
      BitVec.getLsbD_ushiftRight]
    by_cases h3 : k < 3
    · simp [h3]
    · simp [h3, hk, Nat.add_sub_cancel' (Nat.le_of_not_lt h3)]
  have hlt : a.toNat / 8 * 8 < 2 ^ 64 := by omega
  rw [hshift, toNat_shiftLeft_eq_mul, toNat_shiftRight_eq_div, show (2 : Nat) ^ 3 = 8 from rfl, Nat.mod_eq_of_lt hlt]

/-! ### The statements -/

/-- Settles O4: each word is one `alu`, its result one of the equations above. -/
theorem threeRegisterWordsCompute : Obligations.ThreeRegisterWordsCompute := by
  unfold Obligations.ThreeRegisterWordsCompute
  refine ⟨fun s st xd xa xb h => ?_, fun s st xd xa xb h => ⟨fun hb => ?_, fun hb => ?_⟩⟩
  · intro a b n
    refine ⟨?encodings, gives_of_alu h (exec_add ..) ?_, gives_of_alu h (exec_sub ..) ?_,
      gives_of_alu h (exec_adds ..) (clamp64_toInt _), gives_of_alu h (exec_subs ..) (clamp64_toInt _),
      gives_of_alu h (exec_mul ..) (BitVec.toNat_mul ..), gives_of_alu h (exec_mulh ..) (toInt_ofInt_mulHigh a b),
      gives_of_alu h (exec_mulhu ..) (toNat_ofNat_mulHigh a b), gives_of_alu h (exec_and ..) fun k => BitVec.getLsbD_and ..,
      gives_of_alu h (exec_or ..) fun k => BitVec.getLsbD_or .., gives_of_alu h (exec_xor ..) fun k => BitVec.getLsbD_xor ..,
      gives_of_alu h (exec_sll ..) (toNat_shiftLeft_eq_mul a n), gives_of_alu h (exec_srl ..) (toNat_shiftRight_eq_div a n),
      gives_of_alu h (exec_sra ..) (toInt_sshiftRight_eq_div a n), gives_of_alu h (exec_min ..) (toInt_ite_slt a b).1,
      gives_of_alu h (exec_max ..) (toInt_ite_slt a b).2, gives_of_alu h (exec_minu ..) (toNat_ite_ult a b).1,
      gives_of_alu h (exec_maxu ..) (toNat_ite_ult a b).2, gives_of_alu h (exec_slt ..) (boolWord_slt a b),
      gives_of_alu h (exec_sltu ..) (boolWord_ult a b)⟩
    case encodings =>
      simp only [List.forall_mem_cons, List.not_mem_nil, false_implies, implies_true, and_true]
      and_intros <;> rfl
    · exact BitVec.toNat_add a b
    · rw [BitVec.toNat_sub, Nat.add_comm]
  · exact ⟨gives_of_alu h (exec_div ..) (if_pos hb), gives_of_alu h (exec_divu ..) (if_pos hb),
      gives_of_alu h (exec_rem ..) (if_pos hb), gives_of_alu h (exec_remu ..) (if_pos hb)⟩
  · refine ⟨gives_of_alu h (exec_divu ..) ?_, gives_of_alu h (exec_remu ..) ?_, fun hover => ?overflow, fun hno => ?exact⟩
    · rw [divuWord_of_ne_zero hb, BitVec.toNat_udiv]
    · rw [remuWord_of_ne_zero hb, BitVec.toNat_umod]
    case overflow =>
      obtain ⟨hquot, hrem⟩ := division_overflow hover
      exact ⟨gives_of_alu h (exec_div ..) (by rw [divWord_of_ne_zero hb, hquot]),
        gives_of_alu h (exec_rem ..) (by rw [remWord_of_ne_zero hb, hrem])⟩
    case exact =>
      exact ⟨gives_of_alu h (exec_div ..) (by rw [divWord_of_ne_zero hb, toInt_sdiv_of_no_overflow hno]),
        gives_of_alu h (exec_rem ..) (by rw [remWord_of_ne_zero hb, BitVec.toInt_srem])⟩

/-- Settles O5: each word is one `aluImm` of the immediate, sign-extended but for MOVHI. -/
theorem immediateWordsCompute : Obligations.ImmediateWordsCompute := by
  unfold Obligations.ImmediateWordsCompute
  intro s st xd xa imm sh h a bit
  have hbit : ∀ k, k < 64 → (imm.signExtend 64).getLsbD k = bit k := fun k => getLsbD_signExtend_imm imm
  refine ⟨?encodings, ?shiftEncodings, congrArg some (encFI_xa_xc_sel_zero 0x28 xd imm),
    gives_of_aluImm h (exec_addi ..) (add_signExtend_eq_ofInt a imm), gives_of_aluImm h (exec_andi ..) fun k hk => ?_,
    gives_of_aluImm h (exec_ori ..) fun k hk => ?_, gives_of_aluImm h (exec_xori ..) fun k hk => ?_,
    gives_of_aluImm h (exec_slli ..) (toNat_shiftLeft_eq_mul a _), gives_of_aluImm h (exec_srli ..) (toNat_shiftRight_eq_div a _),
    gives_of_aluImm h (exec_srai ..) (toInt_sshiftRight_eq_div a _), gives_of_aluImm h (exec_slti ..) ?_,
    gives_of_writeBack h (exec_movi ..) (toInt_signExtend_imm imm), gives_of_aluImm h (exec_movhi ..) (toNat_append_lowHalf imm a)⟩
  case encodings =>
    simp only [List.forall_mem_cons, List.not_mem_nil, false_implies, implies_true, and_true]
    and_intros <;> exact congrArg some (encFI_xc_sel_zero _ xd xa imm)
  case shiftEncodings =>
    simp only [List.forall_mem_cons, List.not_mem_nil, false_implies, implies_true, and_true]
    and_intros <;> exact congrArg some (encFI_shift _ xd xa sh)
  · rw [BitVec.getLsbD_and, hbit k hk]
  · rw [BitVec.getLsbD_or, hbit k hk]
  · rw [BitVec.getLsbD_xor, hbit k hk]
  · rw [boolWord_slt, toInt_signExtend_imm]

/-- Settles O8: each conditional branch is one `branch` whose test decides its condition; JMP, CALL and JR are jumps. -/
theorem branchesGoWhereTheyShould : Obligations.BranchesGoWhereTheyShould := by
  unfold Obligations.BranchesGoWhereTheyShould
  refine ⟨fun s st xa xb off h => ?_, fun s st xd xa off h => ?_⟩
  · intro a b target
    refine ⟨?encodings, congrArg some (encFB_offset_only 0x46 off), branches_of_branch h (exec_beq ..) beq_iff_eq,
      branches_of_branch h (exec_bne ..) bne_iff_ne, branches_of_branch h (exec_blt ..) BitVec.slt_iff_toInt_lt,
      branches_of_branch h (exec_bge ..) ?_, branches_of_branch h (exec_bltu ..) BitVec.ult_iff_lt,
      branches_of_branch h (exec_bgeu ..) ?_, ?jmp⟩
    case encodings =>
      simp only [List.forall_mem_cons, List.not_mem_nil, false_implies, implies_true, and_true]
      and_intros <;> rfl
    · simp [BitVec.slt_eq_decide, a, b]
    · simp [BitVec.ult_eq_decide, a, b]
    case jmp =>
      have hjump := lands_of_cJump h (exec_jmp_eq h off)
      rwa [branchTarget_eq_ofInt] at hjump
  · refine ⟨congrArg some (encFB_xa_xb_zero 0x47 xd off), congrArg some (encF3_xb_zero 0x48 xd xa), ?call, ?jr⟩
    case call =>
      rw [← branchTarget_eq_ofInt]
      exact links_of_cJump (exec_call_eq h xd off)
    case jr =>
      obtain ⟨st', hst', hsame, hlink, hzero, hseq, hpc⟩ := links_of_cJump (exec_jr_eq h xd xa)
      exact ⟨st', hst', hsame, hlink, hzero, hseq, hpc ▸ toNat_and_not_seven (st.rx xa)⟩

end Sys2Proof.Machine
end
